-- ==== Sys2Proof/Word.lean ====
section
/-! DEFINITION. The byte: the unit of a frame, an image, a record slot, a command and an answer. -/

namespace Sys2Proof

/-- One byte of the cluster line, the configuration image, the record area or the management port. -/
abbrev Byte := BitVec 8

end Sys2Proof
end

