-- ==== Sys2Proof/Syntax.lean ====
section
/-! DEFINITION. The commands: one constructor of `Instr` per row of spec/opcode_table.json. An operand is what the
world outside the part supplies with the event: the bytes on a wire, the position of an edge within its tick, the
arguments of a host command, what the cells of the record area hold after an operation. -/

namespace Sys2Proof

/-- The fifteen alarm kinds, in the order of their codes 0 to 14 (10, section 10.1). -/
inductive Kind where
  | refLoss | refMisplaced | noContributor | holdEntered | holdBudget | peerSuspect | peerLink | lineCongestion
  | lineErrors | tableFull | freqClamp | phaseStep | historyFault | permitLost | addressClash
  deriving DecidableEq, Repr

/-- The three pins whose pulses end by a count of ticks (R173, R174). -/
inductive PulsePin where
  | pps | frame | frame0
  deriving DecidableEq, Repr

/-- What the RESET pin, which is active low, does: a whole pulse; or only its fall, from which the pin is held asserted; or
only its rise, which releases it (R211, R213; log 4). `left` is what the cells hold after an operation cut short (R166). -/
inductive PinReset where
  | pulse (left : List Byte)
  | falls (left : List Byte)
  | rises
  deriving DecidableEq, Repr

/-- The two frequency outputs (R175). -/
inductive FoutPin where
  | fout0 | fout1
  deriving DecidableEq, Repr

/-- A rising edge at the reference input: its position within the tick period in 1/128 (R9), and whether it was captured
before the step applied since the most recent tick and is handled after it (R92; log 46). -/
structure Edge where
  q : BitVec 7
  late : Bool
  deriving DecidableEq, Repr

/-- What the line's receiver has before it as it recognises a start delimiter: the bits recovered since it began to look,
up to the delimiter's last, and the position of the start of the delimiter's cell within the tick period in 1/128 (R31,
R20, R9; logs 14 and 54). -/
structure Delimiter where
  bits : List Bool
  q : BitVec 7
  deriving DecidableEq, Repr

/-- The steps of the part and the commands it takes. `q` is a position within a tick period in 1/128 (R9). In a
host command `early` says that select fell before the configuration load completed (R214), and `args` are the whole
bytes after the code. In the events that end or cut short an operation of the record area, byte i of `left` says what
the cells made of byte i; a byte not listed is as the operation intends it (or, where it is cut short, untouched). At the
line's receiver `bytes` are those collected after the delimiter, `whole` unless a partial byte ended them, and none where
RECEPTION_OVERLONG is given none (R31, R32; log 54). -/
inductive Instr where
  | powerOn
  | pinReset (pin : PinReset)
  | tick
  | epoch
  | minuteBoundary
  | beaconIntervalBoundary
  | step
  | combineCompletion
  | carrierPresent
  | carrierAbsent (bytes : List Byte) (whole : Bool)
  | receptionOverlong (bytes : List Byte := [])
  | rxCapture (found : Delimiter)
  | nextInstantReached
  | lineIdle
  | txCapture (q : BitVec 7)
  | collisionDetected
  | jamEnd
  | backoffEnd
  | transmissionComplete
  | stuckTimerExpiry
  | configLoadComplete (image : List Byte)
  | startScanComplete
  | refMessage (bytes : List Byte)
  | messageCollectionTimeout
  | pendingMessageExpiry
  | refEdge (edge : Edge)
  | windowGiveUp
  | lossDeadlineExpiry
  | programEnd (left : List Byte)
  | eraseEnd (left : List Byte)
  | ppsPulseTime
  | frameBoundary
  | foutEdge (pin : FoutPin)
  | pulseEnd (pin : PulsePin)
  | escalationTimerExpiry (kind : Kind)
  | readStatus (early : Bool) (args : List Byte)
  | readPeer (early : Bool) (args : List Byte)
  | readAlarm (early : Bool) (args : List Byte)
  | ackAlarm (early : Bool) (args : List Byte)
  | ackAll (early : Bool)
  | lockoutPeer (early : Bool) (args : List Byte)
  | releasePeer (early : Bool) (args : List Byte)
  | forceHold (early : Bool) (args : List Byte)
  | releaseHold (early : Bool) (args : List Byte)
  | setOffset (early : Bool) (args : List Byte)
  | restart (early : Bool) (args : List Byte)
  | readHistory (early : Bool) (args : List Byte)
  | badCommand (early : Bool) (code : Byte) (args : List Byte)
  | responseRead (clocked : Nat)
  | responseReady
  | powerLoss (left : List Byte)
  | messageByteStopBitLow
  deriving DecidableEq, Repr

end Sys2Proof
end

