-- ==== Sys2Proof/Decode.lean ====
section
/-! DEFINITION. The commands as words. spec/opcode_table.json gives no row any bits ("fields": [] in every row, and no
match or mask): a command is an event, not a word, so no word spells one. What the spec does encode is the bytes of a
transaction of the SPI target (R214) and the levels of the host's wires that carry them (R213), read here. -/

namespace Sys2Proof

/-- The command that the low `nbits` bits of `w` spell by the table's bits: none, since no row of the table has bits. -/
def decodeTableWord (_nbits _w : Nat) : Option Instr := none

/-- The command of a transaction of the SPI target, from the whole bytes received in it (R214): the first byte is the
code and the others are its arguments; a code of 00 is a response read, 01 to 0B hexadecimal are the commands in their
order, and one above is answered BAD_COMMAND; without a whole byte there is none. `early` says that select fell before
the configuration load completed. -/
def transaction (early : Bool) : List Byte → Option Instr
  | [] => none
  | code :: args => some <|
    match code.toNat with
    | 0x00 => .responseRead args.length
    | 0x01 => .readStatus early args
    | 0x02 => .readPeer early args
    | 0x03 => .readAlarm early args
    | 0x04 => .ackAlarm early args
    | 0x05 => .lockoutPeer early args
    | 0x06 => .releasePeer early args
    | 0x07 => .forceHold early args
    | 0x08 => .releaseHold early args
    | 0x09 => .setOffset early args
    | 0x0A => .restart early args
    | 0x0B => .readHistory early args
    | _ => .badCommand early code args

/-! ### The wires of the host interface (R213; log 22) -/

/-- The levels of the host's wires at one instant: select, clock and data in of the SPI target, and the RESET pin; true is
high (R213). -/
structure SpiWires where
  select : Bool
  clock : Bool
  dataIn : Bool
  reset : Bool
  deriving DecidableEq, Repr

/-- The bits the SPI target samples from the levels as they follow one another: data in at every rising edge of the clock
while select, which is active low, is low (R213, clock mode 0); `clock` is the clock's level before them. -/
def spiSampled (clock : Bool) : List SpiWires → List Bool
  | [] => []
  | w :: ws =>
    let later := spiSampled w.clock ws
    if !w.select && !clock && w.clock then w.dataIn :: later else later

/-- A low level of the RESET pin, which is active low, cuts short the transaction these levels begin: it comes before
select rises (R211, R213). -/
def spiCutShort : List SpiWires → Bool
  | [] => false
  | w :: ws => !w.select && (!w.reset || spiCutShort ws)

/-- The value of bits, most significant first. -/
def bitsValue (bits : List Bool) : Nat := bits.foldl (fun v b => 2 * v + b.toNat) 0

/-- The whole bytes of sampled bits, each most significant bit first (R213); a group left incomplete is discarded
(R214). -/
def spiBytes : List Bool → List Byte
  | b7 :: b6 :: b5 :: b4 :: b3 :: b2 :: b1 :: b0 :: rest =>
    BitVec.ofNat 8 (bitsValue [b7, b6, b5, b4, b3, b2, b1, b0]) :: spiBytes rest
  | _ => []

/-- The command of a transaction, from the levels of the wires between the fall of select and its rise; the clock rests
low in clock mode 0 (PRESUMED, log 56; R213, R214). There is none where a low level of RESET cuts the transaction short,
and what select goes on carrying until it rises belongs to no other, since a transaction begins where select falls (R211,
R214). -/
def wireTransaction (early : Bool) (levels : List SpiWires) : Option Instr :=
  if spiCutShort levels then none else transaction early (spiBytes (spiSampled false levels))

/-- The bits data out carries for bytes, each most significant bit first (R213). -/
def spiDataOut (bytes : List Byte) : List Bool := bytes.flatMap fun b => (List.range 8).map fun i => b.getLsbD (7 - i)

/-- The level of data out at each instant, as the host's wires take these levels and data out carries these bits: the first
bit stands from the fall of select (PRESUMED, log 56), and data out changes to the next at each falling edge of the clock
while select is low (R213). None where RESET is low, and from there on, since it is not driven there and the transaction is
cut short (R211); and none where select is high or the bits are spent: no rule gives a level there (log 22). `clock` is the
clock's level before them. -/
def spiDataOutLevels (clock : Bool) (bits : List Bool) : List SpiWires → List (Option Bool)
  | [] => []
  | w :: ws =>
    let now := if !w.reset then [] else if !w.select && clock && !w.clock then bits.tail else bits
    (if w.select then none else now.head?) :: spiDataOutLevels w.clock now ws

/-- What PIN_RESET is given, in order, as the RESET pin takes these levels one after the other: its fall where the pin goes
low, from which it is held asserted, and its rise where it goes high (R211, R213). `level` is the pin's level before them,
`left` what the cells hold after an operation a fall cuts short. -/
def resetEdges (left : List Byte) (level : Bool) : List Bool → List PinReset
  | [] => []
  | l :: ls =>
    let later := resetEdges left l ls
    if level && !l then .falls left :: later else if !level && l then .rises :: later else later

end Sys2Proof
end

