-- ==== Sys2Proof/Config.lean ====
section
/-! DEFINITION. The free values of the model: constants with no body, so that no proof can lean on what they are. -/

namespace Sys2Proof

/-- The random generator of the line controller (R23): the number it gives at its `index`-th draw since its
`seeding`-th seeding, with the station address `address` mixed in. FREE VALUE, log 7: the noise source is physical,
so nothing is known of the number; a rule's range is put on it where it is drawn. -/
opaque Config.noise (seeding address index : Nat) : Nat

/-- Whether, at the `index`-th open order, what is ordered against a completion's publication comes before it: a report,
the write-back, or the step ordered (R107, R184, R124: either may come first). FREE VALUE, log 8 and log 47. -/
opaque Config.reportsFirst (index : Nat) : Bool

end Sys2Proof
end

