-- ==== Sys2Proof/Machine/State.lean ====
section
/-! DEFINITION. The state of the KD-6210, block by block (00, section 2), as plain data, and its value at release of a
power-on reset. Times of station time are single counts of 2^-32 ns unless the docstring says otherwise. -/

namespace Sys2Proof.Machine

/-- The stops of the model: the part has none. No rule of the spec stops the machine on a fault: bad values are
clamped, refused with a response code, discarded or counted (00, section 4.6). Safe: there is nothing to raise. -/
inductive Fault where
  deriving DecidableEq, Repr

/-- The refusals of the model. -/
inductive Refusal where
  /-- Raised by `exec`'s arm of a command that has no meaning yet; no arm is one. Safe: nothing is claimed of it. -/
  | notModelled (mnemonic : String)
  deriving DecidableEq, Repr

/-! ### Things kept per alarm kind -/

/-- One value per alarm kind, in its fixed place (R192). -/
structure PerKind (α : Type) where
  refLoss : α
  refMisplaced : α
  noContributor : α
  holdEntered : α
  holdBudget : α
  peerSuspect : α
  peerLink : α
  lineCongestion : α
  lineErrors : α
  tableFull : α
  freqClamp : α
  phaseStep : α
  historyFault : α
  permitLost : α
  addressClash : α
  deriving DecidableEq, Repr

/-- The value of one kind. -/
def PerKind.get {α : Type} (p : PerKind α) : Kind → α
  | .refLoss => p.refLoss
  | .refMisplaced => p.refMisplaced
  | .noContributor => p.noContributor
  | .holdEntered => p.holdEntered
  | .holdBudget => p.holdBudget
  | .peerSuspect => p.peerSuspect
  | .peerLink => p.peerLink
  | .lineCongestion => p.lineCongestion
  | .lineErrors => p.lineErrors
  | .tableFull => p.tableFull
  | .freqClamp => p.freqClamp
  | .phaseStep => p.phaseStep
  | .historyFault => p.historyFault
  | .permitLost => p.permitLost
  | .addressClash => p.addressClash

/-- One kind's value replaced. -/
def PerKind.set {α : Type} (p : PerKind α) (k : Kind) (a : α) : PerKind α :=
  match k with
  | .refLoss => { p with refLoss := a }
  | .refMisplaced => { p with refMisplaced := a }
  | .noContributor => { p with noContributor := a }
  | .holdEntered => { p with holdEntered := a }
  | .holdBudget => { p with holdBudget := a }
  | .peerSuspect => { p with peerSuspect := a }
  | .peerLink => { p with peerLink := a }
  | .lineCongestion => { p with lineCongestion := a }
  | .lineErrors => { p with lineErrors := a }
  | .tableFull => { p with tableFull := a }
  | .freqClamp => { p with freqClamp := a }
  | .phaseStep => { p with phaseStep := a }
  | .historyFault => { p with historyFault := a }
  | .permitLost => { p with permitLost := a }
  | .addressClash => { p with addressClash := a }

/-- The value each kind has under `f`. -/
def PerKind.ofFn {α : Type} (f : Kind → α) : PerKind α where
  refLoss := f .refLoss
  refMisplaced := f .refMisplaced
  noContributor := f .noContributor
  holdEntered := f .holdEntered
  holdBudget := f .holdBudget
  peerSuspect := f .peerSuspect
  peerLink := f .peerLink
  lineCongestion := f .lineCongestion
  lineErrors := f .lineErrors
  tableFull := f .tableFull
  freqClamp := f .freqClamp
  phaseStep := f .phaseStep
  historyFault := f .historyFault
  permitLost := f .permitLost
  addressClash := f .addressClash

/-- The kinds in the order of their codes 0 to 14. -/
def kinds : List Kind :=
  [.refLoss, .refMisplaced, .noContributor, .holdEntered, .holdBudget, .peerSuspect, .peerLink, .lineCongestion,
   .lineErrors, .tableFull, .freqClamp, .phaseStep, .historyFault, .permitLost, .addressClash]

/-! ### Small shared types -/

/-- The discipline states (07), coded 0 to 4 in a beacon (02, section 2.1). -/
inductive DState where
  | free | acquire | track | hold | lapsed
  deriving DecidableEq, Repr

/-- Traceability, coded 0 to 2 (02, section 2.1). -/
inductive Trac where
  | none | held | traceable
  deriving DecidableEq, Repr

/-- Seconds and nanoseconds: a time as the alarm table and the peer table keep it. -/
structure SecNs where
  sec : Nat
  ns : Nat
  deriving DecidableEq, Repr

/-- A timestamp: seconds and a subsecond part in 1/16 ns (01, section 1.4). -/
structure Stamp where
  sec : Nat
  sub : Nat
  deriving DecidableEq, Repr

/-- The beacon interval B (00, section 4.1). -/
inductive Interval where
  | ms125 | ms250 | ms500
  deriving DecidableEq, Repr

/-! ### Settings -/

/-- The class of an alarm kind (R194). -/
inductive Class where
  | standing | urgent | notice
  deriving DecidableEq, Repr

/-- The squelch policies (09, section 9.4). -/
inductive Policy where
  | always | notFree | permit
  deriving DecidableEq, Repr

/-- The sources of a status line (R186, R187). -/
inductive Source where
  | stateTrack | stateHold | txok | attn | anyPeerUrgent | allPeersTraceable | twoContributors | refValid
  deriving DecidableEq, Repr

/-- The frame lengths Lf (09). -/
inductive FrameLen where
  | ms1 | ms5 | ms10
  deriving DecidableEq, Repr

/-- The settings of the configuration image (11.5), in its order and units. -/
structure Params where
  /-- Station address; 0 before a load has given one (log 9). -/
  address : Nat
  interval : Interval
  k : Nat
  dMax : Nat
  a : Nat
  m : Nat
  lTx : Nat
  lRx : Nat
  p : Nat
  i : Nat
  s : Nat
  tLock : Nat
  l : Nat
  g : Nat
  budget : Nat
  hF : Nat
  hA : Nat
  receiver : Bool
  cable : Int
  cableUnc : Nat
  w : Nat
  d : Nat
  tErr : Nat
  tMiss : Nat
  ppsOffset : Int
  ppsWidth : Nat
  frameLen : FrameLen
  frameOffset : Nat
  frameWidth : Nat
  h0 : Nat
  h1 : Nat
  polPps : Policy
  polFrame : Policy
  polFrame0 : Policy
  polFout0 : Policy
  polFout1 : Policy
  hP : Nat
  stat0 : Source
  stat1 : Source
  classes : PerKind Class
  gatingSet : PerKind Bool
  escalation : Nat
  deriving DecidableEq, Repr

/-- The default classes (10, section 10.1). -/
def Params.defaultClass : Kind → Class
  | .holdBudget | .addressClash => .urgent
  | .holdEntered | .phaseStep | .historyFault => .notice
  | _ => .standing

/-- The defaults of the image layout (11.5), in use before the load and under FAULT (R208). -/
def Params.default : Params where
  address := 0
  interval := .ms250
  k := 4
  dMax := 12
  a := 20
  m := 50
  lTx := 0
  lRx := 0
  p := 2
  i := 8
  s := 1000
  tLock := 100
  l := 8
  g := 3
  budget := 1100
  hF := 200
  hA := 50
  receiver := false
  cable := 0
  cableUnc := 0
  w := 1000
  d := 250
  tErr := 20
  tMiss := 8
  ppsOffset := 0
  ppsWidth := 100000000
  frameLen := .ms10
  frameOffset := 0
  frameWidth := 10000
  h0 := 50
  h1 := 50
  polPps := .notFree
  polFrame := .permit
  polFrame0 := .permit
  polFout0 := .notFree
  polFout1 := .notFree
  hP := 5
  stat0 := .stateTrack
  stat1 := .txok
  classes := .ofFn Params.defaultClass
  gatingSet := .ofFn fun k => k == .addressClash
  escalation := 30

/-! ### Time base -/

/-- The time counter in its three parts (R1). -/
structure Counter where
  sec : Nat
  ns : Nat
  frac : Nat
  deriving DecidableEq, Repr

/-- What a capture channel holds: the captured time and the step counter at that moment (R10). -/
structure Capture where
  stamp : Stamp
  tag : Nat
  deriving DecidableEq, Repr

/-- The counter and the step counter as they stood before a step. -/
structure Before where
  counter : Counter
  stepCtr : Nat
  deriving DecidableEq, Repr

/-- The time base (01). The signal lists hold the boundary times signalled and not yet taken by the blocks they go
to, oldest first; `orders` the steps ordered and not yet applied, in 1/16 ns (log 32). -/
structure TimeBase where
  counter : Counter
  increment : Nat
  /-- The increment the most recent tick added (R9). -/
  lastInc : Nat
  stepCtr : Nat
  tx : Option Capture
  rx : Option Capture
  ref : Option Capture
  interval : Interval
  /-- Seconds counts of epochs. -/
  epochs : List Nat
  /-- Seconds counts of minute boundaries. -/
  minutes : List Nat
  /-- Times of beacon-interval boundaries. -/
  intervals : List Nat
  orders : List Int
  /-- MODEL: what the last step applied since the most recent tick found, if there was one (log 46). -/
  before : Option Before
  deriving DecidableEq, Repr

/-! ### Line controller -/

/-- The access states (02, section 2.2). -/
inductive Access where
  | listen | mute | clashHold | wait | defer | send | jam | backoff
  deriving DecidableEq, Repr

/-- Where SEND or JAM leads when a clash or a RESTART has come while it lasts (R38, R42). -/
inductive After where
  | normal | clashHold | listen
  deriving DecidableEq, Repr

/-- What the receiver is doing (R31): nothing; looking for a delimiter; collecting a body; ignoring the line until
carrier ends. -/
inductive Receiver where
  | off | searching | collecting | ignoring
  deriving DecidableEq, Repr

/-- The fields a beacon header advertises about its sender (R44, R64). -/
structure Advertised where
  state : DState
  trac : Trac
  rank : Nat
  bound : Nat
  urgent : Bool
  standing : Bool
  /-- Three addresses, 0 an empty slot. -/
  sources : List Nat
  localRef : Bool
  holdReq : Bool
  stepCtr : Nat
  deriving DecidableEq, Repr

/-- A report: a beacon of station `addr` with sequence `seq` was heard at `time` (R52). -/
structure Report where
  addr : Nat
  seq : Byte
  time : Stamp
  deriving DecidableEq, Repr

/-- A beacon as its body carries it (02, section 2.1). -/
structure Beacon where
  sender : Nat
  seq : Byte
  adv : Advertised
  stamp : Stamp
  reports : List Report
  deriving DecidableEq, Repr

/-- The transmission record (03): the header as sampled at the start, the applied amounts of the steps noted since,
and the corrected tx stamp once the delimiter has been driven. The reports are those of the sending plane. -/
structure TxRecord where
  sender : Nat
  seq : Byte
  adv : Advertised
  steps : List Int
  stamp : Option Stamp
  deriving DecidableEq, Repr

/-- An entry of the transmit history (R49). -/
structure Sent where
  seq : Byte
  stamp : Stamp
  deriving DecidableEq, Repr

/-- The next instant (R23): its time, and whether a tick has reached it. -/
structure Instant where
  time : Nat
  reached : Bool
  deriving DecidableEq, Repr

/-- The line controller (02, 03). Durations are counts of elapsed ticks of 8 ns (R19). -/
structure Line where
  access : Access
  after : After
  nextInstant : Option Instant
  /-- A beacon is pending. -/
  beacon : Bool
  /-- The beacon due is set. -/
  due : Bool
  attempts : Nat
  listen : Nat
  clash : Nat
  clashAge : Nat
  errNow : Nat
  /-- The nine seconds before the current one, newest first. -/
  errPast : List Nat
  abNow : Nat
  /-- The seven intervals before the current one, newest first. -/
  abPast : List Nat
  carrier : Bool
  idle : Bool
  gap : Nat
  stuck : Nat
  /-- Ticks since the transmission on the line started. -/
  sent : Nat
  /-- Ticks of the jam on the line. -/
  jam : Nat
  /-- Ticks of the backoff still to run. -/
  backoff : Nat
  receiver : Receiver
  seq : Byte
  history : List Sent
  filling : List Report
  /-- The sending plane; while there is none the other plane is the spare. -/
  sending : Option (List Report)
  stepWait : Bool
  record : Option TxRecord
  /-- MODEL: the bits of the last frame completed on the line, in the order driven (R20). -/
  driven : List Bool
  /-- MODEL: seedings of the random generator, and draws since the last (log 7). -/
  seeding : Nat
  drawn : Nat
  deriving DecidableEq, Repr

/-! ### Peer table -/

/-- The entry states (04, section 4.1). -/
inductive EntryState where
  | new | valid | suspect | stale | lockedOut
  deriving DecidableEq, Repr

/-- A sample: offset and delay in 1/16 ns and the capture time (R74). -/
structure Sample where
  offset : Int
  delay : Int
  time : Stamp
  deriving DecidableEq, Repr

/-- A peer entry (04). -/
structure Entry where
  addr : Nat
  state : EntryState
  lastSeq : Byte
  heard : SecNs
  silence : Nat
  adv : Advertised
  missed : Nat
  received : Nat
  /-- Oldest first. -/
  ring : List Sample
  disagree : Nat
  agree : Nat
  contributor : Bool
  weight : Nat
  marked : Bool
  unmatched : Nat
  faults : Nat
  drops : Nat
  deriving DecidableEq, Repr

/-- The peer table: 24 slots by index (R60). -/
structure PeerTable where
  slots : List (Option Entry)
  admissions : Nat
  refusals : Nat
  refusalAge : Nat
  deriving DecidableEq, Repr

/-! ### Reference input -/

/-- The pending message (R90), with the elapsed ticks since its completion instant (R91). -/
structure Message where
  label : Nat
  fix : Bool
  accuracy : Nat
  age : Nat
  deriving DecidableEq, Repr

/-- The reference sample (R94): offset in 1/16 ns, uncertainty in ns, sample time. -/
structure RefSample where
  offset : Int
  unc : Nat
  time : Int
  deriving DecidableEq, Repr

/-- The reference input (05). Times may lie below zero time (R102). -/
structure RefInput where
  active : Bool
  closed : Bool
  /-- The bytes of a message so far; none while hunting for sync (R90). -/
  held : List Byte
  /-- Ticks since the stop bit of the last byte. -/
  quiet : Nat
  message : Option Message
  run : Nat
  runTime : Int
  runLabel : Nat
  expected : Option Int
  last : Option Int
  deadline : Option Int
  misplaced : Nat
  noSample : Nat
  sample : Option RefSample
  valid : Bool
  deriving DecidableEq, Repr

/-! ### Discipline unit -/

/-- The published status (R125). -/
structure Published where
  state : DState
  trac : Trac
  rank : Nat
  bound : Nat
  /-- Three addresses, 0 an empty slot. -/
  sources : List Nat
  localRef : Bool
  holdReq : Bool
  deriving DecidableEq, Repr

/-- The published status of FREE (R130). -/
def Published.free : Published where
  state := .free
  trac := .none
  rank := 15
  bound := 65535
  sources := [0, 0, 0]
  localRef := false
  holdReq := false

/-- A peer entry as handed to a snapshot (R78): `suspect` tells SUSPECT from VALID, `jitter` is J in ns (R80). -/
structure Estimate where
  addr : Nat
  suspect : Bool
  offset : Int
  jitter : Nat
  unc : Nat
  adv : Advertised
  deriving DecidableEq, Repr

/-- A snapshot (R104): the peers, the reference sample's offset and uncertainty, the previous published status, and
the seconds count of the epoch. -/
structure Snapshot where
  peers : List Estimate
  ref : Option (Int × Nat)
  prev : Published
  epoch : Nat
  deriving DecidableEq, Repr

/-- The holdover entry data (R141). -/
structure HoldEntry where
  bound : Nat
  rank : Nat
  time : Nat
  fNew : Int
  slope : Int
  c : Nat
  deriving DecidableEq, Repr

/-- The discipline unit (06, 07). Its discipline state is the published one. -/
structure Discipline where
  /-- Present while a combine is IN_FLIGHT. -/
  snapshot : Option Snapshot
  f : Int
  fInt : Int
  /-- A completion has set F since the last reset (R130). -/
  fSet : Bool
  lastX : Int
  contributors : Nat
  pub : Published
  /-- The status of a completion that ordered a step, until it is published (R124, log 47). -/
  unpublished : Option Published
  lockRun : Nat
  largeRun : Nat
  noneRun : Nat
  holdReq : Bool
  hold : Option HoldEntry
  elapsed : Nat
  deriving DecidableEq, Repr

/-! ### History store -/

/-- An entry of the minute-mean ring (R156). -/
structure Minute where
  mean : Int
  time : Nat
  deriving DecidableEq, Repr

/-- A history record (08, section 8.3). -/
structure HistRecord where
  seq : Nat
  fNew : Int
  slope : Int
  n : Nat
  time : Nat
  deriving DecidableEq, Repr

/-- The seed (R167). -/
structure Seed where
  record : HistRecord
  sector : Fin 4
  slot : Fin 32
  deriving DecidableEq, Repr

/-- The operation of the record area, with the record in flight, whether it is a retry, and the elapsed ticks. -/
inductive Operation where
  | idle
  | program (record : HistRecord) (retry : Bool) (sector : Fin 4) (slot : Fin 32) (ticks : Nat)
  | erase (record : HistRecord) (retry : Bool) (sector : Fin 4) (ticks : Nat)
  deriving DecidableEq, Repr

/-- The record area (08, section 8.3) as address and byte pairs; an unlisted address reads FF hexadecimal (log 6). -/
abbrev Memory := List Host.Cell

/-- A completion handed to the history store: F, whether it settled in TRACK, and the second of the epoch at which its
combine began (R122, R155). -/
structure Handed where
  f : Int
  track : Bool
  epoch : Nat
  deriving DecidableEq, Repr

/-- The history store (08). -/
structure History where
  count : Nat
  sum : Int
  allTrack : Bool
  /-- The model's own: completions of a minute whose boundary has been signalled and not yet taken, oldest first (R6, log
  51). -/
  ahead : List Handed
  /-- Oldest first. -/
  ring : List Minute
  recorded : Nat
  lastSeq : Nat
  sector : Fin 4
  nextSlot : Nat
  unusable : List (Fin 4)
  needsErase : List (Fin 4)
  op : Operation
  waiting : Option HistRecord
  seed : Option Seed
  /-- The start scan is running. -/
  scanning : Bool
  area : Memory
  deriving DecidableEq, Repr

/-! ### Output unit -/

/-- The squelch states (R181). -/
inductive Squelch where
  | running | stopping | squelched | resuming
  deriving DecidableEq, Repr

/-- A pulse in progress: high ticks left, and the position of its edges within their ticks (R172, R173). -/
structure Pulse where
  left : Nat
  pos : Nat
  deriving DecidableEq, Repr

/-- The PPS generator and output. -/
structure PpsGen where
  offset : Int
  next : Option Nat
  pulse : Option Pulse
  squelch : Squelch
  deriving DecidableEq, Repr

/-- The frame generator and its two outputs. -/
structure FrameGen where
  offset : Nat
  next : Option Nat
  number : Nat
  pulse : Option Pulse
  pulse0 : Option Pulse
  squelch : Squelch
  squelch0 : Squelch
  deriving DecidableEq, Repr

/-- A frequency output. -/
structure FoutGen where
  next : Option Nat
  rising : Bool
  level : Bool
  pos : Nat
  squelch : Squelch
  deriving DecidableEq, Repr

/-- The output unit (09). -/
structure Outputs where
  pps : PpsGen
  frame : FrameGen
  fout0 : FoutGen
  fout1 : FoutGen
  ppsShadow : Option Int
  frameShadow : Option Int
  txok : Bool
  holdoff : Nat
  deriving DecidableEq, Repr

/-! ### Alarm unit -/

/-- The states of an alarm record (10, section 10.3). -/
inductive AlarmState where
  | clear | active | acked | clearedUnacked
  deriving DecidableEq, Repr

/-- An alarm record; `timer` is its escalation timer in elapsed ticks (R200). -/
structure AlarmRecord where
  effective : Class
  condition : Bool
  state : AlarmState
  raises : Nat
  first : Option SecNs
  changed : SecNs
  timer : Nat
  deriving DecidableEq, Repr

/-- The alarm unit (10). -/
structure Alarms where
  records : PerKind AlarmRecord
  gating : Bool
  attn : Bool
  alarmU : Bool
  alarmS : Bool
  deriving DecidableEq, Repr

/-! ### Management port -/

/-- The configuration status (R209). -/
inductive CfgStatus where
  | notLoaded | good | adjusted | fault
  deriving DecidableEq, Repr

/-- The start cause (R211). -/
inductive Cause where
  | powerOn | pin
  deriving DecidableEq, Repr

/-- The response buffer with the response frame it holds (R216). -/
inductive Buffer where
  | empty
  | preparing (frame : List Byte)
  | ready (frame : List Byte)
  deriving DecidableEq, Repr

/-- The management port and configuration loader (11). -/
structure Port where
  image : List Byte
  params : Params
  status : CfgStatus
  cause : Cause
  restarts : Nat
  buffer : Buffer
  /-- MODEL: the bytes clocked out in the last transaction. -/
  spiOut : List Byte
  deriving DecidableEq, Repr

/-! ### The whole part -/

/-- What holds the part at its reset values (R211). -/
structure HeldBy where
  /-- A power-on reset is held: the supply is lost, or it and the oscillator are not yet stable (R166). -/
  supply : Bool
  /-- The RESET pin is held asserted, that is low (R213). -/
  pin : Bool
  deriving DecidableEq, Repr

/-- Neither the supply nor the pin holds the part: it runs. -/
def HeldBy.nothing : HeldBy := ⟨false, false⟩

/-- The state of the part. -/
structure State where
  /-- What holds the part at its reset values, if anything does (R211). -/
  held : HeldBy
  tb : TimeBase
  lc : Line
  pt : PeerTable
  ri : RefInput
  du : Discipline
  hs : History
  ou : Outputs
  au : Alarms
  mp : Port
  /-- The conditions as their owning blocks hold them (R193). -/
  conds : PerKind Bool
  /-- MODEL: open orders taken so far (log 8). -/
  choices : Nat
  /-- MODEL: the commands waiting, first in, first out. -/
  pending : List Instr
  deriving DecidableEq, Repr

/-! ### Reset values -/

/-- The time base at reset (R17). -/
def TimeBase.reset : TimeBase where
  counter := ⟨0, 0, 0⟩
  increment := 34359738368
  lastInc := 34359738368
  stepCtr := 0
  tx := none
  rx := none
  ref := none
  interval := .ms250
  epochs := []
  minutes := []
  intervals := []
  orders := []
  before := none

/-- The line controller at reset (R41, R58), its random generator seeded for the `seeding`-th time (R23). -/
def Line.reset (seeding : Nat) : Line where
  access := .listen
  after := .normal
  nextInstant := none
  beacon := false
  due := false
  attempts := 0
  listen := 3
  clash := 0
  clashAge := 16
  errNow := 0
  errPast := List.replicate 9 0
  abNow := 0
  abPast := List.replicate 7 0
  carrier := false
  idle := true
  gap := 0
  stuck := 0
  sent := 0
  jam := 0
  backoff := 0
  receiver := .off
  seq := 0
  history := []
  filling := []
  sending := none
  stepWait := false
  record := none
  driven := []
  seeding := seeding
  drawn := 0

/-- The peer table at reset (R87). -/
def PeerTable.reset : PeerTable where
  slots := List.replicate 24 none
  admissions := 0
  refusals := 0
  refusalAge := 16

/-- The reference input at reset (R89, R103). -/
def RefInput.reset : RefInput where
  active := false
  closed := false
  held := []
  quiet := 0
  message := none
  run := 0
  runTime := 0
  runLabel := 0
  expected := none
  last := none
  deadline := none
  misplaced := 0
  noSample := 0
  sample := none
  valid := false

/-- The discipline unit at reset (R130, R153). -/
def Discipline.reset : Discipline where
  snapshot := none
  f := 0
  fInt := 0
  fSet := false
  lastX := 0
  contributors := 0
  pub := .free
  unpublished := none
  lockRun := 0
  largeRun := 0
  noneRun := 0
  holdReq := false
  hold := none
  elapsed := 0

/-- The history store at reset over the record area `area`, which keeps its content (R169); the start scan of R167
begins at once, and until it ends the append position is that of an area without a seed. -/
def History.reset (area : Memory) : History where
  count := 0
  sum := 0
  allTrack := true
  ahead := []
  ring := []
  recorded := 0
  lastSeq := 0
  sector := 3
  nextSlot := 32
  unusable := []
  needsErase := []
  op := .idle
  waiting := none
  seed := none
  scanning := true
  area := area

/-- A frequency output without a next edge (R189). -/
def FoutGen.reset : FoutGen where
  next := none
  rising := true
  level := false
  pos := 0
  squelch := .squelched

/-- The output unit at reset (R189). -/
def Outputs.reset : Outputs where
  pps := ⟨0, none, none, .squelched⟩
  frame := ⟨0, none, 0, none, none, .squelched, .squelched⟩
  fout0 := .reset
  fout1 := .reset
  ppsShadow := none
  frameShadow := none
  txok := false
  holdoff := 0

/-- An alarm record at reset (R206), of the default class. -/
def AlarmRecord.reset (k : Kind) : AlarmRecord where
  effective := Params.defaultClass k
  condition := false
  state := .clear
  raises := 0
  first := none
  changed := ⟨0, 0⟩
  timer := 0

/-- The alarm unit at reset (R206). -/
def Alarms.reset : Alarms where
  records := .ofFn AlarmRecord.reset
  gating := false
  attn := false
  alarmU := false
  alarmS := false

/-- The management port at reset (R211). -/
def Port.reset (cause : Cause) : Port where
  image := []
  params := .default
  status := .notLoaded
  cause := cause
  restarts := 0
  buffer := .empty
  spiOut := []

/-- The part at release of a power-on reset, with a record area nothing has been written to and no command waiting. -/
def State.reset : State where
  held := .nothing
  tb := .reset
  lc := .reset 0
  pt := .reset
  ri := .reset
  du := .reset
  hs := .reset []
  ou := .reset
  au := .reset
  mp := .reset .powerOn
  conds := .ofFn fun _ => false
  choices := 0
  pending := []

end Sys2Proof.Machine
end

