-- ==== Sys2Proof/Machine/Ops.lean ====
section
/-! DEFINITION. Operations the whole model shares: rounding and limits, the time scale, the counter and captures, bytes
and checks, the record area, the random draws, and how an event reaches the part. -/

namespace Sys2Proof.Machine

/-! ### Arithmetic (00, section 4.5) -/

/-- Division rounding half away from zero (00, section 4.5). -/
def roundDiv (n : Int) (d : Nat) : Int :=
  if n < 0 then -((2 * n.natAbs + d) / (2 * d) : Nat) else ((2 * n.natAbs + d) / (2 * d) : Nat)

/-- Division rounding up. -/
def ceilDiv (n d : Nat) : Nat := (n + d - 1) / d

/-- A value limited to a range (00, section 4.5: saturation and clamping). -/
def clampInt (lo hi v : Int) : Int := max lo (min hi v)

/-- A count raised by `n`, saturating at `top`. -/
def satAdd (top v n : Nat) : Nat := min top (v + n)

/-- `a` reduced modulo `m` into the range from -m/2 inclusive to m/2 exclusive (R74, R94). -/
def wrapSigned (m : Nat) (a : Int) : Int :=
  if a % m < (m / 2 : Nat) then a % m else a % m - m

/-! ### The time scale in units of 2^-32 ns (01, section 1.1) -/

/-- One nanosecond. -/
def nsU : Nat := 4294967296

/-- One microsecond. -/
def usU : Nat := 1000 * nsU

/-- One second. -/
def secU : Nat := 1000000000 * nsU

/-- The length of the time scale, 2^48 s. -/
def scaleU : Nat := 281474976710656 * secU

/-- One sixteenth of a nanosecond. -/
def sixteenthU : Nat := 268435456

/-- The length of the time scale in sixteenths (R74). -/
def scale16 : Nat := 281474976710656 * 16000000000

/-- The counter's value as one quantity (R1). -/
def Counter.value (c : Counter) : Nat := (c.sec * 1000000000 + c.ns) * nsU + c.frac

/-- The three parts of a value within the time scale (R1). -/
def Counter.ofValue (v : Nat) : Counter :=
  ⟨v / secU % 281474976710656, v % secU / nsU, v % nsU⟩

/-- Each part within its range (R1). -/
def Counter.inRange (c : Counter) : Prop := c.sec < 281474976710656 ∧ c.ns < 1000000000 ∧ c.frac < 4294967296

/-- One tick: the increment's whole nanoseconds and remainder added with their carries, the seconds wrapping (R2). -/
def Counter.tick (c : Counter) (inc : Nat) : Counter :=
  let frac := c.frac + inc % nsU
  let ns := c.ns + inc / nsU + frac / nsU
  if ns < 1000000000 then ⟨c.sec, ns, frac % nsU⟩
  else ⟨if c.sec = 281474976710655 then 0 else c.sec + 1, ns - 1000000000, frac % nsU⟩

/-- The tick carries the seconds count (R5). -/
def Counter.carries (c : Counter) (inc : Nat) : Bool :=
  decide (1000000000 ≤ c.ns + inc / nsU + (c.frac + inc % nsU) / nsU)

/-- A step of `x` sixteenths, clamped at the ends of the time scale (R11, R12). -/
def Counter.step (c : Counter) (x : Int) : Counter :=
  let v := (c.value : Int) + x * sixteenthU
  if v < 0 then ⟨0, 0, 0⟩
  else if (scaleU : Int) ≤ v then ⟨281474976710655, 999999999, 4294967295⟩
  else .ofValue v.toNat

/-- The applied amount of a step: after minus before, truncated toward zero to sixteenths (R12). -/
def Counter.applied (before after : Counter) : Int := ((after.value : Int) - before.value).tdiv sixteenthU

/-- The increment formed from F (R3). -/
def incrementOf (f : Int) : Nat := (34359738368 + roundDiv (34359738368 * f) 1000000000000).toNat

/-- The time `t` has been reached when the counter stands at `now`, on the circle of the time scale (R91 to R98 for the
reference input's times, R172 for edge times; log 19). -/
def reached (now : Nat) (t : Int) : Bool := decide (((now : Int) - t) % scaleU < (scaleU / 2 : Nat))

/-- A time that has passed the top of the time scale goes on from 0 (R95); a time below zero stays as held. -/
def wrapTop (t : Int) : Int := if (scaleU : Int) ≤ t then t - scaleU else t

/-- A timestamp's value in sixteenths. -/
def Stamp.value16 (t : Stamp) : Int := (t.sec * 16000000000 + t.sub : Nat)

/-- The timestamp of a value in sixteenths; a value below zero time is 0 (R46, R48), one past the top wraps (R45). -/
def Stamp.of16 (v : Int) : Stamp :=
  if v < 0 then ⟨0, 0⟩ else ⟨(v % scale16).toNat / 16000000000, (v % scale16).toNat % 16000000000⟩

/-- The captured time of an event at position `q` of the tick period, truncated to sixteenths (R9). Carried past the top
of the time scale it goes on from 0 (DESIGN CHOICE, log 41). -/
def captureStamp (c : Counter) (lastInc q : Nat) : Stamp :=
  .of16 (((c.value + lastInc * q / 128) % scaleU / sixteenthU : Nat) : Int)

/-- What a channel captures at position `q` of the tick period: the time and the step tag (R9, R10). -/
def TimeBase.capture (t : TimeBase) (q : Nat) : Capture := ⟨captureStamp t.counter t.lastInc q, t.stepCtr⟩

/-- What a channel has captured at position `q` before the step applied since the most recent tick, if there was one
(R10; log 46). -/
def TimeBase.captureBefore (t : TimeBase) (q : Nat) : Option Capture :=
  t.before.map fun b => ⟨captureStamp b.counter t.lastInc q, b.stepCtr⟩

/-- The interval B in milliseconds. -/
def Interval.ms : Interval → Nat
  | .ms125 => 125
  | .ms250 => 250
  | .ms500 => 500

/-- The interval B as a span of the time scale. -/
def Interval.span (b : Interval) : Nat := b.ms * (1000000 * nsU)

/-- Ticks in a microsecond of elapsed time: 125 (the internal clock is 125 MHz). -/
def usTicks (us : Nat) : Nat := us * 125

/-! ### Bytes: most significant first -/

/-- `v` in `k` bytes. -/
def be : Nat → Nat → List Byte
  | 0, _ => []
  | k + 1, v => BitVec.ofNat 8 (v / 256 ^ k) :: be k v

/-- A signed value in `k` bytes, two's complement (11.5). -/
def beInt (k : Nat) (v : Int) : List Byte := be k (v % (256 ^ k : Nat)).toNat

/-- The unsigned value of bytes. -/
def ofBE (bytes : List Byte) : Nat := bytes.foldl (fun acc b => acc * 256 + b.toNat) 0

/-- The two's complement value of bytes. -/
def ofBESigned (bytes : List Byte) : Int :=
  if 2 * ofBE bytes < 256 ^ bytes.length then ofBE bytes else (ofBE bytes : Int) - (256 ^ bytes.length : Nat)

/-- A flag as a byte. -/
def flagByte (b : Bool) : Byte := if b then 1 else 0

/-! ### Checks -/

/-- One bit of the reflected CRC-32 register (R21). -/
def crc32Bit (c : BitVec 32) : BitVec 32 := if c.getLsbD 0 then (c >>> 1) ^^^ 0xEDB88320#32 else c >>> 1

/-- One byte of the CRC-32, least significant bit first (R21). -/
def crc32Byte (c : BitVec 32) (b : Byte) : BitVec 32 :=
  Nat.repeat crc32Bit 8 (c ^^^ b.setWidth 32)

/-- The CRC-32 of R21: preset to ones, complemented, the reflected register's value. -/
def crc32 (bytes : List Byte) : Nat := (~~~ (bytes.foldl crc32Byte 0xFFFFFFFF#32)).toNat

/-- One bit of the CRC-16 register (R159). -/
def crc16Bit (c : BitVec 16) : BitVec 16 := if c.getLsbD 15 then (c <<< 1) ^^^ 0x1021#16 else c <<< 1

/-- One byte of the CRC-16, most significant bit first (R159). -/
def crc16Byte (c : BitVec 16) (b : Byte) : BitVec 16 :=
  Nat.repeat crc16Bit 8 (c ^^^ (b.setWidth 16 <<< 8))

/-- The CRC-16 of R159: preset to ones, no final complement. -/
def crc16 (bytes : List Byte) : Nat := (bytes.foldl crc16Byte 0xFFFF#16).toNat

/-! ### The record area (08, section 8.3) -/

/-- What an address nothing is listed at reads: an erased byte (log 6). -/
def erased : Byte := 0xFF

/-- The bytes in the area. -/
def areaSize : Nat := 4096

/-- One byte read. -/
def Memory.read (m : Memory) (a : Nat) : Byte :=
  match m with
  | [] => erased
  | c :: m => if c.1 = a then c.2 else Memory.read m a

/-- One byte written, keeping the canonical form. -/
def Memory.write (m : Memory) (a : Nat) (b : Byte) : Memory :=
  match m with
  | [] => if b = erased then [] else [(a, b)]
  | c :: m =>
    if a < c.1 then (if b = erased then c :: m else (a, b) :: c :: m)
    else if a = c.1 then (if b = erased then m else (a, b) :: m)
    else c :: Memory.write m a b

/-- The canonical form: addresses strictly rising and inside the area, and no entry an erased byte. -/
def Memory.wf : Memory → Bool
  | [] => true
  | c :: m => decide (c.1 < areaSize) && c.2 != erased && m.all (fun d => decide (c.1 < d.1)) && Memory.wf m

/-- `n` bytes from address `a`. -/
def Memory.bytes (m : Memory) (a n : Nat) : List Byte := (List.range n).map fun i => m.read (a + i)

/-- Bytes written from address `a` on. -/
def Memory.writeBytes (m : Memory) (a : Nat) : List Byte → Memory
  | [] => m
  | b :: bs => Memory.writeBytes (m.write a b) (a + 1) bs

/-- The first address of a slot. -/
def slotBase (sector : Fin 4) (slot : Nat) : Nat := sector.val * 1024 + slot * 32

/-! ### Events -/

/-- The time counter's seconds and nanoseconds: the station's time (R16, R192). -/
def State.now (s : State) : SecNs := ⟨s.tb.counter.sec, s.tb.counter.ns⟩

/-- An event reaches the part: nothing happens while the part is held at its reset values, by the supply or by the RESET
pin (R211, log 4). -/
def State.event (s : State) (f : State → State) : Host.Outcome State Fault Refusal :=
  .next (if s.held = .nothing then f s else s)

/-- The event has its effect when its occasion has come, and none otherwise (log 1). -/
def State.whenDue (s : State) (due : Bool) (f : State → State) : Host.Outcome State Fault Refusal :=
  s.event fun s => if due then f s else s

/-- A draw of the random generator, uniform over `lo` to `hi` (R23): the free value of Config.noise put in range. -/
def State.draw (s : State) (lo hi : Nat) : Nat :=
  lo + Config.noise s.lc.seeding s.mp.params.address s.lc.drawn % (hi - lo + 1)

/-- The draw is used up. -/
def State.drew (s : State) : State := { s with lc := { s.lc with drawn := s.lc.drawn + 1 } }

/-- The release: every block begins from its reset values with the given start cause over the record area `area`, the
random generator seeded once more, the queue kept (R211, R23). -/
def State.start (s : State) (cause : Cause) (area : Memory) : State where
  held := .nothing
  tb := .reset
  lc := .reset (s.lc.seeding + 1)
  pt := .reset
  ri := .reset
  du := .reset
  hs := .reset area
  ou := .reset
  au := .reset
  mp := .reset cause
  conds := .ofFn fun _ => false
  choices := s.choices
  pending := s.pending

/-- The part held: every block stands at its reset values, and has not begun (R211). -/
def State.standing (s : State) (held : HeldBy) (cause : Cause) (area : Memory) : State :=
  { s.start cause area with held := held, lc := .reset s.lc.seeding }

end Sys2Proof.Machine
end

