-- ==== Sys2Proof/Machine/Flags.lean ====
section
/-! DEFINITION. Conditions, alarm records and pins (10), squelch and the transmit permit (09, sections 9.4 and 9.5):
what a report, a publication or a change of TXOK does, wherever it comes from. -/

namespace Sys2Proof.Machine

/-! ### Alarm records -/

/-- A record whose state, condition, effective class or count an event has changed takes the event's time (R192). -/
def AlarmRecord.touched (old new : AlarmRecord) (now : SecNs) : AlarmRecord :=
  if new.state = old.state ∧ new.condition = old.condition ∧ new.effective = old.effective ∧ new.raises = old.raises
  then new else { new with changed := now }

/-- A rise report (R195, R193). -/
def AlarmRecord.rise (now : SecNs) (r : AlarmRecord) : AlarmRecord :=
  if r.condition then r
  else
    let fresh := r.state = .clear ∨ r.state = .clearedUnacked
    r.touched { r with
      condition := true
      raises := satAdd 65535 r.raises 1
      first := some (r.first.getD now)
      state := if fresh then .active else r.state
      timer := if fresh then 0 else r.timer } now

/-- A fall report (R196, R193); `cls` is the configured class. -/
def AlarmRecord.fall (cls : Class) (now : SecNs) (r : AlarmRecord) : AlarmRecord :=
  if !r.condition then r
  else match r.state with
    | .active => r.touched { r with condition := false, state := .clearedUnacked, effective := cls, timer := 0 } now
    | .acked => r.touched { r with condition := false, state := .clear } now
    | _ => r.touched { r with condition := false } now

/-- A notice event (R197). -/
def AlarmRecord.notice (now : SecNs) (r : AlarmRecord) : AlarmRecord :=
  r.touched { r with
    state := .active
    raises := satAdd 65535 r.raises 1
    first := some (r.first.getD now) } now

/-- An acknowledge (R198). -/
def AlarmRecord.ack (cls : Class) (now : SecNs) (r : AlarmRecord) : AlarmRecord :=
  match r.state with
  | .active =>
    r.touched { r with state := if cls = .notice then .clear else .acked, effective := cls, timer := 0 } now
  | .clearedUnacked => r.touched { r with state := .clear, effective := cls, timer := 0 } now
  | _ => r

/-- The escalation timer's expiry (R200). -/
def AlarmRecord.escalate (now : SecNs) (r : AlarmRecord) : AlarmRecord := r.touched { r with effective := .urgent } now

/-- Elapsed ticks in `e` minutes. -/
def minuteTicks (e : Nat) : Nat := e * 7500000000

/-- The record's escalation timer is running: of configured class STANDING, ACTIVE, not yet escalated (R200). -/
def AlarmRecord.timing (cls : Class) (r : AlarmRecord) : Bool :=
  decide (cls = .standing ∧ r.state = .active ∧ r.effective = .standing)

/-- The record asks for attention (R201). -/
def AlarmRecord.calls (r : AlarmRecord) : Bool := decide (r.state = .active ∨ r.state = .clearedUnacked)

/-- The record's condition is present under the effective class `c` (R202). -/
def AlarmRecord.drives (c : Class) (r : AlarmRecord) : Bool := r.condition && decide (r.effective = c)

/-- The pins and the permit-gating indication formed over all records (R201 to R203). -/
def Alarms.refresh (a : Alarms) (gatingSet : PerKind Bool) : Alarms :=
  { a with
    gating := kinds.any fun k => gatingSet.get k && (a.records.get k).condition
    attn := kinds.any fun k => (a.records.get k).calls
    alarmU := kinds.any fun k => (a.records.get k).drives .urgent
    alarmS := kinds.any fun k => (a.records.get k).drives .standing }

/-- The configured class of a kind (R194). -/
def State.classOf (s : State) (k : Kind) : Class := s.mp.params.classes.get k

/-- An event acts on one record; the pins and the indication follow (R192). -/
def State.onRecord (s : State) (k : Kind) (f : AlarmRecord → AlarmRecord) : State :=
  { s with au := Alarms.refresh { s.au with records := s.au.records.set k (f (s.au.records.get k)) } s.mp.params.gatingSet }

/-- The owner's rise or fall report as the record takes it. -/
def State.reportRecord (s : State) (k : Kind) (present : Bool) : State :=
  s.onRecord k (if present then AlarmRecord.rise s.now else AlarmRecord.fall (s.classOf k) s.now)

/-! ### Squelch (R180, R181) -/

/-- A squelch state released. -/
def Squelch.release : Squelch → Squelch
  | .running => .running
  | .stopping => .running
  | .squelched => .resuming
  | .resuming => .resuming

/-- A squelch state squelched; `inProgress` is a pulse or high half-period in progress. -/
def Squelch.stop (inProgress : Bool) : Squelch → Squelch
  | .running => if inProgress then .stopping else .squelched
  | .stopping => .stopping
  | .squelched => .squelched
  | .resuming => .squelched

/-- The evaluation of one output. -/
def Squelch.evaluate (mayRun inProgress : Bool) (q : Squelch) : Squelch := if mayRun then q.release else q.stop inProgress

/-- The configuration has loaded with status GOOD or ADJUSTED. -/
def State.loaded (s : State) : Bool := decide (s.mp.status = .good ∨ s.mp.status = .adjusted)

/-- An output of this policy may run (09, section 9.4). -/
def State.mayRun (s : State) : Policy → Bool
  | .always => s.loaded
  | .notFree => s.loaded && decide (s.du.pub.state ≠ .free)
  | .permit => s.loaded && s.ou.txok

/-- The squelch of each output evaluated (R180). -/
def State.evalSquelch (s : State) : State :=
  let p := s.mp.params
  { s with ou := { s.ou with
      pps := { s.ou.pps with squelch := s.ou.pps.squelch.evaluate (s.mayRun p.polPps) s.ou.pps.pulse.isSome }
      frame := { s.ou.frame with
        squelch := s.ou.frame.squelch.evaluate (s.mayRun p.polFrame) s.ou.frame.pulse.isSome
        squelch0 := s.ou.frame.squelch0.evaluate (s.mayRun p.polFrame0) s.ou.frame.pulse0.isSome }
      fout0 := { s.ou.fout0 with squelch := s.ou.fout0.squelch.evaluate (s.mayRun p.polFout0) s.ou.fout0.level }
      fout1 := { s.ou.fout1 with squelch := s.ou.fout1.squelch.evaluate (s.mayRun p.polFout1) s.ou.fout1.level } } }

/-! ### The transmit permit (R183 to R185) -/

/-- PERMIT_LOST judged: TXOK deasserted while the published state is not FREE (R185). It cannot be permit-gating
(R194), so its report reaches its record and nothing else. -/
def State.judgePermitLost (s : State) : State :=
  let v := !s.ou.txok && decide (s.du.pub.state ≠ .free)
  if s.conds.permitLost = v then s
  else State.reportRecord { s with conds := { s.conds with permitLost := v } } .permitLost v

/-- TXOK set to a level: each change is evaluated for the squelches and for PERMIT_LOST (R184, R185). -/
def State.setTxok (s : State) (v : Bool) : State :=
  if s.ou.txok = v then s
  else (State.evalSquelch { s with ou := { s.ou with txok := v } }).judgePermitLost

/-- The permit withdrawn and the hold-off begun afresh (R183, R184). -/
def State.withdraw (s : State) : State := State.setTxok { s with ou := { s.ou with holdoff := 0 } } false

/-- The permit condition (R183). -/
def State.permitCondition (s : State) : Bool :=
  s.loaded && decide (s.du.pub.state = .track ∨ s.du.pub.state = .hold) &&
    decide (s.du.pub.bound ≤ s.mp.params.budget) && !s.au.gating

/-- The permit judged at a publication at a completion (R183). -/
def State.judgePermit (s : State) : State :=
  if s.permitCondition then
    let n := min s.mp.params.hP (s.ou.holdoff + 1)
    let s1 := { s with ou := { s.ou with holdoff := n } }
    if s.mp.params.hP ≤ n then s1.setTxok true else s1
  else s.withdraw

/-- A publication reaches the output unit (R180, R183, R185); `permit` is what it does to the permit. -/
def State.published (s : State) (permit : State → State) : State := (permit s.evalSquelch).judgePermitLost

/-- A status not yet published reaches its readers (R124, R128, R183; log 47). -/
def State.publish (s : State) : State :=
  match s.du.unpublished with
  | some p => State.published { s with du := { s.du with pub := p, unpublished := none } } State.judgePermit
  | none => s

/-! ### Reports of the owners (R193, R203) -/

/-- The permit-gating indication's rise is reported to the output unit at once (R203, R184); its fall changes nothing
at once. -/
def State.gatingReport (before : Bool) (s : State) : State := if !before && s.au.gating then s.withdraw else s

/-- A rise or fall report: the record, the pins, and the permit-gating report it may cause. -/
def State.report (s : State) (k : Kind) (present : Bool) : State :=
  (s.reportRecord k present).gatingReport s.au.gating

/-- The owner of `k` judges its condition and reports a change (R193). -/
def State.judge (s : State) (k : Kind) (v : Bool) : State :=
  if s.conds.get k = v then s else State.report { s with conds := s.conds.set k v } k v

/-- A notice event of kind `k` (R197). -/
def State.notice (s : State) (k : Kind) : State := s.onRecord k (AlarmRecord.notice s.now)

end Sys2Proof.Machine
end

