-- ==== Sys2Proof/Machine/Alarms.lean ====
section
/-! DEFINITION. The command of the alarm unit (10) that no block sends: the expiry of an escalation timer. -/

namespace Sys2Proof.Machine

/-- The escalation timer of a record has expired (R200). -/
def State.escalationDue (s : State) (k : Kind) : Bool :=
  (s.au.records.get k).timing (s.classOf k) && decide (s.mp.params.escalation ≠ 0) &&
    decide (minuteTicks s.mp.params.escalation ≤ (s.au.records.get k).timer)

/-- ESCALATION_TIMER_EXPIRY (R200). -/
def execEscalationTimerExpiry (k : Kind) (s : State) : Host.Outcome State Fault Refusal :=
  s.whenDue (s.escalationDue k) fun s => s.onRecord k (AlarmRecord.escalate s.now)

end Sys2Proof.Machine
end

