-- ==== Sys2Proof/Machine/Operands.lean ====
section
/-! DEFINITION. Layouts: the beacon body (02, section 2.1), the record slot (08, section 8.3), the configuration image,
and the records the host reads (11.5), with the codes they use. -/

namespace Sys2Proof.Machine

/-! ### Codes -/

/-- The code of a discipline state (02, section 2.1). -/
def DState.code : DState → Nat
  | .free => 0
  | .acquire => 1
  | .track => 2
  | .hold => 3
  | .lapsed => 4

/-- The discipline state of a code (02, section 2.1). -/
def DState.ofCode : Nat → Option DState
  | 0 => some .free
  | 1 => some .acquire
  | 2 => some .track
  | 3 => some .hold
  | 4 => some .lapsed
  | _ => none

/-- The code of a traceability (02, section 2.1). -/
def Trac.code : Trac → Nat
  | .none => 0
  | .held => 1
  | .traceable => 2

/-- The traceability of a code (02, section 2.1). -/
def Trac.ofCode : Nat → Option Trac
  | 0 => some .none
  | 1 => some .held
  | 2 => some .traceable
  | _ => Option.none

/-- The code of an alarm kind (10, section 10.1). -/
def kindCode : Kind → Nat
  | .refLoss => 0
  | .refMisplaced => 1
  | .noContributor => 2
  | .holdEntered => 3
  | .holdBudget => 4
  | .peerSuspect => 5
  | .peerLink => 6
  | .lineCongestion => 7
  | .lineErrors => 8
  | .tableFull => 9
  | .freqClamp => 10
  | .phaseStep => 11
  | .historyFault => 12
  | .permitLost => 13
  | .addressClash => 14

/-- The alarm kind of a code (R198, R205). -/
def kindOfCode (n : Nat) : Option Kind := kinds[n]?

/-- An address a station can have (00, section 4.4). -/
def validAddress (n : Nat) : Bool := decide (1 ≤ n ∧ n ≤ 250)

/-- Traceability and rank in one byte (02, section 2.1, offset 4). -/
def tracRankByte (t : Trac) (rank : Nat) : Byte := BitVec.ofNat 8 (rank * 16 + t.code)

/-- The alarm summary byte (02, section 2.1, offset 7). -/
def summaryByte (urgent standing : Bool) : Byte :=
  BitVec.ofNat 8 ((if urgent then 1 else 0) + if standing then 2 else 0)

/-- Local-reference flag, hold-request flag and step counter in bits 3 to 0 (02, section 2.1, offset 0). -/
def flagBits (a : Advertised) : Nat :=
  (if a.localRef then 8 else 0) + (if a.holdReq then 4 else 0) + a.stepCtr % 4

/-- Bits packed from the least significant up. -/
def packBits : List Bool → Nat
  | [] => 0
  | b :: bs => (if b then 1 else 0) + 2 * packBits bs

/-! ### Bytes and bits of the line -/

/-- The bits of bytes in the order the line carries them, each byte least significant bit first (R20). -/
def lineBits (bytes : List Byte) : List Bool := bytes.flatMap fun b => (List.range 8).map b.getLsbD

/-- The whole bytes of bits recovered from the line, each least significant bit first (R20). -/
def lineBytes : List Bool → List Byte
  | b0 :: b1 :: b2 :: b3 :: b4 :: b5 :: b6 :: b7 :: rest =>
    BitVec.ofNat 8 (packBits [b0, b1, b2, b3, b4, b5, b6, b7]) :: lineBytes rest
  | _ => []

/-- What a receiver waits for: sixteen bits of preamble pattern and the start delimiter 9D hexadecimal (R20, R31). The
pattern's phase is that of the bytes 55 hexadecimal that stand before the delimiter (DEDUCED, log 54). -/
def delimiterPattern : List Bool := lineBits [0x55, 0x55, 0x9D]

/-- The bits after the first start delimiter that follows at least sixteen bits of preamble pattern, if the bits hold one
(R31). -/
def afterDelimiter : List Bool → Option (List Bool)
  | [] => none
  | b :: bits =>
    if delimiterPattern.isPrefixOf (b :: bits) then some ((b :: bits).drop delimiterPattern.length)
    else afterDelimiter bits

/-- A start delimiter is recognised with the last of these bits, the first since the receiver began to look (R31). -/
def delimiterFound (bits : List Bool) : Bool := decide (afterDelimiter bits = some [])

/-- What a receiver that looks for a delimiter collects from the bits it recovers until carrier ends: the bytes after the
delimiter, and whether no partial byte ends them (R31, R32); nothing where no delimiter is recognised. -/
def lineReception (bits : List Bool) : Option (List Byte × Bool) :=
  (afterDelimiter bits).map fun rest => (lineBytes rest, decide (rest.length % 8 = 0))

/-! ### The beacon body -/

/-- A timestamp's eleven bytes (02, section 2.1, offset 11). -/
def stampBytes (t : Stamp) : List Byte := be 6 t.sec ++ be 5 t.sub

/-- A report's thirteen bytes. -/
def reportBytes (r : Report) : List Byte := BitVec.ofNat 8 r.addr :: r.seq :: stampBytes r.time

/-- The body of a beacon (R20, R44). -/
def Beacon.body (b : Beacon) : List Byte :=
  [BitVec.ofNat 8 (16 + flagBits b.adv), BitVec.ofNat 8 b.sender, b.seq, BitVec.ofNat 8 b.adv.state.code,
    tracRankByte b.adv.trac b.adv.rank] ++ be 2 b.adv.bound ++ [summaryByte b.adv.urgent b.adv.standing] ++
  b.adv.sources.map (BitVec.ofNat 8) ++ stampBytes b.stamp ++ [BitVec.ofNat 8 b.reports.length] ++
  b.reports.flatMap reportBytes

/-- The bytes after the start delimiter: body and CRC-32, most significant byte first (R20, R21). -/
def Beacon.frame (b : Beacon) : List Byte := b.body ++ be 4 (crc32 b.body)

/-- The whole frame on the line: preamble, delimiter, body, CRC (R20). -/
def Beacon.onLine (b : Beacon) : List Byte := List.replicate 8 0x55 ++ 0x9D :: b.frame

/-- The bits a station drives to send a beacon, in order (R20). -/
def Beacon.lineBits (b : Beacon) : List Bool := Sys2Proof.Machine.lineBits b.onLine

/-- A timestamp read from eleven bytes, if its subsecond part is in range (R32). -/
def parseStamp (bytes : List Byte) : Option Stamp :=
  let sub := ofBE ((bytes.drop 6).take 5)
  if sub ≤ 15999999999 then some ⟨ofBE (bytes.take 6), sub⟩ else none

/-- `n` reports read from their bytes (R32). -/
def parseReports : Nat → List Byte → Option (List Report)
  | 0, _ => some []
  | n + 1, bytes =>
    let addr := (bytes.getD 0 0).toNat
    if validAddress addr then
      match parseStamp (bytes.drop 2), parseReports n (bytes.drop 13) with
      | some t, some rest => some (⟨addr, bytes.getD 1 0, t⟩ :: rest)
      | _, _ => none
    else none

/-- A beacon read from a body: every check of R32 on its fields. -/
def parseBody (body : List Byte) : Option Beacon :=
  let b := fun i => (body.getD i 0).toNat
  let sources := [b 8, b 9, b 10]
  if b 0 / 16 = 1 ∧ validAddress (b 1) ∧ b 7 ≤ 3 ∧ sources.all (fun a => decide (a ≤ 250)) ∧ b 22 ≤ 12 ∧
      body.length = 23 + 13 * b 22 then
    match DState.ofCode (b 3), Trac.ofCode (b 4 % 16), parseStamp (body.drop 11), parseReports (b 22) (body.drop 23) with
    | some st, some tr, some stamp, some reports =>
      if (reports.map Report.addr).Nodup then
        some { sender := b 1
               seq := body.getD 2 0
               adv := { state := st
                        trac := tr
                        rank := b 4 / 16
                        bound := ofBE ((body.drop 5).take 2)
                        urgent := b 7 % 2 == 1
                        standing := b 7 / 2 == 1
                        sources := sources
                        localRef := b 0 / 8 % 2 == 1
                        holdReq := b 0 / 4 % 2 == 1
                        stepCtr := b 0 % 4 }
               stamp := stamp
               reports := reports }
      else none
    | _, _, _, _ => none
  else none

/-- The reception check of R32 on the bytes after the delimiter; `whole` says no partial byte ends them. -/
def parseFrame (bytes : List Byte) (whole : Bool) : Option Beacon :=
  let n := bytes.length - 4
  if whole ∧ 27 ≤ bytes.length ∧ crc32 (bytes.take n) = ofBE (bytes.drop n) then parseBody (bytes.take n) else none

/-! ### The record slot -/

/-- Bytes 0 to 15 of a record (08, section 8.3). -/
def HistRecord.head (r : HistRecord) : List Byte :=
  be 3 r.seq ++ beInt 4 r.fNew ++ beInt 2 r.slope ++ be 1 r.n ++ be 6 r.time

/-- Bytes 0 to 17: the fields with their check (R159). -/
def HistRecord.fields (r : HistRecord) : List Byte := r.head ++ be 2 (crc16 r.head)

/-- All 32 bytes of a committed record (R162). -/
def HistRecord.slot (r : HistRecord) : List Byte := r.fields ++ List.replicate 13 erased ++ [0]

/-- The slot states (R159). -/
inductive SlotState where
  | erased | partlyDone | committed
  deriving DecidableEq, Repr

/-- The state of a slot, judged from its bytes (R159). -/
def slotState (bytes : List Byte) : SlotState :=
  if bytes.all (· == erased) then .erased else if bytes.getD 31 erased = 0 then .committed else .partlyDone

/-- The valid record of a COMMITTED slot, if it has one (R159). -/
def parseRecord (bytes : List Byte) : Option HistRecord :=
  let r : HistRecord :=
    { seq := ofBE (bytes.take 3)
      fNew := ofBESigned ((bytes.drop 3).take 4)
      slope := ofBESigned ((bytes.drop 7).take 2)
      n := ofBE ((bytes.drop 9).take 1)
      time := ofBE ((bytes.drop 10).take 6) }
  if slotState bytes = .committed ∧ ofBE ((bytes.drop 16).take 2) = crc16 (bytes.take 16) ∧ r.seq ≠ 0 ∧
      -100000000 ≤ r.fNew ∧ r.fNew ≤ 100000000 ∧ -1000 ≤ r.slope ∧ r.slope ≤ 1000 ∧ r.n ≤ 64 then some r else none

/-! ### The configuration image (11.5) -/

/-- A field of the image: offset, size in bytes, whether signed, and its range. -/
structure Field where
  off : Nat
  size : Nat
  signed : Bool
  lo : Int
  hi : Int
  deriving DecidableEq, Repr

/-- A byte of the image; a byte the memory failed to return reads FF (R208). -/
def imageByte (image : List Byte) (i : Nat) : Byte := image.getD i 0xFF

/-- `n` bytes of the image from `i`. -/
def imageBytes (image : List Byte) (i n : Nat) : List Byte := (List.range n).map fun j => imageByte image (i + j)

/-- The fields judged against a fixed range, in the order of the layout. -/
def imageTable : List Field :=
  [⟨1, 1, false, 0, 2⟩, ⟨2, 1, false, 2, 15⟩, ⟨3, 1, false, 1, 20⟩, ⟨4, 2, false, 1, 1000⟩, ⟨6, 2, false, 0, 1000⟩,
   ⟨8, 2, false, 0, 32000⟩, ⟨10, 2, false, 0, 32000⟩, ⟨12, 1, false, 0, 6⟩, ⟨13, 1, false, 4, 14⟩,
   ⟨14, 4, false, 100, 100000⟩, ⟨18, 2, false, 10, 1000⟩, ⟨20, 1, false, 2, 60⟩, ⟨21, 1, false, 1, 10⟩,
   ⟨22, 2, false, 100, 60000⟩, ⟨24, 4, false, 0, 100000⟩, ⟨28, 2, false, 0, 10000⟩, ⟨30, 1, false, 0, 1⟩,
   ⟨31, 4, true, -100000, 100000⟩, ⟨35, 2, false, 0, 1000⟩, ⟨37, 4, false, 100, 10000⟩] ++
  [⟨41, 2, false, 50, 5000⟩, ⟨43, 1, false, 1, 255⟩, ⟨44, 1, false, 4, 64⟩, ⟨45, 4, true, -500000000, 499999999⟩,
   ⟨49, 4, false, 1000, 200000000⟩, ⟨53, 1, false, 0, 2⟩, ⟨58, 4, false, 1000, 500000⟩, ⟨62, 4, false, 4, 500000000⟩,
   ⟨66, 4, false, 4, 500000000⟩, ⟨72, 1, false, 1, 60⟩, ⟨73, 1, false, 0, 7⟩, ⟨74, 1, false, 0, 7⟩,
   ⟨79, 1, false, 0, 255⟩]

/-- The field as the image gives it. -/
def Field.raw (image : List Byte) (f : Field) : Int :=
  let bytes := imageBytes image f.off f.size
  if f.signed then ofBESigned bytes else ofBE bytes

/-- The field clamped to the nearest limit of its range (R209). -/
def Field.value (image : List Byte) (f : Field) : Int := clampInt f.lo f.hi (f.raw image)

/-- The clamped value of the field at an offset of the table. -/
def imageValue (image : List Byte) (off : Nat) : Int :=
  match imageTable.find? fun f => f.off == off with
  | some f => f.value image
  | none => 0

/-- The clamped value of an unsigned field. -/
def imageNat (image : List Byte) (off : Nat) : Nat := (imageValue image off).toNat

/-- The interval of a code. -/
def Interval.ofCode : Nat → Interval
  | 0 => .ms125
  | 1 => .ms250
  | _ => .ms500

/-- The frame length of a code. -/
def FrameLen.ofCode : Nat → FrameLen
  | 0 => .ms1
  | 1 => .ms5
  | _ => .ms10

/-- The frame length Lf in nanoseconds. -/
def FrameLen.ns : FrameLen → Nat
  | .ms1 => 1000000
  | .ms5 => 5000000
  | .ms10 => 10000000

/-- The squelch policy of a two-bit code, 3 clamped to 2 (11.5). -/
def Policy.ofCode : Nat → Policy
  | 0 => .always
  | 1 => .notFree
  | _ => .permit

/-- The status-line source of a code. -/
def Source.ofCode : Nat → Source
  | 0 => .stateTrack
  | 1 => .stateHold
  | 2 => .txok
  | 3 => .attn
  | 4 => .anyPeerUrgent
  | 5 => .allPeersTraceable
  | 6 => .twoContributors
  | _ => .refValid

/-- Bit `i` of a number. -/
def bitAt (v i : Nat) : Bool := v / 2 ^ i % 2 == 1

/-- The policy code of output `j` in the two policy bytes. -/
def policyCode (image : List Byte) (j : Nat) : Nat := ofBE (imageBytes image 70 2) / 4 ^ j % 4

/-- The kinds whose permit-gating selection is cleared (R194): the notice kinds and PERMIT_LOST. -/
def neverGating : Kind → Bool
  | .holdEntered | .phaseStep | .historyFault | .permitLost => true
  | _ => false

/-- The frame offset as the image gives it, judged against Lf after Lf's own clamp (R209). -/
def rawFrameOffset (image : List Byte) : Nat := ofBE (imageBytes image 54 4)

/-- The values taken from an image, each field clamped (R209). -/
def imageParams (image : List Byte) : Params :=
  let v := imageNat image
  let lf := FrameLen.ofCode (v 53)
  let pol := fun j => Policy.ofCode (policyCode image j)
  let classBits := ofBE (imageBytes image 75 2)
  let gateBits := ofBE (imageBytes image 77 2)
  { address := (imageByte image 0).toNat
    interval := .ofCode (v 1)
    k := v 2
    dMax := v 3
    a := v 4
    m := v 6
    lTx := v 8
    lRx := v 10
    p := v 12
    i := v 13
    s := v 14
    tLock := v 18
    l := v 20
    g := v 21
    budget := v 22
    hF := v 24
    hA := v 28
    receiver := v 30 == 1
    cable := imageValue image 31
    cableUnc := v 35
    w := v 37
    d := v 41
    tErr := v 43
    tMiss := v 44
    ppsOffset := imageValue image 45
    ppsWidth := v 49
    frameLen := lf
    frameOffset := min (lf.ns - 1) (rawFrameOffset image)
    frameWidth := v 58
    h0 := v 62
    h1 := v 66
    polPps := pol 0
    polFrame := pol 1
    polFrame0 := pol 2
    polFout0 := pol 3
    polFout1 := pol 4
    hP := v 72
    stat0 := .ofCode (v 73)
    stat1 := .ofCode (v 74)
    classes := .ofFn fun k =>
      match Params.defaultClass k with
      | .notice => .notice
      | _ => if bitAt classBits (kindCode k) then .urgent else .standing
    gatingSet := .ofFn fun k => bitAt gateBits (kindCode k) && !neverGating k
    escalation := v 79 }

/-- The image is unusable (R209): its CRC differs, or its station address lies outside 1 to 250. -/
def imageFaulty (image : List Byte) : Bool :=
  decide (crc32 (imageBytes image 0 80) ≠ ofBE (imageBytes image 80 4)) || !validAddress (imageByte image 0).toNat

/-- Some field was clamped or some selection cleared (R209). -/
def imageAdjusted (image : List Byte) : Bool :=
  imageTable.any (fun f => decide (f.raw image ≠ f.value image)) ||
  decide (rawFrameOffset image ≠ (imageParams image).frameOffset) ||
  (List.range 5).any (fun j => policyCode image j == 3) ||
  kinds.any fun k => bitAt (ofBE (imageBytes image 77 2)) (kindCode k) && neverGating k

/-! ### Records the host reads (11.5) -/

/-- The code of a class (11.5). -/
def Class.code : Class → Nat
  | .standing => 0
  | .urgent => 1
  | .notice => 2

/-- The code of an alarm state (11.5). -/
def AlarmState.code : AlarmState → Nat
  | .clear => 0
  | .active => 1
  | .acked => 2
  | .clearedUnacked => 3

/-- The code of an entry state (11.5). -/
def EntryState.code : EntryState → Nat
  | .new => 0
  | .valid => 1
  | .suspect => 2
  | .stale => 3
  | .lockedOut => 4

/-- The code of a configuration status (11.5); a status not yet loaded is never reported (R214). -/
def CfgStatus.code : CfgStatus → Nat
  | .good => 0
  | .adjusted => 1
  | .fault => 2
  | .notLoaded => 2

/-- Seconds and nanoseconds in ten bytes. -/
def secNsBytes (t : SecNs) : List Byte := be 6 t.sec ++ be 4 t.ns

/-- The station status record, 38 bytes (R218, 11.5). -/
def State.statusRecord (s : State) : List Byte :=
  let pub := s.du.pub
  [if s.mp.cause = .pin then 1 else 0, BitVec.ofNat 8 s.mp.restarts, BitVec.ofNat 8 s.mp.status.code,
    BitVec.ofNat 8 (packBits [s.hs.seed.isSome, pub.holdReq, s.ou.txok, pub.localRef, s.au.alarmU, s.au.alarmS]),
    BitVec.ofNat 8 pub.state.code, tracRankByte pub.trac pub.rank] ++ be 2 pub.bound ++
  beInt 4 s.du.f ++ beInt 4 s.du.fInt ++ beInt 4 (clampInt (-2147483648) 2147483647 s.du.lastX) ++
  [BitVec.ofNat 8 s.du.contributors] ++ pub.sources.map (BitVec.ofNat 8) ++ be 4 s.du.elapsed ++ secNsBytes s.now

/-- The peer record, 47 bytes (R86, 11.5). -/
def State.peerRecord (s : State) (slot : Nat) (e : Entry) : List Byte :=
  [BitVec.ofNat 8 slot, BitVec.ofNat 8 e.addr, BitVec.ofNat 8 e.state.code, e.lastSeq] ++ secNsBytes e.heard ++
  be 2 e.silence ++ [BitVec.ofNat 8 (flagBits e.adv), BitVec.ofNat 8 e.adv.state.code, tracRankByte e.adv.trac e.adv.rank] ++
  be 2 e.adv.bound ++ [summaryByte e.adv.urgent e.adv.standing] ++ e.adv.sources.map (BitVec.ofNat 8) ++
  [BitVec.ofNat 8 e.missed, BitVec.ofNat 8 e.received, BitVec.ofNat 8 e.ring.length, BitVec.ofNat 8 e.disagree,
    BitVec.ofNat 8 e.agree, flagByte e.contributor] ++ be 6 e.weight ++ be 2 e.unmatched ++ be 2 e.faults ++
  be 2 e.drops ++ be 2 s.pt.admissions ++ be 2 s.pt.refusals

/-- The alarm record, 29 bytes (R205, 11.5). -/
def State.alarmRecordBytes (s : State) (k : Kind) : List Byte :=
  let r := s.au.records.get k
  [BitVec.ofNat 8 (kindCode k), BitVec.ofNat 8 (s.classOf k).code, BitVec.ofNat 8 r.effective.code, flagByte r.condition,
    BitVec.ofNat 8 r.state.code] ++ be 2 r.raises ++ [flagByte r.first.isSome] ++ secNsBytes (r.first.getD ⟨0, 0⟩) ++
  secNsBytes r.changed ++
  [BitVec.ofNat 8 (packBits [s.mp.params.gatingSet.get k, s.au.attn, s.au.alarmU, s.au.alarmS])]

end Sys2Proof.Machine
end

