-- ==== Sys2Proof/Machine/History.lean ====
section
/-! DEFINITION. The history store (08): the minute-mean ring, F_new and slope, the record area with its appends, and the
start scan. -/

namespace Sys2Proof.Machine

/-! ### The ring (R155 to R158) -/

/-- A completion handed on: F and whether it settled in TRACK (R155). -/
def History.accumulate (h : History) (f : Int) (track : Bool) : History :=
  { h with count := satAdd 255 h.count 1, sum := h.sum + f, allTrack := h.allTrack && track }

/-- The minute boundary that opens the minute of second `sec` (R6). -/
def minuteOf (sec : Nat) : Nat := sec - sec % 60

/-- A completion handed on while the minute boundaries `waiting` are not yet taken: it is added up in the minute that
holds its epoch, which is the one the boundary opens and not the one the boundary closes (R6); where that boundary is
still waiting it is kept aside for it (DESIGN CHOICE, log 51). -/
def History.hand (h : History) (waiting : List Nat) (c : Handed) : History :=
  if waiting.contains (minuteOf c.epoch) then { h with ahead := h.ahead ++ [c] } else h.accumulate c.f c.track

/-- The accumulator opened afresh with the boundaries `waiting` still to be taken: count 0, sum 0 and all-TRACK set
(R155), with the completions kept aside for the minute it opens already added up (R6, log 51). -/
def History.openMinute (h : History) (waiting : List Nat) : History :=
  let mine := h.ahead.filter fun c => !waiting.contains (minuteOf c.epoch)
  { h with
    count := min 255 mine.length
    sum := (mine.map Handed.f).sum
    allTrack := mine.all Handed.track
    ahead := h.ahead.filter fun c => waiting.contains (minuteOf c.epoch) }

/-- The minute just ended is recorded: 60 completions, all in TRACK (R156). -/
def History.minuteWhole (h : History) : Bool := decide (h.count = 60) && h.allTrack

/-- The ring with a new entry, at most 64 (R156). -/
def pushMinute (ring : List Minute) (m : Minute) : List Minute := (ring ++ [m]).drop (ring.length + 1 - 64)

/-- The history is valid (R157). -/
def History.valid (h : History) : Bool := decide (8 ≤ h.ring.length) || h.seed.isSome

/-- The mean of ring entries, rounded half away from zero (R158). -/
def ringMean (ms : List Minute) : Int := roundDiv (ms.map Minute.mean).sum ms.length

/-- The newest `k` entries of the ring. -/
def newest (ring : List Minute) (k : Nat) : List Minute := ring.drop (ring.length - k)

/-- Where F_new and the slope come from (R158). -/
inductive SlopeSource where
  | none | ring | seed
  deriving DecidableEq, Repr

/-- F_new, slope and source (R158). -/
structure Derived where
  fNew : Int
  slope : Int
  source : SlopeSource
  deriving DecidableEq, Repr

/-- F_new, the slope and its source as the ring and the seed stand (R158); 0 and 0 where nothing is derived. -/
def History.derive (h : History) : Derived :=
  let n := h.ring.length
  if 32 ≤ n then
    let new := ringMean (newest h.ring 16)
    ⟨new, clampInt (-1000) 1000 (roundDiv (new - ringMean (h.ring.take 16)) (n - 16)), .ring⟩
  else if 8 ≤ n then ⟨ringMean (newest h.ring (min n 16)), 0, .ring⟩
  else match h.seed with
    | some x => ⟨x.record.fNew, x.record.slope, .seed⟩
    | none => ⟨0, 0, .none⟩

/-- The offset c of the holdover prediction (R141). -/
def History.leadMinutes (h : History) : Nat :=
  let d := h.derive
  if (d.source = .ring ∧ 32 ≤ h.ring.length) ∨ (d.source = .seed ∧ d.slope ≠ 0) then 8 else 0

/-! ### Appends (R159 to R165) -/

/-- The elapsed ticks of a program operation, 1.5 ms (R162). -/
def programTicks : Nat := usTicks 1500

/-- The elapsed ticks of an erase operation, 45 ms (R164). -/
def eraseTicks : Nat := usTicks 45000

/-- A slot's bytes. -/
def History.slotBytes (h : History) (sector : Fin 4) (slot : Nat) : List Byte := h.area.bytes (slotBase sector slot) 32

/-- The slot can be programmed: ERASED, in a sector without a needs-erase mark (R161) that is not unusable (R164). -/
def History.slotFree (h : History) (sector : Fin 4) (slot : Nat) : Bool :=
  decide (slotState (h.slotBytes sector slot) = .erased) && !h.needsErase.contains sector && !h.unusable.contains sector

/-- The slot numbers. -/
def slotNumbers : List (Fin 32) := List.finRange 32

/-- The slot of the current sector the record goes to, if one is left to try (R161). -/
def History.nextFree (h : History) : Option (Fin 32) :=
  slotNumbers.find? fun k => decide (h.nextSlot ≤ k.val) && h.slotFree h.sector k.val

/-- The sector the append moves to: the next usable one in cyclic order, the current one last (R161). -/
def History.nextSector (h : History) : Option (Fin 4) :=
  [h.sector + 1, h.sector + 2, h.sector + 3, h.sector].find? fun c => !h.unusable.contains c

/-- A record placed (R161): programmed in the next ERASED slot, or its sector erased first, or dropped when no sector
is usable; true when it was dropped. -/
def History.place (h : History) (r : HistRecord) (retry : Bool) : History × Bool :=
  match h.nextFree with
  | some k => ({ h with op := .program r retry h.sector k 0 }, false)
  | none =>
    match h.nextSector with
    | some c => ({ h with op := .erase r retry c 0 }, false)
    | none => ({ h with op := .idle }, true)

/-- A record placed, its loss for want of a sector reported (R161). -/
def State.placeRecord (s : State) (r : HistRecord) (retry : Bool) : State :=
  let p := s.hs.place r retry
  let s1 := { s with hs := p.1 }
  if p.2 then s1.notice .historyFault else s1

/-- The operation is IDLE: the pending append, if there is one, goes into flight (R165). -/
def State.startWaiting (s : State) : State :=
  match s.hs.op, s.hs.waiting with
  | .idle, some r => State.placeRecord { s with hs := { s.hs with waiting := none } } r false
  | _, _ => s

/-- A record in flight or retried is placed; where it is dropped the pending append goes next (R161, R163, R165). -/
def State.placeNext (s : State) (r : HistRecord) (retry : Bool) : State := (s.placeRecord r retry).startWaiting

/-- The record made due at the boundary of second `sec` (R160). -/
def History.dueRecord (h : History) (sec : Nat) : HistRecord :=
  let d := h.derive
  ⟨h.lastSeq + 1, d.fNew, d.slope, h.ring.length, sec⟩

/-- A due record goes into flight, or waits, the newer replacing the older (R160, R165). -/
def State.appendRecord (s : State) (r : HistRecord) : State :=
  match s.hs.op with
  | .idle => s.placeRecord r false
  | _ => { s with hs := { s.hs with waiting := some r } }

/-- A minute recorded: the ring, the recorded-minute count, and the append decision (R156, R160). -/
def State.recordMinute (s : State) (sec : Nat) : State :=
  let h := { s.hs with ring := pushMinute s.hs.ring ⟨roundDiv s.hs.sum 60, sec⟩, recorded := s.hs.recorded + 1 }
  if h.recorded < 60 then { s with hs := h }
  else if 16777215 ≤ h.lastSeq then { s with hs := { h with recorded := 0 } }
  else State.appendRecord { s with hs := { h with recorded := 0, lastSeq := h.lastSeq + 1 } } (h.dueRecord sec)

/-- The bytes of a slot after a program of `r` over `old` whose cells gave `left` (R162): bits go from 1 to 0 only, and
the marker is programmed only when bytes 0 to 17 read back right. -/
def programmed (old : List Byte) (r : HistRecord) (left : List Byte) : List Byte :=
  let cells := (old.zip r.slot).mapIdx fun i p => p.1 &&& left.getD i p.2
  if cells.take 18 = r.fields then cells else cells.take 31 ++ [old.getD 31 erased]

/-- The bytes of a slot after a program cut short (R166): each bit old or as intended, the marker begun only when the
fields are whole. -/
def programCut (old : List Byte) (r : HistRecord) (left : List Byte) : List Byte :=
  let cells := (old.zip r.slot).mapIdx fun i p => p.1 &&& (left.getD i p.1 ||| p.2)
  if cells.take 18 = r.fields then cells else cells.take 31 ++ [old.getD 31 erased]

/-- The bytes of a sector after an erase whose cells gave `left`: bits go from 0 to 1 only (R164). -/
def erasedCells (old left : List Byte) (missing : Byte → Byte) : List Byte :=
  old.mapIdx fun i b => b ||| left.getD i (missing b)

/-- The record area after the operation in flight is cut short (R166). -/
def History.cutShort (h : History) (left : List Byte) : Memory :=
  match h.op with
  | .idle => h.area
  | .program r _ c k _ => h.area.writeBytes (slotBase c k.val) (programCut (h.slotBytes c k.val) r left)
  | .erase _ _ c _ => h.area.writeBytes (slotBase c 0) (erasedCells (h.area.bytes (slotBase c 0) 1024) left id)

/-- A program has come to its end (R162, R163). R163 calls the slot of a failed program PARTIAL; what it is from then on
is judged from its bytes alone (R159), which read ERASED where no cell was cleared and COMMITTED where the marker was
programmed whole (log 37). -/
def State.endProgram (s : State) (r : HistRecord) (retry : Bool) (c : Fin 4) (k : Fin 32) (left : List Byte) : State :=
  let cells := programmed (s.hs.slotBytes c k.val) r left
  let s1 := { s with hs := { s.hs with
      area := s.hs.area.writeBytes (slotBase c k.val) cells
      nextSlot := k.val + 1
      op := .idle } }
  if cells = r.slot then s1.startWaiting
  else if retry then (s1.notice .historyFault).startWaiting
  else (s1.notice .historyFault).placeNext r true

/-- An erase has come to its end (R164). -/
def State.endErase (s : State) (r : HistRecord) (retry : Bool) (c : Fin 4) (left : List Byte) : State :=
  let cells := erasedCells (s.hs.area.bytes (slotBase c 0) 1024) left fun _ => erased
  let h := { s.hs with area := s.hs.area.writeBytes (slotBase c 0) cells, op := .idle }
  if cells.all (· == erased) then
    State.placeNext { s with hs := { h with
      sector := c
      nextSlot := 0
      needsErase := h.needsErase.filter (· ≠ c) } } r retry
  else (State.notice { s with hs := { h with unusable := c :: h.unusable.filter (· ≠ c) } } .historyFault).placeNext r retry

/-! ### The start scan (R167) -/

/-- The sectors. -/
def sectors : List (Fin 4) := List.finRange 4

/-- An ERASED slot is followed by one that is not, in slot order (R167). -/
def brokenOrder : List SlotState → Bool
  | [] => false
  | x :: rest => (decide (x = .erased) && rest.any fun y => decide (y ≠ .erased)) || brokenOrder rest

/-- The sector is judged incompletely erased (R167). -/
def History.halfErased (h : History) (c : Fin 4) : Bool :=
  brokenOrder (slotNumbers.map fun k => slotState (h.slotBytes c k.val))

/-- The valid records of the area in scan order (R159, R167). -/
def History.found (h : History) : List Seed :=
  sectors.flatMap fun c => slotNumbers.filterMap fun k => (parseRecord (h.slotBytes c k.val)).map fun r => ⟨r, c, k⟩

/-- The record of highest sequence, the last found among equals (R167). -/
def bestSeed : List Seed → Option Seed
  | [] => none
  | x :: rest =>
    match bestSeed rest with
    | some y => if y.record.seq < x.record.seq then some x else some y
    | none => some x

/-- The history store when the scan is complete (R167). -/
def History.scanned (h : History) : History :=
  let h1 := { h with scanning := false, needsErase := sectors.filter fun c => h.halfErased c }
  match bestSeed h.found with
  | some x => { h1 with seed := some x, lastSeq := x.record.seq, sector := x.sector, nextSlot := x.slot.val + 1 }
  | none => { h1 with seed := none, lastSeq := 0, sector := 3, nextSlot := 32 }

/-! ### History reads (R168, R219) -/

/-- The state and bytes of a slot as READ_HISTORY finds it: ERASED while its sector is erased or it is programmed
(R168). -/
def History.readSlot (h : History) (c : Fin 4) (k : Fin 32) : List Byte :=
  let hidden := match h.op with
    | .idle => false
    | .program _ _ c' k' _ => c' == c && k' == k
    | .erase _ _ c' _ => c' == c
  if hidden then List.replicate 32 erased else h.slotBytes c k.val

/-- The code of a slot state (R219). -/
def SlotState.code : SlotState → Nat
  | .erased => 0
  | .partlyDone => 1
  | .committed => 2

/-- The code of a slope source (R219). -/
def SlopeSource.code : SlopeSource → Nat
  | .none => 0
  | .ring => 1
  | .seed => 2

/-- The history summary (R168, R219). -/
def History.summary (h : History) : List Byte :=
  let d := h.derive
  [BitVec.ofNat 8 h.ring.length, flagByte h.valid] ++ beInt 4 d.fNew ++ beInt 2 d.slope ++
  [BitVec.ofNat 8 d.source.code, flagByte h.seed.isSome] ++
  match h.seed with
  | some x => [BitVec.ofNat 8 x.sector.val, BitVec.ofNat 8 x.slot.val] ++ be 3 x.record.seq
  | none => List.replicate 5 0

/-- The answer for a ring entry by age, absent when the ring has none (R168, R219). -/
def History.ringAnswer (h : History) (age : Nat) : Option (List Byte) :=
  h.ring.reverse[age]?.map fun m => [BitVec.ofNat 8 age] ++ beInt 4 m.mean ++ be 6 m.time ++ h.summary

/-- The answer for a slot (R168, R219). -/
def History.slotAnswer (h : History) (c : Fin 4) (k : Fin 32) : List Byte :=
  let bytes := h.readSlot c k
  [BitVec.ofNat 8 (slotState bytes).code, flagByte (parseRecord bytes).isSome] ++ bytes ++ h.summary

/-! ### The commands of the history store -/

/-- MINUTE_BOUNDARY: the oldest signalled minute boundary is taken (R6, R156, R160). -/
def execMinuteBoundary (s : State) : Host.Outcome State Fault Refusal :=
  s.event fun s =>
    match s.tb.minutes with
    | sec :: rest =>
      let s1 := { s with tb := { s.tb with minutes := rest } }
      let s2 := if s1.hs.minuteWhole then s1.recordMinute sec else s1
      { s2 with hs := s2.hs.openMinute rest }
    | [] => s

/-- PROGRAM_END: 1.5 ms have run; the cells read `left` (R162, R163). -/
def execProgramEnd (left : List Byte) (s : State) : Host.Outcome State Fault Refusal :=
  s.event fun s =>
    match s.hs.op with
    | .program r retry c k ticks => if programTicks ≤ ticks then s.endProgram r retry c k left else s
    | _ => s

/-- ERASE_END: 45 ms have run; the cells read `left` (R164). -/
def execEraseEnd (left : List Byte) (s : State) : Host.Outcome State Fault Refusal :=
  s.event fun s =>
    match s.hs.op with
    | .erase r retry c ticks => if eraseTicks ≤ ticks then s.endErase r retry c left else s
    | _ => s

/-- START_SCAN_COMPLETE: the seed is chosen; its F_new, or 0, is the start-up F unless a completion has set F
(R167, R130, R17). -/
def execStartScanComplete (s : State) : Host.Outcome State Fault Refusal :=
  s.whenDue s.hs.scanning fun s =>
    let h := s.hs.scanned
    let f := if s.du.fSet then s.du.f else clampInt (-100000000) 100000000 ((h.seed.map fun x => x.record.fNew).getD 0)
    let fInt := if s.du.fSet then s.du.fInt else f
    { s with
      hs := h
      du := { s.du with f := f, fInt := fInt }
      tb := { s.tb with increment := incrementOf f } }

end Sys2Proof.Machine
end

