-- ==== Sys2Proof/Machine/Peers.lean ====
section
/-! DEFINITION. The peer table (04): admission, updates from beacons, samples, silence, estimates, verdicts, and the
lockout, release and read commands' work on it. -/

namespace Sys2Proof.Machine

/-! ### Slots -/

/-- The entry in a slot. -/
def State.entryAt (s : State) (i : Nat) : Option Entry := s.pt.slots.getD i none

/-- The slot of the entry with an address (R61). -/
def PeerTable.slotOf (t : PeerTable) (addr : Nat) : Option Nat :=
  t.slots.findIdx? fun o => o.any fun e => e.addr == addr

/-- A slot's content replaced. -/
def State.setSlot (s : State) (i : Nat) (o : Option Entry) : State :=
  { s with pt := { s.pt with slots := s.pt.slots.set i o } }

/-- The entry is measured and judged: VALID or SUSPECT. -/
def Entry.judged (e : Entry) : Bool := decide (e.state = .valid ∨ e.state = .suspect)

/-- The entry can yield samples: NEW, VALID or SUSPECT (R73). -/
def Entry.measurable (e : Entry) : Bool := decide (e.state = .new ∨ e.state = .valid ∨ e.state = .suspect)

/-- PEER_LINK's condition (R69). -/
def State.linkPoor (s : State) : Bool :=
  s.pt.slots.any fun o => o.any fun e => e.judged && decide (s.mp.params.tMiss ≤ e.missed)

/-- PEER_SUSPECT's condition (R83). -/
def State.anySuspect (s : State) : Bool := s.pt.slots.any fun o => o.any fun e => decide (e.state = .suspect)

/-- PEER_LINK and PEER_SUSPECT judged (R69, R83). -/
def State.judgePeers (s : State) : State :=
  let s1 := s.judge .peerLink s.linkPoor
  s1.judge .peerSuspect s1.anySuspect

/-- A slot's content replaced and the two conditions judged afresh. -/
def State.putSlot (s : State) (i : Nat) (o : Option Entry) : State := (s.setSlot i o).judgePeers

/-! ### Entries -/

/-- The advertised fields of a station that has published nothing (R84). -/
def Advertised.free : Advertised where
  state := .free
  trac := .none
  rank := 15
  bound := 65535
  urgent := false
  standing := false
  sources := [0, 0, 0]
  localRef := false
  holdReq := false
  stepCtr := 0

/-- An entry as it is created, with an empty ring and all counts 0 (R62, R84). -/
def Entry.fresh (addr : Nat) (state : EntryState) (adv : Advertised) (seq : Byte) (heard : SecNs) : Entry where
  addr := addr
  state := state
  lastSeq := seq
  heard := heard
  silence := 0
  adv := adv
  missed := 0
  received := 0
  ring := []
  disagree := 0
  agree := 0
  contributor := false
  weight := 0
  marked := false
  unmatched := 0
  faults := 0
  drops := 0

/-- What staleness and lockout clear: ring, contributor flag and weight, snapshot mark, and the two counts (R70, R84). -/
def Entry.cleared (e : Entry) (state : EntryState) : Entry :=
  { e with state := state, ring := [], contributor := false, weight := 0, marked := false, disagree := 0, agree := 0 }

/-- When the beacon was heard: its receive stamp, or the counter for a beacon without one (R65). -/
def heardTime (t4 : Option Stamp) (now : SecNs) : SecNs :=
  match t4 with
  | some t => ⟨t.sec, t.sub / 16⟩
  | none => now

/-- The gap in the sequence numbers (R67). -/
def seqGap (seq last : Byte) : Nat := (seq - last - 1).toNat

/-- An entry updated from a beacon's header and sequence: STALE returns to NEW (R71), a changed step counter clears the
ring (R66), the advertised fields are overwritten (R64), the silence ends (R65), the gap is judged (R67). -/
def Entry.update (e : Entry) (b : Beacon) (heard : SecNs) : Entry :=
  let g := seqGap b.seq e.lastSeq
  { e with
    state := if e.state = .stale then .new else e.state
    ring := if e.adv.stepCtr = b.adv.stepCtr ∧ g ≤ 16 then e.ring else []
    adv := b.adv
    silence := 0
    heard := heard
    missed := if g ≤ 16 then satAdd 255 e.missed g else e.missed
    lastSeq := b.seq }

/-- The halving of the missed count at every sixteenth beacon (R68). -/
def Entry.halve (e : Entry) : Entry :=
  if 16 ≤ e.received + 1 then { e with received := 0, missed := e.missed / 2 } else { e with received := e.received + 1 }

/-- A sample formed from the four instants (R74): offset and delay, each half truncated toward zero. -/
def formSample (t1 t2 t3 t4 : Stamp) : Sample :=
  let a := wrapSigned scale16 (t2.value16 - t1.value16)
  let b := wrapSigned scale16 (t4.value16 - t3.value16)
  ⟨(a - b).tdiv 2, (a + b).tdiv 2, t4⟩

/-- The last four of a ring with a new sample at its end (R76). -/
def pushSample (ring : List Sample) (x : Sample) : List Sample := (ring ++ [x]).drop (ring.length + 1 - 4)

/-- A formed sample checked (R75) and joined to the ring (R76). -/
def Entry.take (e : Entry) (dMax : Nat) (x : Sample) : Entry :=
  if x.delay < -320 ∨ (16000 * dMax : Nat) < x.delay then { e with faults := satAdd 65535 e.faults 1 }
  else
    let ring := pushSample e.ring { x with delay := max 0 x.delay }
    { e with ring := ring, state := if e.state = .new ∧ 2 ≤ ring.length then .valid else e.state }

/-- The tx stamp the transmit history holds for a sequence number (R51). -/
def Line.sentStamp (l : Line) (seq : Byte) : Option Stamp := (l.history.find? fun h => h.seq == seq).map Sent.stamp

/-- An entry after a delivered beacon's report of this station, if it has one (R73 to R76). -/
def Entry.measure (e : Entry) (own dMax : Nat) (l : Line) (b : Beacon) (t4 : Option Stamp) : Entry :=
  match t4, b.reports.find? fun r => r.addr == own with
  | some t4, some r =>
    if e.measurable then
      match l.sentStamp r.seq with
      | some t1 => e.take dMax (formSample t1 r.time b.stamp t4)
      | none => { e with unmatched := satAdd 65535 e.unmatched 1 }
    else e
  | _, _ => e

/-! ### Delivery (R61) -/

/-- The slot of the entry that `better` puts first among those `ok`, with the entry. -/
def pickSlot (ok : Entry → Bool) (better : Entry → Entry → Bool) :
    List (Option Entry) → Nat → Option (Nat × Entry) → Option (Nat × Entry)
  | [], _, best => best
  | o :: rest, i, best =>
    pickSlot ok better rest (i + 1) <|
      match o, best with
      | some e, some b => if ok e && better e b.2 then some (i, e) else best
      | some e, none => if ok e then some (i, e) else none
      | none, _ => best

/-- The slot a newcomer advertising `bound` takes (R62, steps 1 to 3); of several free slots the lowest-numbered (DESIGN
CHOICE, log 43). -/
def PeerTable.slotFor (t : PeerTable) (bound : Nat) : Option Nat :=
  match t.slots.findIdx? Option.isNone with
  | some i => some i
  | none =>
    match pickSlot (fun e => decide (e.state = .stale))
        (fun e b => decide (b.silence < e.silence ∨ e.silence = b.silence ∧ e.addr < b.addr)) t.slots 0 none with
    | some b => some b.1
    | none =>
      match pickSlot (fun e => !e.contributor && decide (e.state ≠ .lockedOut))
          (fun e b => decide (b.adv.bound < e.adv.bound ∨ e.adv.bound = b.adv.bound ∧ b.addr < e.addr)) t.slots 0 none with
      | some b => if bound < b.2.adv.bound then some b.1 else none
      | none => none

/-- A refused beacon (R63). -/
def State.refuse (s : State) : State :=
  State.judge { s with pt := { s.pt with refusals := satAdd 65535 s.pt.refusals 1, refusalAge := 0 } } .tableFull true

/-- The sample part and the drop count of a delivery, on the entry in slot `i` (R61). -/
def State.measureAt (s : State) (i : Nat) (b : Beacon) (t4 : Option Stamp) (unreported : Bool) : State :=
  match s.entryAt i with
  | some e =>
    let e := e.measure s.mp.params.address s.mp.params.dMax s.lc b t4
    s.putSlot i (some (if unreported then { e with drops := satAdd 65535 e.drops 1 } else e))
  | none => s

/-- A beacon accepted onto the entry in slot `i` (R61, R64 to R68). -/
def State.acceptAt (s : State) (i : Nat) (e : Entry) (b : Beacon) (t4 : Option Stamp) : State :=
  let e1 := e.update b (heardTime t4 s.now)
  (s.putSlot i (some e1)).putSlot i (some e1.halve)

/-- A beacon admitted into slot `i`, evicting what is there (R62). -/
def State.admitAt (s : State) (i : Nat) (b : Beacon) (t4 : Option Stamp) : State :=
  let s1 := s.putSlot i none
  State.putSlot { s1 with pt := { s1.pt with admissions := satAdd 65535 s1.pt.admissions 1 } } i
    (some (.fresh b.sender .new b.adv b.seq (heardTime t4 s.now)))

/-- A good beacon delivered to the peer table (R61): `t4` is its receive stamp unless it is marked without stamp. -/
def State.deliver (s : State) (b : Beacon) (t4 : Option Stamp) (unreported : Bool) : State :=
  match s.pt.slotOf b.sender with
  | some i =>
    match s.entryAt i with
    | some e => (s.acceptAt i e b t4).measureAt i b t4 unreported
    | none => s
  | none =>
    match s.pt.slotFor b.adv.bound with
    | some i => (s.admitAt i b t4).measureAt i b t4 unreported
    | none => s.refuse

/-! ### Boundaries (R63, R70, R72) -/

/-- The limit of the silence count: 60,000 ms / B (R70). -/
def silenceLimit (b : Interval) : Nat := 60000 / b.ms

/-- An entry after a beacon-interval boundary, absent when removed (R70, R72). -/
def Entry.age (e : Entry) (limit k : Nat) : Option Entry :=
  let n := min limit (e.silence + 1)
  let e1 := { e with silence := n }
  let e2 := if e.measurable ∧ k ≤ n then e1.cleared .stale else e1
  if e2.state = .stale ∧ limit ≤ n then none else some e2

/-- The slots, visited in order at a boundary. -/
def State.ageSlots (s : State) : List Nat → State
  | [] => s
  | i :: rest =>
    State.ageSlots
      (match s.entryAt i with
       | some e => s.putSlot i (e.age (silenceLimit s.tb.interval) s.mp.params.k)
       | none => s) rest

/-- The peer table's work at a beacon-interval boundary (R63, R70, R72). -/
def State.peerBoundary (s : State) : State :=
  let s1 := s.ageSlots (List.range 24)
  let age := min 16 (s1.pt.refusalAge + 1)
  State.judge { s1 with pt := { s1.pt with refusalAge := age } } .tableFull (decide (age < 16))

/-! ### The snapshot (R78 to R80) -/

/-- The samples no older than 4 s at the epoch of second `epoch` (R78). -/
def keepRecent (epoch : Nat) (ring : List Sample) : List Sample :=
  ring.filter fun x => decide (((epoch : Int) - 4) * 16000000000 ≤ x.time.value16)

/-- The sample of least delay, the newest of those that share it (R79). -/
def leastDelay : List Sample → Option Sample
  | [] => none
  | x :: rest =>
    match leastDelay rest with
    | some y => if x.delay < y.delay then some x else some y
    | none => some x

/-- The spread of the delays: largest minus smallest (R80). -/
def delaySpread (ring : List Sample) : Nat :=
  match ring with
  | [] => 0
  | x :: rest =>
    (rest.foldl (fun m y => max m y.delay) x.delay - rest.foldl (fun m y => min m y.delay) x.delay).toNat

/-- The jitter J in whole nanoseconds, rounded up (R80). -/
def Entry.jitter (e : Entry) : Nat := ceilDiv (delaySpread e.ring) 16

/-- The uncertainty e + J + A, saturating (R80). -/
def Entry.uncertainty (e : Entry) (a : Nat) : Nat := min 65535 (e.adv.bound + e.jitter + a)

/-- The estimate of an entry, if it is handed one: VALID or SUSPECT with two samples or more (R78). -/
def Entry.estimate (e : Entry) (a : Nat) : Option Estimate :=
  match leastDelay e.ring with
  | some x =>
    if e.judged ∧ 2 ≤ e.ring.length then
      some ⟨e.addr, decide (e.state = .suspect), x.offset, e.jitter, e.uncertainty a, e.adv⟩
    else none
  | none => none

/-- An entry at the snapshot: old samples removed, the mark set exactly when it is handed over (R78). -/
def Entry.snapshot (e : Entry) (epoch a : Nat) : Entry :=
  let e1 := { e with ring := keepRecent epoch e.ring }
  { e1 with marked := (e1.estimate a).isSome }

/-- The peer table at the snapshot, and the estimates it hands over in slot order (R78). -/
def PeerTable.snapshot (t : PeerTable) (epoch a : Nat) : PeerTable × List Estimate :=
  let slots := t.slots.map fun o => o.map fun e => e.snapshot epoch a
  ({ t with slots := slots }, slots.filterMap fun o => o.bind fun e => e.estimate a)

/-! ### Verdicts (R81, R82) -/

/-- A verdict applied: `disagrees` true is disagreement (R82). -/
def Entry.verdict (e : Entry) (disagrees : Bool) : Entry :=
  match e.state, disagrees with
  | .valid, true =>
    if 3 ≤ e.disagree + 1 then { e with state := .suspect, agree := 0, disagree := 0 }
    else { e with disagree := e.disagree + 1 }
  | .valid, false => { e with disagree := 0 }
  | .suspect, false =>
    if 10 ≤ e.agree + 1 then { e with state := .valid, agree := 0, disagree := 0 }
    else { e with agree := e.agree + 1 }
  | .suspect, true => { e with agree := 0 }
  | _, _ => e

/-- What a completion writes back for one address: the weight if it contributed, and the verdict if one was given. -/
structure WriteBack where
  addr : Nat
  weight : Option Nat
  verdict : Option Bool
  deriving DecidableEq, Repr

/-- An entry after the write-back (R81): only a marked entry receives flag, weight and verdict. One that its verdict makes
SUSPECT keeps the flag just written until the next completion (DEDUCED, log 44). -/
def Entry.writeBack (e : Entry) (ws : List WriteBack) : Entry :=
  match if e.marked then ws.find? (fun w => w.addr == e.addr) else none with
  | some w =>
    let e1 := { e with contributor := w.weight.isSome, weight := w.weight.getD 0, marked := false }
    match w.verdict with
    | some v => e1.verdict v
    | none => e1
  | none => { e with contributor := false, weight := 0, marked := false }

/-- The write-back to the slots in order (R81, R60). -/
def State.writeBackSlots (s : State) (ws : List WriteBack) : List Nat → State
  | [] => s
  | i :: rest =>
    State.writeBackSlots
      (match s.entryAt i with
       | some e => s.putSlot i (some (e.writeBack ws))
       | none => s) ws rest

/-! ### Steps, restart, lockout, release -/

/-- The step notice: every ring is cleared (R77). -/
def PeerTable.stepNotice (t : PeerTable) : PeerTable :=
  { t with slots := t.slots.map fun o => o.map fun e => { e with ring := [] } }

/-- RESTART empties the table; each condition that was present falls (R88). -/
def State.restartPeers (s : State) : State :=
  let s1 := { s with pt := { s.pt with slots := s.pt.slots.map fun _ => none, refusalAge := 16 } }
  s1.judgePeers.judge .tableFull false

/-- The outcome of LOCKOUT_PEER for a valid address: the table changed, or none when no slot is free (R84); of several
free slots the lowest-numbered is taken (log 43). -/
def State.lockout (s : State) (addr : Nat) : Option State :=
  match s.pt.slotOf addr with
  | some i =>
    match s.entryAt i with
    | some e => some (if e.state = .lockedOut then s else s.putSlot i (some (e.cleared .lockedOut)))
    | none => some s
  | none =>
    match s.pt.slots.findIdx? Option.isNone with
    | some i => some (s.putSlot i (some (.fresh addr .lockedOut .free 0 ⟨0, 0⟩)))
    | none => none

/-- The entry RELEASE_PEER leaves of a LOCKED_OUT one (R85). -/
def Entry.released (e : Entry) : Entry := { e with state := .new, ring := [], disagree := 0, agree := 0 }

/-! ### Status-line sources over the table (R187) -/

/-- ANY_PEER_URGENT. -/
def PeerTable.anyUrgent (t : PeerTable) : Bool := t.slots.any fun o => o.any fun e => e.judged && e.adv.urgent

/-- ALL_PEERS_TRACEABLE. -/
def PeerTable.allTraceable (t : PeerTable) : Bool :=
  (t.slots.any fun o => o.any fun e => decide (e.state = .valid)) &&
  t.slots.all fun o => o.all fun e => decide (e.state = .valid → e.adv.trac = .traceable)

end Sys2Proof.Machine
end

