-- ==== Sys2Proof/Machine/Combine.lean ====
section
/-! DEFINITION. The combine (06) and the discipline states (07): candidates, selection, the combined offset, verdicts,
settling, steering, publication, and the command COMBINE_COMPLETION. -/

namespace Sys2Proof.Machine

/-! ### Candidates and contributors (R108 to R113) -/

/-- A candidate: the reference has address 0, which stands before every peer's, and rank -1 (R109). -/
structure Candidate where
  addr : Nat
  rank : Int
  held : Bool
  offset : Int
  unc : Nat
  deriving DecidableEq, Repr

/-- The conditions of a peer candidate, `own` being this station's address (R108). -/
def Estimate.eligible (e : Estimate) (own : Nat) : Bool :=
  !e.suspect && decide (e.adv.state = .track ∨ e.adv.state = .hold) && decide (e.adv.trac ≠ .none) &&
    decide (e.adv.rank ≤ 13) && !e.adv.urgent && !e.adv.sources.contains own

/-- A peer as a candidate; `held` places it in tier 2 (R110). -/
def Estimate.candidate (e : Estimate) : Candidate where
  addr := e.addr
  rank := e.adv.rank
  held := !decide (e.adv.trac = .traceable ∧ e.adv.state = .track)
  offset := e.offset
  unc := e.unc

/-- The candidates of a snapshot (R108, R109). -/
def Snapshot.candidates (n : Snapshot) (own : Nat) : List Candidate :=
  (n.ref.toList.map fun r => ⟨0, -1, false, r.1, r.2⟩) ++
  ((n.peers.filter fun e => e.eligible own).map Estimate.candidate)

/-- The better-than-self rule applies to this previous publication (R111). -/
def Published.guarded (p : Published) : Bool :=
  decide (p.state = .hold ∨ p.state = .lapsed ∨ p.state = .track ∧ p.trac = .traceable)

/-- The candidates admitted to selection: tier 1 if it holds one, otherwise tier 2 under the better-than-self rule with
margin `m` (R111). -/
def Snapshot.admitted (n : Snapshot) (own m : Nat) : List Candidate :=
  let all := n.candidates own
  let tier1 := all.filter fun c => !c.held
  if tier1.isEmpty then all.filter fun c => !n.prev.guarded || decide (c.unc + m < n.prev.bound) else tier1

/-- One before the other in selection: the smaller uncertainty, then the lower address (R112). -/
def Candidate.before (a b : Candidate) : Bool := decide (a.unc < b.unc ∨ a.unc = b.unc ∧ a.addr ≤ b.addr)

/-- Insertion into a list ordered by `le`. -/
def insertBy {α : Type} (le : α → α → Bool) (a : α) : List α → List α
  | [] => [a]
  | b :: bs => if le a b then a :: b :: bs else b :: insertBy le a bs

/-- A list ordered by `le`. -/
def sortBy {α : Type} (le : α → α → Bool) (l : List α) : List α := l.foldr (insertBy le) []

/-- The contributors, at most four (R112). -/
def Snapshot.contributors (n : Snapshot) (own m : Nat) : List Candidate :=
  (sortBy Candidate.before (n.admitted own m)).take 4

/-- A contributor's weight (R113). -/
def Candidate.weight (c : Candidate) : Nat :=
  if c.unc = 0 then 1099511627776 else 1099511627776 / (c.unc * c.unc)

/-! ### The combined offset and disagreement (R114, R115) -/

/-- The combined offset x, when there is a contributor (R114). -/
def combinedOffset (cs : List Candidate) : Option Int :=
  if cs.isEmpty then none
  else some (roundDiv (cs.map fun c => (c.weight : Int) * c.offset).sum (cs.map Candidate.weight).sum)

/-- A peer's verdict against x (R115). -/
def Estimate.disagrees (e : Estimate) (d : Nat) (x : Int) : Bool := decide (16 * max d e.unc < (e.offset - x).natAbs)

/-- What goes back to the peer table for each peer of the snapshot (R116). -/
def Snapshot.writeBack (n : Snapshot) (d : Nat) (cs : List Candidate) (x : Option Int) : List WriteBack :=
  n.peers.map fun e =>
    { addr := e.addr
      weight := (cs.find? fun c => c.addr == e.addr).map Candidate.weight
      verdict := if 3 ≤ cs.length then x.map fun x => e.disagrees d x else none }

/-! ### Settling (R132 to R140) -/

/-- The three runs (R132). -/
structure Runs where
  lock : Nat
  large : Nat
  none : Nat
  deriving DecidableEq, Repr

/-- All runs 0, as at each change of state (R132). -/
def Runs.zero : Runs := ⟨0, 0, 0⟩

/-- |x| is within a threshold given in nanoseconds (R114). -/
def within (x : Int) (ns : Nat) : Bool := decide (x.natAbs ≤ 16 * ns)

/-- ACQUIRE settled with a contributor: the lock run counted, TRACK when it reaches L (R134). -/
def settleAcquire (p : Params) (lock : Nat) (x : Int) : DState × Runs :=
  if within x p.tLock && within x p.s then
    if p.l ≤ lock + 1 then (.track, .zero) else (.acquire, ⟨lock + 1, 0, 0⟩)
  else (.acquire, .zero)

/-- The state settled and its runs; HOLD stands for holdover, whose bound decides between HOLD and LAPSED (R133 to
R139). -/
def settle (p : Params) (prev : DState) (runs : Runs) (x : Option Int) (holdReq valid : Bool) : DState × Runs :=
  match prev, x with
  | .free, none => (.free, runs)
  | .free, some x => settleAcquire p 0 x
  | .acquire, none =>
    if p.g ≤ runs.none + 1 then (.free, .zero) else (.acquire, { runs with lock := 0, none := runs.none + 1 })
  | .acquire, some x =>
    match settleAcquire p runs.lock x with
    | (.acquire, r) => (.acquire, { r with large := runs.large })
    | other => other
  | .track, x =>
    if holdReq then (.hold, .zero)
    else match x with
      | some x =>
        if within x p.s then (.track, { runs with large := 0, none := 0 })
        else if 3 ≤ runs.large + 1 then (.acquire, .zero)
        else (.track, { runs with large := runs.large + 1, none := 0 })
      | none =>
        if p.g ≤ runs.none + 1 then (if valid then (.hold, .zero) else (.free, .zero))
        else (.track, { runs with large := 0, none := runs.none + 1 })
  | _, some x => if holdReq then (.hold, runs) else (if within x p.s then (.track, .zero) else (.acquire, .zero))
  | _, none => (.hold, runs)

/-- The previous state is one of holdover. -/
def DState.holdover : DState → Bool
  | .hold | .lapsed => true
  | _ => false

/-! ### Holdover (R141 to R145) -/

/-- The holdover entry data at a combine begun at epoch `epoch` (R141). -/
def holdEntry (prev : Published) (h : History) (epoch : Nat) : HoldEntry where
  bound := prev.bound
  rank := prev.rank
  time := epoch
  fNew := h.derive.fNew
  slope := h.derive.slope
  c := h.leadMinutes

/-- The hold elapsed count of a combine begun at epoch `epoch` (R143). R143 forms it as a difference modulo 2^48 that
saturates, and says besides that it stays at its limit once there; 2^48 s after the entry the two pull apart. The formula
is followed, so t returns to 0 there (DESIGN CHOICE, log 50). -/
def HoldEntry.elapsedAt (e : HoldEntry) (epoch : Nat) : Nat :=
  min 4294967295 (((epoch : Int) - e.time) % 281474976710656).toNat

/-- The error bound in holdover (R145). -/
def HoldEntry.boundAt (e : HoldEntry) (hF hA t : Nat) : Nat :=
  min 65535 (e.bound + hF * t / 1000 + hA * (t * t) / 2000000)

/-- The limit of F, in ppt (06). -/
def fLimit : Int := 100000000

/-- The hold frequency before its clamp (R144). -/
def HoldEntry.frequencyAt (e : HoldEntry) (t : Nat) : Int := e.fNew + e.slope * (t / 60 + e.c : Nat)

/-! ### Steering (R117 to R120, R123, R144) -/

/-- What steering sets: F, F_int, the step ordered, and whether the clamp was active where F was produced (R120). -/
structure Steering where
  f : Int
  fInt : Int
  step : Option Int
  clamp : Option Bool
  deriving DecidableEq, Repr

/-- A value lies beyond either limit of F. -/
def beyond (v : Int) : Bool := decide (v < -fLimit ∨ fLimit < v)

/-- F kept (R117). -/
def keepF (f fInt : Int) : Steering := ⟨f, fInt, none, none⟩

/-- The servo with shift exponents P and I on the integral `fInt` (R118, R119). -/
def servo (p i : Nat) (fInt x : Int) : Steering :=
  let fp := roundDiv (1000 * x) (2 ^ (p + 4))
  let cand := clampInt (-fLimit) fLimit (fInt + roundDiv (1000 * x) (2 ^ (i + 4)))
  let active := beyond (cand + fp)
  ⟨clampInt (-fLimit) fLimit (cand + fp), if !active ∨ cand.natAbs < fInt.natAbs then cand else fInt, none, some active⟩

/-- A step of x: F set to F_int (R123). -/
def stepSteering (fInt x : Int) : Steering := ⟨fInt, fInt, some x, some false⟩

/-- The hold frequency (R144). -/
def holdSteering (v fInt : Int) : Steering := ⟨clampInt (-fLimit) fLimit v, fInt, none, some (beyond v)⟩

/-- The steering of the settled state (R107); `hold` is the hold frequency before its clamp. -/
def steer (p : Params) (settled : DState) (f fInt : Int) (x : Option Int) (hold : Int) : Steering :=
  match settled, x with
  | .acquire, some x => if within x p.s then servo p.p p.i fInt x else stepSteering fInt x
  | .track, some x => servo p.p p.i fInt x
  | .hold, _ | .lapsed, _ => holdSteering hold fInt
  | _, _ => keepF f fInt

/-! ### The published status (R125 to R127) -/

/-- The bound of a completion with contributors: u_min + ceil(|x| in ns) (R126). -/
def contributorBound (cs : List Candidate) (x : Int) : Nat :=
  min 65535 (cs.foldl (fun m c => min m c.unc) 65535 + ceilDiv x.natAbs 16)

/-- One more than the smallest contributor rank (R125). -/
def contributorRank (cs : List Candidate) : Nat := (1 + cs.foldl (fun m c => min m c.rank) 14).toNat

/-- One before the other in the source list: the larger weight, then the lower address (R127). -/
def Candidate.heavier (a b : Candidate) : Bool :=
  decide (b.weight < a.weight ∨ a.weight = b.weight ∧ a.addr ≤ b.addr)

/-- The source list: up to three peer contributors, empty slots 0 (R127). -/
def sourceList (cs : List Candidate) : List Nat :=
  (((sortBy Candidate.heavier (cs.filter fun c => c.addr ≠ 0)).map Candidate.addr) ++ [0, 0, 0]).take 3

/-- The status published for the settled state (R125, R127); `bound` and `rank` are those of holdover. -/
def publication (settled : DState) (prev : Published) (cs : List Candidate) (x : Option Int) (holdReq : Bool)
    (bound rank : Nat) : Published :=
  let base : Published := { Published.free with
    state := settled
    localRef := cs.any fun c => c.addr == 0
    holdReq := holdReq }
  match settled, x with
  | .free, _ => base
  | .acquire, some x => { base with bound := contributorBound cs x, sources := sourceList cs }
  | .acquire, none => base
  | .track, some x =>
    { base with
      trac := if cs.any Candidate.held then .held else .traceable
      rank := contributorRank cs
      bound := contributorBound cs x
      sources := sourceList cs }
  | .track, none => { base with trac := prev.trac, rank := prev.rank, bound := prev.bound, sources := prev.sources }
  | .hold, _ => { base with trac := .held, rank := rank, bound := bound }
  | .lapsed, _ => { base with bound := bound }

/-! ### The completion (R107) -/

/-- What a completion comes to: the discipline unit after it, the contributors and x, what it orders and reports. -/
structure Completion where
  du : Discipline
  cs : List Candidate
  x : Option Int
  step : Option Int
  clamp : Option Bool
  entered : Bool
  deriving DecidableEq, Repr

/-- The completion of the combine of snapshot `n` by a station with parameters `p` and history `h` (R107). -/
def Discipline.complete (d : Discipline) (p : Params) (h : History) (n : Snapshot) : Completion :=
  let cs := n.contributors p.address p.m
  let x := combinedOffset cs
  let prev := n.prev.state
  let s := settle p prev ⟨d.lockRun, d.largeRun, d.noneRun⟩ x d.holdReq h.valid
  let holding := s.1.holdover
  let fresh := holdEntry n.prev h n.epoch
  let entry := if prev.holdover then d.hold.getD fresh else fresh
  let t := if prev.holdover then entry.elapsedAt n.epoch else 0
  let u := entry.boundAt p.hF p.hA t
  let settled := if holding && (decide (prev = .lapsed) || decide (p.budget < u)) then .lapsed else s.1
  let fInt := if prev.holdover && !holding then d.f else d.fInt
  let st := steer p settled d.f fInt x (entry.frequencyAt t)
  let runs := if settled = .lapsed ∧ prev ≠ .lapsed then Runs.zero else s.2
  { du :=
      { snapshot := none
        f := st.f
        fInt := st.fInt
        fSet := d.fSet || st.clamp.isSome
        lastX := x.getD d.lastX
        contributors := cs.length
        pub := publication settled n.prev cs x d.holdReq u entry.rank
        unpublished := none
        lockRun := runs.lock
        largeRun := runs.large
        noneRun := runs.none
        holdReq := d.holdReq
        hold := if holding then some entry else none
        elapsed := if holding then t else 0 }
    cs := cs
    x := x
    step := st.step
    clamp := st.clamp
    entered := holding && !prev.holdover }

/-- The results of the completion of a combine begun at epoch `epoch` inside the discipline unit, the time base and the
history store, where F and the state go to the minute that holds that epoch (R121 to R123, R6). -/
def State.settleCompletion (s : State) (c : Completion) (epoch : Nat) : State :=
  { s with
    du := c.du
    tb := { s.tb with increment := incrementOf c.du.f, orders := s.tb.orders ++ c.step.toList }
    hs := s.hs.hand s.tb.minutes ⟨c.du.f, decide (c.du.pub.state = .track), epoch⟩ }

/-- The reports of a completion to the alarm unit: NO_CONTRIBUTOR (R151), HOLD_BUDGET (R140), FREQ_CLAMP (R120), and
the notices PHASE_STEP (R123) and HOLD_ENTERED (R142). -/
def State.reportCompletion (s : State) (c : Completion) : State :=
  let s1 := s.judge .noContributor (decide (c.du.contributors = 0))
  let s2 := s1.judge .holdBudget (decide (c.du.pub.state = .lapsed))
  let s3 := match c.clamp with
    | some active => s2.judge .freqClamp active
    | none => s2
  let s4 := if c.step.isSome then s3.notice .phaseStep else s3
  if c.entered then s4.notice .holdEntered else s4

/-- The write-back of a completion to the peer table (R116, R81). -/
def State.writeBackCompletion (s : State) (ws : List WriteBack) : State := s.writeBackSlots ws (List.range 24)

/-- The readers of the completion's status still see the one published before (R124). -/
def State.holdBack (s : State) (before : Published) : State :=
  { s with du := { s.du with pub := before, unpublished := some s.du.pub } }

/-- The completion of the combine of snapshot `n`; `reports` and `back` say whether the reports, and the write-back,
come before the publication reaches the output unit (R107; log 8), and `late` whether the publication waits for the
next tick, so that the step ordered may come before it (R124; log 47). -/
def State.completeWith (s : State) (n : Snapshot) (reports back late : Bool) : State :=
  let c := s.du.complete s.mp.params s.hs n
  let ws := n.writeBack s.mp.params.d c.cs c.x
  let s1 := s.settleCompletion c n.epoch
  if late && c.step.isSome then ((s1.holdBack s.du.pub).writeBackCompletion ws).reportCompletion c
  else
    let s2 := if back then s1.writeBackCompletion ws else s1
    let s3 := if reports then s2.reportCompletion c else s2
    let s4 := s3.published State.judgePermit
    let s5 := if back then s4 else s4.writeBackCompletion ws
    if reports then s5 else s5.reportCompletion c

/-- COMBINE_COMPLETION: the combine in flight completes (R107). -/
def execCombineCompletion (s : State) : Host.Outcome State Fault Refusal :=
  s.event fun s =>
    match s.du.snapshot with
    | some n =>
      State.completeWith { s with choices := s.choices + 3 } n (Config.reportsFirst s.choices)
        (Config.reportsFirst (s.choices + 1)) (Config.reportsFirst (s.choices + 2))
    | none => s

end Sys2Proof.Machine
end

