-- ==== Sys2Proof/Machine/Line.lean ====
section
/-! DEFINITION. The cluster line (02) and the composition of beacons (03): access, transmission, reception, line
conditions, and the commands of the line. -/

namespace Sys2Proof.Machine

/-! ### Durations in elapsed ticks -/

/-- The interframe gap, 40 µs (R19). -/
def gapTicks : Nat := usTicks 40

/-- The collision window, 64 µs (R26). -/
def windowTicks : Nat := usTicks 64

/-- The jam, 16 µs (R27). -/
def jamTicks : Nat := usTicks 16

/-- The stuck timer's limit, 5 ms (R29). -/
def stuckTicks : Nat := usTicks 5000

/-- From the start of a transmission to its delimiter: eight bytes of preamble, 6.4 µs (R20, R46). -/
def delimiterTicks : Nat := 800

/-- One byte on the line, 800 ns (02, section 2.1). -/
def byteTicks : Nat := 100

/-! ### Small views -/

/-- The station drives the line: a frame or a jam (R31). -/
def Line.driving (l : Line) : Bool := decide (l.access = .send ∨ l.access = .jam)

/-- The stuck timer stands at 5 ms (R24, R29). -/
def Line.stuckFull (l : Line) : Bool := decide (stuckTicks ≤ l.stuck)

/-- The reports of the beacon on the line. -/
def Line.reports (l : Line) : List Report := l.sending.getD []

/-- The length of the frame on the line: preamble, delimiter, header, reports, CRC (R20). -/
def Line.frameTicks (l : Line) : Nat := byteTicks * (8 + 1 + 23 + 13 * l.reports.length + 4)

/-- The eight counts of the abandonment record (R36). -/
def Line.abandoned (l : Line) : Nat := l.abNow + l.abPast.sum

/-- The ten counts of the error window (R35). -/
def Line.discards (l : Line) : Nat := l.errNow + l.errPast.sum

/-- LINE_CONGESTION judged (R36). -/
def State.judgeCongestion (s : State) : State := s.judge .lineCongestion (decide (3 ≤ s.lc.abandoned))

/-- LINE_ERRORS judged (R35): at a discard, at an epoch, and at the load that changes T_err (DEDUCED, log 42). -/
def State.judgeErrors (s : State) : State := s.judge .lineErrors (decide (s.mp.params.tErr ≤ s.lc.discards))

/-! ### Transmission (R24 to R30, R43 to R57) -/

/-- The header as sampled now (R43, R44). -/
def State.header (s : State) : Advertised where
  state := s.du.pub.state
  trac := s.du.pub.trac
  rank := s.du.pub.rank
  bound := s.du.pub.bound
  urgent := s.au.alarmU
  standing := s.au.alarmS
  sources := s.du.pub.sources
  localRef := s.du.pub.localRef
  holdReq := s.du.pub.holdReq
  stepCtr := s.tb.stepCtr

/-- A transmission starts (R25): the header is sampled (R43), a first attempt swaps the planes (R53), a retry does not
(R54), the step wait is cleared (R57). The part's own signal makes carrier present (R19, log 12). A station whose
configuration is not loaded holds no instant and has no beacon to start (R58; `State.lineBoundary`). -/
def State.startTx (s : State) : State :=
  let l := s.lc
  let first := l.attempts = 0
  { s with lc := { l with
      access := .send
      beacon := true
      sent := 0
      carrier := true
      idle := false
      gap := 0
      stuck := 0
      receiver := .off
      filling := if first then [] else l.filling
      sending := some (if first then l.filling else l.reports)
      stepWait := false
      record := some { sender := s.mp.params.address, seq := l.seq, adv := s.header, steps := [], stamp := none } } }

/-- The pending beacon is given up: no longer pending, its sending plane released (R28, R55). -/
def Line.giveUp (l : Line) : Line := { l with beacon := false, sending := none }

/-- The pending beacon is abandoned: given up and counted (R28, R36). -/
def State.abandon (s : State) : State :=
  State.judgeCongestion { s with lc := { s.lc.giveUp with abNow := min 2 (s.lc.abNow + 1) } }

/-- A new beacon pending while a jam is driven (R24, R27): abandoned at once on a stuck line. -/
def State.pendInJam (s : State) : State :=
  let s1 := { s with lc := { s.lc with attempts := 0, beacon := true } }
  if s.lc.stuckFull then s1.abandon else s1

/-- A new beacon pending as from WAIT (R24): abandoned on a stuck line, started on an idle one, deferred otherwise. -/
def State.pend (s : State) : State :=
  let s1 := { s with lc := { s.lc with attempts := 0, beacon := true, access := .wait, backoff := 0 } }
  if s.lc.stuckFull then s1.abandon
  else if s.lc.idle then s1.startTx
  else { s1 with lc := { s1.lc with access := .defer } }

/-- The next instant is reached (R24). A beacon whose frame or jam ends in LISTEN or CLASH_HOLD is followed by none
(R38, R42, log 17). Where an abandonment raises LINE_CONGESTION and the new beacon starts in the same event, its header is
sampled with the pins as the rise left them (R204, R43; DESIGN CHOICE, log 57). -/
def State.instantReached (s : State) : State :=
  let s1 := { s with lc := { s.lc with nextInstant := none } }
  match s.lc.access, s.lc.after with
  | .wait, _ => s1.pend
  | .defer, _ | .backoff, _ => s1.abandon.pend
  | .jam, .normal => (if s1.lc.beacon then s1.abandon else s1).pendInJam
  | .send, .normal => { s1 with lc := { s1.lc with due := true } }
  | _, _ => s1

/-- The station stops driving: while carrier stays, the receiver looks for a delimiter from now on (R31). -/
def Line.stopDriving (l : Line) : Line := { l with receiver := if l.carrier then .searching else .off }

/-- The frame on the line is cut by a collision (R27, R38, R42, R57). -/
def State.collide (s : State) : State :=
  let l := s.lc
  let preStep := l.record.any fun r => r.steps ≠ []
  let s1 := { s with lc := { l with
      access := .jam
      jam := 0
      attempts := l.attempts + 1
      record := none
      sending := if preStep then l.sending.map fun _ => [] else l.sending } }
  match l.after with
  | .normal =>
    if l.due then State.pendInJam { s1.abandon with lc := { s1.abandon.lc with due := false } }
    else if 4 ≤ l.attempts + 1 then s1.abandon
    else s1
  | _ => { s1 with lc := { s1.lc.giveUp with due := false } }

/-- The jam ends (R27, R38, R42). -/
def State.endJam (s : State) : State :=
  let l := s.lc.stopDriving
  match l.after with
  | .clashHold => { s with lc := { l with access := .clashHold, after := .normal } }
  | .listen => { s with lc := { l with access := .listen, after := .normal } }
  | .normal =>
    if !l.beacon then { s with lc := { l with access := .wait } }
    else if l.attempts = 0 then { s with lc := { l with access := .defer } }
    else
      State.drew { s with lc := { l with
        access := .backoff
        backoff := usTicks 100 * s.draw 0 (2 ^ l.attempts - 1) } }

/-- The transmit history with a new entry, at most eight (R49). -/
def pushSent (h : List Sent) (x : Sent) : List Sent := (h ++ [x]).drop (h.length + 1 - 8)

/-- The beacon a transmission record and the sending plane put on the line (R44, R45). -/
def TxRecord.beacon (r : TxRecord) (stamp : Stamp) (reports : List Report) : Beacon where
  sender := r.sender
  seq := r.seq
  adv := r.adv
  stamp := stamp
  reports := reports

/-- The last bit of the CRC has been driven (R26, R47, R49, R50, R55, R38, R42). -/
def State.complete (s : State) (r : TxRecord) (stamp : Stamp) : State :=
  let l := s.lc
  let logged := r.steps = [] ∧ l.after ≠ .listen
  let l1 := Line.stopDriving { l with
      driven := (r.beacon stamp l.reports).lineBits
      seq := l.seq + 1
      history := if logged then pushSent l.history ⟨r.seq, stamp⟩ else l.history
      sending := none
      attempts := 0
      record := none
      beacon := false
      due := false
      after := .normal }
  match l.after with
  | .clashHold => { s with lc := { l1 with access := .clashHold } }
  | .listen => { s with lc := { l1 with access := .listen } }
  | .normal =>
    let s1 := { s with lc := { l1 with access := .wait } }
    if l.due then s1.pend else s1

/-! ### Reception (R31 to R38, R48, R52) -/

/-- A reception discarded and counted (R34, R35). -/
def State.discard (s : State) : State :=
  State.judgeErrors { s with lc := { s.lc with errNow := satAdd 255 s.lc.errNow 1 } }

/-- A plane with a report added, and whether the report was dropped (R52). -/
def addReport (plane : List Report) (r : Report) : List Report × Bool :=
  if plane.any fun p => p.addr == r.addr then (plane.map fun p => if p.addr = r.addr then r else p, false)
  else if plane.length < 12 then (plane ++ [r], false)
  else (plane, true)

/-- The receive stamp: the RX capture less L_rx, absent when a step has come since (R33, R48). -/
def State.receiveStamp (s : State) : Option Stamp :=
  match s.tb.rx with
  | some c => if c.tag = s.tb.stepCtr then some (.of16 (c.stamp.value16 - s.mp.params.lRx)) else none
  | none => none

/-- A good beacon of another station: its report to the filling plane, then the beacon to the peer table (R33, R52). -/
def State.goodBeacon (s : State) (b : Beacon) : State :=
  match s.receiveStamp with
  | some t =>
    if s.lc.stepWait then s.deliver b (some t) false
    else
      let p := addReport s.lc.filling ⟨b.sender, b.seq, t⟩
      State.deliver { s with lc := { s.lc with filling := p.1 } } b (some t) p.2
  | none => s.deliver b none false

/-- The access state's part of a clash beacon (R38). In SEND and JAM a next instant held is kept, as R38 discards it only
beside WAIT, DEFER and BACKOFF (DESIGN CHOICE, log 53). -/
def Line.clashed (l : Line) : Line :=
  match l.access with
  | .wait => { l with access := .clashHold, nextInstant := none, due := false }
  | .defer | .backoff => { l.giveUp with access := .clashHold, nextInstant := none, due := false, backoff := 0 }
  | .send => { l with after := if l.after = .listen then .listen else .clashHold, due := false }
  | .jam => { l.giveUp with after := if l.after = .listen then .listen else .clashHold, due := false }
  | _ => { l with due := false }

/-- A clash beacon (R37, R38). -/
def State.clashBeacon (s : State) : State :=
  let n := s.draw 8 15
  State.judge (State.drew { s with lc := { s.lc.clashed with clash := n, clashAge := 0 } }) .addressClash true

/-- Collection has ended: the reception is checked and delivered, compared for a clash, or discarded (R32, R33, R40). -/
def State.receive (s : State) (bytes : List Byte) (whole : Bool) : State :=
  match parseFrame bytes whole with
  | some b =>
    if s.loaded then (if b.sender = s.mp.params.address then s.clashBeacon else s.goodBeacon b) else s
  | none => s.discard

/-! ### Boundaries, steps, restart -/

/-- The access state after a boundary's counting (R22, R39; log 16). -/
def Line.boundaryAccess (l : Line) : Access :=
  match l.access with
  | .listen => if 0 < l.listen then .listen else if 0 < l.clash then .clashHold else .wait
  | .clashHold => if 0 < l.clash then .clashHold else if 0 < l.listen then .listen else .wait
  | a => a

/-- An instant is drawn at a boundary in this access state (R22). -/
def Access.draws : Access → Bool
  | .wait | .defer | .send | .jam | .backoff => true
  | _ => false

/-- The line controller's work at the boundary of time `t` (R22, R23, R36, R37). Before the load completes it counts and
draws no instant, as in MUTE, so that no beacon is composed (R40, R58; log 52). The instant drawn or the end of drawing
replaces the one held, one that the same tick has reached and that no command has taken yet included, where R22 speaks
only of one not yet reached (DESIGN CHOICE, log 49). -/
def State.lineBoundary (s : State) (t : Nat) : State :=
  let l := s.lc
  let l1 := { l with
      listen := l.listen - 1
      clash := l.clash - 1
      clashAge := min 16 (l.clashAge + 1)
      abNow := 0
      abPast := l.abNow :: l.abPast.take 6 }
  let access := l1.boundaryAccess
  let ms := s.tb.interval.ms
  let s1 :=
    if access.draws && s.loaded then
      State.drew { s with lc := { l1 with
        access := access
        nextInstant := some ⟨t + s.draw (ms * 100) (ms * 900) * usU, false⟩ } }
    else { s with lc := { l1 with access := access, nextInstant := none } }
  s1.judgeCongestion.judge .addressClash (decide (s1.lc.clashAge < 16))

/-- The error window moves on at an epoch (R34, R35). -/
def State.windowEpoch (s : State) : State :=
  State.judgeErrors { s with lc := { s.lc with errNow := 0, errPast := s.lc.errNow :: s.lc.errPast.take 8 } }

/-- The step notice at the line controller (R50, R57). -/
def Line.stepNotice (l : Line) (applied : Int) : Line :=
  { l with
    history := []
    filling := []
    stepWait := true
    sending := if l.access = .send then l.sending else l.sending.map fun _ => []
    record := l.record.map fun r => { r with steps := r.steps ++ [applied] } }

/-- RESTART at the line controller (R42, R59). -/
def Line.restart (l : Line) : Line :=
  let l1 := { l with listen := 3, nextInstant := none, due := false, history := [], filling := [] }
  match l.access with
  | .send => { l1 with after := .listen }
  | .jam => { l1.giveUp with after := .listen }
  | .mute => l1
  | _ => { l1.giveUp with access := .listen, backoff := 0 }

/-! ### The commands of the line -/

/-- CARRIER_PRESENT: the first transition on a line without carrier (R19, R29, R31). -/
def execCarrierPresent (s : State) : Host.Outcome State Fault Refusal :=
  s.whenDue (!s.lc.carrier) fun s =>
    { s with lc := { s.lc with
        carrier := true
        idle := false
        gap := 0
        stuck := 0
        receiver := if s.lc.driving then .off else .searching } }

/-- CARRIER_ABSENT: carrier ends while the station is not driving; a collection in progress ends with the bytes given
(R19, R31, R32). -/
def execCarrierAbsent (bytes : List Byte) (whole : Bool) (s : State) : Host.Outcome State Fault Refusal :=
  s.whenDue (s.lc.carrier && !s.lc.driving) fun s =>
    let s1 := { s with lc := { s.lc with carrier := false, idle := false, gap := 0, stuck := 0, receiver := .off } }
    if s.lc.receiver = .collecting then s1.receive bytes whole else s1

/-- RECEPTION_OVERLONG: the byte count of a collection, with these bytes so far, passes 183 (R31; log 54). -/
def execReceptionOverlong (s : State) (bytes : List Byte := []) : Host.Outcome State Fault Refusal :=
  s.whenDue (decide (s.lc.receiver = .collecting ∧ 183 < bytes.length)) fun s =>
    State.discard { s with lc := { s.lc with receiver := .ignoring } }

/-- RX_CAPTURE: the bits recovered since the receiver began to look end in a start delimiter, whose cell begins at the
position given (R31, R9, R10; logs 14 and 54). -/
def execRxCapture (found : Delimiter) (s : State) : Host.Outcome State Fault Refusal :=
  s.whenDue (s.lc.carrier && decide (s.lc.receiver = .searching) && delimiterFound found.bits) fun s =>
    { s with
      tb := { s.tb with rx := some (s.tb.capture found.q.toNat) }
      lc := { s.lc with receiver := .collecting } }

/-- A tick has reached the next instant, in a state that has use for it (R23, R24). -/
def State.instantDue (s : State) : Bool := s.lc.access.draws && s.lc.nextInstant.any Instant.reached

/-- NEXT_INSTANT_REACHED (R24). -/
def execNextInstantReached (s : State) : Host.Outcome State Fault Refusal := s.whenDue s.instantDue State.instantReached

/-- LINE_IDLE: the gap has run; a deferred beacon starts (R19, R25). -/
def execLineIdle (s : State) : Host.Outcome State Fault Refusal :=
  s.whenDue (!s.lc.carrier && !s.lc.idle && decide (gapTicks ≤ s.lc.gap)) fun s =>
    let s1 := { s with lc := { s.lc with idle := true } }
    if s.lc.access = .defer then s1.startTx else s1

/-- The corrected tx stamp of a capture (R45, R46; log 15). -/
def TxRecord.correct (r : TxRecord) (cap : Capture) (lTx : Nat) : Stamp :=
  .of16 ((if cap.tag = r.adv.stepCtr then cap.stamp.value16 else cap.stamp.value16 - r.steps.sum) + lTx)

/-- TX_CAPTURE: the delimiter of the frame on the line is driven at position `q` (R45, R46). -/
def execTxCapture (q : BitVec 7) (s : State) : Host.Outcome State Fault Refusal :=
  s.whenDue (decide (s.lc.access = .send ∧ delimiterTicks ≤ s.lc.sent) && s.lc.record.any fun r => r.stamp.isNone) fun s =>
    let cap := s.tb.capture q.toNat
    { s with
      tb := { s.tb with tx := some cap }
      lc := { s.lc with record := s.lc.record.map fun r => { r with stamp := some (r.correct cap s.mp.params.lTx) } } }

/-- COLLISION_DETECTED: a read-back mismatch within the collision window (R26, R27). -/
def execCollisionDetected (s : State) : Host.Outcome State Fault Refusal :=
  s.whenDue (decide (s.lc.access = .send ∧ s.lc.sent < windowTicks ∧ s.lc.sent < s.lc.frameTicks)) State.collide

/-- JAM_END (R27). -/
def execJamEnd (s : State) : Host.Outcome State Fault Refusal :=
  s.whenDue (decide (s.lc.access = .jam ∧ jamTicks ≤ s.lc.jam)) State.endJam

/-- BACKOFF_END: the retry starts on an idle line and waits on a busy one (R27). -/
def execBackoffEnd (s : State) : Host.Outcome State Fault Refusal :=
  s.whenDue (decide (s.lc.access = .backoff ∧ s.lc.backoff = 0)) fun s =>
    if s.lc.idle then s.startTx else { s with lc := { s.lc with access := .defer } }

/-- The record of a transmission whose frame has been driven to its end: its delimiter has been captured and its
length has run (R20, R26). -/
def State.drivenOut (s : State) : Option (TxRecord × Stamp) :=
  match s.lc.record with
  | some r =>
    match r.stamp with
    | some t => if s.lc.access = .send ∧ s.lc.frameTicks ≤ s.lc.sent then some (r, t) else none
    | none => none
  | none => none

/-- TRANSMISSION_COMPLETE (R26). -/
def execTransmissionComplete (s : State) : Host.Outcome State Fault Refusal :=
  s.event fun s =>
    match s.drivenOut with
    | some (r, t) => s.complete r t
    | none => s

/-- STUCK_TIMER_EXPIRY: 5 ms of carrier with a beacon pending in DEFER or BACKOFF (R29). -/
def execStuckTimerExpiry (s : State) : Host.Outcome State Fault Refusal :=
  s.whenDue (s.lc.carrier && s.lc.stuckFull && decide (s.lc.access = .defer ∨ s.lc.access = .backoff)) fun s =>
    State.abandon { s with lc := { s.lc with access := .wait, backoff := 0 } }

end Sys2Proof.Machine
end

