-- ==== Sys2Proof/Machine/Reference.lean ====
section
/-! DEFINITION. The local reference input (05): messages, edges, the window gate, loss, and the sample. -/

namespace Sys2Proof.Machine

/-! ### Spans -/

/-- The elapsed ticks between two bytes of a message that abandon it: more than 1 ms (R90). -/
def byteGapTicks : Nat := usTicks 1000

/-- The life of a pending message, 1.1 s of elapsed ticks (R91). -/
def messageTicks : Nat := usTicks 1100000

/-- 2.5 s of station time: from an accepted edge to the loss deadline (R98). -/
def lossSpan : Int := (secU * 5 / 2 : Nat)

/-- The difference of two times on the circle of the time scale. -/
def timeDiff (a b : Int) : Int := wrapSigned scaleU (a - b)

/-! ### Messages (R90, R91) -/

/-- The pending message of the twelve bytes of a message, if it is valid (R90). -/
def parseMessage (bytes : List Byte) : Option Message :=
  let status := (bytes.getD 8 0).toNat
  if status ≤ 1 ∧ ((bytes.drop 2).map BitVec.toNat).sum % 256 = 0 then
    some ⟨ofBE ((bytes.drop 2).take 6), status == 1, ofBE ((bytes.drop 9).take 2), 0⟩
  else none

/-- One byte at the message collector: hunting for 6E then 91, then collecting ten bytes (R90). -/
def RefInput.takeByte (r : RefInput) (b : Byte) : RefInput :=
  let r1 := { r with quiet := 0 }
  match r.held with
  | [] => { r1 with held := if b = 0x6E then [b] else [] }
  | [_] => { r1 with held := if b = 0x91 then r.held ++ [b] else if b = 0x6E then [b] else [] }
  | _ =>
    if r.held.length < 11 then { r1 with held := r.held ++ [b] }
    else { r1 with held := [], message := (parseMessage (r.held ++ [b])).orElse fun _ => r.message }

/-- Bytes at the collector, in order. -/
def RefInput.takeBytes (r : RefInput) : List Byte → RefInput
  | [] => r
  | b :: bs => (r.takeByte b).takeBytes bs

/-! ### The gate -/

/-- The gate reopens (R97, R98, R103): OPEN, no expected edge, runs 0, no sample, reference valid clear. -/
def RefInput.reopen (r : RefInput) : RefInput :=
  { r with closed := false, expected := none, run := 0, misplaced := 0, valid := false, sample := none }

/-- The block becomes ACTIVE at the counter's value `now` (R89). -/
def RefInput.activate (now : Nat) : RefInput :=
  { RefInput.reset with active := true, deadline := some (now + lossSpan) }

/-- An accepted edge at corrected time `t`: last accepted edge and loss deadline (R95, R96, R98). -/
def RefInput.accept (r : RefInput) (t : Int) : RefInput := { r with last := some t, deadline := some (t + lossSpan) }

/-- The qualifying run after a paired edge in the OPEN gate, before the gate closes (R95). -/
def RefInput.qualify (r : RefInput) (t : Int) (label : Nat) : RefInput :=
  let follows := (timeDiff t (r.runTime + secU)).natAbs ≤ 1000 * nsU ∧ label = (r.runLabel + 1) % 281474976710656
  { r with run := if r.run = 0 then 1 else if follows then r.run + 1 else 1, runTime := t, runLabel := label }

/-- The gate closes when the run has reached 4 (R95). -/
def RefInput.closeAt (r : RefInput) (t : Int) : RefInput :=
  if 4 ≤ r.run then { r with closed := true, expected := some (wrapTop (t + secU)), misplaced := 0, run := 0 } else r

/-- The reference sample of an edge at `t` paired with a valid fix (R94). -/
def refSample (m : Message) (cableUnc : Nat) (t : Int) : RefSample :=
  ⟨(timeDiff (m.label * secU : Nat) t).tdiv sixteenthU, min 65535 (m.accuracy + cableUnc), t⟩

/-- What an accepted edge yields: a sample, ending REF_LOSS and the no-sample run, or one more edge without a sample,
the third in a row raising REF_LOSS (R94, R99, R100). `inWindow` tells the CLOSED gate. -/
def State.yieldSample (s : State) (t : Int) (m : Option Message) (inWindow : Bool) : State :=
  match m.filter Message.fix with
  | some m =>
    State.judge { s with ri := { s.ri with
        sample := some (refSample m s.mp.params.cableUnc t)
        noSample := 0
        valid := inWindow } } .refLoss false
  | none =>
    let n := min 3 (s.ri.noSample + 1)
    let s1 := { s with ri := { s.ri with noSample := n, valid := false } }
    if 3 ≤ n then s1.judge .refLoss true else s1

/-- An edge in the OPEN gate: a paired edge is accepted, an unpaired one ignored (R93, R95). -/
def State.openEdge (s : State) (t : Int) : State :=
  match s.ri.message with
  | some m =>
    let r := (({ s.ri with message := none }.accept t).qualify t m.label).closeAt t
    State.yieldSample { s with ri := r } t (some m) false
  | none => s

/-- An edge inside the window of the CLOSED gate (R96, R97). -/
def State.windowEdge (s : State) (t : Int) : State :=
  let r := { s.ri.accept t with expected := some (wrapTop (t + secU)), misplaced := 0, message := none }
  (State.yieldSample { s with ri := r } t s.ri.message true).judge .refMisplaced false

/-- An edge outside the window of the CLOSED gate; the third of a run reopens the gate (R97). -/
def State.misplacedEdge (s : State) : State :=
  if 3 ≤ s.ri.misplaced + 1 then State.judge { s with ri := s.ri.reopen } .refMisplaced true
  else { s with ri := { s.ri with misplaced := s.ri.misplaced + 1 } }

/-- A captured edge judged by the gate (R92, R93). A corrected time that a negative cable delay carries past the top of
the time scale is left as it is, above the top (DESIGN CHOICE, log 45). -/
def State.judgeEdge (s : State) (c : Capture) : State :=
  if c.tag ≠ s.tb.stepCtr then { s with ri := { s.ri with message := none } }
  else
    let t := max 0 (c.stamp.value16 * sixteenthU - s.mp.params.cable * nsU)
    match s.ri.closed, s.ri.expected with
    | true, some e =>
      if (timeDiff t e).natAbs ≤ s.mp.params.w * nsU then s.windowEdge t else s.misplacedEdge
    | true, none => s.misplacedEdge
    | false, _ => s.openEdge t

/-- The reference sample handed at the epoch of second `epoch`, if it is at most 1.5 s old (R101). -/
def RefInput.hand (r : RefInput) (epoch : Nat) : Option (Int × Nat) :=
  r.sample.bind fun x => if ((epoch * secU : Nat) : Int) - x.time ≤ (secU * 3 / 2 : Nat) then some (x.offset, x.unc) else none

/-- The step notice at the reference input: the sample discarded, every time moved by the applied amount (R102). -/
def RefInput.stepNotice (r : RefInput) (applied : Int) : RefInput :=
  let d := applied * sixteenthU
  { r with
    sample := none
    expected := r.expected.map (· + d)
    last := r.last.map (· + d)
    runTime := r.runTime + d
    deadline := r.deadline.map (· + d) }

/-! ### The commands of the reference input -/

/-- REF_MESSAGE: serial bytes arrive, the last of a whole message among them (R90). -/
def execRefMessage (bytes : List Byte) (s : State) : Host.Outcome State Fault Refusal :=
  s.whenDue s.ri.active fun s => { s with ri := s.ri.takeBytes bytes }

/-- MESSAGE_COLLECTION_TIMEOUT: more than 1 ms between two bytes (R90). -/
def execMessageCollectionTimeout (s : State) : Host.Outcome State Fault Refusal :=
  s.whenDue (s.ri.active && decide (byteGapTicks < s.ri.quiet)) fun s => { s with ri := { s.ri with held := [] } }

/-- MESSAGE_BYTE_STOP_BIT_LOW: the collection is abandoned, hunting goes on from the next byte (R90). -/
def execMessageByteStopBitLow (s : State) : Host.Outcome State Fault Refusal :=
  s.whenDue s.ri.active fun s => { s with ri := { s.ri with held := [], quiet := 0 } }

/-- PENDING_MESSAGE_EXPIRY: 1.1 s without an edge that pairs (R91). -/
def execPendingMessageExpiry (s : State) : Host.Outcome State Fault Refusal :=
  s.whenDue (s.ri.message.any fun m => decide (messageTicks ≤ m.age)) fun s => { s with ri := { s.ri with message := none } }

/-- What the REF channel hands of an edge, if there is anything to hand (R92, R9, R10; log 46). -/
def TimeBase.refCapture (t : TimeBase) (edge : Edge) : Option Capture :=
  if edge.late then t.captureBefore edge.q.toNat else some (t.capture edge.q.toNat)

/-- REF_EDGE: a rising edge, captured and judged (R92). -/
def execRefEdge (edge : Edge) (s : State) : Host.Outcome State Fault Refusal :=
  s.whenDue s.ri.active fun s =>
    match s.tb.refCapture edge with
    | some c => State.judgeEdge { s with tb := { s.tb with ref := some c } } c
    | none => s

/-- The loss deadline has been reached (R98). -/
def State.lossDue (s : State) : Bool := s.ri.deadline.any fun d => reached s.tb.counter.value d

/-- The window's give-up has been reached: E + 0.5 s (R96). -/
def State.giveUpDue (s : State) : Bool :=
  s.ri.closed && s.ri.expected.any fun e => reached s.tb.counter.value (e + (secU / 2 : Nat))

/-- WINDOW_GIVE_UP: E advances by 1 s and reference valid is cleared, but where the loss deadline has come too, which
applies in its place (R96, R98, R100). -/
def execWindowGiveUp (s : State) : Host.Outcome State Fault Refusal :=
  s.whenDue (s.giveUpDue && !s.lossDue) fun s =>
    { s with ri := { s.ri with expected := s.ri.expected.map fun e => wrapTop (e + secU), valid := false } }

/-- LOSS_DEADLINE_EXPIRY (R98). -/
def execLossDeadlineExpiry (s : State) : Host.Outcome State Fault Refusal :=
  s.whenDue s.lossDue fun s => State.judge { s with ri := { s.ri.reopen with deadline := none } } .refLoss true

end Sys2Proof.Machine
end

