-- ==== Sys2Proof/Machine/Port.lean ====
section
/-! DEFINITION. The management port (11): transactions, the response buffer, and the host's commands. -/

namespace Sys2Proof.Machine

/-! ### Answers (R215, R216) -/

/-- An answer: the response code and the data. -/
structure Reply where
  code : Byte
  data : List Byte
  deriving DecidableEq, Repr

/-- OK with data (R215). -/
def Reply.ok (data : List Byte) : Reply := ⟨1, data⟩

/-- BAD_COMMAND (R215). -/
def Reply.badCommand : Reply := ⟨2, []⟩

/-- BAD_ARGUMENT (R215). -/
def Reply.badArgument : Reply := ⟨3, []⟩

/-- NOT_FOUND (R215). -/
def Reply.notFound : Reply := ⟨4, []⟩

/-- REFUSED (R215). -/
def Reply.refused : Reply := ⟨5, []⟩

/-- The response frame of an answer to command `code` (11.5). -/
def Reply.frame (r : Reply) (code : Byte) : List Byte := [r.code, code, BitVec.ofNat 8 r.data.length] ++ r.data

/-- The level of the RDY pin: high, which is asserted, exactly while the buffer is READY, and low while the part is held
(R213, R216, R211). -/
def State.rdy (s : State) : Bool :=
  match s.mp.buffer with
  | .ready _ => decide (s.held = .nothing)
  | _ => false

/-- The levels the SPI target has put on data out in the last transaction, bit by bit; it does not drive data out while the
part is held (R213, R211). -/
def State.dataOut (s : State) : Option (List Bool) :=
  if s.held = .nothing then some (spiDataOut s.mp.spiOut) else none

/-- The level of data out at each instant of the last transaction, as the host's wires take these levels: from the fall of
select in a command transaction, and from the end of the code byte in a response read, for whose code byte the model shows
none (R213, R217; DESIGN CHOICE, log 55). -/
def State.dataOutLevels (s : State) (levels : List SpiWires) : List (Option Bool) :=
  if s.held = .nothing then spiDataOutLevels false (spiDataOut s.mp.spiOut) levels else levels.map fun _ => none

/-- The answer goes to the response buffer, which becomes PREPARING (R216). -/
def State.answer (s : State) (code : Byte) (r : Reply) : State :=
  { s with mp := { s.mp with buffer := .preparing (r.frame code) } }

/-- Data out reads FF for the bytes of a command transaction (R214). -/
def State.sentNothing (s : State) (n : Nat) : State := { s with mp := { s.mp with spiOut := List.replicate n 0xFF } }

/-- The transaction is ignored whole: select fell before the load completed (R214). -/
def State.deaf (s : State) (early : Bool) : Bool := early || decide (s.mp.status = .notLoaded)

/-- A command of code `code` with `len` argument bytes is received and judged (R214, R215); `body` carries it out. -/
def State.perform (s : State) (early : Bool) (code : Byte) (len : Nat) (args : List Byte)
    (body : State → State × Reply) : State :=
  let s1 := s.sentNothing (1 + args.length)
  if s.deaf early then s1
  else if s.mp.status = .fault ∧ code ≠ 1 then s1.answer code .refused
  else if args.length ≠ len then s1.answer code .badArgument
  else (body s1).1.answer code (body s1).2

/-- The command as an event of the part. -/
def State.command (s : State) (early : Bool) (code : Byte) (len : Nat) (args : List Byte)
    (body : State → State × Reply) : Host.Outcome State Fault Refusal :=
  s.event fun s => s.perform early code len args body

/-- Argument byte `i`. -/
def arg (args : List Byte) (i : Nat) : Nat := (args.getD i 0).toNat

/-! ### The reads (R218, R219) -/

/-- READ_STATUS (R218). -/
def execReadStatus (early : Bool) (args : List Byte) (s : State) : Host.Outcome State Fault Refusal :=
  s.command early 0x01 0 args fun s => (s, .ok s.statusRecord)

/-- The answer for the peer in slot `i` (R86). -/
def State.peerAnswer (s : State) (i : Nat) : Reply :=
  match s.entryAt i with
  | some e => .ok (s.peerRecord i e)
  | none => .notFound

/-- READ_PEER's answer (R86, R219). -/
def State.readPeer (s : State) (selector value : Nat) : Reply :=
  match selector with
  | 0 => if value ≤ 23 then s.peerAnswer value else .badArgument
  | 1 =>
    if validAddress value then
      match s.pt.slotOf value with
      | some i => s.peerAnswer i
      | none => .notFound
    else .badArgument
  | _ => .badArgument

/-- READ_PEER (R86). -/
def execReadPeer (early : Bool) (args : List Byte) (s : State) : Host.Outcome State Fault Refusal :=
  s.command early 0x02 2 args fun s => (s, s.readPeer (arg args 0) (arg args 1))

/-- READ_ALARM (R205). -/
def execReadAlarm (early : Bool) (args : List Byte) (s : State) : Host.Outcome State Fault Refusal :=
  s.command early 0x03 1 args fun s =>
    (s, match kindOfCode (arg args 0) with
      | some k => .ok (s.alarmRecordBytes k)
      | none => .badArgument)

/-- READ_HISTORY's answer (R168, R219). -/
def State.readHistory (s : State) (selector v1 v2 : Nat) : Reply :=
  match selector with
  | 0 =>
    if v1 ≤ 63 then
      match s.hs.ringAnswer v1 with
      | some bytes => .ok bytes
      | none => .notFound
    else .badArgument
  | 1 =>
    if hc : v1 < 4 then (if hk : v2 < 32 then .ok (s.hs.slotAnswer ⟨v1, hc⟩ ⟨v2, hk⟩) else .badArgument)
    else .badArgument
  | _ => .badArgument

/-- READ_HISTORY (R168). -/
def execReadHistory (early : Bool) (args : List Byte) (s : State) : Host.Outcome State Fault Refusal :=
  s.command early 0x0B 3 args fun s => (s, s.readHistory (arg args 0) (arg args 1) (arg args 2))

/-! ### The commands that change state (R220) -/

/-- One record acknowledged (R198). -/
def State.ackOne (s : State) (k : Kind) : State := s.onRecord k (AlarmRecord.ack (s.classOf k) s.now)

/-- Records acknowledged in order (R199). -/
def State.ackKinds (s : State) : List Kind → State
  | [] => s
  | k :: ks => (s.ackOne k).ackKinds ks

/-- Every record acknowledged, answered with the number whose state changed (R199). -/
def State.ackEvery (s : State) : State × Reply :=
  let s1 := s.ackKinds kinds
  let n := (kinds.filter fun k => (s1.au.records.get k).state ≠ (s.au.records.get k).state).length
  (s1, .ok [BitVec.ofNat 8 n])

/-- ACK_ALARM's work: one kind, or ALL as FF (R198, R220). -/
def State.ackAlarm (s : State) (code : Nat) : State × Reply :=
  if code = 0xFF then s.ackEvery
  else match kindOfCode code with
    | some k => (s.ackOne k, .ok ((s.ackOne k).alarmRecordBytes k))
    | none => (s, .badArgument)

/-- ACK_ALARM (R198). -/
def execAckAlarm (early : Bool) (args : List Byte) (s : State) : Host.Outcome State Fault Refusal :=
  s.command early 0x04 1 args fun s => s.ackAlarm (arg args 0)

/-- ACK_ALARM naming ALL (R199). -/
def execAckAll (early : Bool) (s : State) : Host.Outcome State Fault Refusal :=
  s.command early 0x04 1 [0xFF] State.ackEvery

/-- LOCKOUT_PEER's work (R84). -/
def State.lockoutPeer (s : State) (addr : Nat) : State × Reply :=
  if validAddress addr ∧ addr ≠ s.mp.params.address then
    match s.lockout addr with
    | some s1 => (s1, .ok [])
    | none => (s, .refused)
  else (s, .badArgument)

/-- LOCKOUT_PEER (R84). -/
def execLockoutPeer (early : Bool) (args : List Byte) (s : State) : Host.Outcome State Fault Refusal :=
  s.command early 0x05 1 args fun s => s.lockoutPeer (arg args 0)

/-- RELEASE_PEER's work (R85). -/
def State.releasePeer (s : State) (addr : Nat) : State × Reply :=
  if validAddress addr then
    match s.pt.slotOf addr with
    | some i =>
      match s.entryAt i with
      | some e => if e.state = .lockedOut then (s.setSlot i (some e.released), .ok []) else (s, .refused)
      | none => (s, .notFound)
    | none => (s, .notFound)
  else (s, .badArgument)

/-- RELEASE_PEER (R85). -/
def execReleasePeer (early : Bool) (args : List Byte) (s : State) : Host.Outcome State Fault Refusal :=
  s.command early 0x06 1 args fun s => s.releasePeer (arg args 0)

/-- FORCE_HOLD's work (R148). -/
def State.forceHold (s : State) : State × Reply :=
  if (s.du.pub.state = .track ∨ s.du.pub.state = .hold ∨ s.du.pub.state = .lapsed) ∧ s.hs.valid then
    ({ s with du := { s.du with holdReq := true } }, .ok [])
  else (s, .refused)

/-- FORCE_HOLD (R148). -/
def execForceHold (early : Bool) (args : List Byte) (s : State) : Host.Outcome State Fault Refusal :=
  s.command early 0x07 0 args State.forceHold

/-- RELEASE_HOLD (R149). -/
def execReleaseHold (early : Bool) (args : List Byte) (s : State) : Host.Outcome State Fault Refusal :=
  s.command early 0x08 0 args fun s => ({ s with du := { s.du with holdReq := false } }, .ok [])

/-- The answer of SET_OFFSET: the offset in use, whether a shadow waits, and the shadow (R220). -/
def offsetReply (offset : Int) (shadow : Option Int) : Reply :=
  .ok (beInt 4 offset ++ [flagByte shadow.isSome] ++ beInt 4 (shadow.getD 0))

/-- SET_OFFSET's work (R176). -/
def State.setOffset (s : State) (selector : Nat) (v : Int) : State × Reply :=
  match selector with
  | 0 =>
    if -500000000 ≤ v ∧ v ≤ 499999999 then
      ({ s with ou := { s.ou with ppsShadow := some v } }, offsetReply s.ou.pps.offset (some v))
    else (s, .badArgument)
  | 1 =>
    if 0 ≤ v ∧ v ≤ (s.mp.params.frameLen.ns : Int) - 1 then
      ({ s with ou := { s.ou with frameShadow := some v } }, offsetReply s.ou.frame.offset (some v))
    else (s, .badArgument)
  | _ => (s, .badArgument)

/-- SET_OFFSET (R176). -/
def execSetOffset (early : Bool) (args : List Byte) (s : State) : Host.Outcome State Fault Refusal :=
  s.command early 0x09 5 args fun s => s.setOffset (arg args 0) (ofBESigned (args.drop 1))

/-- RESTART at the discipline unit (R106, R131, R154): F, F_int and their origin are kept. A status held back has been
published before (`State.restart`). -/
def Discipline.restart (d : Discipline) : Discipline := { Discipline.reset with f := d.f, fInt := d.fInt, fSet := d.fSet }

/-- RESTART's work. The results of a completion that has taken effect stand (R106), so a status held back is published
first (log 47). Then the line controller (R42, R59), the discipline unit (R131, R154), the reference input (R103), the
peer table (R88), and the publication of FREE at the output unit (R190). The history store and the alarm unit go on as
they stand (R170, R207). -/
def State.restart (s0 : State) : State :=
  let s := s0.publish
  let s1 : State := { s with
    mp := { s.mp with restarts := satAdd 255 s.mp.restarts 1 }
    lc := s.lc.restart
    du := s.du.restart
    ri := if s.ri.active then s.ri.reopen else s.ri }
  (s1.restartPeers.judge .holdBudget false).published State.withdraw

/-- RESTART (R212). -/
def execRestart (early : Bool) (args : List Byte) (s : State) : Host.Outcome State Fault Refusal :=
  s.command early 0x0A 0 args fun s => (s.restart, .ok [])

/-! ### Reading the answer (R217) -/

/-- What data out carries for `n` bytes clocked after the code: the frame then FF, or 00 then FF (R217). -/
def Buffer.out (b : Buffer) (n : Nat) : List Byte :=
  let bytes := match b with
    | .ready frame => frame
    | _ => [0]
  (bytes ++ List.replicate n 0xFF).take n

/-- The buffer after `n` bytes were clocked: EMPTY when the whole answer was taken (R217). -/
def Buffer.read (b : Buffer) (n : Nat) : Buffer :=
  match b with
  | .ready frame => if frame.length ≤ n then .empty else .ready frame
  | other => other

/-- RESPONSE_READ: `clocked` whole bytes after the code (R217). What data out carries while the code byte itself is clocked
in no rule says, and the model shows no byte for it (DESIGN CHOICE, log 55). -/
def execResponseRead (clocked : Nat) (s : State) : Host.Outcome State Fault Refusal :=
  s.event fun s =>
    { s with mp := { s.mp with buffer := s.mp.buffer.read clocked, spiOut := s.mp.buffer.out clocked } }

/-- RESPONSE_READY: the answer in preparation is ready (R216). -/
def execResponseReady (s : State) : Host.Outcome State Fault Refusal :=
  s.event fun s =>
    match s.mp.buffer with
    | .preparing frame => { s with mp := { s.mp with buffer := .ready frame } }
    | _ => s

/-- BAD_COMMAND: a code above 0B is answered BAD_COMMAND in every status (R215). A transaction with another code is
another command, and as this one it does nothing (log 24). -/
def execBadCommand (early : Bool) (code : Byte) (args : List Byte) (s : State) : Host.Outcome State Fault Refusal :=
  s.whenDue (decide (0x0B < code.toNat)) fun s =>
    let s1 := s.sentNothing (1 + args.length)
    if s.deaf early then s1 else s1.answer code .badCommand

end Sys2Proof.Machine
end

