-- ==== Sys2Proof/Machine/Outputs.lean ====
section
/-! DEFINITION. The timing outputs (09): schedules, edges and pulses, offsets, steps, start, and the status lines. -/

namespace Sys2Proof.Machine

/-! ### Schedules (R172 to R175) -/

/-- The first time strictly after `v`, on the circle of the time scale, that is `phase` past a multiple of `period`. -/
def nextAfter (period : Nat) (phase : Int) (v : Nat) : Nat :=
  (v + (period - ((v : Int) - phase) % period).toNat) % scaleU

/-- A number of whole nanoseconds as a span of the time scale. -/
def nsSpan (ns : Int) : Int := ns * nsU

/-- The first PPS pulse time strictly after `v` (R173). -/
def ppsAfter (offset : Int) (v : Nat) : Nat := nextAfter secU (nsSpan offset) v

/-- The first frame boundary strictly after `v` (R174). -/
def frameAfter (lf : FrameLen) (offset v : Nat) : Nat := nextAfter (lf.ns * nsU) (nsSpan offset) v

/-- The frame number of a boundary (R174). -/
def frameNumber (lf : FrameLen) (offset b : Nat) : Nat :=
  (((b : Int) - nsSpan offset) % scaleU / (lf.ns * nsU : Nat) % 1024).toNat

/-- The first edge time of a frequency output strictly after `v`: a multiple of H counted from 0, the count begun again
at the wrap (R175). -/
def foutAfter (h v : Nat) : Nat :=
  let t := (v / (h * nsU) + 1) * (h * nsU)
  if scaleU ≤ t then 0 else t

/-- The edge at a multiple of H is rising: its index is even (R175). -/
def foutRising (h t : Nat) : Bool := t / (h * nsU) % 2 == 0

/-- The ticks of a pulse width: divided by 8 and rounded half away from zero (R173). -/
def widthTicks (ns : Nat) : Nat := (roundDiv ns 8).toNat

/-- The counter's value before the most recent tick. -/
def TimeBase.valueBefore (t : TimeBase) : Int := t.counter.value - t.lastInc

/-- The position in the most recent tick of an edge at `time`, limited to 0 to 127 (R172; 00, section 4.5; log 27). -/
def TimeBase.edgePos (t : TimeBase) (time : Nat) : Nat :=
  (clampInt 0 127 (128 * wrapSigned scaleU (time - t.valueBefore) / t.lastInc)).toNat

/-- The edge time has fallen in a tick (R172). -/
def State.edgeDue (s : State) (next : Option Nat) : Bool := next.any fun t => reached s.tb.counter.value t

/-! ### Edges (R173 to R175, R181, R182) -/

/-- A rising pulse edge under a squelch state: the squelch state after it and the pulse, restarted at the full width;
`release` says that this is the output's own boundary. -/
def drivePulse (release : Bool) (q : Squelch) (old : Option Pulse) (new : Pulse) : Squelch × Option Pulse :=
  match q with
  | .running => (.running, some new)
  | .stopping => (.stopping, old)
  | .squelched => (.squelched, old)
  | .resuming => if release then (.running, some new) else (.resuming, old)

/-- The PPS pulse time `t` is driven (R173, R181, R182). -/
def State.drivePps (s : State) (t : Nat) : State :=
  let d := drivePulse true s.ou.pps.squelch s.ou.pps.pulse ⟨widthTicks s.mp.params.ppsWidth, s.tb.edgePos t⟩
  { s with ou := { s.ou with
      pps := { s.ou.pps with next := some ((t + secU) % scaleU), squelch := d.1, pulse := d.2 } } }

/-- The frame boundary `t` is driven (R174, R181, R182), and at frame number 0 a waiting FRAME shadow is applied
(R178). -/
def State.driveFrame (s : State) (t : Nat) : State :=
  let g := s.ou.frame
  let zero := g.number = 0
  let new : Pulse := ⟨widthTicks s.mp.params.frameWidth, s.tb.edgePos t⟩
  let d := drivePulse zero g.squelch g.pulse new
  let d0 := if zero then drivePulse true g.squelch0 g.pulse0 new else (g.squelch0, g.pulse0)
  let lf := s.mp.params.frameLen
  let g1 := { g with squelch := d.1, pulse := d.2, squelch0 := d0.1, pulse0 := d0.2 }
  match (if zero then s.ou.frameShadow else none) with
  | some v =>
    let b := frameAfter lf v.toNat t
    { s with ou := { s.ou with
        frame := { g1 with offset := v.toNat, next := some b, number := frameNumber lf v.toNat b }
        frameShadow := none } }
  | none =>
    { s with ou := { s.ou with
        frame := { g1 with next := some ((t + lf.ns * nsU) % scaleU), number := (g.number + 1) % 1024 } } }

/-- An edge of a frequency output with half-period `h` (R175, R181, R182). -/
def FoutGen.edge (g : FoutGen) (h t pos : Nat) : FoutGen :=
  let n := if scaleU ≤ t + h * nsU then 0 else t + h * nsU
  let g1 := { g with next := some n, rising := foutRising h n }
  match g.squelch, g.rising with
  | .running, r => { g1 with level := r, pos := pos }
  | .stopping, false => { g1 with level := false, pos := pos, squelch := .squelched }
  | .resuming, true => { g1 with level := true, pos := pos, squelch := .running }
  | _, _ => g1

/-- A frequency output's generator. -/
def Outputs.fout (o : Outputs) : FoutPin → FoutGen
  | .fout0 => o.fout0
  | .fout1 => o.fout1

/-- A frequency output's generator replaced. -/
def Outputs.setFout (o : Outputs) (p : FoutPin) (g : FoutGen) : Outputs :=
  match p with
  | .fout0 => { o with fout0 := g }
  | .fout1 => { o with fout1 := g }

/-- The half-period of a frequency output. -/
def Params.half (p : Params) : FoutPin → Nat
  | .fout0 => p.h0
  | .fout1 => p.h1

/-- The pulse whose count has reached 0 falls (R173, R174, R181). -/
def fallPulse (q : Squelch) (p : Option Pulse) : Squelch × Option Pulse :=
  match p with
  | some x => if x.left = 0 then (if q = .stopping then .squelched else q, none) else (q, p)
  | none => (q, p)

/-! ### Epochs, steps, start -/

/-- The tick that marks the epoch of second `sec`: a waiting PPS shadow is applied, a pulse time that falls in the tick
under the old offset driven first (R177). -/
def State.applyPpsShadow (s : State) (sec : Nat) : State :=
  match s.ou.ppsShadow with
  | some v =>
    let s1 := match s.ou.pps.next with
      | some t => if s.edgeDue (some t) then s.drivePps t else s
      | none => s
    { s1 with ou := { s1.ou with
        ppsShadow := none
        pps := { s1.ou.pps with
          offset := v
          next := some (nextAfter secU (nsSpan v) ((sec * secU + scaleU - 1) % scaleU)) } } }
  | none => s

/-- The generators' next edges are the first of their schedules strictly after `v`; a generator without a next edge
(R189) stays without. -/
def Outputs.reschedule (o : Outputs) (p : Params) (v : Nat) : Outputs :=
  let f := frameAfter p.frameLen o.frame.offset v
  { o with
    pps := { o.pps with next := o.pps.next.map fun _ => ppsAfter o.pps.offset v }
    frame := { o.frame with
      next := o.frame.next.map fun _ => f
      number := if o.frame.next.isSome then frameNumber p.frameLen o.frame.offset f else o.frame.number }
    fout0 := { o.fout0 with
      next := o.fout0.next.map fun _ => foutAfter p.h0 v
      rising := if o.fout0.next.isSome then foutRising p.h0 (foutAfter p.h0 v) else o.fout0.rising }
    fout1 := { o.fout1 with
      next := o.fout1.next.map fun _ => foutAfter p.h1 v
      rising := if o.fout1.next.isSome then foutRising p.h1 (foutAfter p.h1 v) else o.fout1.rising } }

/-- The squelch state an output enters at load completion (R188). -/
def startSquelch (published : DState) : Policy → Squelch
  | .always => .resuming
  | .notFree => if published = .free then .squelched else .resuming
  | .permit => .squelched

/-- The output unit at a load completed with GOOD or ADJUSTED (R188). -/
def Outputs.started (p : Params) (published : DState) (v : Nat) : Outputs :=
  Outputs.reschedule
    { pps := ⟨p.ppsOffset, some 0, none, startSquelch published p.polPps⟩
      frame := ⟨p.frameOffset, some 0, 0, none, none, startSquelch published p.polFrame, startSquelch published p.polFrame0⟩
      fout0 := ⟨some 0, true, false, 0, startSquelch published p.polFout0⟩
      fout1 := ⟨some 0, true, false, 0, startSquelch published p.polFout1⟩
      ppsShadow := none
      frameShadow := none
      txok := false
      holdoff := 0 } p v

/-! ### Pins -/

/-- The level of PPS, FRAME or FRAME0: high while its pulse is in progress (R171, R181). -/
def Outputs.pulseLevel (o : Outputs) : PulsePin → Bool
  | .pps => o.pps.pulse.isSome
  | .frame => o.frame.pulse.isSome
  | .frame0 => o.frame.pulse0.isSome

/-- Whether a status-line source is true (R186, R187). -/
def State.sourceTrue (s : State) : Source → Bool
  | .stateTrack => decide (s.du.pub.state = .track)
  | .stateHold => decide (s.du.pub.state = .hold ∨ s.du.pub.state = .lapsed)
  | .txok => s.ou.txok
  | .attn => s.au.attn
  | .anyPeerUrgent => s.pt.anyUrgent
  | .allPeersTraceable => s.pt.allTraceable
  | .twoContributors => decide (2 ≤ s.du.contributors)
  | .refValid => s.ri.valid

/-- The level of STAT0 (R186, R188): low until the load completes and under FAULT. -/
def State.stat0 (s : State) : Bool :=
  decide (s.held = .nothing) && s.loaded && s.sourceTrue s.mp.params.stat0

/-- The level of STAT1 (R186, R188). -/
def State.stat1 (s : State) : Bool :=
  decide (s.held = .nothing) && s.loaded && s.sourceTrue s.mp.params.stat1

/-! ### The commands of the output unit -/

/-- PPS_PULSE_TIME (R172, R173). -/
def execPpsPulseTime (s : State) : Host.Outcome State Fault Refusal :=
  s.event fun s =>
    match s.ou.pps.next with
    | some t => if s.edgeDue (some t) then s.drivePps t else s
    | none => s

/-- FRAME_BOUNDARY (R172, R174, R178). -/
def execFrameBoundary (s : State) : Host.Outcome State Fault Refusal :=
  s.event fun s =>
    match s.ou.frame.next with
    | some t => if s.edgeDue (some t) then s.driveFrame t else s
    | none => s

/-- FOUT_EDGE on one of the two frequency outputs (R172, R175). -/
def execFoutEdge (pin : FoutPin) (s : State) : Host.Outcome State Fault Refusal :=
  s.event fun s =>
    match (s.ou.fout pin).next with
    | some t =>
      if s.edgeDue (some t) then
        { s with ou := s.ou.setFout pin ((s.ou.fout pin).edge (s.mp.params.half pin) t (s.tb.edgePos t)) }
      else s
    | none => s

/-- PULSE_END on one of the pulse pins (R173, R174, R181). -/
def execPulseEnd (pin : PulsePin) (s : State) : Host.Outcome State Fault Refusal :=
  s.event fun s =>
    let o := s.ou
    match pin with
    | .pps =>
      let d := fallPulse o.pps.squelch o.pps.pulse
      { s with ou := { o with pps := { o.pps with squelch := d.1, pulse := d.2 } } }
    | .frame =>
      let d := fallPulse o.frame.squelch o.frame.pulse
      { s with ou := { o with frame := { o.frame with squelch := d.1, pulse := d.2 } } }
    | .frame0 =>
      let d := fallPulse o.frame.squelch0 o.frame.pulse0
      { s with ou := { o with frame := { o.frame with squelch0 := d.1, pulse0 := d.2 } } }

end Sys2Proof.Machine
end

