-- ==== Sys2Proof/Machine/Start.lean ====
section
/-! DEFINITION. Starting afresh (11.1, 11.2): power-on, the RESET pin, loss of supply, and the configuration load. -/

namespace Sys2Proof.Machine

/-! ### Reset held and released (R211) -/

/-- A reset of the given cause comes to be held, `held` then being all that holds the part. A running part goes to its
reset values at once, whatever is in progress in every block cut short, an operation of the record area with its cells
reading `left` (R211, R166); a part held already stands as it is. -/
def State.assertReset (s : State) (cause : Cause) (held : HeldBy) (left : List Byte) : State :=
  if s.held = .nothing then s.standing held cause (s.hs.cutShort left) else { s with held := held }

/-- A reset of the given cause is released, `held` being what still holds the part: every block begins once nothing does
(R211; that the release which comes last gives the start cause: DESIGN CHOICE, log 58). -/
def State.releaseReset (s : State) (cause : Cause) (held : HeldBy) : State :=
  if held = .nothing then s.start cause s.hs.area else { s with held := held }

/-- The RESET pin goes low: the part is held until the pin goes high (R211, R213). -/
def State.pinFalls (s : State) (left : List Byte) : State := s.assertReset .pin { s.held with pin := true } left

/-- The RESET pin goes high: the pulse ends where the pin was low, and nothing happens where it was not (R211, R213). -/
def State.pinRises (s : State) : State := if s.held.pin then s.releaseReset .pin { s.held with pin := false } else s

/-- POWER_ON: release of a power-on reset (R211). With the RESET pin low the pin goes on holding the part. -/
def execPowerOn (s : State) : Host.Outcome State Fault Refusal :=
  .next (s.releaseReset .powerOn { s.held with supply := false })

/-- PIN_RESET: the pulse on the RESET pin whole, its fall, from which the part is held, or its rise, at which every block
begins (R211, R213). -/
def execPinReset (pin : PinReset) (s : State) : Host.Outcome State Fault Refusal :=
  .next (match pin with
    | .pulse left => (s.pinFalls left).pinRises
    | .falls left => s.pinFalls left
    | .rises => s.pinRises)

/-- POWER_LOSS: the supply is lost: a power-on reset is held until POWER_ON, and what is in progress is cut short (R166,
R211). -/
def execPowerLoss (left : List Byte) (s : State) : Host.Outcome State Fault Refusal :=
  .next (s.assertReset .powerOn { s.held with supply := true } left)

/-! ### The configuration load (R208, R209) -/

/-- A record at the load: its effective class is its configured class, and an ACTIVE STANDING record's escalation timer
starts again (R194). -/
def AlarmRecord.load (cls : Class) (now : SecNs) (r : AlarmRecord) : AlarmRecord :=
  r.touched { r with effective := cls, timer := if r.state = .active ∧ cls = .standing then 0 else r.timer } now

/-- The alarm unit at a load completed with GOOD or ADJUSTED (R194). -/
def Alarms.load (a : Alarms) (p : Params) (now : SecNs) : Alarms :=
  Alarms.refresh { a with records := .ofFn fun k => (a.records.get k).load (p.classes.get k) now } p.gatingSet

/-- The line controller in MUTE: nothing is driven, no instant is held and no beacon due, pending or composed, and the
planes, the transmit history and the transmission record stand empty (R40, R58; log 36). -/
def Line.mute (l : Line) : Line :=
  { l with
    access := .mute
    nextInstant := none
    due := false
    beacon := false
    after := .normal
    filling := []
    sending := none
    history := []
    record := none }

/-- The load completes with FAULT: the line controller goes to MUTE (R40), no value of the image is used (R209). -/
def State.loadFault (s : State) (image : List Byte) : State :=
  { s with
    mp := { s.mp with image := image, status := .fault }
    lc := s.lc.mute }

/-- The load completes with GOOD or ADJUSTED: every block takes its values (R209): B (R7), the reference input (R89),
the output unit (R188), the alarm unit (R194). LINE_ERRORS is judged on the T_err loaded (R35; DEDUCED, log 42). -/
def State.loadGood (s : State) (image : List Byte) : State :=
  let p := imageParams image
  let s1 := State.gatingReport s.au.gating { s with
    mp := { s.mp with image := image, params := p, status := if imageAdjusted image then .adjusted else .good }
    tb := { s.tb with interval := p.interval }
    ri := if p.receiver then .activate s.tb.counter.value else s.ri
    ou := .started p s.du.pub.state s.tb.counter.value
    au := s.au.load p s.now }
  s1.judgeErrors

/-- CONFIG_LOAD_COMPLETE: byte 83 has been received (R208, R209). -/
def execConfigLoadComplete (image : List Byte) (s : State) : Host.Outcome State Fault Refusal :=
  s.whenDue (decide (s.mp.status = .notLoaded)) fun s => if imageFaulty image then s.loadFault image else s.loadGood image

end Sys2Proof.Machine
end

