-- ==== Sys2Proof/Machine/TimeBase.lean ====
section
/-! DEFINITION. The time base (01): ticks with the boundaries they mark and the elapsed-tick counts of every block,
steps, and the commands that take the boundary signals. -/

namespace Sys2Proof.Machine

/-! ### Ticks (R2, R5 to R7) -/

/-- The boundary of spacing B that a tick from `v` to `v + inc` crosses, reduced into the time scale (R7). -/
def crossed (b : Interval) (v inc : Nat) : Option Nat :=
  let t := (v / b.span + 1) * b.span
  if t ≤ v + inc then some (t % scaleU) else none

/-- A tick at the counter: the increment added, the epoch, minute and interval boundaries signalled (R2, R5 to R7). -/
def TimeBase.tick (t : TimeBase) : TimeBase :=
  let c := t.counter.tick t.increment
  let epoch := t.counter.carries t.increment
  { t with
    counter := c
    lastInc := t.increment
    epochs := if epoch then t.epochs ++ [c.sec] else t.epochs
    minutes := if epoch && c.sec % 60 == 0 then t.minutes ++ [c.sec] else t.minutes
    intervals := t.intervals ++ (crossed t.interval t.counter.value t.increment).toList
    before := none }

/-- The next instant after a tick to `now`: reached when the counter stands at or beyond it (R23), by plain comparison. A
forward step that lands within a tick of the top of the time scale (R12) is followed by a tick that wraps the counter to
near 0: R23 counts the instant passed by the step as reached at that tick, and the counter as it then stands is below
it. The comparison is followed, so it is not reached (DESIGN CHOICE, log 48). -/
def Instant.tick (now : Nat) (i : Instant) : Instant := { i with reached := i.reached || decide (i.time ≤ now) }

/-- The line controller at a tick to `now`: the next instant, and the elapsed-tick counts of gap, stuck timer,
transmission, jam and backoff (R23, R19, R26 to R29). -/
def Line.tick (l : Line) (now : Nat) : Line :=
  { l with
    nextInstant := l.nextInstant.map (Instant.tick now)
    gap := if l.carrier || l.idle then l.gap else min gapTicks (l.gap + 1)
    stuck := if l.carrier then min stuckTicks (l.stuck + 1) else 0
    sent := if l.access = .send then l.sent + 1 else l.sent
    jam := if l.access = .jam then l.jam + 1 else l.jam
    backoff := if l.access = .backoff then l.backoff - 1 else l.backoff }

/-- The elapsed-tick counts of the reference input (R90, R91). -/
def RefInput.tick (r : RefInput) : RefInput :=
  { r with
    quiet := if r.held.isEmpty then 0 else r.quiet + 1
    message := r.message.map fun m => { m with age := m.age + 1 } }

/-- The elapsed ticks of the operation of the record area (R162, R164). -/
def Operation.tick : Operation → Operation
  | .idle => .idle
  | .program r retry c k t => .program r retry c k (t + 1)
  | .erase r retry c t => .erase r retry c (t + 1)

/-- One high tick of a pulse spent (R173). -/
def Pulse.tick (p : Pulse) : Pulse := { p with left := p.left - 1 }

/-- The high-tick counts of the pulses (R173, R174). -/
def Outputs.tick (o : Outputs) : Outputs :=
  { o with
    pps := { o.pps with pulse := o.pps.pulse.map Pulse.tick }
    frame := { o.frame with pulse := o.frame.pulse.map Pulse.tick, pulse0 := o.frame.pulse0.map Pulse.tick } }

/-- The escalation timer of a record (R200): it runs up to E minutes. -/
def AlarmRecord.tick (cls : Class) (e : Nat) (r : AlarmRecord) : AlarmRecord :=
  if r.timing cls then { r with timer := min (minuteTicks e) (r.timer + 1) } else r

/-- The escalation timers (R200). -/
def Alarms.tick (a : Alarms) (p : Params) : Alarms :=
  { a with records := .ofFn fun k => (a.records.get k).tick (p.classes.get k) p.escalation }

/-- TICK (R2): the counter, and every count of elapsed ticks, after a publication still to come (log 47). -/
def execTick (s : State) : Host.Outcome State Fault Refusal :=
  s.event fun s0 =>
    let s := s0.publish
    { s with
      tb := s.tb.tick
      lc := s.lc.tick s.tb.tick.counter.value
      ri := s.ri.tick
      hs := { s.hs with op := s.hs.op.tick }
      ou := s.ou.tick
      au := s.au.tick s.mp.params }

/-! ### Epochs and beacon intervals -/

/-- The snapshot of a combine begun at the epoch of second `sec` (R104): the peer table hands its estimates (R78), the
reference input its sample (R101), the discipline unit its published status. -/
def State.takeSnapshot (s : State) (sec : Nat) : State :=
  let p := s.pt.snapshot sec s.mp.params.a
  { s with
    pt := p.1
    ri := { s.ri with sample := none }
    du := { s.du with snapshot := some { peers := p.2, ref := s.ri.hand sec, prev := s.du.pub, epoch := sec } } }

/-- EPOCH: the oldest signalled epoch (R5): the PPS shadow (R177), the error window (R34), the snapshot (R104), which
finds the last completion's status published (R128; log 47). -/
def execEpoch (s : State) : Host.Outcome State Fault Refusal :=
  s.event fun s =>
    match s.tb.epochs with
    | sec :: rest =>
      let s1 := s.publish
      ((State.applyPpsShadow { s1 with tb := { s1.tb with epochs := rest } } sec).windowEpoch).takeSnapshot sec
    | [] => s

/-- BEACON_INTERVAL_BOUNDARY: the oldest signalled boundary, at the line controller (R22) and the peer table (R63,
R70). -/
def execBeaconIntervalBoundary (s : State) : Host.Outcome State Fault Refusal :=
  s.event fun s =>
    match s.tb.intervals with
    | t :: rest => (State.lineBoundary { s with tb := { s.tb with intervals := rest } } t).peerBoundary
    | [] => s

/-! ### Steps (R11 to R14) -/

/-- A step of `x` sixteenths applied, with its notice to the four blocks (R11 to R14). -/
def State.applyStep (s : State) (x : Int) : State :=
  let c := s.tb.counter.step x
  let applied := s.tb.counter.applied c
  { s with
    tb := { s.tb with counter := c, stepCtr := (s.tb.stepCtr + 1) % 4, before := some ⟨s.tb.counter, s.tb.stepCtr⟩ }
    lc := s.lc.stepNotice applied
    pt := s.pt.stepNotice
    ou := s.ou.reschedule s.mp.params c.value
    ri := s.ri.stepNotice applied }

/-- STEP: the oldest step ordered is applied (R11). -/
def execStep (s : State) : Host.Outcome State Fault Refusal :=
  s.event fun s =>
    match s.tb.orders with
    | x :: rest => State.applyStep { s with tb := { s.tb with orders := rest } } x
    | [] => s

end Sys2Proof.Machine
end

