-- ==== Sys2Proof/Machine/Dispatch.lean ====
section
/-! DEFINITION. The meaning of every command: one arm per constructor of Instr. -/

namespace Sys2Proof.Machine

/-- The command's effect on everything but the queue. -/
def exec (i : Instr) (s : State) : Host.Outcome State Fault Refusal :=
  match i with
  | .powerOn => Sys2Proof.Machine.execPowerOn s
  | .pinReset pin => Sys2Proof.Machine.execPinReset pin s
  | .tick => Sys2Proof.Machine.execTick s
  | .epoch => Sys2Proof.Machine.execEpoch s
  | .minuteBoundary => Sys2Proof.Machine.execMinuteBoundary s
  | .beaconIntervalBoundary => Sys2Proof.Machine.execBeaconIntervalBoundary s
  | .step => Sys2Proof.Machine.execStep s
  | .combineCompletion => Sys2Proof.Machine.execCombineCompletion s
  | .carrierPresent => Sys2Proof.Machine.execCarrierPresent s
  | .carrierAbsent bytes whole => Sys2Proof.Machine.execCarrierAbsent bytes whole s
  | .receptionOverlong bytes => Sys2Proof.Machine.execReceptionOverlong s bytes
  | .rxCapture found => Sys2Proof.Machine.execRxCapture found s
  | .nextInstantReached => Sys2Proof.Machine.execNextInstantReached s
  | .lineIdle => Sys2Proof.Machine.execLineIdle s
  | .txCapture q => Sys2Proof.Machine.execTxCapture q s
  | .collisionDetected => Sys2Proof.Machine.execCollisionDetected s
  | .jamEnd => Sys2Proof.Machine.execJamEnd s
  | .backoffEnd => Sys2Proof.Machine.execBackoffEnd s
  | .transmissionComplete => Sys2Proof.Machine.execTransmissionComplete s
  | .stuckTimerExpiry => Sys2Proof.Machine.execStuckTimerExpiry s
  | .configLoadComplete image => Sys2Proof.Machine.execConfigLoadComplete image s
  | .startScanComplete => Sys2Proof.Machine.execStartScanComplete s
  | .refMessage bytes => Sys2Proof.Machine.execRefMessage bytes s
  | .messageCollectionTimeout => Sys2Proof.Machine.execMessageCollectionTimeout s
  | .pendingMessageExpiry => Sys2Proof.Machine.execPendingMessageExpiry s
  | .refEdge q => Sys2Proof.Machine.execRefEdge q s
  | .windowGiveUp => Sys2Proof.Machine.execWindowGiveUp s
  | .lossDeadlineExpiry => Sys2Proof.Machine.execLossDeadlineExpiry s
  | .programEnd left => Sys2Proof.Machine.execProgramEnd left s
  | .eraseEnd left => Sys2Proof.Machine.execEraseEnd left s
  | .ppsPulseTime => Sys2Proof.Machine.execPpsPulseTime s
  | .frameBoundary => Sys2Proof.Machine.execFrameBoundary s
  | .foutEdge pin => Sys2Proof.Machine.execFoutEdge pin s
  | .pulseEnd pin => Sys2Proof.Machine.execPulseEnd pin s
  | .escalationTimerExpiry kind => Sys2Proof.Machine.execEscalationTimerExpiry kind s
  | .readStatus early args => Sys2Proof.Machine.execReadStatus early args s
  | .readPeer early args => Sys2Proof.Machine.execReadPeer early args s
  | .readAlarm early args => Sys2Proof.Machine.execReadAlarm early args s
  | .ackAlarm early args => Sys2Proof.Machine.execAckAlarm early args s
  | .ackAll early => Sys2Proof.Machine.execAckAll early s
  | .lockoutPeer early args => Sys2Proof.Machine.execLockoutPeer early args s
  | .releasePeer early args => Sys2Proof.Machine.execReleasePeer early args s
  | .forceHold early args => Sys2Proof.Machine.execForceHold early args s
  | .releaseHold early args => Sys2Proof.Machine.execReleaseHold early args s
  | .setOffset early args => Sys2Proof.Machine.execSetOffset early args s
  | .restart early args => Sys2Proof.Machine.execRestart early args s
  | .readHistory early args => Sys2Proof.Machine.execReadHistory early args s
  | .badCommand early code args => Sys2Proof.Machine.execBadCommand early code args s
  | .responseRead clocked => Sys2Proof.Machine.execResponseRead clocked s
  | .responseReady => Sys2Proof.Machine.execResponseReady s
  | .powerLoss left => Sys2Proof.Machine.execPowerLoss left s
  | .messageByteStopBitLow => Sys2Proof.Machine.execMessageByteStopBitLow s

end Sys2Proof.Machine
end

