-- ==== Sys2Proof/Safety.lean ====
section
/-! DEFINITION. What a safe state of the part is: the invariants the rules state, and the frames statements speak of. -/

namespace Sys2Proof.Machine

/-! ### Frames -/

/-- What the alarm side of an event leaves alone: every block but the alarm unit, the output unit and the owners'
conditions. -/
structure Untouched (s t : State) : Prop where
  held : t.held = s.held
  tb : t.tb = s.tb
  lc : t.lc = s.lc
  pt : t.pt = s.pt
  ri : t.ri = s.ri
  du : t.du = s.du
  hs : t.hs = s.hs
  mp : t.mp = s.mp
  choices : t.choices = s.choices
  pending : t.pending = s.pending

/-- The output unit as an alarm or a publication may change it: squelch states, TXOK and the hold-off count; every
schedule, pulse, level and offset stays (R180 to R184). -/
def Outputs.sameSchedules (a b : Outputs) : Prop :=
  b = { a with
    pps := { a.pps with squelch := b.pps.squelch }
    frame := { a.frame with squelch := b.frame.squelch, squelch0 := b.frame.squelch0 }
    fout0 := { a.fout0 with squelch := b.fout0.squelch }
    fout1 := { a.fout1 with squelch := b.fout1.squelch }
    txok := b.txok
    holdoff := b.holdoff }

/-- The event acts on the alarm side alone: of the conditions and records only those of the kinds listed, and of
PERMIT_LOST, may have changed (R192, R184, R185). -/
structure OnlyAlarms (ks : List Kind) (s t : State) : Prop where
  blocks : Untouched s t
  outputs : s.ou.sameSchedules t.ou
  conds : ∀ k, k ∉ ks → k ≠ .permitLost → t.conds.get k = s.conds.get k
  records : ∀ k, k ∉ ks → k ≠ .permitLost → t.au.records.get k = s.au.records.get k

/-- The owner's reports `l` of a condition, one after the other, as the record takes them: rises and falls (R195, R196);
`cls` is the configured class. -/
def AlarmRecord.taking (cls : Class) (now : SecNs) (r : AlarmRecord) (l : List Bool) : AlarmRecord :=
  l.foldl (fun r v => if v then r.rise now else r.fall cls now) r

/-- Every record has changed only as its owner's reports change it, each report being of the condition as the owner then
judges it, and at the time of the event; a record of a notice kind only by notices (R192, R193, R195 to R197). -/
structure OnlyReports (s t : State) : Prop where
  conditions : ∀ k, Params.defaultClass k ≠ .notice → ∃ l : List Bool,
    t.conds.get k = l.getLastD (s.conds.get k) ∧
    t.au.records.get k = (s.au.records.get k).taking (s.mp.params.classes.get k) ⟨s.tb.counter.sec, s.tb.counter.ns⟩ l
  notices : ∀ k, Params.defaultClass k = .notice → t.conds.get k = s.conds.get k ∧ ∃ n,
    t.au.records.get k = Nat.repeat (AlarmRecord.notice ⟨s.tb.counter.sec, s.tb.counter.ns⟩) n (s.au.records.get k)

/-- The command acts on the alarm table otherwise than by reports: it starts the part afresh, runs the escalation timers,
loads the classes, acknowledges, or lets an escalation timer expire (R192, R194, R198 to R200, R206). -/
def actsOnRecords : Instr → Bool
  | .powerOn | .pinReset _ | .powerLoss _ | .tick | .configLoadComplete _ | .ackAlarm _ _ | .ackAll _
  | .escalationTimerExpiry _ => true
  | _ => false

/-- The state as a command answered without effect leaves it: data out read FF for its bytes, and the answer of response
code `resp` to command code `code`, without data, is in preparation (R214 to R216). -/
def State.answeredOnly (s : State) (n : Nat) (resp code : Byte) : State :=
  { s with mp := { s.mp with spiOut := List.replicate n 0xFF, buffer := .preparing [resp, code, 0] } }

/-! ### Times on the circle of the time scale -/

/-- Two times differ by at most `w`, on the circle of the time scale (R95, R96; log 19). -/
def Near (a b : Int) (w : Nat) : Prop := ∃ k : Int, (a - b + k * scaleU).natAbs ≤ w

/-- The counter standing at `now` has reached the time `t`: it is at most half the circle past it (R98, R96, R172; log
19). -/
def Past (now : Nat) (t : Int) : Prop := ((now : Int) - t) % scaleU < (scaleU / 2 : Nat)

/-- `m` is the first time strictly after `v` that lies `phase` past a multiple of `period` (R173, R174, R179). -/
def FirstAfter (period : Nat) (phase : Int) (v m : Nat) : Prop :=
  m < scaleU ∧ ((m : Int) - phase) % period = 0 ∧ 0 < ((m : Int) - v) % scaleU ∧ ((m : Int) - v) % scaleU ≤ period

/-- `m` is the first multiple of `span` strictly after `v`, counted from 0 and begun again at the wrap (R175, R179). -/
def FirstMultiple (span v m : Nat) : Prop :=
  ∃ t, v < t ∧ t ≤ v + span ∧ t % span = 0 ∧ m = if scaleU ≤ t then 0 else t

/-! ### The generators and their squelches (R173 to R175, R179 to R181) -/

/-- The next pulse is the first of the schedule after `v` (R173). -/
def PpsGen.ReckonedAfter (g : PpsGen) (v : Nat) : Prop := ∃ m, g.next = some m ∧ FirstAfter secU (g.offset * nsU) v m

/-- The next boundary is the first of the schedule after `v`, with its own frame number (R174). -/
def FrameGen.ReckonedAfter (g : FrameGen) (lf : FrameLen) (v : Nat) : Prop :=
  ∃ m, g.next = some m ∧ FirstAfter (lf.ns * nsU) ((g.offset : Int) * nsU) v m ∧
    (g.number : Int) = ((m : Int) - (g.offset : Int) * nsU) % scaleU / (lf.ns * nsU : Nat) % 1024

/-- The next edge is the first multiple of the half-period after `v`, rising where its index is even (R175). -/
def FoutGen.ReckonedAfter (g : FoutGen) (half v : Nat) : Prop :=
  ∃ m, g.next = some m ∧ FirstMultiple (half * nsU) v m ∧ (g.rising = true ↔ m / (half * nsU) % 2 = 0)

/-- The five outputs' squelch policies, squelch states, and whether a pulse or a high half-period is in progress: PPS,
FRAME, FRAME0, FOUT0, FOUT1. -/
def State.gates (s : State) : List (Policy × Squelch × Bool) :=
  [(s.mp.params.polPps, s.ou.pps.squelch, s.ou.pps.pulse.isSome),
   (s.mp.params.polFrame, s.ou.frame.squelch, s.ou.frame.pulse.isSome),
   (s.mp.params.polFrame0, s.ou.frame.squelch0, s.ou.frame.pulse0.isSome),
   (s.mp.params.polFout0, s.ou.fout0.squelch, s.ou.fout0.level),
   (s.mp.params.polFout1, s.ou.fout1.squelch, s.ou.fout1.level)]

/-- Every output is released exactly where its policy lets it run (R180). -/
def State.GatesFollowPolicy (s : State) : Prop :=
  ∀ g ∈ s.gates, (s.mayRun g.1 = true → g.2.1 = .running ∨ g.2.1 = .resuming) ∧
    (s.mayRun g.1 = false → g.2.1 = .stopping ∨ g.2.1 = .squelched)

/-- While a power-on reset or the RESET pin holds the part it stands at its reset values; the record area keeps its content,
and the cause, the seedings, the choices and the queue are as they are (R211; logs 2, 4, 7 and 8). -/
def State.AtResetWhileHeld (s : State) : Prop :=
  s.held ≠ .nothing → s = { State.reset with
    held := s.held
    lc := { State.reset.lc with seeding := s.lc.seeding }
    hs := { State.reset.hs with area := s.hs.area }
    mp := { State.reset.mp with cause := s.mp.cause }
    choices := s.choices
    pending := s.pending }

/-- The state once a status held back is published (R124, R183; log 47). -/
def State.withPublished (s : State) (p : Published) : State :=
  State.published { s with du := { s.du with pub := p, unpublished := none } } State.judgePermit

/-! ### The time base and the frequency (R1, R3, R13, R118) -/

/-- A frequency correction within 100 ppm (R118). -/
def inF (v : Int) : Prop := -100000000 ≤ v ∧ v ≤ 100000000

/-- An increment within the range of R3. -/
def inIncrement (n : Nat) : Prop := 34356302394 ≤ n ∧ n ≤ 34363174342

/-- The counter's parts, the step counter, the increments and the frequency corrections are in their ranges (R1, R3,
R13, R118). -/
structure TimeSound (s : State) : Prop where
  counter : s.tb.counter.inRange
  stepCtr : s.tb.stepCtr < 4
  increment : inIncrement s.tb.increment
  lastInc : inIncrement s.tb.lastInc
  f : inF s.du.f
  fInt : inF s.du.fInt

/-! ### Alarms and the permit (R201 to R203, R183) -/

/-- Every record's condition is the one its owner judges (R193, R195, R196). -/
def RecordsAgree (s : State) : Prop := ∀ k, (s.au.records.get k).condition = s.conds.get k

/-- The pins and the permit-gating indication are exactly what the records make them (R201 to R203). -/
def PinsExact (s : State) : Prop :=
  (s.au.attn = true ↔ ∃ k, (s.au.records.get k).state = .active ∨ (s.au.records.get k).state = .clearedUnacked) ∧
  (s.au.alarmU = true ↔ ∃ k, (s.au.records.get k).effective = .urgent ∧ (s.au.records.get k).condition = true) ∧
  (s.au.alarmS = true ↔ ∃ k, (s.au.records.get k).effective = .standing ∧ (s.au.records.get k).condition = true) ∧
  (s.au.gating = true ↔ ∃ k, s.mp.params.gatingSet.get k = true ∧ (s.au.records.get k).condition = true)

/-- TXOK is asserted only while the state is TRACK or HOLD, the error bound is at most the budget, and no permit-gating
alarm has its condition present (R183). -/
def PermitSafe (s : State) : Prop :=
  s.ou.txok = true →
    (s.du.pub.state = .track ∨ s.du.pub.state = .hold) ∧ s.du.pub.bound ≤ s.mp.params.budget ∧
    ∀ k, s.mp.params.gatingSet.get k = true → (s.au.records.get k).condition = false

/-- The permit with what it rests on: the conditions of the records are those their owners judge (R193, R195, R196), a
condition kind's record is ACTIVE or ACKED exactly while its condition is present (R195, R196, R198), a notice kind's is
CLEAR or ACTIVE and never present (R197), the notice kinds and no others are of class NOTICE (R194), the pins follow the
records, and PERMIT_LOST is never permit-gating (R194). -/
structure PermitSound (s : State) : Prop where
  agree : RecordsAgree s
  classes : ∀ k, s.mp.params.classes.get k = .notice ↔ Params.defaultClass k = .notice
  live : ∀ k, Params.defaultClass k ≠ .notice → ((s.au.records.get k).condition = true ↔
    (s.au.records.get k).state = .active ∨ (s.au.records.get k).state = .acked)
  notices : ∀ k, Params.defaultClass k = .notice → (s.au.records.get k).condition = false ∧
    ((s.au.records.get k).state = .clear ∨ (s.au.records.get k).state = .active)
  pins : PinsExact s
  never : s.mp.params.gatingSet.get .permitLost = false
  safe : PermitSafe s

/-! ### The published status (R125) -/

/-- A status as R125 lets it be published. -/
structure PublishedSound (p : Published) : Prop where
  unusable : p.state = .free ∨ p.state = .acquire ∨ p.state = .lapsed → p.rank = 15 ∧ p.trac = .none
  held : p.state = .hold → p.trac = .held
  track : p.state = .track → p.trac ≠ .none ∧ p.rank ≤ 14
  bound : p.bound ≤ 65535
  sources : p.sources.length = 3

/-- The published status, the one held back, and the one a combine in flight has taken, are as R125 lets them be; at most
four contributors are counted (R112). -/
structure StatusSound (s : State) : Prop where
  pub : PublishedSound s.du.pub
  unpublished : ∀ p, s.du.unpublished = some p → PublishedSound p
  prev : ∀ n, s.du.snapshot = some n → PublishedSound n.prev
  contributors : s.du.contributors ≤ 4

/-! ### The peer table (R60, R61, R76) -/

/-- The entries as a function of their slot. -/
def PeerTable.at (t : PeerTable) (i : Nat) : Option Entry := t.slots.getD i none

/-- The peer table: 24 slots, no two entries of one address, none of this station's own once it has one, and at most
four samples in a ring; before the load completes there is no entry (R60, R33, R76). PEER_LINK is present exactly while a
VALID or SUSPECT entry has missed T_miss beacons or more (R69), PEER_SUSPECT while an entry is SUSPECT (R83). -/
structure PeersSound (s : State) : Prop where
  slots : s.pt.slots.length = 24
  distinct : ∀ i j a b, s.pt.at i = some a → s.pt.at j = some b → a.addr = b.addr → i = j
  foreign : ∀ i e, s.pt.at i = some e → 1 ≤ e.addr ∧ e.addr ≤ 250 ∧ e.addr ≠ s.mp.params.address
  rings : ∀ i e, s.pt.at i = some e → e.ring.length ≤ 4
  unloaded : s.mp.status = .notLoaded → ∀ i, s.pt.at i = none
  link : s.conds.peerLink = true ↔
    ∃ i e, s.pt.at i = some e ∧ (e.state = .valid ∨ e.state = .suspect) ∧ s.mp.params.tMiss ≤ e.missed
  suspect : s.conds.peerSuspect = true ↔ ∃ i e, s.pt.at i = some e ∧ e.state = .suspect

/-! ### Planes, transmit history, minute ring, record area (R49, R52, R156) -/

/-- A report plane: at most twelve reports, no two of one station (R52). -/
def planeSound (p : List Report) : Prop := p.length ≤ 12 ∧ (p.map Report.addr).Nodup

/-- The line controller has nothing composed and drives nothing: no frame or jam, no instant, no beacon pending or due,
and its planes, transmit history and transmission record stand empty (R58, R40). -/
structure Line.Silent (l : Line) : Prop where
  access : l.access = .listen ∨ l.access = .wait ∨ l.access = .clashHold ∨ l.access = .mute
  nextInstant : l.nextInstant = none
  due : l.due = false
  beacon : l.beacon = false
  filling : l.filling = []
  sending : l.sending = none
  history : l.history = []
  record : l.record = none

/-- The transmit history holds consecutive sequence numbers, the newest that of the last transmission, so no two are equal
(R49); a transmission on the line bears the sequence counter's number, and one marked pre-step, or one that a RESTART has
overtaken, finds the history empty (R47, R50, R42). -/
structure Line.SentSound (l : Line) : Prop where
  consecutive : ∀ i x, l.history[i]? = some x → x.seq = l.seq - BitVec.ofNat 8 (l.history.length - i)
  distinct : (l.history.map Sent.seq).Nodup
  current : ∀ r, l.record = some r → r.seq = l.seq
  preStep : ∀ r, l.record = some r → r.steps ≠ [] → l.history = []
  restarted : l.after = .listen → l.history = []

/-- The bounded stores of the line controller and the history store (R49, R52, R156), and the record area in its canonical
form. The conditions of the line are present exactly while R35 to R37 say, LINE_ERRORS on the T_err in use (log 42). Before
the load completes, and from then on where it completes with FAULT, the line controller is silent (R58,
R40), in the second case in MUTE. -/
structure StoresSound (s : State) : Prop where
  filling : planeSound s.lc.filling
  sending : ∀ p, s.lc.sending = some p → planeSound p
  history : s.lc.history.length ≤ 8
  sent : s.lc.SentSound
  ring : s.hs.ring.length ≤ 64
  area : s.hs.area.wf = true
  unloaded : s.loaded = false → s.lc.Silent
  fault : s.mp.status = .fault → s.lc.access = .mute
  errors : s.conds.lineErrors = decide (s.mp.params.tErr ≤ s.lc.errNow + s.lc.errPast.sum)
  congestion : s.conds.lineCongestion = decide (3 ≤ s.lc.abNow + s.lc.abPast.sum)
  clash : s.conds.addressClash = decide (s.lc.clashAge < 16)

/-! ### What can be put on the line or in a slot -/

/-- A timestamp in range (01, section 1.4). -/
def Stamp.wf (t : Stamp) : Prop := t.sec < 281474976710656 ∧ t.sub < 16000000000

/-- A beacon whose fields fit the body table (02, section 2.1). -/
structure Beacon.Wf (b : Beacon) : Prop where
  sender : 1 ≤ b.sender ∧ b.sender ≤ 250
  rank : b.adv.rank ≤ 15
  bound : b.adv.bound ≤ 65535
  sources : b.adv.sources.length = 3 ∧ ∀ a ∈ b.adv.sources, a ≤ 250
  stepCtr : b.adv.stepCtr < 4
  stamp : b.stamp.wf
  count : b.reports.length ≤ 12
  reports : ∀ r ∈ b.reports, (1 ≤ r.addr ∧ r.addr ≤ 250) ∧ r.time.wf
  distinct : (b.reports.map Report.addr).Nodup

/-- A history record whose fields are in range (R159). -/
structure HistRecord.Wf (r : HistRecord) : Prop where
  seq : 1 ≤ r.seq ∧ r.seq ≤ 16777215
  fNew : inF r.fNew
  slope : -1000 ≤ r.slope ∧ r.slope ≤ 1000
  n : r.n ≤ 64
  time : r.time < 281474976710656

end Sys2Proof.Machine
end

