-- ==== Sys2Proof/Certificates/Slice0/Obligations.lean ====
section
/-! DEFINITION. The statements for the provers. Each docstring names the rules of spec/ the statement rests on; where a
clause is the model's own choice it names the log entry. -/

open Sys2Proof Sys2Proof.Machine

/-! ### The machine as a whole -/

/-- The step carries out the command at the front of the queue on the state with the queue's rest; with nothing waiting
the part stands as it is (the queue is the model's: log 2). -/
def Obligations.FrontCommandRuns : Prop :=
  (∀ (c : Instr) (rest : List Instr) (s : State), s.pending = c :: rest → step s = exec c { s with pending := rest }) ∧
  ∀ s : State, s.pending = [] → step s = .next s

/-- No command stops the part, and none but the step takes from the queue (00, section 4.6; log 31; the queue is log 2). -/
def Obligations.EveryCommandCompletes : Prop :=
  ∀ (c : Instr) (s : State), ∃ t, exec c s = .next t ∧ t.pending = s.pending

/-- While a power-on reset is held, or the RESET pin is held low, no event acts on the part (R211, R213; log 4) but those of
the supply and of the pin themselves, and no other event holds or releases it. An event of the supply or of the pin that finds
the part held and leaves it held changes only what holds it (log 58): a loss of supply, the pin's fall, the pin's rise or a
pulse with the supply lost, the release of the power-on reset with the pin low; a pin that is not low does not rise (log 1). A held part stands at its reset values at every step: no pulse and no
frequency output is high, TXOK and both status lines are low, the cluster line is not driven, RDY is deasserted, and data out is not driven (R211). -/
def Obligations.HeldPartIgnoresEvents : Prop :=
  (∀ (c : Instr) (s : State), c ≠ .powerOn → (∀ left, c ≠ .powerLoss left) → (∀ pin, c ≠ .pinReset pin) →
    ∃ t, exec c s = .next t ∧ t.held = s.held ∧ (s.held ≠ .nothing → t = s)) ∧
  (∀ (s : State) (left : List Byte), s.held ≠ .nothing →
    exec (.powerLoss left) s = .next { s with held := ⟨true, s.held.pin⟩ } ∧
    exec (.pinReset (.falls left)) s = .next { s with held := ⟨s.held.supply, true⟩ } ∧
    (s.held.pin = true → exec .powerOn s = .next { s with held := ⟨false, true⟩ }) ∧
    (s.held.supply = true →
      exec (.pinReset .rises) s = .next { s with held := ⟨true, false⟩ } ∧
      exec (.pinReset (.pulse left)) s = .next { s with held := ⟨true, false⟩ })) ∧
  (∀ s : State, s.held.pin = false → exec (.pinReset .rises) s = .next s) ∧
  (∀ s t : State, s.AtResetWhileHeld → step s = .next t → t.AtResetWhileHeld) ∧
  ∀ s : State, s.AtResetWhileHeld → s.held ≠ .nothing →
    s.ou.pps.pulse = none ∧ s.ou.frame.pulse = none ∧ s.ou.frame.pulse0 = none ∧ s.ou.fout0.level = false ∧
    s.ou.fout1.level = false ∧ s.ou.txok = false ∧ s.stat0 = false ∧ s.stat1 = false ∧
    s.lc.access ≠ .send ∧ s.lc.access ≠ .jam ∧ s.rdy = false ∧ s.dataOut = none ∧
    ∀ levels, s.dataOutLevels levels = levels.map fun _ => none

/-- An event whose occasion has not come changes nothing (the model's choice: log 1): a boundary signal, step,
completion or operation's end that is not outstanding, an instant no tick has reached, a carrier, frame, jam or backoff
event in another state of the line, bits that end in no delimiter and a collection of up to 183 bytes (log 54; what
afterDelimiter gives, BeaconReadBackAsSent says), an event of an idle reference input, an edge captured before a step (log 46) where no
step has come since the tick. -/
def Obligations.EventsWaitForOccasion : Prop :=
  ∀ s : State,
    (s.tb.epochs = [] → exec .epoch s = .next s) ∧
    (s.tb.minutes = [] → exec .minuteBoundary s = .next s) ∧
    (s.tb.intervals = [] → exec .beaconIntervalBoundary s = .next s) ∧
    (s.tb.orders = [] → exec .step s = .next s) ∧
    (s.du.snapshot = none → exec .combineCompletion s = .next s) ∧
    (∀ image, s.mp.status ≠ .notLoaded → exec (.configLoadComplete image) s = .next s) ∧
    (s.hs.scanning = false → exec .startScanComplete s = .next s) ∧
    (∀ left, s.hs.op = .idle → exec (.programEnd left) s = .next s ∧ exec (.eraseEnd left) s = .next s) ∧
    (s.ou.pps.next = none → exec .ppsPulseTime s = .next s) ∧
    (s.ou.frame.next = none → exec .frameBoundary s = .next s) ∧
    (s.mp.buffer = .empty → exec .responseReady s = .next s) ∧
    (s.lc.carrier = true → exec .carrierPresent s = .next s ∧ exec .lineIdle s = .next s) ∧
    (∀ bytes whole bits q, s.lc.carrier = false →
      exec (.carrierAbsent bytes whole) s = .next s ∧ exec (.rxCapture ⟨bits, q⟩) s = .next s ∧
      exec .stuckTimerExpiry s = .next s) ∧
    (∀ bits q, s.lc.receiver ≠ .searching ∨ afterDelimiter bits ≠ some [] → exec (.rxCapture ⟨bits, q⟩) s = .next s) ∧
    (∀ bytes whole, s.lc.access = .send ∨ s.lc.access = .jam → exec (.carrierAbsent bytes whole) s = .next s) ∧
    (∀ bytes : List Byte, s.lc.receiver ≠ .collecting ∨ bytes.length ≤ 183 → exec (.receptionOverlong bytes) s = .next s) ∧
    ((∀ i, s.lc.nextInstant = some i → i.reached = false) → exec .nextInstantReached s = .next s) ∧
    (∀ q, s.lc.access ≠ .send →
      exec (.txCapture q) s = .next s ∧ exec .collisionDetected s = .next s ∧ exec .transmissionComplete s = .next s) ∧
    (s.lc.access ≠ .jam → exec .jamEnd s = .next s) ∧
    (s.lc.access ≠ .backoff → exec .backoffEnd s = .next s) ∧
    (∀ bytes edge, s.ri.active = false →
      exec (.refMessage bytes) s = .next s ∧ exec .messageCollectionTimeout s = .next s ∧
      exec .messageByteStopBitLow s = .next s ∧ exec (.refEdge edge) s = .next s) ∧
    (∀ q, s.tb.before = none → exec (.refEdge ⟨q, true⟩) s = .next s) ∧
    (s.ri.message = none → exec .pendingMessageExpiry s = .next s) ∧
    (s.ri.closed = false → exec .windowGiveUp s = .next s) ∧
    (s.ri.deadline = none → exec .lossDeadlineExpiry s = .next s)

/-! ### Starting afresh -/

/-- What reset leaves, block by block: the values the spec gives (R17, R41, R58, R87, R89, R103, R130, R153, R169, R189,
R206, R211): every item of the reference input is cleared (R103), and every pin of the timing outputs is low, no pulse in
progress (R189). -/
def Obligations.ResetLeavesEachBlock : Prop :=
  let s := State.reset
  (s.tb.counter = ⟨0, 0, 0⟩ ∧ s.tb.stepCtr = 0 ∧ s.tb.increment = 34359738368 ∧ s.tb.tx = none ∧ s.tb.rx = none ∧
    s.tb.ref = none ∧ s.tb.interval = .ms250) ∧
  (s.lc.access = .listen ∧ s.lc.listen = 3 ∧ s.lc.clash = 0 ∧ s.lc.clashAge = 16 ∧ s.lc.attempts = 0 ∧
    s.lc.discards = 0 ∧ s.lc.abandoned = 0 ∧ s.lc.stuck = 0 ∧ s.lc.nextInstant = none ∧ s.lc.due = false ∧ s.lc.seq = 0 ∧
    s.lc.history = [] ∧ s.lc.filling = [] ∧ s.lc.sending = none ∧ s.lc.record = none ∧ s.lc.stepWait = false) ∧
  (s.pt.slots = List.replicate 24 none ∧ s.pt.admissions = 0 ∧ s.pt.refusals = 0 ∧ s.pt.refusalAge = 16) ∧
  (s.ri.active = false ∧ s.ri.closed = false ∧ s.ri.held = [] ∧ s.ri.quiet = 0 ∧ s.ri.message = none ∧ s.ri.run = 0 ∧
    s.ri.runTime = 0 ∧ s.ri.runLabel = 0 ∧ s.ri.expected = none ∧ s.ri.last = none ∧ s.ri.deadline = none ∧
    s.ri.misplaced = 0 ∧ s.ri.noSample = 0 ∧ s.ri.sample = none ∧ s.ri.valid = false) ∧
  (s.du.snapshot = none ∧ s.du.f = 0 ∧ s.du.fInt = 0 ∧ s.du.lastX = 0 ∧ s.du.contributors = 0 ∧
    s.du.pub = ⟨.free, .none, 15, 65535, [0, 0, 0], false, false⟩ ∧ s.du.lockRun = 0 ∧ s.du.largeRun = 0 ∧
    s.du.noneRun = 0 ∧ s.du.holdReq = false ∧ s.du.hold = none ∧ s.du.elapsed = 0 ∧ s.du.unpublished = none) ∧
  (s.hs.count = 0 ∧ s.hs.sum = 0 ∧ s.hs.allTrack = true ∧ s.hs.ahead = [] ∧ s.hs.ring = [] ∧ s.hs.recorded = 0 ∧ s.hs.unusable = [] ∧ s.hs.needsErase = [] ∧
    s.hs.op = .idle ∧ s.hs.waiting = none ∧ s.hs.scanning = true) ∧
  (s.ou.pps.squelch = .squelched ∧ s.ou.frame.squelch = .squelched ∧ s.ou.frame.squelch0 = .squelched ∧
    s.ou.fout0.squelch = .squelched ∧ s.ou.fout1.squelch = .squelched ∧ s.ou.txok = false ∧ s.ou.holdoff = 0 ∧
    s.ou.ppsShadow = none ∧ s.ou.frameShadow = none ∧ s.ou.pps.next = none ∧ s.ou.frame.next = none ∧
    s.ou.fout0.next = none ∧ s.ou.fout1.next = none ∧ s.ou.pps.pulse = none ∧ s.ou.frame.pulse = none ∧
    s.ou.frame.pulse0 = none ∧ s.ou.fout0.level = false ∧ s.ou.fout1.level = false ∧
    s.stat0 = false ∧ s.stat1 = false) ∧
  (∀ k, s.conds.get k = false ∧ s.au.records.get k =
    ⟨if k = .holdBudget ∨ k = .addressClash then .urgent
      else if k = .holdEntered ∨ k = .phaseStep ∨ k = .historyFault then .notice else .standing,
      false, .clear, 0, none, ⟨0, 0⟩, 0⟩) ∧
  (s.au.gating = false ∧ s.au.attn = false ∧ s.au.alarmU = false ∧ s.au.alarmS = false) ∧
  (s.mp.cause = .powerOn ∧ s.mp.restarts = 0 ∧ s.mp.status = .notLoaded ∧ s.mp.buffer = .empty)

/-- POWER_ON with the RESET pin high starts every block from its reset values over the record area as it stands, on a
running part too (log 5). PIN_RESET and POWER_LOSS take a running part to its reset values at once: the fall of the pin holds
the part there until the pin rises, the loss of supply until POWER_ON, and a pulse is its fall and its rise (log 4). Where
the pin alone holds the part its rise starts every block with cause PIN over the record area as it stands, and a pulse given
then ends with that rise (R211, R213; log 58). The
record area keeps every byte outside a slot being programmed and a sector being erased, a cut program only clears bits
that its record has clear, and touches the marker only where bytes 0 to 17 hold the record's fields whole, so that a slot
it leaves COMMITTED holds fields programmed whole; a cut erase only sets bits (R211, R166, R162, R169, R23; the count of seedings is the model's: log 7, and so is the count of
choices, which no reset touches: log 8; the cause while the part is held: log 4). -/
def Obligations.ResetsStartAfresh : Prop :=
  let begun := fun (s : State) (cause : Cause) (area : Memory) => ({ State.reset with
    lc := { State.reset.lc with seeding := s.lc.seeding + 1 }
    hs := { State.reset.hs with area := area }
    mp := { State.reset.mp with cause := cause }
    choices := s.choices
    pending := s.pending } : State)
  let stopped := fun (s : State) (held : HeldBy) (cause : Cause) (area : Memory) => ({ State.reset with
    held := held
    lc := { State.reset.lc with seeding := s.lc.seeding }
    hs := { State.reset.hs with area := area }
    mp := { State.reset.mp with cause := cause }
    choices := s.choices
    pending := s.pending } : State)
  (∀ s : State, s.held.pin = false → exec .powerOn s = .next (begun s .powerOn s.hs.area)) ∧
  (∀ (left : List Byte) (s : State), s.held = ⟨false, true⟩ →
    exec (.pinReset .rises) s = .next (begun s .pin s.hs.area) ∧
    exec (.pinReset (.pulse left)) s = .next (begun s .pin s.hs.area)) ∧
  ∀ (left : List Byte) (s : State), s.held = .nothing → s.hs.area.wf = true →
    ∃ area : Memory,
      exec (.pinReset (.pulse left)) s = .next (begun s .pin area) ∧
      exec (.pinReset (.falls left)) s = .next (stopped s ⟨false, true⟩ .pin area) ∧
      exec (.powerLoss left) s = .next (stopped s ⟨true, false⟩ .powerOn area) ∧
      (s.hs.op = .idle → area = s.hs.area) ∧
      (∀ r retry c k n, s.hs.op = .program r retry c k n → ∀ a,
        (a < slotBase c k.val ∨ slotBase c k.val + 32 ≤ a → area.read a = s.hs.area.read a) ∧
        area.read a &&& s.hs.area.read a = area.read a) ∧
      (∀ r retry c k n, s.hs.op = .program r retry c k n →
        (∀ i, i < 32 → s.hs.area.read (slotBase c k.val + i) &&& r.slot.getD i 0 &&& area.read (slotBase c k.val + i) =
          s.hs.area.read (slotBase c k.val + i) &&& r.slot.getD i 0) ∧
        (area.read (slotBase c k.val + 31) ≠ s.hs.area.read (slotBase c k.val + 31) →
          ∀ i, i < 18 → area.read (slotBase c k.val + i) = r.slot.getD i 0)) ∧
      (∀ r retry c n, s.hs.op = .erase r retry c n → ∀ a,
        (a < slotBase c 0 ∨ slotBase c 0 + 1024 ≤ a → area.read a = s.hs.area.read a) ∧
        area.read a ||| s.hs.area.read a = area.read a)

/-- A load whose CRC differs, or whose station address lies outside 1 to 250, ends in FAULT: no value of the image is
used and the line controller goes to MUTE (R209, R40) whatever its access state, with no instant held, no beacon due or
pending, and its planes, transmit history and transmission record empty (R40, R58; log 36). Any other ends in GOOD, or in ADJUSTED where a field was clamped or a selection cleared (when that is so,
ImageFieldsClamped says), and hands every block its values: B (R7), the reference input's activation (R89), the effective
classes with the last-change time where a class changes and the escalation timer of an ACTIVE STANDING record at 0 again,
the pins and the permit-gating indication following (R194, R192, R200 to R203), and the output unit's start: offsets, no shadow, no permit, every generator's next edge the first of its
schedule after the counter, and each output RESUMING or SQUELCHED by its policy (R188). The line controller, the peer
table, the discipline unit, the history store and the conditions stand, but for LINE_ERRORS, which is judged on the T_err
loaded and reported where it changes (R35; log 42). -/
def Obligations.ImageLoadHandsValues : Prop :=
  (∀ (image : List Byte) (s : State), s.held = .nothing → s.mp.status = .notLoaded → image.length = 84 →
    (crc32 (image.take 80) ≠ ofBE (image.drop 80) ∨ (image.getD 0 0).toNat = 0 ∨ 250 < (image.getD 0 0).toNat) →
    exec (.configLoadComplete image) s = .next { s with
      mp := { s.mp with image := image, status := .fault }
      lc := { s.lc with
        access := .mute, nextInstant := none, due := false, beacon := false, after := .normal, filling := []
        sending := none, history := [], record := none } }) ∧
  ∀ (image : List Byte) (s : State), s.held = .nothing → s.mp.status = .notLoaded → image.length = 84 →
    crc32 (image.take 80) = ofBE (image.drop 80) → 1 ≤ (image.getD 0 0).toNat → (image.getD 0 0).toNat ≤ 250 →
    let p := imageParams image
    let start := fun (o : Policy) => (match o with
      | .always => .resuming
      | .notFree => if s.du.pub.state = .free then .squelched else .resuming
      | .permit => .squelched : Squelch)
    ∃ t, exec (.configLoadComplete image) s = .next t ∧
      t.mp = { s.mp with
        image := image, params := p, status := if imageAdjusted image then .adjusted else .good } ∧
      t.tb = { s.tb with interval := p.interval } ∧
      t.lc = s.lc ∧ t.pt = s.pt ∧ t.du = s.du ∧ t.hs = s.hs ∧ t.held = .nothing ∧ t.choices = s.choices ∧
      t.pending = s.pending ∧
      t.conds = { s.conds with lineErrors := decide (p.tErr ≤ s.lc.errNow + s.lc.errPast.sum) } ∧
      t.ri = (if p.receiver then { RefInput.reset with
        active := true, deadline := some (s.tb.counter.value + (2500000000 * nsU : Nat)) } else s.ri) ∧
      t.ou.txok = false ∧ t.ou.holdoff = 0 ∧ t.ou.ppsShadow = none ∧ t.ou.frameShadow = none ∧
      t.ou.pps.offset = p.ppsOffset ∧ t.ou.frame.offset = p.frameOffset ∧
      t.ou.pps.ReckonedAfter s.tb.counter.value ∧
      t.ou.frame.ReckonedAfter p.frameLen s.tb.counter.value ∧
      t.ou.fout0.ReckonedAfter p.h0 s.tb.counter.value ∧
      t.ou.fout1.ReckonedAfter p.h1 s.tb.counter.value ∧
      t.gates = [(p.polPps, start p.polPps, false), (p.polFrame, start p.polFrame, false),
        (p.polFrame0, start p.polFrame0, false), (p.polFout0, start p.polFout0, false),
        (p.polFout1, start p.polFout1, false)] ∧
      PinsExact t ∧
      ∀ k, t.au.records.get k =
        let now : SecNs := ⟨s.tb.counter.sec, s.tb.counter.ns⟩
        let loaded := { s.au.records.get k with
          effective := p.classes.get k
          timer := if (s.au.records.get k).state = .active ∧ p.classes.get k = .standing then 0
            else (s.au.records.get k).timer
          changed := if p.classes.get k = (s.au.records.get k).effective then (s.au.records.get k).changed else now }
        if k = .lineErrors ∧ t.conds.lineErrors ≠ s.conds.lineErrors then
          loaded.taking (p.classes.get k) now [t.conds.lineErrors] else loaded

/-- Every field of an image is read at its place and clamped to its range (R209, the image layout of 11.5); and an image
counts as adjusted exactly where a field lies outside its range, a policy is coded 3, or the permit-gating selection names
a notice kind or PERMIT_LOST (R209, R194). -/
def Obligations.ImageFieldsClamped : Prop :=
  ∀ image : List Byte, image.length = 84 →
    let p := imageParams image
    let u := fun off n => ofBE ((image.drop off).take n)
    let i := fun off n => ofBESigned ((image.drop off).take n)
    let between := fun (lo hi v : Nat) => max lo (min hi v)
    let policy := fun c => [Policy.always, .notFree, .permit].getD (min 2 (c % 4)) .always
    let source := fun c => [Source.stateTrack, .stateHold, .txok, .attn, .anyPeerUrgent, .allPeersTraceable,
      .twoContributors, .refValid].getD (min 7 c) .stateTrack
    (p.address = u 0 1 ∧ p.interval.ms = [125, 250, 500].getD (min 2 (u 1 1)) 0 ∧ p.k = between 2 15 (u 2 1) ∧
      p.dMax = between 1 20 (u 3 1) ∧ p.a = between 1 1000 (u 4 2) ∧ p.m = min 1000 (u 6 2) ∧
      p.lTx = min 32000 (u 8 2) ∧ p.lRx = min 32000 (u 10 2) ∧ p.p = min 6 (u 12 1) ∧ p.i = between 4 14 (u 13 1)) ∧
    (p.s = between 100 100000 (u 14 4) ∧ p.tLock = between 10 1000 (u 18 2) ∧ p.l = between 2 60 (u 20 1) ∧
      p.g = between 1 10 (u 21 1) ∧ p.budget = between 100 60000 (u 22 2) ∧ p.hF = min 100000 (u 24 4) ∧
      p.hA = min 10000 (u 28 2) ∧ (p.receiver = true ↔ 1 ≤ u 30 1)) ∧
    (p.cable = max (-100000) (min 100000 (i 31 4)) ∧ p.cableUnc = min 1000 (u 35 2) ∧ p.w = between 100 10000 (u 37 4) ∧
      p.d = between 50 5000 (u 41 2) ∧ p.tErr = between 1 255 (u 43 1) ∧ p.tMiss = between 4 64 (u 44 1) ∧
      p.ppsOffset = max (-500000000) (min 499999999 (i 45 4)) ∧ p.ppsWidth = between 1000 200000000 (u 49 4)) ∧
    (p.frameLen.ns = [1000000, 5000000, 10000000].getD (min 2 (u 53 1)) 0 ∧
      p.frameOffset = min (p.frameLen.ns - 1) (u 54 4) ∧ p.frameWidth = between 1000 500000 (u 58 4) ∧
      p.h0 = between 4 500000000 (u 62 4) ∧ p.h1 = between 4 500000000 (u 66 4) ∧ p.hP = between 1 60 (u 72 1) ∧
      p.escalation = u 79 1) ∧
    (p.polPps = policy (u 70 2) ∧ p.polFrame = policy (u 70 2 / 4) ∧ p.polFrame0 = policy (u 70 2 / 16) ∧
      p.polFout0 = policy (u 70 2 / 64) ∧ p.polFout1 = policy (u 70 2 / 256) ∧
      p.stat0 = source (u 73 1) ∧ p.stat1 = source (u 74 1)) ∧
    (∀ k, (Params.defaultClass k ≠ .notice →
        p.classes.get k = if u 75 2 / 2 ^ kindCode k % 2 = 1 then .urgent else .standing) ∧
      (Params.defaultClass k = .notice → p.classes.get k = .notice) ∧
      (p.gatingSet.get k = true ↔
        u 77 2 / 2 ^ kindCode k % 2 = 1 ∧ Params.defaultClass k ≠ .notice ∧ k ≠ .permitLost)) ∧
    (imageAdjusted image = true ↔
      (∃ f ∈ ([(1, 1, 0, 2), (2, 1, 2, 15), (3, 1, 1, 20), (4, 2, 1, 1000), (6, 2, 0, 1000), (8, 2, 0, 32000),
            (10, 2, 0, 32000), (12, 1, 0, 6), (13, 1, 4, 14), (14, 4, 100, 100000), (18, 2, 10, 1000), (20, 1, 2, 60),
            (21, 1, 1, 10), (22, 2, 100, 60000), (24, 4, 0, 100000), (28, 2, 0, 10000), (30, 1, 0, 1),
            (35, 2, 0, 1000), (37, 4, 100, 10000), (41, 2, 50, 5000), (43, 1, 1, 255), (44, 1, 4, 64),
            (49, 4, 1000, 200000000), (53, 1, 0, 2), (58, 4, 1000, 500000), (62, 4, 4, 500000000),
            (66, 4, 4, 500000000), (72, 1, 1, 60), (73, 1, 0, 7), (74, 1, 0, 7)] : List (Nat × Nat × Nat × Nat)),
          u f.1 f.2.1 < f.2.2.1 ∨ f.2.2.2 < u f.1 f.2.1) ∨
      i 31 4 < -100000 ∨ 100000 < i 31 4 ∨ i 45 4 < -500000000 ∨ 499999999 < i 45 4 ∨ p.frameLen.ns - 1 < u 54 4 ∨
      (∃ j, j < 5 ∧ u 70 2 / 4 ^ j % 4 = 3) ∨
      ∃ k, u 77 2 / 2 ^ kindCode k % 2 = 1 ∧ (Params.defaultClass k = .notice ∨ k = .permitLost))

/-! ### The time base -/

/-- A tick adds the increment to the counter on the circle of the time scale, each part in its range, and changes
neither the step counter nor the increment (R2, R1). One that carries the seconds marks an epoch with the new seconds
count, one whose count is a multiple of 60 a minute boundary, and one whose advance passes a multiple of B a
beacon-interval boundary of that time (R5 to R7), each waiting for the command that takes it (the model's: log 32). What
stood before a step is forgotten with it (the model's: log 46). -/
def Obligations.TickAdvancesAndMarks : Prop :=
  ∀ s : State, s.held = .nothing → s.tb.counter.inRange → 0 < s.tb.increment → s.tb.increment ≤ 34363174342 →
    ∃ t, exec .tick s = .next t ∧ t.tb.counter.inRange ∧
      t.tb.counter.value = (s.tb.counter.value + s.tb.increment) % scaleU ∧
      t.tb = { s.tb with
        counter := t.tb.counter, lastInc := s.tb.increment, epochs := t.tb.epochs, minutes := t.tb.minutes
        intervals := t.tb.intervals, before := none } ∧
      (if secU ≤ s.tb.counter.value % secU + s.tb.increment then
        t.tb.counter.sec = (s.tb.counter.sec + 1) % 281474976710656 ∧ t.tb.epochs = s.tb.epochs ++ [t.tb.counter.sec] ∧
        t.tb.minutes = (if t.tb.counter.sec % 60 = 0 then s.tb.minutes ++ [t.tb.counter.sec] else s.tb.minutes)
       else t.tb.counter.sec = s.tb.counter.sec ∧ t.tb.epochs = s.tb.epochs ∧ t.tb.minutes = s.tb.minutes) ∧
      (∀ n, s.tb.counter.value < n * s.tb.interval.span → n * s.tb.interval.span ≤ s.tb.counter.value + s.tb.increment →
        t.tb.intervals = s.tb.intervals ++ [n * s.tb.interval.span % scaleU]) ∧
      ((∀ n, s.tb.counter.value < n * s.tb.interval.span → s.tb.counter.value + s.tb.increment < n * s.tb.interval.span) →
        t.tb.intervals = s.tb.intervals)

/-- A tick that finds every status published brings every count of elapsed ticks on: the gap and the stuck timer up to
5,000 and 625,000 ticks (the stuck timer reading 0 while carrier is absent: log 13), the frame, jam and backoff on the line (R19, R26, R27, R29), the reference messages (R90, R91),
the operation of the record area (R162, R164), the pulses (R173, R174) and the escalation timers (R200); and the next
instant is reached where the counter then stands at or beyond it, a step that passed it before included (R23; at the
top of the time scale log 48). Nothing
else of the other blocks changes. A tick that finds a status held back lets it be published first (R124, R128; log 47). -/
def Obligations.TickCountsElapsedTime : Prop :=
  (∀ (s : State) (p : Published), s.du.unpublished = some p → s.held = .nothing →
    exec .tick s = exec .tick (s.withPublished p)) ∧
  ∀ s : State, s.held = .nothing → s.du.unpublished = none → ∃ t, exec .tick s = .next t ∧
    t.lc = { s.lc with
      nextInstant := s.lc.nextInstant.map fun i =>
        { i with reached := i.reached || decide (i.time ≤ t.tb.counter.value) }
      gap := if s.lc.carrier ∨ s.lc.idle then s.lc.gap else min 5000 (s.lc.gap + 1)
      stuck := if s.lc.carrier then min 625000 (s.lc.stuck + 1) else 0
      sent := if s.lc.access = .send then s.lc.sent + 1 else s.lc.sent
      jam := if s.lc.access = .jam then s.lc.jam + 1 else s.lc.jam
      backoff := if s.lc.access = .backoff then s.lc.backoff - 1 else s.lc.backoff } ∧
    t.ri = { s.ri with
      quiet := if s.ri.held = [] then 0 else s.ri.quiet + 1
      message := s.ri.message.map fun m => { m with age := m.age + 1 } } ∧
    t.hs = { s.hs with op := t.hs.op } ∧ (s.hs.op = .idle → t.hs.op = .idle) ∧
    (∀ r retry c k n, s.hs.op = .program r retry c k n → t.hs.op = .program r retry c k (n + 1)) ∧
    (∀ r retry c n, s.hs.op = .erase r retry c n → t.hs.op = .erase r retry c (n + 1)) ∧
    t.ou = { s.ou with
      pps := { s.ou.pps with pulse := s.ou.pps.pulse.map fun p => { p with left := p.left - 1 } }
      frame := { s.ou.frame with
        pulse := s.ou.frame.pulse.map fun p => { p with left := p.left - 1 }
        pulse0 := s.ou.frame.pulse0.map fun p => { p with left := p.left - 1 } } } ∧
    (∀ k, t.au.records.get k = { s.au.records.get k with
      timer := if s.mp.params.classes.get k = .standing ∧ (s.au.records.get k).state = .active ∧
          (s.au.records.get k).effective = .standing
        then min (s.mp.params.escalation * 7500000000) ((s.au.records.get k).timer + 1)
        else (s.au.records.get k).timer }) ∧
    t.au = { s.au with records := t.au.records } ∧
    t.pt = s.pt ∧ t.du = s.du ∧ t.mp = s.mp ∧ t.conds = s.conds ∧ t.held = s.held ∧ t.choices = s.choices

/-- The increment is N + round(N × F / 10^12), the division rounding half away from zero; for F within its range it
lies between 34,356,302,394 and 34,363,174,342; and the values of R3's table (R3). -/
def Obligations.IncrementFormedFromF : Prop :=
  (∀ f : Int, inF f →
    (0 ≤ f → (incrementOf f : Int) = 34359738368 + (2 * (34359738368 * f) + 1000000000000) / 2000000000000) ∧
    (f ≤ 0 → (incrementOf f : Int) = 34359738368 - (2 * (34359738368 * -f) + 1000000000000) / 2000000000000) ∧
    34356302394 ≤ incrementOf f ∧ incrementOf f ≤ 34363174342) ∧
  incrementOf 0 = 8 * 4294967296 ∧ incrementOf 2526597 = 8 * 4294967296 + 86813 ∧
  incrementOf 100000000 = 8 * 4294967296 + 3435974 ∧ incrementOf (-100000000) = 7 * 4294967296 + 4291531322

/-- A step adds x sixteenths to the counter, clamped at zero time and at the top of the time scale, and advances the
step counter modulo 4 (R11, R12, R13); its notice clears the transmit history, the filling plane and every sample
ring, discards the reference sample and moves the reference input's times by the applied amount, and reckons anew every
generator's next edge as the first of its schedule after the new time, with the frame's number and each FOUT edge's
direction (R14, R50, R57, R77, R102, R179). The next instant, the pulses and levels, the squelches and the shadows stand
(R30, R179). What the step found stands by for an edge captured before it (the model's: log 46). -/
def Obligations.StepMovesCounterAndNotifies : Prop :=
  ∀ (s : State) (x : Int) (rest : List Int), s.held = .nothing → s.tb.orders = x :: rest → s.tb.counter.inRange →
    0 < s.mp.params.h0 → 0 < s.mp.params.h1 →
    ∃ t, exec .step s = .next t ∧ t.tb.counter.inRange ∧
      (t.tb.counter.value : Int) = max 0 (min ((scaleU : Int) - 1) (s.tb.counter.value + x * 268435456)) ∧
      t.tb = { s.tb with
        counter := t.tb.counter, stepCtr := (s.tb.stepCtr + 1) % 4, orders := rest
        before := some ⟨s.tb.counter, s.tb.stepCtr⟩ } ∧
      (let applied := ((t.tb.counter.value : Int) - s.tb.counter.value).tdiv 268435456
       t.lc = { s.lc with
         history := [], filling := [], stepWait := true
         sending := if s.lc.access = .send then s.lc.sending else s.lc.sending.map fun _ => []
         record := s.lc.record.map fun r => { r with steps := r.steps ++ [applied] } } ∧
       t.ri = { s.ri with
         sample := none
         expected := s.ri.expected.map fun e => e + applied * 268435456
         last := s.ri.last.map fun e => e + applied * 268435456
         runTime := s.ri.runTime + applied * 268435456
         deadline := s.ri.deadline.map fun e => e + applied * 268435456 }) ∧
      t.pt = { s.pt with slots := s.pt.slots.map fun o => o.map fun e => { e with ring := [] } } ∧
      t.ou = { s.ou with
        pps := { s.ou.pps with next := t.ou.pps.next }
        frame := { s.ou.frame with next := t.ou.frame.next, number := t.ou.frame.number }
        fout0 := { s.ou.fout0 with next := t.ou.fout0.next, rising := t.ou.fout0.rising }
        fout1 := { s.ou.fout1 with next := t.ou.fout1.next, rising := t.ou.fout1.rising } } ∧
      (if s.ou.pps.next = none then t.ou.pps = s.ou.pps else t.ou.pps.ReckonedAfter t.tb.counter.value) ∧
      (if s.ou.frame.next = none then t.ou.frame = s.ou.frame
        else t.ou.frame.ReckonedAfter s.mp.params.frameLen t.tb.counter.value) ∧
      (if s.ou.fout0.next = none then t.ou.fout0 = s.ou.fout0
        else t.ou.fout0.ReckonedAfter s.mp.params.h0 t.tb.counter.value) ∧
      (if s.ou.fout1.next = none then t.ou.fout1 = s.ou.fout1
        else t.ou.fout1.ReckonedAfter s.mp.params.h1 t.tb.counter.value) ∧
      t.du = s.du ∧ t.hs = s.hs ∧ t.au = s.au ∧ t.mp = s.mp ∧ t.conds = s.conds ∧ t.held = s.held

/-- An epoch moves the line error window on, takes the combine's snapshot of the peers, the reference sample if it is
at most 1.5 s old (an age of plain values: log 20), and the published status, and applies a waiting PPS shadow (R104, R34, R101, R177): the entries in slot
order, each as its own snapshot leaves it and with the estimate it hands then, if any (R78; EstimatesFromRings says what
these are). A PPS pulse time of the old offset that has come is driven first (R173, R181; judged on the circle of the time
scale, log 19, by the EPOCH command, log 32), and the next pulse time is the first of the new series at or after the
second just crossed; the rest of the output unit stands, but for the permit that a LINE_ERRORS risen here withdraws (R177,
R184); PERMIT_LOST is never permit-gating (R194, a field of PermitSound). An epoch that comes while a combine is in flight replaces its snapshot (log 30). A status held back is published
before the snapshot is taken (R128; log 47). -/
def Obligations.EpochTakesSnapshot : Prop :=
  (∀ (s : State) (sec : Nat) (rest : List Nat) (p : Published), s.held = .nothing → s.tb.epochs = sec :: rest →
    s.du.unpublished = some p → exec .epoch s = exec .epoch (s.withPublished p)) ∧
  ∀ (s : State) (sec : Nat) (rest : List Nat), s.held = .nothing → s.tb.epochs = sec :: rest → s.du.unpublished = none →
    s.mp.params.gatingSet.get .permitLost = false →
    ∃ t, exec .epoch s = .next t ∧
      t.tb = { s.tb with epochs := rest } ∧
      t.lc = { s.lc with errNow := 0, errPast := s.lc.errNow :: s.lc.errPast.take 8 } ∧
      t.conds.lineErrors = decide (s.mp.params.tErr ≤ t.lc.errNow + t.lc.errPast.sum) ∧
      t.pt = { s.pt with slots := s.pt.slots.map fun o => o.map fun e => e.snapshot sec s.mp.params.a } ∧
      t.ri = { s.ri with sample := none } ∧
      t.du = { s.du with snapshot := some {
        peers := s.pt.slots.filterMap fun o => o.bind fun e =>
          (e.snapshot sec s.mp.params.a).estimate s.mp.params.a
        ref := s.ri.sample.bind fun x =>
          if ((sec * secU : Nat) : Int) - x.time ≤ (1500000000 * nsU : Nat) then some (x.offset, x.unc) else none
        prev := s.du.pub
        epoch := sec } } ∧
      t.hs = s.hs ∧ t.mp = s.mp ∧ t.held = s.held ∧ t.choices = s.choices ∧
      (∀ k, k ≠ .lineErrors → k ≠ .permitLost → t.conds.get k = s.conds.get k) ∧
      ∃ o : Outputs, o.sameSchedules t.ou ∧
        (s.au.gating = true ∨ t.au.gating = false → t.ou = o) ∧
        (s.au.gating = false → t.au.gating = true → t.ou.txok = false ∧ t.ou.holdoff = 0) ∧
        (s.ou.ppsShadow = none → o = s.ou) ∧
        ∀ v, s.ou.ppsShadow = some v → ∃ m,
          m < scaleU ∧ ((m : Int) - v * nsU) % secU = 0 ∧ ((m : Int) - (sec * secU : Nat)) % scaleU < secU ∧
          o = { s.ou with ppsShadow := none, pps := { s.ou.pps with
            offset := v, next := some m, squelch := o.pps.squelch, pulse := o.pps.pulse } } ∧
          (∀ e : Nat, s.ou.pps.next = some e → Past s.tb.counter.value e →
            s.ou.pps.squelch = .running ∨ s.ou.pps.squelch = .resuming →
            o.pps.squelch = .running ∧ o.pps.pulse = some ⟨(s.mp.params.ppsWidth + 4) / 8, s.tb.edgePos e⟩) ∧
          ((∀ e : Nat, s.ou.pps.next = some e → ¬Past s.tb.counter.value e) ∨
              s.ou.pps.squelch = .stopping ∨ s.ou.pps.squelch = .squelched →
            o.pps.squelch = s.ou.pps.squelch ∧ o.pps.pulse = s.ou.pps.pulse)

/-! ### The management port -/

/-- A transaction's first byte picks its command: 00 a response read, 01 to 0B hexadecimal the commands in their order,
any other a command answered BAD_COMMAND, and no whole byte none (R214). A command whose select fell before the load
completed has no effect and no answer (R214). A received command is judged in order: a code above 0B is answered
BAD_COMMAND in every status; under FAULT every other command but READ_STATUS is answered REFUSED; a wrong number of
argument bytes is answered BAD_ARGUMENT; none of these has an effect (R215, R210). The bytes are read from the levels of
the wires while select is low: data in at each rising edge of the clock, most significant bit first, an incomplete group
of bits discarded; a low level of RESET before select rises cuts the transaction short, and no command comes of it (R211,
R213, R214; log 22). Each pulse on RESET is a low level: the pin falls and then rises, and a low level that lasts is a fall
with no rise yet (R213). From a low level of RESET on data out shows nothing (R211). Data out changes to its next bit where the
clock falls with select low, and at no other instant while select is low, so that each bit stands over the rise at which
the host samples it (R213; log 22), the first from the fall of select (log 56); for the code byte of a response read the model shows no level (log 55). -/
def Obligations.CommandsJudgedInOrder : Prop :=
  (∀ (early : Bool) (args : List Byte),
    transaction early [] = none ∧ transaction early (0 :: args) = some (.responseRead args.length) ∧
    (∀ n c, (n, c) ∈ ([(1, .readStatus early args), (2, .readPeer early args), (3, .readAlarm early args),
        (4, .ackAlarm early args), (5, .lockoutPeer early args), (6, .releasePeer early args),
        (7, .forceHold early args), (8, .releaseHold early args), (9, .setOffset early args), (10, .restart early args),
        (11, .readHistory early args)] : List (Byte × Instr)) → transaction early (n :: args) = some c) ∧
    ∀ code : Byte, 11 < code.toNat → transaction early (code :: args) = some (.badCommand early code args)) ∧
  (∀ (early : Bool) (bytes : List Byte) (tail : List Bool) (rest : List SpiWires), tail.length < 8 →
    let clocked := fun bits : List Bool =>
      bits.flatMap fun b => [(⟨false, false, b, true⟩ : SpiWires), ⟨false, true, b, true⟩]
    let msbFirst := fun b : Byte => [b.getLsbD 7, b.getLsbD 6, b.getLsbD 5, b.getLsbD 4, b.getLsbD 3, b.getLsbD 2,
      b.getLsbD 1, b.getLsbD 0]
    ((∀ w ∈ rest, w.select = true) →
      wireTransaction early (clocked (bytes.flatMap msbFirst ++ tail) ++ rest) = transaction early bytes) ∧
    spiDataOut bytes = bytes.flatMap msbFirst) ∧
  (∀ (early : Bool) (before after : List SpiWires) (w : SpiWires), (∀ v ∈ w :: before, v.select = false) →
    w.reset = false → wireTransaction early (before ++ w :: after) = none) ∧
  (∀ (clock : Bool) (bits : List Bool) (w : SpiWires) (ws : List SpiWires), w.select = false →
    spiDataOutLevels clock bits (w :: ws) =
      if w.reset = false then none :: ws.map fun _ => none
      else if clock = true ∧ w.clock = false then bits.tail.head? :: spiDataOutLevels false bits.tail ws
      else bits.head? :: spiDataOutLevels w.clock bits ws) ∧
  (∀ (s : State) (ins : List Bool), s.held = .nothing → ins.length = 8 * s.mp.spiOut.length →
    s.dataOutLevels (ins.flatMap fun b => [⟨false, false, b, true⟩, ⟨false, true, b, true⟩]) =
      (spiDataOut s.mp.spiOut).flatMap fun b => [some b, some b]) ∧
  (∀ (left : List Byte) (n m : Nat) (widths : List (Nat × Nat)), (∀ w ∈ widths, 0 < w.1 ∧ 0 < w.2) →
    resetEdges left true (List.replicate n true ++
      (widths.flatMap fun w => List.replicate w.1 false ++ List.replicate w.2 true) ++ List.replicate m false) =
      (widths.flatMap fun _ => [.falls left, .rises]) ++ if m = 0 then [] else [.falls left]) ∧
  (∀ (s : State) (early : Bool) (code : Byte) (args : List Byte), s.held = .nothing → early = true ∨ s.mp.status = .notLoaded →
    let ignored := fun n => Host.Outcome.next { s with mp := { s.mp with spiOut := List.replicate n 0xFF } }
    ∀ c, c = .readStatus early args ∨ c = .readPeer early args ∨ c = .readAlarm early args ∨ c = .ackAlarm early args ∨
      c = .lockoutPeer early args ∨ c = .releasePeer early args ∨ c = .forceHold early args ∨
      c = .releaseHold early args ∨ c = .setOffset early args ∨ c = .restart early args ∨ c = .readHistory early args ∨
      c = .badCommand early code args ∧ 11 < code.toNat ∨ c = .ackAll early ∧ args.length = 1 →
    exec c s = ignored (1 + args.length)) ∧
  ∀ (s : State) (code : Byte) (args : List Byte), s.held = .nothing → s.mp.status ≠ .notLoaded →
    (11 < code.toNat → exec (.badCommand false code args) s = .next (s.answeredOnly (1 + args.length) 2 code)) ∧
    (s.mp.status = .fault → exec (.ackAll false) s = .next (s.answeredOnly 2 5 4)) ∧
    ∀ c n len, (c, n, len) ∈ ([(.readStatus false args, 1, 0), (.readPeer false args, 2, 2), (.readAlarm false args, 3, 1),
        (.ackAlarm false args, 4, 1), (.lockoutPeer false args, 5, 1), (.releasePeer false args, 6, 1),
        (.forceHold false args, 7, 0), (.releaseHold false args, 8, 0), (.setOffset false args, 9, 5),
        (.restart false args, 10, 0), (.readHistory false args, 11, 3)] : List (Instr × Byte × Nat)) →
      (s.mp.status = .fault → n ≠ 1 → exec c s = .next (s.answeredOnly (1 + args.length) 5 n)) ∧
      ((s.mp.status ≠ .fault ∨ n = 1) → args.length ≠ len → exec c s = .next (s.answeredOnly (1 + args.length) 3 n))

/-- READ_STATUS is answered OK with the 38 bytes of the station status record, each field as its owner holds it.
READ_PEER, READ_ALARM and READ_HISTORY with arguments of their lengths answer the record where there is one, NOT_FOUND
where there is none, BAD_ARGUMENT for an argument out of range. None changes anything but the answer and data out
(R218, R86, R205, R168, R219). The peer record, the alarm record and the history summary are laid out as 11.5 and R219
say, and a slot under program or in a sector under erase reads ERASED without a valid record (R168). -/
def Obligations.ReadsAnswerTheirRecords : Prop :=
  (∀ s : State, s.held = .nothing → s.mp.status ≠ .notLoaded → s.du.pub.sources.length = 3 →
    exec (.readStatus false []) s = .next { s with mp := { s.mp with
      spiOut := [0xFF]
      buffer := .preparing ([1, 1, 38,
        if s.mp.cause = .pin then 1 else 0, BitVec.ofNat 8 s.mp.restarts,
        if s.mp.status = .good then 0 else if s.mp.status = .adjusted then 1 else 2,
        BitVec.ofNat 8 ((if s.hs.seed.isSome then 1 else 0) + (if s.du.pub.holdReq then 2 else 0) +
          (if s.ou.txok then 4 else 0) + (if s.du.pub.localRef then 8 else 0) + (if s.au.alarmU then 16 else 0) +
          (if s.au.alarmS then 32 else 0)),
        BitVec.ofNat 8 s.du.pub.state.code, BitVec.ofNat 8 (s.du.pub.rank * 16 + s.du.pub.trac.code)] ++
        be 2 s.du.pub.bound ++ beInt 4 s.du.f ++ beInt 4 s.du.fInt ++
        beInt 4 (max (-2147483648) (min 2147483647 s.du.lastX)) ++ [BitVec.ofNat 8 s.du.contributors] ++
        s.du.pub.sources.map (BitVec.ofNat 8) ++ be 4 s.du.elapsed ++ be 6 s.tb.counter.sec ++ be 4 s.tb.counter.ns) } }) ∧
  (∀ (s : State) (a b c : Byte), s.held = .nothing → s.mp.status = .good ∨ s.mp.status = .adjusted →
    let answered := fun (n : Nat) (frame : List Byte) =>
      Host.Outcome.next { s with mp := { s.mp with spiOut := List.replicate (1 + n) 0xFF, buffer := .preparing frame } }
    exec (.readPeer false [a, b]) s = answered 2 (
      if a = 0 ∧ b.toNat ≤ 23 then
        match s.pt.at b.toNat with
        | some e => [1, 2, BitVec.ofNat 8 (s.peerRecord b.toNat e).length] ++ s.peerRecord b.toNat e
        | none => [4, 2, 0]
      else if a = 1 ∧ 1 ≤ b.toNat ∧ b.toNat ≤ 250 then
        match s.pt.slotOf b.toNat with
        | some i =>
          match s.pt.at i with
          | some e => [1, 2, BitVec.ofNat 8 (s.peerRecord i e).length] ++ s.peerRecord i e
          | none => [4, 2, 0]
        | none => [4, 2, 0]
      else [3, 2, 0]) ∧
    exec (.readAlarm false [a]) s = answered 1 (
      match kindOfCode a.toNat with
      | some k => [1, 3, BitVec.ofNat 8 (s.alarmRecordBytes k).length] ++ s.alarmRecordBytes k
      | none => [3, 3, 0]) ∧
    exec (.readHistory false [a, b, c]) s = answered 3 (
      if a = 0 ∧ b.toNat ≤ 63 then
        match s.hs.ring.reverse[b.toNat]? with
        | some m => [1, 11, BitVec.ofNat 8 (11 + s.hs.summary.length)] ++ [b] ++ beInt 4 m.mean ++ be 6 m.time ++ s.hs.summary
        | none => [4, 11, 0]
      else if h : a = 1 ∧ b.toNat < 4 ∧ c.toNat < 32 then
        let bytes := s.hs.readSlot ⟨b.toNat, h.2.1⟩ ⟨c.toNat, h.2.2⟩
        [1, 11, BitVec.ofNat 8 (2 + bytes.length + s.hs.summary.length)] ++
          [BitVec.ofNat 8 (slotState bytes).code, if (parseRecord bytes).isSome then 1 else 0] ++ bytes ++ s.hs.summary
      else [3, 11, 0])) ∧
  (∀ (s : State) (slot : Nat) (e : Entry), e.adv.sources.length = 3 →
    let r := s.peerRecord slot e
    let f := fun off n => (r.drop off).take n
    r.length = 47 ∧
    f 0 4 = [BitVec.ofNat 8 slot, BitVec.ofNat 8 e.addr,
      BitVec.ofNat 8 ([EntryState.new, .valid, .suspect, .stale, .lockedOut].idxOf e.state), e.lastSeq] ∧
    f 4 6 = be 6 e.heard.sec ∧ f 10 4 = be 4 e.heard.ns ∧ f 14 2 = be 2 e.silence ∧
    f 16 3 = [BitVec.ofNat 8 ((if e.adv.localRef then 8 else 0) + (if e.adv.holdReq then 4 else 0) + e.adv.stepCtr % 4),
      BitVec.ofNat 8 ([DState.free, .acquire, .track, .hold, .lapsed].idxOf e.adv.state),
      BitVec.ofNat 8 (e.adv.rank * 16 + [Trac.none, .held, .traceable].idxOf e.adv.trac)] ∧
    f 19 2 = be 2 e.adv.bound ∧
    f 21 1 = [BitVec.ofNat 8 ((if e.adv.urgent then 1 else 0) + if e.adv.standing then 2 else 0)] ∧
    f 22 3 = e.adv.sources.map (BitVec.ofNat 8) ∧
    f 25 6 = [BitVec.ofNat 8 e.missed, BitVec.ofNat 8 e.received, BitVec.ofNat 8 e.ring.length,
      BitVec.ofNat 8 e.disagree, BitVec.ofNat 8 e.agree, if e.contributor then 1 else 0] ∧
    f 31 6 = be 6 e.weight ∧ f 37 2 = be 2 e.unmatched ∧ f 39 2 = be 2 e.faults ∧ f 41 2 = be 2 e.drops ∧
    f 43 2 = be 2 s.pt.admissions ∧ f 45 2 = be 2 s.pt.refusals) ∧
  (∀ (s : State) (k : Kind),
    let r := s.au.records.get k
    let bytes := s.alarmRecordBytes k
    let f := fun off n => (bytes.drop off).take n
    let cls := fun c : Machine.Class => BitVec.ofNat 8 ([Machine.Class.standing, .urgent, .notice].idxOf c)
    bytes.length = 29 ∧
    f 0 5 = [BitVec.ofNat 8 (kinds.idxOf k), cls (s.mp.params.classes.get k), cls r.effective,
      if r.condition then 1 else 0, BitVec.ofNat 8 ([AlarmState.clear, .active, .acked, .clearedUnacked].idxOf r.state)] ∧
    f 5 2 = be 2 r.raises ∧
    (r.first = none → f 7 11 = List.replicate 11 0) ∧
    (∀ t, r.first = some t → f 7 11 = [1] ++ be 6 t.sec ++ be 4 t.ns) ∧
    f 18 6 = be 6 r.changed.sec ∧ f 24 4 = be 4 r.changed.ns ∧
    f 28 1 = [BitVec.ofNat 8 ((if s.mp.params.gatingSet.get k then 1 else 0) + (if s.au.attn then 2 else 0) +
      (if s.au.alarmU then 4 else 0) + (if s.au.alarmS then 8 else 0))]) ∧
  ∀ h : History,
    let r := h.summary
    let f := fun off n => (r.drop off).take n
    r.length = 15 ∧
    f 0 2 = [BitVec.ofNat 8 h.ring.length, if 8 ≤ h.ring.length ∨ h.seed.isSome then 1 else 0] ∧
    f 2 4 = beInt 4 h.derive.fNew ∧ f 6 2 = beInt 2 h.derive.slope ∧
    f 8 1 = [BitVec.ofNat 8 ([SlopeSource.none, .ring, .seed].idxOf h.derive.source)] ∧
    (h.seed = none → f 9 6 = List.replicate 6 0) ∧
    (∀ x, h.seed = some x →
      f 9 6 = [1, BitVec.ofNat 8 x.sector.val, BitVec.ofNat 8 x.slot.val] ++ be 3 x.record.seq) ∧
    slotState (List.replicate 32 0xFF) = .erased ∧ parseRecord (List.replicate 32 0xFF) = none ∧
    ∀ (c : Fin 4) (k : Fin 32),
      let stands := (List.range 32).map fun i => h.area.read (c.val * 1024 + k.val * 32 + i)
      (h.op = .idle → h.readSlot c k = stands) ∧
      (∀ r retry c' k' n, h.op = .program r retry c' k' n →
        h.readSlot c k = if c' = c ∧ k' = k then List.replicate 32 0xFF else stands) ∧
      ∀ r retry c' n, h.op = .erase r retry c' n → h.readSlot c k = if c' = c then List.replicate 32 0xFF else stands

/-- A response read with the buffer READY sends the frame from its first byte, then FF; the buffer becomes EMPTY when
the whole frame was clocked out and stays READY otherwise. With the buffer EMPTY or PREPARING it sends 00 and then FF
and leaves the buffer. RESPONSE_READY makes the answer in preparation READY, RDY with it (R217, R216). RDY is high while
asserted, low while the part is held, and data out is then not driven (R213, R211); its levels against the clock,
CommandsJudgedInOrder gives. -/
def Obligations.ResponseReadTakesAnswer : Prop :=
  (∀ s : State, (s.rdy = true ↔ s.held = .nothing ∧ ∃ frame, s.mp.buffer = .ready frame) ∧
    (s.dataOut = none ↔ s.held ≠ .nothing) ∧ (s.held = .nothing → s.dataOut = some (spiDataOut s.mp.spiOut))) ∧
  ∀ (s : State) (n : Nat), s.held = .nothing →
    (∀ frame, s.mp.buffer = .ready frame →
      s.rdy = true ∧
      exec (.responseRead n) s = .next { s with mp := { s.mp with
        buffer := if frame.length ≤ n then .empty else .ready frame
        spiOut := frame.take n ++ List.replicate (n - frame.length) 0xFF } }) ∧
    ((∀ frame, s.mp.buffer ≠ .ready frame) →
      s.rdy = false ∧
      exec (.responseRead n) s = .next { s with mp := { s.mp with
        spiOut := [0].take n ++ List.replicate (n - 1) 0xFF } }) ∧
    (∀ frame, s.mp.buffer = .preparing frame →
      ∃ t, exec .responseReady s = .next t ∧ t.rdy = true ∧ t = { s with mp := { s.mp with buffer := .ready frame } })

/-- FORCE_HOLD sets the hold request where the published state is TRACK, HOLD or LAPSED and the history is valid, and
is answered REFUSED without effect otherwise; RELEASE_HOLD clears it in every state (R148, R149). -/
def Obligations.HoldRequestSetAndCleared : Prop :=
  ∀ s : State, s.held = .nothing → s.mp.status = .good ∨ s.mp.status = .adjusted →
    ((s.du.pub.state = .track ∨ s.du.pub.state = .hold ∨ s.du.pub.state = .lapsed) ∧
        (8 ≤ s.hs.ring.length ∨ s.hs.seed.isSome) →
      exec (.forceHold false []) s = .next { s.answeredOnly 1 1 7 with du := { s.du with holdReq := true } }) ∧
    (s.du.pub.state = .free ∨ s.du.pub.state = .acquire ∨ s.hs.ring.length < 8 ∧ s.hs.seed = none →
      exec (.forceHold false []) s = .next (s.answeredOnly 1 5 7)) ∧
    exec (.releaseHold false []) s = .next { s.answeredOnly 1 1 8 with du := { s.du with holdReq := false } }

/-- SET_OFFSET writes the named output's shadow, whatever waits there, and answers the offset in use and the shadow; a
value out of range or another selector is answered BAD_ARGUMENT without effect (R176, R220). -/
def Obligations.SetOffsetWritesShadow : Prop :=
  ∀ (s : State) (sel : Byte) (bytes : List Byte), s.held = .nothing → s.mp.status = .good ∨ s.mp.status = .adjusted →
    bytes.length = 4 →
    let v := ofBESigned bytes
    (sel = 0 ∧ -500000000 ≤ v ∧ v ≤ 499999999 → exec (.setOffset false (sel :: bytes)) s = .next { s with
      mp := { s.mp with
        spiOut := List.replicate 6 0xFF
        buffer := .preparing ([1, 9, 9] ++ beInt 4 s.ou.pps.offset ++ [1] ++ beInt 4 v) }
      ou := { s.ou with ppsShadow := some v } }) ∧
    (sel = 1 ∧ 0 ≤ v ∧ v < s.mp.params.frameLen.ns → exec (.setOffset false (sel :: bytes)) s = .next { s with
      mp := { s.mp with
        spiOut := List.replicate 6 0xFF
        buffer := .preparing ([1, 9, 9] ++ beInt 4 s.ou.frame.offset ++ [1] ++ beInt 4 v) }
      ou := { s.ou with frameShadow := some v } }) ∧
    (sel = 0 ∧ ¬(-500000000 ≤ v ∧ v ≤ 499999999) ∨ sel = 1 ∧ ¬(0 ≤ v ∧ v < s.mp.params.frameLen.ns) ∨ 1 < sel.toNat →
      exec (.setOffset false (sel :: bytes)) s = .next (s.answeredOnly 6 3 9))

/-- RESTART counts itself, discards a combine in flight, publishes FREE and keeps F and F_int, empties the peer table,
reopens the reference gate, begins a listen period and withdraws the permit; the time base, the history store, the
configuration and the record area stand, and so do the output unit's generators, pulses, offsets and shadows, every output
released or squelched as its policy then has it, and of the line controller all but the listen period, the instant, the
beacon due and pending, the transmit history and the filling plane (R212, R42, R59, R88, R103, R106, R131, R154, R170,
R190, R18). A status held back by a completion before it is published first, with what that does to the permit and to
PERMIT_LOST (R106; log 47). A jam whose beacon is withdrawn releases the plane at the RESTART (log 18). What the reports of
the conditions that end here do to their records, AlarmRecordTransitions says. -/
def Obligations.RestartStartsMeasurementAfresh : Prop :=
  (∀ (s : State) (p : Published), s.held = .nothing → s.mp.status = .good ∨ s.mp.status = .adjusted →
    s.du.unpublished = some p →
      exec (.restart false []) s = exec (.restart false []) (s.withPublished p) ∧ OnlyReports s (s.withPublished p)) ∧
  ∀ s : State, s.held = .nothing → s.mp.status = .good ∨ s.mp.status = .adjusted → s.du.unpublished = none →
    ∃ t, exec (.restart false []) s = .next t ∧
      t.mp = { s.mp with restarts := min 255 (s.mp.restarts + 1), spiOut := [0xFF], buffer := .preparing [1, 10, 0] } ∧
      t.tb = s.tb ∧ t.hs = s.hs ∧
      t.du = { State.reset.du with f := s.du.f, fInt := s.du.fInt, fSet := s.du.fSet } ∧
      t.pt = { s.pt with slots := s.pt.slots.map fun _ => none, refusalAge := 16 } ∧
      t.ri = (if s.ri.active then { s.ri with
        closed := false, expected := none, run := 0, misplaced := 0, sample := none, valid := false } else s.ri) ∧
      (let l := { s.lc with listen := 3, nextInstant := none, due := false, history := [], filling := [] }
       t.lc = match s.lc.access with
        | .send => { l with after := .listen }
        | .jam => { l with after := .listen, beacon := false, sending := none }
        | .mute => l
        | _ => { l with access := .listen, beacon := false, sending := none, backoff := 0 }) ∧
      s.ou.sameSchedules t.ou ∧ t.ou.txok = false ∧ t.ou.holdoff = 0 ∧ t.GatesFollowPolicy ∧
      (t.conds.tableFull = false ∧ t.conds.peerLink = false ∧ t.conds.peerSuspect = false ∧ t.conds.holdBudget = false ∧
        t.conds.permitLost = false) ∧
      ∀ k, k ≠ .tableFull → k ≠ .peerLink → k ≠ .peerSuspect → k ≠ .holdBudget → k ≠ .permitLost →
        t.conds.get k = s.conds.get k ∧ t.au.records.get k = s.au.records.get k

/-- LOCKOUT_PEER and RELEASE_PEER: what they answer and what becomes of the entry, a new one taking the lowest-numbered
free slot (log 43) and showing the fields of a station that has published nothing; the other entries, the counts of the table, and every other block but the alarm side stand (R84,
R85). The slot of an address is the first whose entry bears it (R60, R61). -/
def Obligations.LockoutAndRelease : Prop :=
  (∀ (p : PeerTable) (addr : Nat),
    (p.slotOf addr = none ↔ ∀ i e, p.at i = some e → e.addr ≠ addr) ∧
    ∀ i, p.slotOf addr = some i ↔ (∃ e, p.at i = some e ∧ e.addr = addr) ∧ ∀ j e, j < i → p.at j = some e → e.addr ≠ addr) ∧
  ∀ (s : State) (a : Byte), s.held = .nothing → s.mp.status = .good ∨ s.mp.status = .adjusted →
    s.pt.slots.length = 24 →
    (a.toNat = 0 ∨ 250 < a.toNat ∨ a.toNat = s.mp.params.address →
      exec (.lockoutPeer false [a]) s = .next (s.answeredOnly 2 3 5)) ∧
    (∀ i e, 1 ≤ a.toNat → a.toNat ≤ 250 → a.toNat ≠ s.mp.params.address → s.pt.slotOf a.toNat = some i →
      s.pt.at i = some e → ∃ t, exec (.lockoutPeer false [a]) s = .next t ∧
        OnlyAlarms [.peerLink, .peerSuspect] { s.answeredOnly 2 1 5 with pt := { s.pt with
          slots := if e.state = .lockedOut then s.pt.slots else s.pt.slots.set i (some { e with
            state := .lockedOut, ring := [], contributor := false, weight := 0, marked := false, disagree := 0
            agree := 0 }) } } t) ∧
    (∀ i, 1 ≤ a.toNat → a.toNat ≤ 250 → a.toNat ≠ s.mp.params.address → s.pt.slotOf a.toNat = none →
      s.pt.slots.findIdx? Option.isNone = some i → ∃ t, exec (.lockoutPeer false [a]) s = .next t ∧
        OnlyAlarms [.peerLink, .peerSuspect] { s.answeredOnly 2 1 5 with pt := { s.pt with
          slots := s.pt.slots.set i (some {
            addr := a.toNat, state := .lockedOut, lastSeq := 0, heard := ⟨0, 0⟩, silence := 0
            adv := { state := .free, trac := .none, rank := 15, bound := 65535, urgent := false, standing := false
                     sources := [0, 0, 0], localRef := false, holdReq := false, stepCtr := 0 }
            missed := 0, received := 0, ring := [], disagree := 0, agree := 0, contributor := false, weight := 0
            marked := false, unmatched := 0, faults := 0, drops := 0 }) } } t) ∧
    (1 ≤ a.toNat → a.toNat ≤ 250 → a.toNat ≠ s.mp.params.address → s.pt.slotOf a.toNat = none →
      s.pt.slots.findIdx? Option.isNone = none → exec (.lockoutPeer false [a]) s = .next (s.answeredOnly 2 5 5)) ∧
    (a.toNat = 0 ∨ 250 < a.toNat → exec (.releasePeer false [a]) s = .next (s.answeredOnly 2 3 6)) ∧
    (1 ≤ a.toNat → a.toNat ≤ 250 → s.pt.slotOf a.toNat = none →
      exec (.releasePeer false [a]) s = .next (s.answeredOnly 2 4 6)) ∧
    (∀ i e, 1 ≤ a.toNat → a.toNat ≤ 250 → s.pt.slotOf a.toNat = some i → s.pt.at i = some e →
      exec (.releasePeer false [a]) s =
        .next (if e.state = .lockedOut then
          { s.answeredOnly 2 1 6 with pt := { s.pt with
            slots := s.pt.slots.set i (some { e with state := .new, ring := [], disagree := 0, agree := 0 }) } }
        else s.answeredOnly 2 5 6))

/-! ### Alarms -/

/-- The transitions of an alarm record: a rise, a fall, a notice and an acknowledge, each taking the event's time as
its last change where it changed the state, condition, class or count (R192, R193, R195 to R198); reports one after the
other. In every command but those that act on the table otherwise (a start, a tick's timers, the load, an acknowledge, an
escalation, which other statements give) a record changes by exactly the reports of its owner, the last of which is of the
condition as the command leaves it, and a notice kind's by notices. -/
def Obligations.AlarmRecordTransitions : Prop :=
  (∀ (c : Instr) (s t : State), actsOnRecords c = false → exec c s = .next t → OnlyReports s t) ∧
  ∀ (r : AlarmRecord) (now : SecNs) (cls : Machine.Class),
    (r.condition = true → r.rise now = r) ∧ (r.condition = false → r.fall cls now = r) ∧
    (r.condition = false → r.rise now = { r with
      condition := true, raises := min 65535 (r.raises + 1), first := some (r.first.getD now), changed := now
      state := if r.state = .clear ∨ r.state = .clearedUnacked then .active else r.state
      timer := if r.state = .clear ∨ r.state = .clearedUnacked then 0 else r.timer }) ∧
    (r.condition = true → r.state = .active → r.fall cls now = { r with
      condition := false, state := .clearedUnacked, effective := cls, timer := 0, changed := now }) ∧
    (r.condition = true → r.state = .acked → r.fall cls now = { r with
      condition := false, state := .clear, changed := now }) ∧
    r.notice now = { r with
      state := .active, raises := min 65535 (r.raises + 1), first := some (r.first.getD now)
      changed := if r.state = .active ∧ r.raises = 65535 then r.changed else now } ∧
    (r.state = .active → r.ack cls now = { r with
      state := if cls = .notice then .clear else .acked, effective := cls, timer := 0, changed := now }) ∧
    (r.state = .clearedUnacked → r.ack cls now = { r with
      state := .clear, effective := cls, timer := 0, changed := now }) ∧
    (r.state = .clear ∨ r.state = .acked → r.ack cls now = r) ∧
    r.taking cls now [] = r ∧
    ∀ l v, r.taking cls now (l ++ [v]) = if v then (r.taking cls now l).rise now else (r.taking cls now l).fall cls now

/-- ACK_ALARM naming a kind, and naming ALL, act on the records under R198 and answer OK; the conditions and every
other block stand. An answer to ALL, and ACK_ALL, carry the number of records whose state changed (R198, R199, R220).
-/
def Obligations.AcknowledgeActsOnRecords : Prop :=
  ∀ s : State, s.held = .nothing → s.mp.status = .good ∨ s.mp.status = .adjusted →
    (∀ k, ∃ t, exec (.ackAlarm false [BitVec.ofNat 8 (kindCode k)]) s = .next t ∧
      t = { s with au := t.au, mp := t.mp } ∧ t.mp = { s.mp with buffer := t.mp.buffer, spiOut := [0xFF, 0xFF] } ∧
      t.au.records.get k = (s.au.records.get k).ack (s.mp.params.classes.get k) ⟨s.tb.counter.sec, s.tb.counter.ns⟩ ∧
      (∀ j, j ≠ k → t.au.records.get j = s.au.records.get j) ∧
      t.mp.buffer = .preparing ([1, 4, BitVec.ofNat 8 (t.alarmRecordBytes k).length] ++ t.alarmRecordBytes k)) ∧
    (∃ t, exec (.ackAlarm false [0xFF]) s = .next t ∧ exec (.ackAll false) s = .next t ∧
      t = { s with au := t.au, mp := t.mp } ∧ t.mp = { s.mp with buffer := t.mp.buffer, spiOut := [0xFF, 0xFF] } ∧
      (∀ k, t.au.records.get k = (s.au.records.get k).ack (s.mp.params.classes.get k) ⟨s.tb.counter.sec, s.tb.counter.ns⟩) ∧
      t.mp.buffer = .preparing [1, 4, 1, BitVec.ofNat 8 (kinds.filter fun k =>
        (s.au.records.get k).state = .active ∨ (s.au.records.get k).state = .clearedUnacked).length]) ∧
    (∀ code : Byte, 15 ≤ code.toNat → code ≠ 0xFF → exec (.ackAlarm false [code]) s = .next (s.answeredOnly 2 3 4))

/-- The expiry of an escalation timer makes the effective class URGENT, in the record alone; the pins follow (R200,
R202). -/
def Obligations.EscalationMakesUrgent : Prop :=
  ∀ (s : State) (k : Kind), s.held = .nothing → s.mp.params.classes.get k = .standing →
    (s.au.records.get k).state = .active → (s.au.records.get k).effective = .standing → s.mp.params.escalation ≠ 0 →
    s.mp.params.escalation * 7500000000 ≤ (s.au.records.get k).timer →
    ∃ t, exec (.escalationTimerExpiry k) s = .next t ∧ t = { s with au := t.au } ∧
      t.au.records.get k = { s.au.records.get k with
        effective := .urgent, changed := ⟨s.tb.counter.sec, s.tb.counter.ns⟩ } ∧
      (∀ j, j ≠ k → t.au.records.get j = s.au.records.get j) ∧ PinsExact t

/-- Every record's condition is the one its owner judges (R193, R195, R196), a condition kind's record is ACTIVE or ACKED
exactly while its condition is present and a notice kind's never present (R195 to R198), the pins and the permit-gating indication
follow the records at every step (R201 to R203), and TXOK is asserted
only while the published state is TRACK or HOLD, the error bound is at most the budget and no permit-gating alarm has
its condition present (R183, R184). -/
def Obligations.PermitSoundAtEveryStep : Prop :=
  ∀ s t : State, PermitSound s → step s = .next t → PermitSound t

/-! ### The combine -/

/-- A weight is floor(2^40 / u²), 2^40 for an uncertainty of 0; an uncertainty of at most 65,535 weighs at least 256,
so the weights of contributors never sum to 0; the weight is what a contributor's write-back carries, and it orders
the source list (R113). -/
def Obligations.WeightFromUncertainty : Prop :=
  (∀ c : Candidate, (c.unc = 0 → c.weight = 2 ^ 40) ∧ (c.unc ≠ 0 → c.weight = 2 ^ 40 / c.unc ^ 2) ∧
    (c.unc = 65535 → c.weight = 256) ∧ (c.unc ≤ 65535 → 256 ≤ c.weight)) ∧
  (∀ cs : List Candidate, cs ≠ [] → (∀ c ∈ cs, c.unc ≤ 65535) → (cs.map Candidate.weight).sum ≠ 0) ∧
  (∀ (n : Snapshot) (d : Nat) (cs : List Candidate) (x : Option Int) (e : Estimate) (c : Candidate), e ∈ n.peers → c ∈ cs →
    (cs.map Candidate.addr).Nodup → c.addr = e.addr → ∃ w ∈ n.writeBack d cs x, w.addr = e.addr ∧ w.weight = some c.weight) ∧
  ∀ cs : List Candidate, ∃ l : List Candidate, l.Perm (cs.filter fun c => c.addr ≠ 0) ∧
    l.Pairwise (fun a b => b.weight < a.weight ∨ a.weight = b.weight ∧ a.addr ≤ b.addr) ∧
    sourceList cs = (l.map Candidate.addr ++ [0, 0, 0]).take 3

/-- At most four contributors are selected, every one an admitted candidate, and no admitted candidate left out has a
smaller uncertainty than one selected, or the same and a lower address, the reference standing first (R112). -/
def Obligations.FourMostCertainSelected : Prop :=
  ∀ (n : Snapshot) (own m : Nat),
    let cs := n.contributors own m
    cs.length = min 4 (n.admitted own m).length ∧ (∀ c ∈ cs, c ∈ n.admitted own m) ∧
    ∀ c ∈ n.admitted own m, c ∉ cs → ∀ b ∈ cs, b.unc < c.unc ∨ b.unc = c.unc ∧ b.addr ≤ c.addr

/-- Who may contribute, both ways: the candidates are the reference of the snapshot, and every VALID peer in TRACK or
HOLD, not NONE, of rank at most 13, without an urgent alarm and not naming this station, a peer that is not TRACEABLE in
TRACK being of tier 2 (R108 to R110). Where tier 1 holds a candidate, exactly tier 1 is admitted to selection; where it
is empty, exactly the candidates of tier 2, and, for a station in HOLD or LAPSED or tracking traceable time, only those
below its own bound less the margin (R111). -/
def Obligations.AdmittedAreEligible : Prop :=
  ∀ (n : Snapshot) (own m : Nat),
    (∀ c : Candidate, c ∈ n.candidates own ↔
      (∃ o u, n.ref = some (o, u) ∧ c = ⟨0, -1, false, o, u⟩) ∨
      ∃ e ∈ n.peers,
        c = ⟨e.addr, e.adv.rank, !decide (e.adv.trac = .traceable ∧ e.adv.state = .track), e.offset, e.unc⟩ ∧
        e.suspect = false ∧ (e.adv.state = .track ∨ e.adv.state = .hold) ∧ e.adv.trac ≠ .none ∧ e.adv.rank ≤ 13 ∧
        e.adv.urgent = false ∧ own ∉ e.adv.sources) ∧
    (n.admitted own m).Sublist (n.candidates own) ∧
    ((∃ c ∈ n.candidates own, c.held = false) →
      ∀ c, c ∈ n.admitted own m ↔ c ∈ n.candidates own ∧ c.held = false) ∧
    ((∀ c ∈ n.candidates own, c.held = true) →
      ∀ c, c ∈ n.admitted own m ↔ c ∈ n.candidates own ∧
        (n.prev.state = .hold ∨ n.prev.state = .lapsed ∨ n.prev.state = .track ∧ n.prev.trac = .traceable →
          (c.unc : Int) < (n.prev.bound : Int) - m))

/-- x is the sum of weight times offset over the sum of weights, rounded half away from zero to a whole sixteenth; one
contributor gives its own offset, and none gives no x; a completion makes x the last x, and one without keeps the last
x it finds (R114). -/
def Obligations.CombinedOffsetIsWeightedMean : Prop :=
  combinedOffset [] = none ∧
  (∀ (d : Discipline) (p : Params) (h : History) (n : Snapshot),
    (d.complete p h n).du.lastX = (combinedOffset (n.contributors p.address p.m)).getD d.lastX) ∧
  ∀ cs : List Candidate, cs ≠ [] → (∀ c ∈ cs, c.unc ≤ 65535) →
    let w := (cs.map Candidate.weight).sum
    let v := (cs.map fun c => (c.weight : Int) * c.offset).sum
    ∃ x, combinedOffset cs = some x ∧ 2 * (x * w - v).natAbs ≤ w ∧
      (2 * (x * w - v).natAbs = w → v.natAbs ≤ (x * w).natAbs) ∧
      ∀ c, cs = [c] → x = c.offset

/-- Every peer of the snapshot gets its flag back, and, where three or more contributors formed x, a verdict:
disagreement when |θ - x| exceeds sixteen times the larger of D and u, agreement otherwise; with fewer, or without x,
none (R115). -/
def Obligations.VerdictsFollowOffset : Prop :=
  ∀ (n : Snapshot) (d : Nat) (cs : List Candidate) (x : Option Int),
    (n.writeBack d cs x).map WriteBack.addr = n.peers.map Estimate.addr ∧
    ∀ e ∈ n.peers, ∃ w ∈ n.writeBack d cs x, w.addr = e.addr ∧
      (w.weight.isSome ↔ ∃ c ∈ cs, c.addr = e.addr) ∧
      (cs.length < 3 ∨ x = none → w.verdict = none) ∧
      ∀ v, x = some v → 3 ≤ cs.length →
        w.verdict = some (decide (16 * d < (e.offset - v).natAbs ∧ 16 * e.unc < (e.offset - v).natAbs))

/-- The state settled, with its runs, from each previous state: FREE and ACQUIRE (R133 to R135), TRACK (R136 to R138),
and HOLD or LAPSED (R139), where HOLD stands for holdover, whose bound then decides between HOLD and LAPSED (R140). -/
def Obligations.StateSettledFromEach : Prop :=
  (∀ (p : Params) (r : Runs) (x : Int) (req valid : Bool), 2 ≤ p.l →
    settle p .free r none req valid = (.free, r) ∧
    settle p .free r (some x) req valid =
      (.acquire, ⟨if x.natAbs ≤ 16 * p.tLock ∧ x.natAbs ≤ 16 * p.s then 1 else 0, 0, 0⟩) ∧
    (r.none + 1 < p.g →
      settle p .acquire r none req valid = (.acquire, { r with lock := 0, none := r.none + 1 })) ∧
    (p.g ≤ r.none + 1 → settle p .acquire r none req valid = (.free, .zero)) ∧
    (x.natAbs ≤ 16 * p.tLock ∧ x.natAbs ≤ 16 * p.s → r.lock + 1 < p.l →
      settle p .acquire r (some x) req valid = (.acquire, { r with lock := r.lock + 1, none := 0 })) ∧
    (x.natAbs ≤ 16 * p.tLock ∧ x.natAbs ≤ 16 * p.s → p.l ≤ r.lock + 1 →
      settle p .acquire r (some x) req valid = (.track, .zero)) ∧
    (16 * p.tLock < x.natAbs ∨ 16 * p.s < x.natAbs →
      settle p .acquire r (some x) req valid = (.acquire, { r with lock := 0, none := 0 }))) ∧
  ∀ (p : Params) (r : Runs) (x : Int) (o : Option Int) (valid : Bool),
    settle p .track r o true valid = (.hold, .zero) ∧
    (x.natAbs ≤ 16 * p.s → settle p .track r (some x) false valid = (.track, { r with large := 0, none := 0 })) ∧
    (16 * p.s < x.natAbs → r.large < 2 →
      settle p .track r (some x) false valid = (.track, { r with large := r.large + 1, none := 0 })) ∧
    (16 * p.s < x.natAbs → 2 ≤ r.large → settle p .track r (some x) false valid = (.acquire, .zero)) ∧
    (r.none + 1 < p.g →
      settle p .track r none false valid = (.track, { r with large := 0, none := r.none + 1 })) ∧
    (p.g ≤ r.none + 1 → settle p .track r none false valid = (if valid then .hold else .free, .zero)) ∧
    ∀ prev, prev = .hold ∨ prev = .lapsed →
      settle p prev r o true valid = (.hold, r) ∧ settle p prev r none false valid = (.hold, r) ∧
      (x.natAbs ≤ 16 * p.s → settle p prev r (some x) false valid = (.track, .zero)) ∧
      (16 * p.s < x.natAbs → settle p prev r (some x) false valid = (.acquire, .zero))

/-- The servo: the proportional term and the integral step of x, the integral clamped, the output clamped, and the
integral kept where an active output clamp would wind it out (R118, R119); a step keeps F_int and sets F to it (R123);
the hold frequency is clamped and keeps F_int (R144). -/
def Obligations.SteeringOfEachKind : Prop :=
  (∀ (p i : Nat) (fInt x : Int),
    let fp := roundDiv (1000 * x) (16 * 2 ^ p)
    let cand := max (-100000000) (min 100000000 (fInt + roundDiv (1000 * x) (16 * 2 ^ i)))
    let active := cand + fp < -100000000 ∨ 100000000 < cand + fp
    (servo p i fInt x).f = max (-100000000) (min 100000000 (cand + fp)) ∧
    ((servo p i fInt x).clamp = some true ↔ active) ∧ (servo p i fInt x).step = none ∧
    (¬active → (servo p i fInt x).fInt = cand) ∧
    (active → (servo p i fInt x).fInt = if cand.natAbs < fInt.natAbs then cand else fInt)) ∧
  (∀ (p : Params) (f fInt x hold : Int), 16 * p.s < x.natAbs →
    steer p .acquire f fInt (some x) hold = ⟨fInt, fInt, some x, some false⟩) ∧
  (∀ (p : Params) (f fInt x hold : Int), x.natAbs ≤ 16 * p.s →
    steer p .acquire f fInt (some x) hold = servo p.p p.i fInt x) ∧
  (∀ (p : Params) (f fInt x hold : Int), steer p .track f fInt (some x) hold = servo p.p p.i fInt x) ∧
  (∀ (p : Params) (f fInt hold : Int) (x : Option Int), steer p .free f fInt x hold = ⟨f, fInt, none, none⟩ ∧
    steer p .acquire f fInt none hold = ⟨f, fInt, none, none⟩ ∧ steer p .track f fInt none hold = ⟨f, fInt, none, none⟩) ∧
  ∀ (p : Params) (st : DState) (f fInt hold : Int) (x : Option Int), st = .hold ∨ st = .lapsed →
    steer p st f fInt x hold = ⟨max (-100000000) (min 100000000 hold), fInt, none,
      some (decide (hold < -100000000 ∨ 100000000 < hold))⟩

/-- What the history hands: F_new, the slope and its source, with c, by the number of ring entries and the seed, and the
validity (R157, R158, R141); where no history is valid nothing is derived, and the model's prediction is 0 (log 28). At
every completion that settles holdover the bound is U_entry + floor(h_f t / 1000) + floor(h_a t² / 2,000,000), saturating
at 65,535, F is F_new + slope (m + c) clamped, and the state is LAPSED exactly where it was or the bound exceeds the
budget; t runs from the entry's seconds count modulo 2^48, and is 0 at entry (R140 to R145; that it is 0 again 2^48 s
after entry is the model's: log 50). -/
def Obligations.HoldoverFollowsPrediction : Prop :=
  (∀ h : History,
    let n := h.ring.length
    let mean := fun ms : List Minute => roundDiv (ms.map Minute.mean).sum ms.length
    let new := mean (h.ring.drop (n - 16))
    (h.valid = true ↔ 8 ≤ n ∨ h.seed.isSome) ∧
    (32 ≤ n → h.leadMinutes = 8 ∧
      h.derive = ⟨new, max (-1000) (min 1000 (roundDiv (new - mean (h.ring.take 16)) (n - 16))), .ring⟩) ∧
    (8 ≤ n → n < 32 → h.leadMinutes = 0 ∧ h.derive = ⟨new, 0, .ring⟩) ∧
    (∀ x, n < 8 → h.seed = some x → h.leadMinutes = (if x.record.slope = 0 then 0 else 8) ∧
      h.derive = ⟨x.record.fNew, x.record.slope, .seed⟩) ∧
    (n < 8 → h.seed = none → h.leadMinutes = 0 ∧ h.derive = ⟨0, 0, .none⟩)) ∧
  ∀ (d : Discipline) (p : Params) (h : History) (n : Snapshot),
    let c := d.complete p h n
    c.du.pub.state = .hold ∨ c.du.pub.state = .lapsed →
    ∃ e t, c.du.hold = some e ∧ c.du.elapsed = t ∧
      (n.prev.state ≠ .hold → n.prev.state ≠ .lapsed →
        t = 0 ∧ e = ⟨n.prev.bound, n.prev.rank, n.epoch, h.derive.fNew, h.derive.slope, h.leadMinutes⟩ ∧ c.entered = true) ∧
      (n.prev.state = .hold ∨ n.prev.state = .lapsed → ∀ old, d.hold = some old →
        e = old ∧ c.entered = false ∧
        (t : Int) = min 4294967295 (((n.epoch : Int) - old.time) % 281474976710656)) ∧
      c.du.pub.bound = min 65535 (e.bound + p.hF * t / 1000 + p.hA * t ^ 2 / 2000000) ∧
      c.du.f = max (-100000000) (min 100000000 (e.fNew + e.slope * ((t / 60 : Nat) + e.c))) ∧
      c.du.fInt = d.fInt ∧ c.step = none ∧
      (c.du.pub.state = .lapsed ↔ n.prev.state = .lapsed ∨
        p.budget < min 65535 (e.bound + p.hF * t / 1000 + p.hA * t ^ 2 / 2000000))

/-- While the state stays HOLD or LAPSED the advertised bound does not decrease from one completion to the next (R146):
given that the last bound was formed from the entry data held and that t does not decrease; the model's t decreases only
2^48 s after entry (log 50). -/
def Obligations.HoldoverBoundDoesNotDecrease : Prop :=
  ∀ (d : Discipline) (p : Params) (h : History) (n : Snapshot) (e : HoldEntry),
    let c := d.complete p h n
    n.prev.state = .hold ∨ n.prev.state = .lapsed → c.du.pub.state = .hold ∨ c.du.pub.state = .lapsed →
    d.hold = some e →
    n.prev.bound = min 65535 (e.bound + p.hF * d.elapsed / 1000 + p.hA * d.elapsed ^ 2 / 2000000) →
    (d.elapsed : Int) ≤ min 4294967295 (((n.epoch : Int) - e.time) % 281474976710656) →
    n.prev.bound ≤ c.du.pub.bound

/-- The published status of a settled state, whole: state, traceability, rank, bound, source list, local-reference flag
and hold request, where there are contributors with the least uncertainty of `u`, the least rank of `r`, and the source
list that WeightFromUncertainty describes (R125 to R127, R147). -/
def Obligations.StatusPublishedWhole : Prop :=
  ∀ (prev : Published) (cs : List Candidate) (x : Int) (o : Option Int) (req : Bool) (bound rank : Nat),
    let ref := cs.any fun c => c.addr == 0
    publication .free prev cs o req bound rank = ⟨.free, .none, 15, 65535, [0, 0, 0], ref, req⟩ ∧
    publication .acquire prev cs none req bound rank = ⟨.acquire, .none, 15, 65535, [0, 0, 0], ref, req⟩ ∧
    publication .hold prev cs o req bound rank = ⟨.hold, .held, rank, bound, [0, 0, 0], ref, req⟩ ∧
    publication .lapsed prev cs o req bound rank = ⟨.lapsed, .none, 15, bound, [0, 0, 0], ref, req⟩ ∧
    publication .track prev cs none req bound rank =
      ⟨.track, prev.trac, prev.rank, prev.bound, prev.sources, ref, req⟩ ∧
    ∀ u ∈ cs, ∀ r ∈ cs, u.unc ≤ 65535 → (∀ c ∈ cs, u.unc ≤ c.unc) → -1 ≤ r.rank → r.rank ≤ 13 →
      (∀ c ∈ cs, r.rank ≤ c.rank) →
      let b := min 65535 (u.unc + (x.natAbs + 15) / 16)
      publication .acquire prev cs (some x) req bound rank = ⟨.acquire, .none, 15, b, sourceList cs, ref, req⟩ ∧
      publication .track prev cs (some x) req bound rank =
        ⟨.track, if ∃ c ∈ cs, c.held = true then .held else .traceable, (1 + r.rank).toNat, b, sourceList cs, ref, req⟩

/-- What a completion comes to, and what it does. Its state and runs are those settled from the snapshot's previous
state, its F, F_int, step and clamp those of the steering, its status the publication of that state; a completion that
leaves holdover starts from F_int = F, drops the entry data and sets the elapsed count to 0 (R107, R125, R132, R139).
COMBINE_COMPLETION then hands the results whole to every block: the discipline unit, the time base its increment and the
step ordered, the history store F and whether the state is TRACK, in the minute its epoch lies in (R6; one whose boundary
is still waiting has them kept aside: log 51), the peer table its write-back, the alarm unit
NO_CONTRIBUTOR, HOLD_BUDGET, FREQ_CLAMP and the notices PHASE_STEP and HOLD_ENTERED, the output unit the publication with
its squelches and its permit; the combine is then IDLE (R120 to R123, R128, R142, R151, R81, R180, R183 to R185). Where a
permit-gating kind is among those a completion reports, the order of the reports against the publication decides the
permit and is open (log 8); where a step is ordered, its publication may wait for the next tick or epoch, and the output
unit with it (R124; log 47). No clause rests on a value of these free choices. -/
def Obligations.CompletionTakesEffectWhole : Prop :=
  (∀ (d : Discipline) (p : Params) (h : History) (n : Snapshot),
    let c := d.complete p h n
    let cs := n.contributors p.address p.m
    let x := combinedOffset cs
    let g := settle p n.prev.state ⟨d.lockRun, d.largeRun, d.noneRun⟩ x d.holdReq h.valid
    let wasHolding := n.prev.state = .hold ∨ n.prev.state = .lapsed
    c.cs = cs ∧ c.x = x ∧ c.du.contributors = cs.length ∧ c.du.snapshot = none ∧ c.du.unpublished = none ∧
    c.du.holdReq = d.holdReq ∧
    (g.1 ≠ .hold →
      (wasHolding → steer p g.1 d.f d.f x 0 = ⟨c.du.f, c.du.fInt, c.step, c.clamp⟩) ∧
      (¬wasHolding → steer p g.1 d.f d.fInt x 0 = ⟨c.du.f, c.du.fInt, c.step, c.clamp⟩) ∧
      c.du.pub = publication g.1 n.prev cs x d.holdReq 0 0 ∧
      (⟨c.du.lockRun, c.du.largeRun, c.du.noneRun⟩ : Runs) = g.2 ∧
      c.du.hold = none ∧ c.du.elapsed = 0 ∧ c.entered = false) ∧
    (g.1 = .hold →
      (c.du.pub.state = .hold ∨ c.du.pub.state = .lapsed) ∧ (c.entered = true ↔ ¬wasHolding) ∧
      ((⟨c.du.lockRun, c.du.largeRun, c.du.noneRun⟩ : Runs) =
        if c.du.pub.state = .lapsed ∧ n.prev.state ≠ .lapsed then .zero else g.2) ∧
      ∃ e, c.du.hold = some e ∧
        c.du.pub = publication c.du.pub.state n.prev cs x d.holdReq c.du.pub.bound e.rank ∧
        steer p .hold d.f d.fInt x (e.fNew + e.slope * ((c.du.elapsed / 60 : Nat) + e.c)) =
          ⟨c.du.f, c.du.fInt, c.step, c.clamp⟩)) ∧
  ∀ (s : State) (n : Snapshot), s.held = .nothing → s.du.snapshot = some n →
    let c := s.du.complete s.mp.params s.hs n
    let now : SecNs := ⟨s.tb.counter.sec, s.tb.counter.ns⟩
    let reported : List Kind := [.noContributor, .holdBudget, .freqClamp, .peerSuspect, .peerLink, .permitLost]
    let gate := fun k => s.mp.params.gatingSet.get k = true ∧ (s.au.records.get k).condition = true
    let sound := (s.mp.status = .good ∨ s.mp.status = .adjusted) ∧
      (c.du.pub.state = .track ∨ c.du.pub.state = .hold) ∧ c.du.pub.bound ≤ s.mp.params.budget
    let clear := s.au.gating = false ∧ (∀ k, ¬gate k) ∧ ∀ k ∈ reported, s.mp.params.gatingSet.get k = false
    ∃ t, exec .combineCompletion s = .next t ∧
      (t.du = c.du ∨ c.step.isSome ∧ t.du = { c.du with pub := s.du.pub, unpublished := some c.du.pub }) ∧
      t.tb = { s.tb with increment := incrementOf c.du.f, orders := s.tb.orders ++ c.step.toList } ∧
      (n.epoch - n.epoch % 60 ∉ s.tb.minutes → t.hs = { s.hs with
        count := min 255 (s.hs.count + 1)
        sum := s.hs.sum + c.du.f
        allTrack := s.hs.allTrack && decide (c.du.pub.state = .track) }) ∧
      (n.epoch - n.epoch % 60 ∈ s.tb.minutes → t.hs = { s.hs with
        ahead := s.hs.ahead ++ [⟨c.du.f, decide (c.du.pub.state = .track), n.epoch⟩] }) ∧
      t.conds.noContributor = decide (c.du.contributors = 0) ∧
      t.conds.holdBudget = decide (c.du.pub.state = .lapsed) ∧
      (∀ v, c.clamp = some v → t.conds.freqClamp = v) ∧ (c.clamp = none → t.conds.freqClamp = s.conds.freqClamp) ∧
      t.pt = { s.pt with slots := t.pt.slots } ∧
      (s.pt.slots.length = 24 → ∀ i, t.pt.at i = (s.pt.at i).map fun e =>
        e.writeBack (n.writeBack s.mp.params.d (n.contributors s.mp.params.address s.mp.params.m)
          (combinedOffset (n.contributors s.mp.params.address s.mp.params.m)))) ∧
      t.lc = s.lc ∧ t.ri = s.ri ∧ t.mp = s.mp ∧ t.held = s.held ∧ t.choices = s.choices + 3 ∧
      (∀ k, k ∉ reported → t.conds.get k = s.conds.get k) ∧
      t.au.records.phaseStep =
        (if c.step.isSome then s.au.records.phaseStep.notice now else s.au.records.phaseStep) ∧
      t.au.records.holdEntered =
        (if c.entered then s.au.records.holdEntered.notice now else s.au.records.holdEntered) ∧
      (∀ k, k ∉ reported → k ≠ .phaseStep → k ≠ .holdEntered → t.au.records.get k = s.au.records.get k) ∧
      s.ou.sameSchedules t.ou ∧
      (t.du.unpublished = none →
        t.GatesFollowPolicy ∧ (t.conds.permitLost = true ↔ t.ou.txok = false ∧ c.du.pub.state ≠ .free) ∧
        (¬sound → t.ou.txok = false ∧ t.ou.holdoff = 0) ∧
        (s.au.gating = true → (∃ k, k ∉ reported ∧ gate k) → t.ou.txok = false ∧ t.ou.holdoff = 0) ∧
        (sound → clear → t.ou.holdoff = min s.mp.params.hP (s.ou.holdoff + 1) ∧
          (t.ou.txok = true ↔ s.ou.txok = true ∨ s.mp.params.hP ≤ s.ou.holdoff + 1))) ∧
      (t.du.unpublished ≠ none → clear → t.ou = s.ou)

/-- The published status, the one held back (log 47) and the one a combine has taken stay as R125 lets them be at every
step: rank 15 and NONE in FREE, ACQUIRE and LAPSED, HELD in HOLD, a rank of at most 14 in TRACK, a bound of at most
65,535; and at most four contributors are counted (R112, R125, R130, R131). -/
def Obligations.StatusSoundAtEveryStep : Prop :=
  ∀ s t : State, StatusSound s → step s = .next t → StatusSound t

/-- The counter's parts, the step counter, the increments, F and F_int stay in their ranges at every step (R1, R3, R13,
R118, R144, R130). -/
def Obligations.TimeSoundAtEveryStep : Prop :=
  ∀ s t : State, TimeSound s → step s = .next t → TimeSound t

/-! ### The cluster line -/

/-- Carrier becoming present makes the line busy and starts the stuck timer, the receiver looking for a delimiter
unless the station drives; carrier ending on a line without a collection makes it absent and starts the gap; a
delimiter recognised at the end of the bits recovered since the receiver began to look is captured between the ticks and a
collection begins (R19, R29, R31, R9, R10; the bits are log 54, and what afterDelimiter gives, BeaconReadBackAsSent
says). The capture is that of
the moment of the command, at the position it gives (log 14), on a time that goes on from 0 past the top of the time scale
(log 41; TransmissionStartsAndIsStamped says what Stamp.of16 gives); the stuck timer reads 0 while carrier is absent (log
13). -/
def Obligations.CarrierAndDelimiterSeen : Prop :=
  ∀ (s : State) (bits : List Bool) (q : BitVec 7) (bytes : List Byte) (whole : Bool), s.held = .nothing →
    (s.lc.carrier = false → exec .carrierPresent s = .next { s with lc := { s.lc with
      carrier := true, idle := false, gap := 0, stuck := 0
      receiver := if s.lc.access = .send ∨ s.lc.access = .jam then .off else .searching } }) ∧
    (s.lc.carrier = true → s.lc.access ≠ .send → s.lc.access ≠ .jam → s.lc.receiver ≠ .collecting →
      exec (.carrierAbsent bytes whole) s = .next { s with lc := { s.lc with
        carrier := false, idle := false, gap := 0, stuck := 0, receiver := .off } }) ∧
    (s.lc.carrier = true → s.lc.receiver = .searching → afterDelimiter bits = some [] →
      exec (.rxCapture ⟨bits, q⟩) s = .next { s with
        tb := { s.tb with rx := some ⟨Stamp.of16
          (((s.tb.counter.value + s.tb.lastInc * q.toNat / 128) % scaleU / 268435456 : Nat) : Int), s.tb.stepCtr⟩ }
        lc := { s.lc with receiver := .collecting } })

/-- A collection whose bytes fail a check, and one that passes 183 bytes, is discarded and counted once in the current
second, and LINE_ERRORS is judged on the sum of the ten seconds (R31, R32, R34, R35; the overlong collection's bytes are
log 54); the other conditions and every other block but the alarm side stand. The stuck timer reads 0 as carrier ends (log
13). -/
def Obligations.BadReceptionCounted : Prop :=
  ∀ (s : State) (bytes : List Byte) (whole : Bool), s.held = .nothing → s.lc.receiver = .collecting →
    let l := { s.lc with errNow := min 255 (s.lc.errNow + 1) }
    (s.lc.carrier = true → s.lc.access ≠ .send → s.lc.access ≠ .jam → parseFrame bytes whole = none →
      ∃ t, exec (.carrierAbsent bytes whole) s = .next t ∧
        OnlyAlarms [.lineErrors] { s with lc := { l with
          carrier := false, idle := false, gap := 0, stuck := 0, receiver := .off } } t ∧
        t.conds.lineErrors = decide (s.mp.params.tErr ≤ l.errNow + l.errPast.sum)) ∧
    (183 < bytes.length → ∃ t, exec (.receptionOverlong bytes) s = .next t ∧
      OnlyAlarms [.lineErrors] { s with lc := { l with receiver := .ignoring } } t ∧
      t.conds.lineErrors = decide (s.mp.params.tErr ≤ l.errNow + l.errPast.sum))

/-- A good beacon of another station. Its receive stamp is the RX capture less L_rx, and there is none where a step has
come since (R33, R48). With a stamp, and outside the step wait, its report of sender, sequence and stamp goes to the
filling plane, replacing the sender's, or added last to fewer than twelve, or dropped and counted in the entry (R52, R51,
R57). It reaches the peer table: a known sender's entry takes its header, sequence and time, is halved at the sixteenth
and measured; an unknown sender is admitted into the slot found for it, or refused (R61 to R65, R68, R73). What update,
halve, measure and slotFor do, EntryLifeRules and SamplesFormedAndChecked say, what slotOf gives LockoutAndRelease, and what
Stamp.of16 gives TransmissionStartsAndIsStamped. The stuck timer reads 0 as carrier ends (log 13).
Before the load completes, and with FAULT, a good beacon of any station is neither delivered nor compared for a clash
(R33, R37, R40). -/
def Obligations.GoodBeaconDelivered : Prop :=
  (∀ (s : State) (bytes : List Byte) (b : Beacon), s.held = .nothing → s.lc.carrier = true →
    s.lc.access ≠ .send → s.lc.access ≠ .jam → s.lc.receiver = .collecting → parseFrame bytes true = some b →
    s.mp.status = .notLoaded ∨ s.mp.status = .fault →
    exec (.carrierAbsent bytes true) s = .next { s with lc := { s.lc with
      carrier := false, idle := false, gap := 0, stuck := 0, receiver := .off } }) ∧
  ∀ (s : State) (bytes : List Byte) (b : Beacon), s.held = .nothing → s.lc.carrier = true →
    s.lc.access ≠ .send → s.lc.access ≠ .jam → s.lc.receiver = .collecting → parseFrame bytes true = some b →
    s.mp.status = .good ∨ s.mp.status = .adjusted → b.sender ≠ s.mp.params.address → s.pt.slots.length = 24 →
    let t4 : Option Stamp := s.tb.rx.bind fun c =>
      if c.tag = s.tb.stepCtr then some (Stamp.of16 (c.stamp.value16 - s.mp.params.lRx)) else none
    let heard : SecNs := match t4 with
      | some t => ⟨t.sec, t.sub / 16⟩
      | none => ⟨s.tb.counter.sec, s.tb.counter.ns⟩
    let known := s.lc.filling.any fun p => p.addr == b.sender
    let dropped := t4.isSome && !s.lc.stepWait && !known && decide (12 ≤ s.lc.filling.length)
    let measured := fun e : Entry =>
      let m := e.measure s.mp.params.address s.mp.params.dMax s.lc b t4
      { m with drops := if dropped then min 65535 (m.drops + 1) else m.drops }
    ∃ t, exec (.carrierAbsent bytes true) s = .next t ∧
      t.lc = { s.lc with
        carrier := false, idle := false, gap := 0, stuck := 0, receiver := .off, filling := t.lc.filling } ∧
      (t4 = none ∨ s.lc.stepWait = true ∨ dropped = true → t.lc.filling = s.lc.filling) ∧
      (∀ t', t4 = some t' → s.lc.stepWait = false → known = true →
        t.lc.filling = s.lc.filling.map fun p => if p.addr = b.sender then ⟨b.sender, b.seq, t'⟩ else p) ∧
      (∀ t', t4 = some t' → s.lc.stepWait = false → known = false → s.lc.filling.length < 12 →
        t.lc.filling = s.lc.filling ++ [⟨b.sender, b.seq, t'⟩]) ∧
      t.tb = s.tb ∧ t.ri = s.ri ∧ t.du = s.du ∧ t.hs = s.hs ∧ t.mp = s.mp ∧ s.ou.sameSchedules t.ou ∧
      (∀ k, k ∉ [Kind.tableFull, .peerLink, .peerSuspect, .permitLost] → t.conds.get k = s.conds.get k) ∧
      (∀ i e, s.pt.slotOf b.sender = some i → s.pt.at i = some e →
        t.pt = { s.pt with slots := s.pt.slots.set i (some (measured (e.update b heard).halve)) }) ∧
      (∀ i, s.pt.slotOf b.sender = none → s.pt.slotFor b.adv.bound = some i →
        t.pt = { s.pt with
          slots := s.pt.slots.set i (some (measured (.fresh b.sender .new b.adv b.seq heard)))
          admissions := min 65535 (s.pt.admissions + 1) }) ∧
      (s.pt.slotOf b.sender = none → s.pt.slotFor b.adv.bound = none →
        t.pt = { s.pt with refusals := min 65535 (s.pt.refusals + 1), refusalAge := 0 } ∧ t.conds.tableFull = true)

/-- A good beacon bearing this station's own address reaches neither the peer table nor a plane: the clash age returns
to 0, ADDRESS_CLASH is present, a back-off of 8 to 15 boundaries begins, and a station waiting, deferring or backing
off goes to CLASH_HOLD with its beacon withdrawn, which no abandonment counts, and its instant discarded; every other
state of the line stays as it is, and so does the rest of the line controller, of the conditions and of the part (R37, R38,
R28, R36). The stuck timer reads 0 as carrier ends (log 13), and the draw is counted (log 7). -/
def Obligations.OwnAddressHeard : Prop :=
  ∀ (s : State) (bytes : List Byte) (b : Beacon), s.held = .nothing → s.lc.carrier = true →
    s.lc.access ≠ .send → s.lc.access ≠ .jam → s.lc.receiver = .collecting → parseFrame bytes true = some b →
    s.mp.status = .good ∨ s.mp.status = .adjusted → b.sender = s.mp.params.address →
    ∃ t n, exec (.carrierAbsent bytes true) s = .next t ∧ 8 ≤ n ∧ n ≤ 15 ∧ t.conds.addressClash = true ∧
      let l := { s.lc with
        carrier := false, idle := false, gap := 0, stuck := 0, receiver := .off, due := false, clash := n, clashAge := 0
        drawn := s.lc.drawn + 1 }
      OnlyAlarms [.addressClash] { s with lc := match s.lc.access with
        | .wait => { l with access := .clashHold, nextInstant := none }
        | .defer | .backoff => { l with
          access := .clashHold, nextInstant := none, beacon := false, sending := none, backoff := 0 }
        | _ => l } t

/-- A beacon-interval boundary brings the listen count and the clash back-off down, the clash age up to 16 and the
abandonment record on, ends LISTEN and CLASH_HOLD, and draws the next instant a whole number of microseconds from 0.1
B to 0.9 B after it where the access state transmits, not reached before a tick; the peer table's refusal age goes up to 16
(R22, R23, R36, R37, R39, R63). An instant held before is replaced or discarded, reached or not (log 49). Before the load
completes the counts run and no instant is drawn (R40, R58; log 52). In LISTEN with a clash count running the state stays
LISTEN until the listen count ends (log 16). -/
def Obligations.IntervalBoundaryCounts : Prop :=
  ∀ (s : State) (b : Nat) (rest : List Nat), s.held = .nothing → s.tb.intervals = b :: rest →
    ∃ t, exec .beaconIntervalBoundary s = .next t ∧ t.tb = { s.tb with intervals := rest } ∧
      t.lc = { s.lc with
        listen := s.lc.listen - 1, clash := s.lc.clash - 1, clashAge := min 16 (s.lc.clashAge + 1), abNow := 0
        abPast := s.lc.abNow :: s.lc.abPast.take 6
        access := t.lc.access, nextInstant := t.lc.nextInstant, drawn := t.lc.drawn } ∧
      t.lc.access = (match s.lc.access with
        | .listen => if 1 < s.lc.listen then .listen else if 1 < s.lc.clash then .clashHold else .wait
        | .clashHold => if 1 < s.lc.clash then .clashHold else if 1 < s.lc.listen then .listen else .wait
        | other => other) ∧
      (t.lc.access = .listen ∨ t.lc.access = .clashHold ∨ t.lc.access = .mute ∨ s.mp.status = .notLoaded ∨
        s.mp.status = .fault → t.lc.nextInstant = none ∧ t.lc.drawn = s.lc.drawn) ∧
      (t.lc.access ≠ .listen → t.lc.access ≠ .clashHold → t.lc.access ≠ .mute →
        s.mp.status = .good ∨ s.mp.status = .adjusted →
        ∃ us, s.tb.interval.ms * 100 ≤ us ∧ us ≤ s.tb.interval.ms * 900 ∧
          t.lc.nextInstant = some ⟨b + us * (1000 * nsU), false⟩) ∧
      t.conds.addressClash = decide (t.lc.clashAge < 16) ∧
      t.conds.lineCongestion = decide (3 ≤ t.lc.abNow + t.lc.abPast.sum) ∧
      t.pt.refusalAge = min 16 (s.pt.refusalAge + 1) ∧ t.conds.tableFull = decide (t.pt.refusalAge < 16) ∧
      (s.pt.slots.length = 24 → ∀ i, t.pt.at i = (s.pt.at i).bind fun e =>
        e.age (60000 / s.tb.interval.ms) s.mp.params.k) ∧
      t.ri = s.ri ∧ t.du = s.du ∧ t.hs = s.hs ∧ t.mp = s.mp ∧ s.ou.sameSchedules t.ou

/-- The next instant that a tick has reached. In WAIT: on a stuck line the interval's beacon is abandoned, on an idle one
its transmission starts, on a busy one it is deferred. In DEFER and BACKOFF the old beacon is abandoned first, and the new
one goes on as from WAIT. In JAM a beacon still pending is abandoned, and the new one waits behind the jam, or is
abandoned too on a stuck line. In SEND the beacon due is set (R24, R25, R28, R29, R36). In a SEND or JAM that a clash or a
RESTART ends in CLASH_HOLD or LISTEN the instant is consumed and leaves no beacon (log 17). Where a transmission starts, the
part's own frame makes carrier present, restarts the stuck timer and turns the receiver off in that step (log 12). Where the
old beacon's abandonment raises LINE_CONGESTION, the header of the one that starts carries the pins as the rise left them
(R204, R43; the model's choice, log 57). -/
def Obligations.InstantReachedByState : Prop :=
  ∀ (s : State) (i : Instant), s.held = .nothing → s.lc.nextInstant = some i → i.reached = true →
    let stuck := 625000 ≤ s.lc.stuck
    let gone := { s.lc with nextInstant := none, attempts := 0, beacon := false, sending := none }
    let count := fun n => min 2 (s.lc.abNow + n)
    let start := fun (u : State) (l : Line) => { l with
      access := .send, backoff := 0, beacon := true, sent := 0, carrier := true, idle := false, gap := 0, stuck := 0
      receiver := .off, filling := [], sending := some s.lc.filling, stepWait := false
      record := some ⟨s.mp.params.address, s.lc.seq, u.header, [], none⟩ }
    let congested := fun t : State => t.conds.lineCongestion = decide (3 ≤ t.lc.abNow + t.lc.abPast.sum)
    let leads := fun l : Line => ∃ t, exec .nextInstantReached s = .next t ∧
      OnlyAlarms [.lineCongestion] { s with lc := l } t ∧ congested t
    (s.lc.access = .wait →
      (stuck → leads { gone with backoff := 0, abNow := count 1 }) ∧
      (¬stuck → s.lc.idle = true → exec .nextInstantReached s =
        .next { s with lc := start s { s.lc with nextInstant := none, attempts := 0 } }) ∧
      (¬stuck → s.lc.idle = false → exec .nextInstantReached s = .next { s with lc := { s.lc with
        nextInstant := none, attempts := 0, beacon := true, access := .defer, backoff := 0 } })) ∧
    (s.lc.access = .defer ∨ s.lc.access = .backoff →
      (stuck → leads { gone with access := .wait, backoff := 0, abNow := count 2 }) ∧
      (¬stuck → s.lc.idle = true → ∃ t, exec .nextInstantReached s = .next t ∧
        OnlyAlarms [.lineCongestion] { s with lc := start t { gone with abNow := count 1 } } t ∧ congested t) ∧
      (¬stuck → s.lc.idle = false →
        leads { gone with beacon := true, access := .defer, backoff := 0, abNow := count 1 })) ∧
    (s.lc.access = .jam → s.lc.after = .normal →
      (s.lc.beacon = true → stuck → leads { gone with abNow := count 2 }) ∧
      (s.lc.beacon = true → ¬stuck → leads { gone with beacon := true, abNow := count 1 }) ∧
      (s.lc.beacon = false → stuck → leads { gone with abNow := count 1 }) ∧
      (s.lc.beacon = false → ¬stuck → exec .nextInstantReached s =
        .next { s with lc := { s.lc with nextInstant := none, attempts := 0, beacon := true } })) ∧
    (s.lc.access = .send → s.lc.after = .normal →
      exec .nextInstantReached s = .next { s with lc := { s.lc with nextInstant := none, due := true } }) ∧
    (s.lc.access = .send ∨ s.lc.access = .jam → s.lc.after ≠ .normal →
      exec .nextInstantReached s = .next { s with lc := { s.lc with nextInstant := none } })

/-- A start of transmission, at the end of the gap in DEFER or of a backoff on an idle line: SEND, the header sampled
from the published status, the pins and the step counter, the sequence counter's number, and the planes swapped at a
first attempt alone (R25, R43, R44, R47, R53, R54, R57). The part's own signal makes carrier present, restarts the stuck
timer and turns the receiver off in the same step (log 12). At its delimiter the tx stamp is the TX capture, placed on the
header's time where a step has come between, plus L_tx (R45, R46, R9, R10), clamped at zero time after L_tx is added
(log 15), and both on a time that goes on from 0 past the top of the time scale (R45; the capture's wrap is log 41): that is
what Stamp.of16 gives of a value in sixteenths. Before the load completes no station comes to DEFER or BACKOFF, and none starts one (R58;
StoresSoundAtEveryStep). -/
def Obligations.TransmissionStartsAndIsStamped : Prop :=
  (∀ v : Int, (v < 0 → Stamp.of16 v = ⟨0, 0⟩) ∧
    (0 ≤ v → (Stamp.of16 v).sec < 281474976710656 ∧ (Stamp.of16 v).sub < 16000000000 ∧
      ((Stamp.of16 v).sec * 16000000000 + (Stamp.of16 v).sub : Nat) = v % (281474976710656 * 16000000000))) ∧
  (∀ t : Stamp, t.value16 = (t.sec * 16000000000 + t.sub : Nat)) ∧
  (∀ s : State, s.held = .nothing →
    let l := { s.lc with
      access := .send, beacon := true, sent := 0, carrier := true, idle := false, gap := 0, stuck := 0, receiver := .off
      filling := if s.lc.attempts = 0 then [] else s.lc.filling
      sending := some (if s.lc.attempts = 0 then s.lc.filling else s.lc.sending.getD [])
      stepWait := false
      record := some { sender := s.mp.params.address, seq := s.lc.seq, adv := s.header, steps := [], stamp := none } }
    s.header = {
      state := s.du.pub.state, trac := s.du.pub.trac, rank := s.du.pub.rank, bound := s.du.pub.bound
      urgent := s.au.alarmU, standing := s.au.alarmS, sources := s.du.pub.sources, localRef := s.du.pub.localRef
      holdReq := s.du.pub.holdReq, stepCtr := s.tb.stepCtr } ∧
    (s.lc.carrier = false → s.lc.idle = false → 5000 ≤ s.lc.gap → s.lc.access = .defer →
      exec .lineIdle s = .next { s with lc := l }) ∧
    (s.lc.carrier = false → s.lc.idle = false → 5000 ≤ s.lc.gap → s.lc.access ≠ .defer →
      exec .lineIdle s = .next { s with lc := { s.lc with idle := true } }) ∧
    (s.lc.access = .backoff → s.lc.backoff = 0 → s.lc.idle = true → exec .backoffEnd s = .next { s with lc := l }) ∧
    (s.lc.access = .backoff → s.lc.backoff = 0 → s.lc.idle = false →
      exec .backoffEnd s = .next { s with lc := { s.lc with access := .defer } })) ∧
  ∀ (s : State) (q : BitVec 7) (r : TxRecord), s.held = .nothing → s.lc.access = .send → 800 ≤ s.lc.sent →
    s.lc.record = some r → r.stamp = none →
    let cap := Stamp.of16 (((s.tb.counter.value + s.tb.lastInc * q.toNat / 128) % scaleU / 268435456 : Nat) : Int)
    exec (.txCapture q) s = .next { s with
      tb := { s.tb with tx := some ⟨cap, s.tb.stepCtr⟩ }
      lc := { s.lc with record := some { r with stamp := some (Stamp.of16 (cap.value16 + s.mp.params.lTx -
        if s.tb.stepCtr = r.adv.stepCtr then 0 else r.steps.sum)) } } }

/-- A collision within the window stops the frame and drives the jam: the attempt counter goes up, the beacon abandoned
where it reaches 4 or where a beacon is due, which is then pending behind the jam, or abandoned too on a stuck line; the
jam's end draws a backoff of k × 100 µs with k from 0 to 2^a - 1, or leads to WAIT or DEFER (R26, R27, R28, R36). In a SEND
that a clash or a RESTART has overtaken the beacon is withdrawn at the collision and not counted, and the jam ends in
CLASH_HOLD or LISTEN (R38, R42). -/
def Obligations.CollisionJamBackoff : Prop :=
  ∀ s : State, s.held = .nothing →
    let hit := { s.lc with
      access := .jam, jam := 0, record := none, beacon := false, sending := none, due := false, attempts := s.lc.attempts + 1 }
    let leads := fun l : Line => ∃ t, exec .collisionDetected s = .next t ∧
      OnlyAlarms [.lineCongestion] { s with lc := l } t ∧
      t.conds.lineCongestion = decide (3 ≤ t.lc.abNow + t.lc.abPast.sum)
    (s.lc.access = .send → s.lc.sent < 8000 → s.lc.sent < s.lc.frameTicks →
      (s.lc.after = .normal → s.lc.due = false → s.lc.attempts + 1 < 4 →
        exec .collisionDetected s = .next { s with lc := { s.lc with
          access := .jam, jam := 0, attempts := s.lc.attempts + 1, record := none
          sending := if s.lc.record.any fun r => r.steps ≠ [] then s.lc.sending.map fun _ => [] else s.lc.sending } }) ∧
      (s.lc.after = .normal → s.lc.due = false → 4 ≤ s.lc.attempts + 1 →
        leads { hit with abNow := min 2 (s.lc.abNow + 1) }) ∧
      (s.lc.after = .normal → s.lc.due = true → s.lc.stuck < 625000 →
        leads { hit with attempts := 0, beacon := true, abNow := min 2 (s.lc.abNow + 1) }) ∧
      (s.lc.after = .normal → s.lc.due = true → 625000 ≤ s.lc.stuck →
        leads { hit with attempts := 0, abNow := min 2 (s.lc.abNow + 2) }) ∧
      (s.lc.after ≠ .normal → exec .collisionDetected s = .next { s with lc := hit })) ∧
    (s.lc.access = .jam → 2000 ≤ s.lc.jam →
      let l := { s.lc with receiver := if s.lc.carrier then .searching else .off }
      (s.lc.after = .normal → s.lc.beacon = false → exec .jamEnd s = .next { s with lc := { l with access := .wait } }) ∧
      (s.lc.after = .normal → s.lc.beacon = true → s.lc.attempts = 0 →
        exec .jamEnd s = .next { s with lc := { l with access := .defer } }) ∧
      (s.lc.after = .normal → s.lc.beacon = true → 0 < s.lc.attempts → ∃ k, k < 2 ^ s.lc.attempts ∧
        exec .jamEnd s = .next { s with lc := { l with
          access := .backoff, backoff := k * 12500, drawn := s.lc.drawn + 1 } }) ∧
      (s.lc.after = .clashHold →
        exec .jamEnd s = .next { s with lc := { l with access := .clashHold, after := .normal } }) ∧
      (s.lc.after = .listen → exec .jamEnd s = .next { s with lc := { l with access := .listen, after := .normal } }))

/-- A transmission driven to its end counts as sent: the sequence counter goes on, the beacon is logged in the
transmit history, at most eight, unless a step notice came in it, the sending plane is released, and the frame on the
line was the beacon of its record, bit by bit, each byte least significant bit first; it ends in WAIT, a beacon due then pending as from WAIT on the line its own frame keeps
busy; after a clash in CLASH_HOLD, and after a RESTART in LISTEN and not logged (R26, R38, R42, R47, R49, R50, R55, R20).
STUCK_TIMER_EXPIRY abandons a beacon deferred or backing off (R29, R28, R36). -/
def Obligations.TransmissionCompletesOrSticks : Prop :=
  ∀ s : State, s.held = .nothing →
    let leads := fun (c : Instr) (l : Line) => ∃ t, exec c s = .next t ∧
      OnlyAlarms [.lineCongestion] { s with lc := l } t ∧
      t.conds.lineCongestion = decide (3 ≤ t.lc.abNow + t.lc.abPast.sum)
    (∀ r t, s.lc.access = .send → s.lc.record = some r → r.stamp = some t → s.lc.frameTicks ≤ s.lc.sent →
      let l : Line := { s.lc with
        driven := (List.replicate 8 0x55 ++ 0x9D ::
          Beacon.frame ⟨r.sender, r.seq, r.adv, t, s.lc.sending.getD []⟩).flatMap fun b : Byte =>
            [b.getLsbD 0, b.getLsbD 1, b.getLsbD 2, b.getLsbD 3, b.getLsbD 4, b.getLsbD 5, b.getLsbD 6, b.getLsbD 7]
        receiver := if s.lc.carrier then .searching else .off
        seq := s.lc.seq + 1
        history := if r.steps = [] ∧ s.lc.after ≠ .listen then
            (s.lc.history ++ [(⟨r.seq, t⟩ : Sent)]).drop (s.lc.history.length + 1 - 8)
          else s.lc.history
        sending := none, attempts := 0, record := none, beacon := false, due := false, after := .normal }
      (s.lc.after = .normal → s.lc.due = false →
        exec .transmissionComplete s = .next { s with lc := { l with access := .wait } }) ∧
      (s.lc.after = .normal → s.lc.due = true → s.lc.stuck < 625000 → s.lc.idle = false →
        exec .transmissionComplete s = .next { s with lc := { l with access := .defer, beacon := true, backoff := 0 } }) ∧
      (s.lc.after = .normal → s.lc.due = true → 625000 ≤ s.lc.stuck →
        leads .transmissionComplete { l with access := .wait, backoff := 0, abNow := min 2 (s.lc.abNow + 1) }) ∧
      (s.lc.after = .clashHold →
        exec .transmissionComplete s = .next { s with lc := { l with access := .clashHold } }) ∧
      (s.lc.after = .listen → exec .transmissionComplete s = .next { s with lc := { l with access := .listen } })) ∧
    (s.lc.carrier = true → 625000 ≤ s.lc.stuck → s.lc.access = .defer ∨ s.lc.access = .backoff →
      leads .stuckTimerExpiry { s.lc with
        access := .wait, backoff := 0, beacon := false, sending := none, abNow := min 2 (s.lc.abNow + 1) })

/-- The reception check and the frame are one another's inverse: what passes every check is exactly the frame, received
without a partial byte, of a beacon whose fields fit the body table, and it reads back as that beacon (R20, R21, R32,
R44). The frame is laid out as the body table of 02, section 2.1, says, the CRC-32 of the body last, with the check value
of R21; on the line the preamble and the delimiter stand before it, and every byte is sent least significant bit first
(R20). A receiver that catches at least 16 bits of the preamble finds the delimiter there and collects the frame, a
partial byte after it noted; one that catches fewer does not find it there (R31; the pattern's phase is log 54). -/
def Obligations.BeaconReadBackAsSent : Prop :=
  (∀ (bytes : List Byte) (whole : Bool) (b : Beacon),
    parseFrame bytes whole = some b ↔ whole = true ∧ b.Wf ∧ bytes = b.frame) ∧
  crc32 [0x31, 0x32, 0x33, 0x34, 0x35, 0x36, 0x37, 0x38, 0x39] = 0xCBF43926 ∧
  ∀ b : Beacon, b.Wf →
    let n := b.reports.length
    let f := fun off len => (b.frame.drop off).take len
    let stamp := fun t : Stamp => be 6 t.sec ++ be 5 t.sub
    b.frame.length = 27 + 13 * n ∧
    f 0 5 = [BitVec.ofNat 8 (1 * 16 + (if b.adv.localRef then 8 else 0) + (if b.adv.holdReq then 4 else 0) + b.adv.stepCtr),
      BitVec.ofNat 8 b.sender, b.seq, BitVec.ofNat 8 ([DState.free, .acquire, .track, .hold, .lapsed].idxOf b.adv.state),
      BitVec.ofNat 8 (b.adv.rank * 16 + [Trac.none, .held, .traceable].idxOf b.adv.trac)] ∧
    f 5 2 = be 2 b.adv.bound ∧
    f 7 1 = [BitVec.ofNat 8 ((if b.adv.urgent then 1 else 0) + if b.adv.standing then 2 else 0)] ∧
    f 8 3 = b.adv.sources.map (BitVec.ofNat 8) ∧ f 11 11 = stamp b.stamp ∧ f 22 1 = [BitVec.ofNat 8 n] ∧
    (∀ i r, b.reports[i]? = some r → f (23 + 13 * i) 13 = [BitVec.ofNat 8 r.addr, r.seq] ++ stamp r.time) ∧
    f (23 + 13 * n) 4 = be 4 (crc32 (b.frame.take (23 + 13 * n))) ∧
    b.onLine = List.replicate 8 0x55 ++ [0x9D] ++ b.frame ∧
    let lsbFirst := fun c : Byte => [c.getLsbD 0, c.getLsbD 1, c.getLsbD 2, c.getLsbD 3, c.getLsbD 4, c.getLsbD 5,
      c.getLsbD 6, c.getLsbD 7]
    let start := (List.replicate 8 0x55 ++ [(0x9D : Byte)]).flatMap lsbFirst
    b.lineBits = start ++ b.frame.flatMap lsbFirst ∧
    (∀ (k : Nat) (tail : List Bool), k ≤ 48 → tail.length < 8 →
      delimiterFound (start.drop k) = true ∧
      lineReception (b.lineBits.drop k ++ tail) = some (b.frame, decide (tail = []))) ∧
    ∀ k, 48 < k → afterDelimiter (start.drop k) = none

/-- The bounded stores stay within their bounds at every step: the planes hold at most twelve reports of different
stations, the transmit history eight entries of consecutive and so of distinct sequence numbers, the minute ring
sixty-four (R52, R49, R156), and the record area keeps its canonical form (the model's: log 6). A transmission on the line
bears the sequence counter's number, and one that a step or a RESTART has overtaken finds the history empty (R47, R50,
R42). Before the load completes, and with FAULT, no instant is held, no beacon is
pending, due or composed, nothing is driven, and planes, transmit history and transmission record stand empty (R58, R40;
log 52); with FAULT the access state is MUTE. LINE_ERRORS is present exactly while the ten counts of the error window sum to
T_err or more (R35; log 42), LINE_CONGESTION while the eight of the abandonment record sum to 3 or more (R36), and
ADDRESS_CLASH while the clash age is below 16 (R37). -/
def Obligations.StoresSoundAtEveryStep : Prop :=
  ∀ s t : State, StoresSound s → step s = .next t → StoresSound t

/-! ### The peer table -/

/-- A sample: a and b reduced modulo the time scale, θ and d halved toward zero (R74); a delay of -320 up to 0 clamped,
one below -320 or above d_max counted as a fault without a sample (R75); the last four samples kept, and a NEW entry
with two VALID (R76). A beacon with a receive stamp that reports this station gives a sample to a NEW, VALID or SUSPECT
entry from the transmission of the sequence it reports, where the transmit history still holds it, and is counted as
unmatched where it does not; any other gives none (R73, R51). -/
def Obligations.SamplesFormedAndChecked : Prop :=
  (∀ (t1 t2 t3 t4 : Stamp) (a b : Int),
    (a - (t2.value16 - t1.value16)) % scale16 = 0 → -(scale16 / 2 : Nat) ≤ a → a < (scale16 / 2 : Nat) →
    (b - (t4.value16 - t3.value16)) % scale16 = 0 → -(scale16 / 2 : Nat) ≤ b → b < (scale16 / 2 : Nat) →
    formSample t1 t2 t3 t4 = ⟨(a - b).tdiv 2, (a + b).tdiv 2, t4⟩) ∧
  (∀ (e : Entry) (dMax : Nat) (x : Sample),
    (x.delay < -320 ∨ 16000 * (dMax : Int) < x.delay → e.take dMax x = { e with faults := min 65535 (e.faults + 1) }) ∧
    (-320 ≤ x.delay → x.delay ≤ 16000 * (dMax : Int) →
      (e.take dMax x).ring = (e.ring ++ [{ x with delay := max 0 x.delay }]).drop (e.ring.length - 3) ∧
      (e.take dMax x).state = (if e.state = .new ∧ 1 ≤ e.ring.length then .valid else e.state) ∧
      e.take dMax x = { e with ring := (e.take dMax x).ring, state := (e.take dMax x).state })) ∧
  ∀ (e : Entry) (own dMax : Nat) (l : Line) (b : Beacon) (t4 : Option Stamp),
    (t4 = none ∨ (∀ r ∈ b.reports, r.addr ≠ own) ∨ e.state = .stale ∨ e.state = .lockedOut →
      e.measure own dMax l b t4 = e) ∧
    ∀ t, t4 = some t → ∀ r ∈ b.reports, r.addr = own → (b.reports.map Report.addr).Nodup →
      e.state = .new ∨ e.state = .valid ∨ e.state = .suspect →
      ((∀ h ∈ l.history, h.seq ≠ r.seq) →
        e.measure own dMax l b t4 = { e with unmatched := min 65535 (e.unmatched + 1) }) ∧
      ∀ h ∈ l.history, h.seq = r.seq → (l.history.map Sent.seq).Nodup →
        e.measure own dMax l b t4 = e.take dMax (formSample h.stamp r.time b.stamp t)

/-- The estimate handed at a snapshot: of a VALID or SUSPECT entry with two samples or more no older than 4 s, the
offset of the least delay, the newest of equals, the jitter ceil(spread in ns), and the uncertainty bound + jitter + A,
saturating; the mark is set exactly where one is handed (R78 to R80). The age compares the plain values of the sample's
time and the epoch's, across the wrap too, as the model reads R78 (log 20). -/
def Obligations.EstimatesFromRings : Prop :=
  ∀ (e : Entry) (epoch a : Nat),
    let e' := e.snapshot epoch a
    (∀ x, x ∈ e'.ring ↔ x ∈ e.ring ∧ ((epoch : Int) - 4) * 16000000000 ≤ x.time.value16) ∧ e'.ring.Sublist e.ring ∧
    e' = { e with ring := e'.ring, marked := e'.marked } ∧
    (e'.marked = true ↔ (e.state = .valid ∨ e.state = .suspect) ∧ 2 ≤ e'.ring.length) ∧
    (e'.estimate a).isSome = e'.marked ∧
    ∀ m, e'.estimate a = some m →
      m.addr = e.addr ∧ m.adv = e.adv ∧ (m.suspect = true ↔ e.state = .suspect) ∧
      (∃ old x new, e'.ring = old ++ x :: new ∧ m.offset = x.offset ∧ (∀ y ∈ old, x.delay ≤ y.delay) ∧
        ∀ y ∈ new, x.delay < y.delay) ∧
      ∃ hi ∈ e'.ring, ∃ lo ∈ e'.ring, (∀ y ∈ e'.ring, lo.delay ≤ y.delay ∧ y.delay ≤ hi.delay) ∧
        m.jitter = ((hi.delay - lo.delay).toNat + 15) / 16 ∧ m.unc = min 65535 (e.adv.bound + m.jitter + a)

/-- The life of an entry: what a newcomer's entry is and the slot it takes, the lowest free one (log 43), else that of the
STALE entry of largest silence and lower address, else that of the entry of largest bound and higher address among those
that neither contribute nor are LOCKED_OUT, if it is strictly larger than the newcomer's, else none (R62); the silence
count at a boundary, staleness at K and removal at the limit (R70, R72); what a completion writes back to a marked entry,
and to every other (R81, R116; an entry made SUSPECT there keeps its flag until the next completion: log 44); the verdicts
(R82); the halving of the missed count (R68); what a beacon changes in its sender's entry, by the gap of the sequence
numbers (R67, R64 to R66, R71). -/
def Obligations.EntryLifeRules : Prop :=
  (∀ (addr : Nat) (st : EntryState) (adv : Advertised) (seq : Byte) (heard : SecNs),
    Entry.fresh addr st adv seq heard = {
      addr := addr, state := st, lastSeq := seq, heard := heard, silence := 0, adv := adv, missed := 0, received := 0
      ring := [], disagree := 0, agree := 0, contributor := false, weight := 0, marked := false, unmatched := 0
      faults := 0, drops := 0 }) ∧
  (∀ (t : PeerTable) (bound : Nat),
    (∀ i : Nat, t.slots[i]? = some none → (∀ j, j < i → t.slots[j]? ≠ some none) → t.slotFor bound = some i) ∧
    ((∀ i : Nat, t.slots[i]? ≠ some none) →
      (∀ i e, t.at i = some e → e.state = .stale →
        (∀ j b, t.at j = some b → b.state = .stale → j = i ∨ b.silence < e.silence ∨
          b.silence = e.silence ∧ e.addr < b.addr) → t.slotFor bound = some i) ∧
      ((∀ j b, t.at j = some b → b.state ≠ .stale) →
        (∀ i e, t.at i = some e → e.contributor = false → e.state ≠ .lockedOut →
          (∀ j b, t.at j = some b → b.contributor = false → b.state ≠ .lockedOut → j = i ∨
            b.adv.bound < e.adv.bound ∨ b.adv.bound = e.adv.bound ∧ b.addr < e.addr) →
          t.slotFor bound = if bound < e.adv.bound then some i else none) ∧
        ((∀ j b, t.at j = some b → b.contributor = true ∨ b.state = .lockedOut) → t.slotFor bound = none)))) ∧
  (∀ (e : Entry) (limit k : Nat),
    let n := min limit (e.silence + 1)
    (e.state = .lockedOut → e.age limit k = some { e with silence := n }) ∧
    (e.state = .stale → e.age limit k = if limit ≤ n then none else some { e with silence := n }) ∧
    (e.state ≠ .lockedOut → e.state ≠ .stale → n < k → e.age limit k = some { e with silence := n }) ∧
    (e.state ≠ .lockedOut → e.state ≠ .stale → k ≤ n → e.age limit k = if limit ≤ n then none else some { e with
      silence := n, state := .stale, ring := [], contributor := false, weight := 0, marked := false, disagree := 0
      agree := 0 })) ∧
  (∀ (e : Entry) (ws : List WriteBack),
    (e.marked = false ∨ (∀ w ∈ ws, w.addr ≠ e.addr) →
      e.writeBack ws = { e with contributor := false, weight := 0, marked := false }) ∧
    ∀ w ∈ ws, e.marked = true → w.addr = e.addr → (ws.map WriteBack.addr).Nodup →
      let e1 := { e with contributor := w.weight.isSome, weight := w.weight.getD 0, marked := false }
      (w.verdict = none → e.writeBack ws = e1) ∧ ∀ v, w.verdict = some v → e.writeBack ws = e1.verdict v) ∧
  (∀ e : Entry,
    (e.state = .valid → e.verdict true = if 3 ≤ e.disagree + 1 then { e with state := .suspect, disagree := 0, agree := 0 }
      else { e with disagree := e.disagree + 1 }) ∧
    (e.state = .valid → e.verdict false = { e with disagree := 0 }) ∧
    (e.state = .suspect → e.verdict false = if 10 ≤ e.agree + 1 then { e with state := .valid, disagree := 0, agree := 0 }
      else { e with agree := e.agree + 1 }) ∧
    (e.state = .suspect → e.verdict true = { e with agree := 0 })) ∧
  ∀ (e : Entry) (b : Beacon) (heard : SecNs) (g : Nat), g = (b.seq - e.lastSeq - 1).toNat →
    (e.update b heard).missed = (if g ≤ 16 then min 255 (e.missed + g) else e.missed) ∧
    (e.update b heard).ring = (if g ≤ 16 ∧ e.adv.stepCtr = b.adv.stepCtr then e.ring else []) ∧
    (e.update b heard).state = (if e.state = .stale then .new else e.state) ∧
    e.update b heard = { e with
      state := (e.update b heard).state, ring := (e.update b heard).ring, missed := (e.update b heard).missed
      adv := b.adv, silence := 0, heard := heard, lastSeq := b.seq } ∧
    e.halve = if e.received + 1 < 16 then { e with received := e.received + 1 }
      else { e with received := 0, missed := e.missed / 2 }

/-- The peer table stays sound at every step: 24 slots, no two entries of one address, none of the station's own, at
most four samples in a ring, and none before the load completes (R60, R61, R76, R33); PEER_LINK is present exactly while a
VALID or SUSPECT entry has missed T_miss beacons or more (R69), and PEER_SUSPECT exactly while an entry is SUSPECT (R83). -/
def Obligations.PeersSoundAtEveryStep : Prop :=
  ∀ s t : State, PeersSound s → step s = .next t → PeersSound t

/-! ### The reference input -/

/-- Serial bytes, one after the other, however a sender parts them among its commands: while hunting, 6E and then 91 begin a
message, and a second 6E begins again; then ten bytes more are collected, and with the last of them a valid message
becomes the pending message, an invalid one leaving it. A pause of more than 1 ms and a low stop bit abandon a collection;
a pending message 1.1 s old is dropped; every other block stands (R90, R91). That the command carries good bytes alone, is
the moment of their arrival, and that the pause drops a lone first byte too, is the model's (log 29). -/
def Obligations.MessagesCollected : Prop :=
  ∀ s : State, s.held = .nothing →
    (s.ri.active = true →
      exec (.refMessage []) s = .next s ∧
      (∀ (b : Byte) (bs : List Byte), bs ≠ [] → ∃ t, exec (.refMessage [b]) s = .next t ∧
        exec (.refMessage (b :: bs)) s = exec (.refMessage bs) t) ∧
      ∀ b : Byte,
        let now := { s.ri with quiet := 0 }
        let takes := fun held => exec (.refMessage [b]) s = .next { s with ri := { now with held := held } }
        (s.ri.held = [] → takes (if b = 0x6E then [b] else [])) ∧
        (∀ x, s.ri.held = [x] → takes (if b = 0x91 then [x, b] else if b = 0x6E then [b] else [])) ∧
        (2 ≤ s.ri.held.length → s.ri.held.length < 11 → takes (s.ri.held ++ [b])) ∧
        (s.ri.held.length = 11 →
          let m := s.ri.held ++ [b]
          exec (.refMessage [b]) s = .next { s with ri := { now with
            held := []
            message := if (m.getD 8 0).toNat ≤ 1 ∧ ((m.drop 2).map BitVec.toNat).sum % 256 = 0 then
                some ⟨ofBE ((m.drop 2).take 6), decide ((m.getD 8 0).toNat = 1), ofBE ((m.drop 9).take 2), 0⟩
              else s.ri.message } })) ∧
    (∀ bytes : List Byte, s.ri.active = true → s.ri.held = [] → ∀ body : List Byte, bytes = [0x6E, 0x91] ++ body →
      body.length = 10 → exec (.refMessage bytes) s = .next { s with ri := { s.ri with
        held := [], quiet := 0
        message := if (body.getD 6 0).toNat ≤ 1 ∧ (body.map BitVec.toNat).sum % 256 = 0 then
            some ⟨ofBE (body.take 6), decide ((body.getD 6 0).toNat = 1), ofBE ((body.drop 7).take 2), 0⟩
          else s.ri.message } }) ∧
    (s.ri.active = true → 125000 < s.ri.quiet →
      exec .messageCollectionTimeout s = .next { s with ri := { s.ri with held := [] } }) ∧
    (s.ri.active = true → exec .messageByteStopBitLow s = .next { s with ri := { s.ri with held := [], quiet := 0 } }) ∧
    (∀ m, s.ri.message = some m → 137500000 ≤ m.age →
      exec .pendingMessageExpiry s = .next { s with ri := { s.ri with message := none } })

/-- Edges and the window gate. An edge is captured at its place after the tick and corrected for the cable; one carried
past the top of the time scale by a negative cable delay stays above it (log 45). In the OPEN gate an unpaired edge is
ignored; a paired one is accepted, counts in the qualifying run, and closes the gate at the fourth of the run, with E a
second on (R92 to R95). In the CLOSED gate an edge within W of E is accepted and moves E; one outside is misplaced, the
third reopening the gate (R96, R97). An accepted edge with a valid fix yields the reference sample, one without counts in
the no-sample run (R94, R99, R100). An edge captured before a step and handled after it only drops the pending message
(R92, R102; log 46). The window is given up at E + 0.5 s unless the loss deadline has come, and the loss deadline raises
REF_LOSS and reopens the gate (R96, R98). Nearness, and what the counter has reached, are judged on the circle of the time
scale (log 19), and the capture goes on from 0 past its top (log 41; TransmissionStartsAndIsStamped says what Stamp.of16
gives). -/
def Obligations.EdgesJudgedByGate : Prop :=
  (∀ (s : State) (q : BitVec 7), s.held = .nothing → s.ri.active = true →
    let stampAt := fun c : Counter =>
      Stamp.of16 (((c.value + s.tb.lastInc * q.toNat / 128) % scaleU / 268435456 : Nat) : Int)
    let cap := stampAt s.tb.counter
    let t := max 0 (cap.value16 * 268435456 - s.mp.params.cable * nsU)
    let next := if (scaleU : Int) ≤ t + secU then t + secU - scaleU else t + secU
    let s1 : State := { s with tb := { s.tb with ref := some ⟨cap, s.tb.stepCtr⟩ } }
    let accepted := { s.ri with message := none, last := some t, deadline := some (t + (2500000000 * nsU : Nat)) }
    let sampled := fun (m : Message) (u : State) => ∃ x, u.ri.sample = some x ∧ x.time = t ∧
      x.unc = min 65535 (m.accuracy + s.mp.params.cableUnc) ∧
      (x.offset * 268435456 - ((m.label : Int) * secU - t)) % scaleU = 0 ∧
      -(scale16 / 2 : Nat) ≤ x.offset ∧ x.offset < (scale16 / 2 : Nat) ∧ u.ri.noSample = 0 ∧ u.conds.refLoss = false
    let unsampled := fun u : State => u.ri.sample = s.ri.sample ∧ u.ri.noSample = min 3 (s.ri.noSample + 1) ∧
      u.conds.refLoss = (if 2 ≤ s.ri.noSample then true else s.conds.refLoss)
    (∀ b, s.tb.before = some b → b.stepCtr ≠ s.tb.stepCtr → exec (.refEdge ⟨q, true⟩) s = .next { s with
      tb := { s.tb with ref := some ⟨stampAt b.counter, b.stepCtr⟩ }, ri := { s.ri with message := none } }) ∧
    (s.ri.closed = false → s.ri.message = none → exec (.refEdge ⟨q, false⟩) s = .next s1) ∧
    (∀ m, s.ri.closed = false → s.ri.message = some m → ∃ u, exec (.refEdge ⟨q, false⟩) s = .next u ∧
      OnlyAlarms [.refLoss] { s1 with ri := u.ri } u ∧ (m.fix = true → sampled m u) ∧ (m.fix = false → unsampled u) ∧
      ∀ n, (s.ri.run = 0 → n = 1) →
        (0 < s.ri.run → Near t (s.ri.runTime + secU) (1000 * nsU) → m.label = (s.ri.runLabel + 1) % 281474976710656 →
          n = s.ri.run + 1) →
        (0 < s.ri.run → ¬(Near t (s.ri.runTime + secU) (1000 * nsU) ∧ m.label = (s.ri.runLabel + 1) % 281474976710656) →
          n = 1) →
        u.ri = { accepted with
          runTime := t, runLabel := m.label, valid := false, sample := u.ri.sample, noSample := u.ri.noSample
          run := if n < 4 then n else 0
          closed := decide (4 ≤ n)
          expected := if n < 4 then s.ri.expected else some next
          misplaced := if n < 4 then s.ri.misplaced else 0 }) ∧
    (∀ e, s.ri.closed = true → s.ri.expected = some e → Near t e (s.mp.params.w * nsU) →
      ∃ u, exec (.refEdge ⟨q, false⟩) s = .next u ∧ OnlyAlarms [.refLoss, .refMisplaced] { s1 with ri := u.ri } u ∧
        u.ri = { accepted with
          expected := some next, misplaced := 0, valid := u.ri.valid, sample := u.ri.sample, noSample := u.ri.noSample } ∧
        u.conds.refMisplaced = false ∧ (u.ri.valid = true ↔ ∃ m, s.ri.message = some m ∧ m.fix = true) ∧
        (∀ m, s.ri.message = some m → m.fix = true → sampled m u) ∧
        ((∀ m, s.ri.message = some m → m.fix = false) → unsampled u)) ∧
    (∀ e, s.ri.closed = true → s.ri.expected = some e → ¬Near t e (s.mp.params.w * nsU) →
      (s.ri.misplaced < 2 → exec (.refEdge ⟨q, false⟩) s =
        .next { s1 with ri := { s.ri with misplaced := s.ri.misplaced + 1 } }) ∧
      (2 ≤ s.ri.misplaced → ∃ u, exec (.refEdge ⟨q, false⟩) s = .next u ∧ u.conds.refMisplaced = true ∧
        OnlyAlarms [.refMisplaced] { s1 with ri := { s.ri with
          closed := false, expected := none, run := 0, misplaced := 0, valid := false, sample := none } } u))) ∧
  (∀ (s : State) (e : Int), s.held = .nothing → s.ri.closed = true → s.ri.expected = some e →
    Past s.tb.counter.value (e + (500000000 * nsU : Nat)) →
    ((∀ d, s.ri.deadline = some d → ¬Past s.tb.counter.value d) →
      exec .windowGiveUp s = .next { s with ri := { s.ri with
        expected := some (if (scaleU : Int) ≤ e + secU then e + secU - scaleU else e + secU), valid := false } }) ∧
    ∀ d, s.ri.deadline = some d → Past s.tb.counter.value d → exec .windowGiveUp s = .next s) ∧
  ∀ (s : State) (d : Int), s.held = .nothing → s.ri.deadline = some d → Past s.tb.counter.value d →
    ∃ u, exec .lossDeadlineExpiry s = .next u ∧ u.conds.refLoss = true ∧
      OnlyAlarms [.refLoss] { s with ri := { s.ri with
        closed := false, expected := none, run := 0, misplaced := 0, valid := false, sample := none
        deadline := none } } u

/-! ### The history store -/

/-- A minute boundary: a minute of 60 completions, all in TRACK, joins the ring of at most 64 with its mean; any other
is dropped; the accumulator opens afresh, holding what completions of the minute it opens came before the boundary was
taken (R6; log 51); the sixtieth recorded minute makes a record due, which waits behind an
operation, is programmed in the next slot free, or has the next usable sector erased for it, or is dropped with
HISTORY_FAULT where no sector is usable (R155, R156, R160, R165). The slot is the first from the append position on that
reads ERASED, in a current sector that neither needs erasing nor is unusable; the sector the next in cyclic order that is
not unusable, the current one last (R161). -/
def Obligations.MinutesRecorded : Prop :=
  (∀ h : History,
    let free := fun k : Fin 32 => h.nextSlot ≤ k.val ∧
      (∀ j, j < 32 → h.area.read (h.sector.val * 1024 + k.val * 32 + j) = 0xFF) ∧ h.sector ∉ h.needsErase ∧
      h.sector ∉ h.unusable
    (∀ k, h.nextFree = some k ↔ free k ∧ ∀ j, j < k → ¬free j) ∧ (h.nextFree = none ↔ ∀ k, ¬free k) ∧
    (∀ c, h.nextSector = some c ↔ ∃ d : Fin 4, c = h.sector + 1 + d ∧ c ∉ h.unusable ∧
      ∀ d' : Fin 4, d' < d → h.sector + 1 + d' ∈ h.unusable) ∧
    (h.nextSector = none ↔ ∀ c, c ∈ h.unusable)) ∧
  ∀ (s : State) (sec : Nat) (rest : List Nat), s.held = .nothing → s.tb.minutes = sec :: rest →
    let mine := s.hs.ahead.filter fun c => !rest.contains (c.epoch - c.epoch % 60)
    let h : History := { s.hs with
      count := min 255 mine.length, sum := (mine.map Handed.f).sum, allTrack := mine.all Handed.track
      ahead := s.hs.ahead.filter fun c => rest.contains (c.epoch - c.epoch % 60) }
    let ring := (s.hs.ring ++ [(⟨roundDiv s.hs.sum 60, sec⟩ : Minute)]).drop (s.hs.ring.length + 1 - 64)
    let d := History.derive { s.hs with ring := ring }
    let r : HistRecord := ⟨s.hs.lastSeq + 1, d.fNew, d.slope, ring.length, sec⟩
    let s1 : State := { s with tb := { s.tb with minutes := rest } }
    (s.hs.count ≠ 60 ∨ s.hs.allTrack = false → exec .minuteBoundary s = .next { s1 with hs := h }) ∧
    (s.hs.count = 60 → s.hs.allTrack = true → s.hs.recorded + 1 < 60 →
      exec .minuteBoundary s = .next { s1 with hs := { h with ring := ring, recorded := s.hs.recorded + 1 } }) ∧
    (s.hs.count = 60 → s.hs.allTrack = true → 60 ≤ s.hs.recorded + 1 → 16777215 ≤ s.hs.lastSeq →
      exec .minuteBoundary s = .next { s1 with hs := { h with ring := ring, recorded := 0 } }) ∧
    (s.hs.count = 60 → s.hs.allTrack = true → 60 ≤ s.hs.recorded + 1 → s.hs.lastSeq < 16777215 →
      (s.hs.op ≠ .idle → exec .minuteBoundary s = .next { s1 with hs := { h with
        ring := ring, recorded := 0, lastSeq := s.hs.lastSeq + 1, waiting := some r } }) ∧
      (s.hs.op = .idle → ∀ k, s.hs.nextFree = some k → exec .minuteBoundary s = .next { s1 with hs := { h with
        ring := ring, recorded := 0, lastSeq := s.hs.lastSeq + 1, op := .program r false s.hs.sector k 0 } }) ∧
      (s.hs.op = .idle → s.hs.nextFree = none → ∀ c, s.hs.nextSector = some c →
        exec .minuteBoundary s = .next { s1 with hs := { h with
          ring := ring, recorded := 0, lastSeq := s.hs.lastSeq + 1, op := .erase r false c 0 } }) ∧
      (s.hs.op = .idle → s.hs.nextFree = none → s.hs.nextSector = none → ∃ t, exec .minuteBoundary s = .next t ∧
        OnlyAlarms [.historyFault] { s1 with hs := { h with
          ring := ring, recorded := 0, lastSeq := s.hs.lastSeq + 1 } } t ∧
        (t.au.records.get .historyFault).state = .active))

/-- The end of a program, whatever its cells took: they hold the bits that were set and are as programmed or as the command
gives them (log 21), the marker programmed only where bytes 0 to 17 read back right, and no byte outside the slot has
changed; the next slot follows. A slot that reads back whole commits the record; any other outcome is a failure and
reports HISTORY_FAULT, the first time tried again as a retry and the second dropped (R162, R163). The end of an erase: the
bits come out set, or as the command gives them (log 21); where every byte reads FF the sector is current, no longer needs
erasing, and the record in flight is programmed; otherwise it is unusable with HISTORY_FAULT, and the record moves on
(R164). A record placed goes to the next free slot, or has the next usable sector erased for it, or is dropped with
HISTORY_FAULT (R161; MinutesRecorded says which slot and sector). When the operation comes to IDLE, the pending append goes
into flight (R165). Before its time neither end does anything (log 1). The start scan's end marks as
needing an erase exactly the sectors where an ERASED slot is followed by one that is not, in slot order; it takes as seed
the valid record of highest sequence, the last in scan order among equals, sets the last sequence and the append position
from it, and, where no completion has set F, F and F_int to the seed's F_new (R167, R130). The scan judges every slot by
its content alone, that of a failed program too, which R163 calls PARTIAL: the model's choice (log 37). -/
def Obligations.RecordOperationsEnd : Prop :=
  ∀ s : State, s.held = .nothing → s.hs.area.wf = true →
    let place := fun (h : History) (r : HistRecord) (retry : Bool) => (match h.nextFree with
      | some k => ({ h with op := .program r retry h.sector k 0 }, 0)
      | none => match h.nextSector with
        | some c => ({ h with op := .erase r retry c 0 }, 0)
        | none => ({ h with op := .idle }, 1) : History × Nat)
    let idle := fun h : History => (match h.waiting with
      | some r => place { h with waiting := none } r false
      | none => (h, 0) : History × Nat)
    let flies := fun (h : History) (r : HistRecord) (retry : Bool) =>
      if (place h r retry).2 = 0 then place h r retry
      else ((idle (place h r retry).1).1, (idle (place h r retry).1).2 + 1)
    let leads := fun (c : Instr) (faults : Nat) (p : History × Nat) => ∃ t, exec c s = .next t ∧
      t = { s with hs := p.1, au := t.au } ∧ (faults + p.2 = 0 → t.au = s.au) ∧
      (∀ k, k ≠ .historyFault → t.au.records.get k = s.au.records.get k) ∧
      t.au.records.get .historyFault =
        Nat.repeat (AlarmRecord.notice ⟨s.tb.counter.sec, s.tb.counter.ns⟩) (faults + p.2) (s.au.records.get .historyFault)
    (∀ r retry c k ticks left, s.hs.op = .program r retry c k ticks → 187500 ≤ ticks →
      let old := fun i => s.hs.area.read (c.val * 1024 + k.val * 32 + i)
      let cell := fun i => old i &&& left.getD i (r.slot.getD i 0)
      let marked := (List.range 18).map cell = r.slot.take 18
      let bytes := (List.range 31).map cell ++ [if marked then cell 31 else old 31]
      ∃ area : Memory, area.wf = true ∧ (∀ i, i < 32 → area.read (c.val * 1024 + k.val * 32 + i) = bytes.getD i 0) ∧
        (∀ a, a < c.val * 1024 + k.val * 32 ∨ c.val * 1024 + k.val * 32 + 32 ≤ a → area.read a = s.hs.area.read a) ∧
        let h := { s.hs with area := area, nextSlot := k.val + 1, op := .idle }
        (bytes = r.slot → leads (.programEnd left) 0 (idle h)) ∧
        (bytes ≠ r.slot → retry = false → leads (.programEnd left) 1 (flies h r true)) ∧
        (bytes ≠ r.slot → retry = true → leads (.programEnd left) 1 (idle h))) ∧
    (∀ r retry c ticks left, s.hs.op = .erase r retry c ticks → 5625000 ≤ ticks →
      let cell := fun i => s.hs.area.read (c.val * 1024 + i) ||| left.getD i 0xFF
      ∃ area : Memory, area.wf = true ∧ (∀ i, i < 1024 → area.read (c.val * 1024 + i) = cell i) ∧
        (∀ a, a < c.val * 1024 ∨ c.val * 1024 + 1024 ≤ a → area.read a = s.hs.area.read a) ∧
        let h := { s.hs with area := area, op := .idle }
        ((∀ i, i < 1024 → cell i = 0xFF) → leads (.eraseEnd left) 0
          (flies { h with sector := c, nextSlot := 0, needsErase := h.needsErase.filter (· ≠ c) } r retry)) ∧
        (∀ i, i < 1024 → cell i ≠ 0xFF → leads (.eraseEnd left) 1
          (flies { h with unusable := c :: h.unusable.filter (· ≠ c) } r retry))) ∧
    (∀ r retry c k ticks left, s.hs.op = .program r retry c k ticks → ticks < 187500 →
      exec (.programEnd left) s = .next s) ∧
    (∀ r retry c ticks left, s.hs.op = .erase r retry c ticks → ticks < 5625000 → exec (.eraseEnd left) s = .next s) ∧
    (s.hs.scanning = true → ∃ t, exec .startScanComplete s = .next t ∧ t.hs.scanning = false ∧ t.hs.area = s.hs.area ∧
      t.tb = { s.tb with increment := incrementOf t.du.f } ∧ t.du = { s.du with f := t.du.f, fInt := t.du.fInt } ∧
      t = { s with hs := t.hs, du := t.du, tb := t.tb } ∧
      (∀ c, c ∈ t.hs.needsErase ↔ ∃ i j, i < j ∧ j < 32 ∧ slotState (s.hs.slotBytes c i) = .erased ∧
        slotState (s.hs.slotBytes c j) ≠ .erased) ∧
      (s.du.fSet = true → t.du = s.du) ∧
      (s.du.fSet = false → t.du.f = t.du.fInt ∧ (t.hs.seed = none → t.du.f = 0) ∧
        ∀ x, t.hs.seed = some x → inF x.record.fNew ∧ t.du.f = x.record.fNew) ∧
      (∀ x, t.hs.seed = some x → t.hs.lastSeq = x.record.seq ∧ t.hs.sector = x.sector ∧
        t.hs.nextSlot = x.slot.val + 1 ∧ parseRecord (s.hs.slotBytes x.sector x.slot.val) = some x.record ∧
        ∀ c k r, parseRecord (s.hs.slotBytes c (Fin.val (n := 32) k)) = some r → r.seq < x.record.seq ∨
          r.seq = x.record.seq ∧ c.val * 32 + k.val ≤ x.sector.val * 32 + x.slot.val) ∧
      (t.hs.seed = none → t.hs.lastSeq = 0 ∧ t.hs.sector = 3 ∧ t.hs.nextSlot = 32 ∧
        ∀ c k, parseRecord (s.hs.slotBytes c (Fin.val (n := 32) k)) = none))

/-- A committed slot reads back as the record it was programmed with, laid out as 08, section 8.3, says with its check and
its marker (R159, R162); and a slot is ERASED where its bytes all read FF, COMMITTED where its marker reads 00, and
PARTIAL otherwise, whatever wrote it (R159; log 37). A slot holds a valid record exactly where it is COMMITTED and its
bytes 0 to 17 are the fields, in their ranges, and the check of that record; whatever its other bytes (R159). -/
def Obligations.RecordReadBackAsProgrammed : Prop :=
  (∀ bytes : List Byte, bytes.length = 32 →
    (slotState bytes = .erased ↔ bytes = List.replicate 32 0xFF) ∧ (slotState bytes = .committed ↔ bytes[31]? = some 0) ∧
    ∀ r : HistRecord, parseRecord bytes = some r ↔
      slotState bytes = .committed ∧ r.Wf ∧ bytes.take 16 = be 3 r.seq ++ beInt 4 r.fNew ++ beInt 2 r.slope ++
        [BitVec.ofNat 8 r.n] ++ be 6 r.time ∧ (bytes.drop 16).take 2 = be 2 (crc16 (bytes.take 16))) ∧
  ∀ r : HistRecord, r.Wf →
    let f := fun off len => (r.slot.drop off).take len
    r.slot.length = 32 ∧ slotState r.slot = .committed ∧ parseRecord r.slot = some r ∧
    f 0 3 = be 3 r.seq ∧ f 3 4 = beInt 4 r.fNew ∧ f 7 2 = beInt 2 r.slope ∧ f 9 1 = [BitVec.ofNat 8 r.n] ∧
    f 10 6 = be 6 r.time ∧ f 16 2 = be 2 (crc16 (f 0 16)) ∧ f 18 13 = List.replicate 13 0xFF ∧ f 31 1 = [0]

/-! ### The timing outputs -/

/-- The place of an edge in its tick: 128 parts of the increment, limited to 127, and for an edge outside the tick the
nearer end of it (R172; 00, section 4.5; log 27). An edge time that has come, on the circle of the time scale (log 19): a
RUNNING or RESUMING PPS begins a pulse of its width at that place, a pulse still high beginning anew there (log 26), a
STOPPING or SQUELCHED one drives nothing, the next pulse time one second on; a frame boundary does so on FRAME, and at
frame number 0 on FRAME0, where RESUMING ends and a waiting FRAME shadow becomes the offset, the next boundary and its
number reckoned from it; an edge of FOUT drives its level (R172 to R175, R178, R181, R182). A pulse run out falls, and a
STOPPING output is then SQUELCHED (R173, R181); PULSE_END before that changes nothing (log 1). -/
def Obligations.EdgesDrivenWhenDue : Prop :=
  (∀ (b : TimeBase) (e : Nat) (d : Int), 0 < b.lastInc → -(scaleU / 2 : Nat) ≤ d → d < (scaleU / 2 : Nat) →
    ((e : Int) - ((b.counter.value : Int) - b.lastInc) - d) % scaleU = 0 →
    (d ≤ 0 → b.edgePos e = 0) ∧ (0 < d → d ≤ b.lastInc → (b.edgePos e : Int) = min 127 (128 * d / b.lastInc)) ∧
    (b.lastInc < d → b.edgePos e = 127)) ∧
  ∀ s : State, s.held = .nothing →
    (∀ e : Nat, s.ou.pps.next = some e → Past s.tb.counter.value e →
      exec .ppsPulseTime s = .next { s with ou := { s.ou with pps := { s.ou.pps with
        next := some ((e + secU) % scaleU)
        squelch := if s.ou.pps.squelch = .resuming then .running else s.ou.pps.squelch
        pulse := if s.ou.pps.squelch = .running ∨ s.ou.pps.squelch = .resuming then
            some ⟨(s.mp.params.ppsWidth + 4) / 8, s.tb.edgePos e⟩
          else s.ou.pps.pulse } } }) ∧
    (∀ e : Nat, s.ou.frame.next = some e → Past s.tb.counter.value e →
      let g : FrameGen := s.ou.frame
      let p : Option Pulse := some ⟨(s.mp.params.frameWidth + 4) / 8, s.tb.edgePos e⟩
      let driven : FrameGen := { g with
        squelch := if g.squelch = .resuming ∧ g.number = 0 then .running else g.squelch
        pulse := if g.squelch = .running ∨ g.squelch = .resuming ∧ g.number = 0 then p else g.pulse
        squelch0 := if g.squelch0 = .resuming ∧ g.number = 0 then .running else g.squelch0
        pulse0 := if g.number = 0 ∧ (g.squelch0 = .running ∨ g.squelch0 = .resuming) then p else g.pulse0 }
      (s.ou.frameShadow = none ∨ g.number ≠ 0 →
        exec .frameBoundary s = .next { s with ou := { s.ou with frame := { driven with
          next := some ((e + s.mp.params.frameLen.ns * nsU) % scaleU), number := (g.number + 1) % 1024 } } }) ∧
      ∀ v : Nat, s.ou.frameShadow = some (v : Int) → g.number = 0 → ∃ t, exec .frameBoundary s = .next t ∧
        t = { s with ou := { s.ou with frameShadow := none, frame := t.ou.frame } } ∧
        t.ou.frame = { driven with offset := v, next := t.ou.frame.next, number := t.ou.frame.number } ∧
        t.ou.frame.ReckonedAfter s.mp.params.frameLen e) ∧
    (∀ (pin : FoutPin) (e : Nat), (s.ou.fout pin).next = some e → Past s.tb.counter.value e →
      let g := s.ou.fout pin
      let n := if scaleU ≤ e + s.mp.params.half pin * nsU then 0 else e + s.mp.params.half pin * nsU
      let drives := g.squelch = .running ∨ g.squelch = .stopping ∧ g.rising = false ∨
        g.squelch = .resuming ∧ g.rising = true
      ∃ t, exec (.foutEdge pin) s = .next t ∧ t = { s with ou := s.ou.setFout pin (t.ou.fout pin) } ∧
        (t.ou.fout pin).next = some n ∧
        ((t.ou.fout pin).rising = true ↔ n / (s.mp.params.half pin * nsU) % 2 = 0) ∧
        (drives → (t.ou.fout pin).level = g.rising ∧ (t.ou.fout pin).pos = s.tb.edgePos e) ∧
        (¬drives → (t.ou.fout pin).level = g.level ∧ (t.ou.fout pin).pos = g.pos) ∧
        (t.ou.fout pin).squelch = (if g.squelch = .resuming ∧ g.rising = true then .running
          else if g.squelch = .stopping ∧ g.rising = false then .squelched else g.squelch)) ∧
    (∀ p, s.ou.pps.pulse = some p → p.left = 0 → exec (.pulseEnd .pps) s = .next { s with ou := { s.ou with
      pps := { s.ou.pps with
        pulse := none, squelch := if s.ou.pps.squelch = .stopping then .squelched else s.ou.pps.squelch } } }) ∧
    (∀ p, s.ou.frame.pulse = some p → p.left = 0 → exec (.pulseEnd .frame) s = .next { s with ou := { s.ou with
      frame := { s.ou.frame with
        pulse := none, squelch := if s.ou.frame.squelch = .stopping then .squelched else s.ou.frame.squelch } } }) ∧
    (∀ p, s.ou.frame.pulse0 = some p → p.left = 0 → exec (.pulseEnd .frame0) s = .next { s with ou := { s.ou with
      frame := { s.ou.frame with
        pulse0 := none, squelch0 := if s.ou.frame.squelch0 = .stopping then .squelched else s.ou.frame.squelch0 } } }) ∧
    ∀ pin, (s.ou.pulseLevel pin = false ∨ (∃ p, 0 < p.left ∧ (s.ou.pps.pulse = some p ∧ pin = .pps ∨
      s.ou.frame.pulse = some p ∧ pin = .frame ∨ s.ou.frame.pulse0 = some p ∧ pin = .frame0))) →
      exec (.pulseEnd pin) s = .next s

/-- A publication at a completion: where the permit condition holds the hold-off count goes up to H_p, and TXOK is
asserted where it reaches H_p; where it fails TXOK is deasserted and the count is 0. PERMIT_LOST is present exactly
while TXOK is deasserted outside FREE (R183, R185). Every one of the five outputs is released where its policy lets it run
and squelched where it does not, by the table of R181 (R180, R181), a pulse whose ticks have run counting as in progress
until its edge is driven (log 40); without a load of GOOD or ADJUSTED none may run and
there is no permit (log 38). STAT0 and STAT1 show their sources, and are low while the part is held or has no such load
(R186 to R188). -/
def Obligations.PermitJudgedAtPublication : Prop :=
  ∀ s : State,
    let t := s.published State.judgePermit
    let loaded := s.mp.status = .good ∨ s.mp.status = .adjusted
    let ok := loaded ∧ (s.du.pub.state = .track ∨ s.du.pub.state = .hold) ∧
      s.du.pub.bound ≤ s.mp.params.budget ∧ s.au.gating = false
    OnlyAlarms [] s t ∧
    (ok → t.ou.holdoff = min s.mp.params.hP (s.ou.holdoff + 1) ∧
      (t.ou.txok = true ↔ s.ou.txok = true ∨ s.mp.params.hP ≤ s.ou.holdoff + 1)) ∧
    (¬ok → t.ou.holdoff = 0 ∧ t.ou.txok = false) ∧
    (t.conds.permitLost = true ↔ t.ou.txok = false ∧ s.du.pub.state ≠ .free) ∧
    (s.mayRun .always = true ↔ loaded) ∧ (s.mayRun .notFree = true ↔ loaded ∧ s.du.pub.state ≠ .free) ∧
    (s.mayRun .permit = true ↔ loaded ∧ s.ou.txok = true) ∧
    t.GatesFollowPolicy ∧
    (∀ g g', (g, g') ∈ s.gates.zip t.gates → g'.1 = g.1 ∧ g'.2.2 = g.2.2 ∧
      ((g.1 = .permit → t.ou.txok ≠ s.ou.txok →
          (s.mayRun .permit = true → g.2.1 = .running ∨ g.2.1 = .resuming) ∧
          (s.mayRun .permit = false → g.2.1 = .stopping ∨ g.2.1 = .squelched)) →
        (t.mayRun g.1 = true → g'.2.1 = if g.2.1 = .running ∨ g.2.1 = .stopping then .running else .resuming) ∧
        (t.mayRun g.1 = false → g'.2.1 = if g.2.1 = .stopping ∨ g.2.1 = .running ∧ g.2.2 = true then .stopping
          else .squelched))) ∧
    let shows := fun src : Source => (match src with
      | .stateTrack => s.du.pub.state = .track
      | .stateHold => s.du.pub.state = .hold ∨ s.du.pub.state = .lapsed
      | .txok => s.ou.txok = true
      | .attn => s.au.attn = true
      | .anyPeerUrgent => ∃ i e, s.pt.at i = some e ∧ (e.state = .valid ∨ e.state = .suspect) ∧ e.adv.urgent = true
      | .allPeersTraceable => (∃ i e, s.pt.at i = some e ∧ e.state = .valid) ∧
          ∀ i e, s.pt.at i = some e → e.state = .valid → e.adv.trac = .traceable
      | .twoContributors => 2 ≤ s.du.contributors
      | .refValid => s.ri.valid = true : Prop)
    (s.stat0 = true ↔ s.held = .nothing ∧ loaded ∧ shows s.mp.params.stat0) ∧
    (s.stat1 = true ↔ s.held = .nothing ∧ loaded ∧ shows s.mp.params.stat1)

/-! ### The invariants at reset -/

/-- Every invariant holds of the state reset leaves. -/
def Obligations.ResetIsSound : Prop :=
  TimeSound State.reset ∧ PermitSound State.reset ∧ StatusSound State.reset ∧ PeersSound State.reset ∧
  StoresSound State.reset ∧ State.reset.AtResetWhileHeld
end

