-- ==== Sys2Proof/Laws/State.lean ====
section
/-! SUPPORT. What each named update of the state leaves alone: one lemma per field, so that no proof unfolds a record
update; and the values the changed field takes. -/

namespace Sys2Proof.Machine

/-! ### `State.setSlot` -/

@[simp] theorem State.setSlot_held (s : State) (i : Nat) (o : Option Entry) : (s.setSlot i o).held = s.held := rfl
@[simp] theorem State.setSlot_tb (s : State) (i : Nat) (o : Option Entry) : (s.setSlot i o).tb = s.tb := rfl
@[simp] theorem State.setSlot_lc (s : State) (i : Nat) (o : Option Entry) : (s.setSlot i o).lc = s.lc := rfl
@[simp] theorem State.setSlot_ri (s : State) (i : Nat) (o : Option Entry) : (s.setSlot i o).ri = s.ri := rfl
@[simp] theorem State.setSlot_du (s : State) (i : Nat) (o : Option Entry) : (s.setSlot i o).du = s.du := rfl
@[simp] theorem State.setSlot_hs (s : State) (i : Nat) (o : Option Entry) : (s.setSlot i o).hs = s.hs := rfl
@[simp] theorem State.setSlot_ou (s : State) (i : Nat) (o : Option Entry) : (s.setSlot i o).ou = s.ou := rfl
@[simp] theorem State.setSlot_au (s : State) (i : Nat) (o : Option Entry) : (s.setSlot i o).au = s.au := rfl
@[simp] theorem State.setSlot_mp (s : State) (i : Nat) (o : Option Entry) : (s.setSlot i o).mp = s.mp := rfl
@[simp] theorem State.setSlot_conds (s : State) (i : Nat) (o : Option Entry) : (s.setSlot i o).conds = s.conds := rfl
@[simp] theorem State.setSlot_choices (s : State) (i : Nat) (o : Option Entry) : (s.setSlot i o).choices = s.choices := rfl
@[simp] theorem State.setSlot_pending (s : State) (i : Nat) (o : Option Entry) : (s.setSlot i o).pending = s.pending := rfl

/-! ### `State.onRecord` -/

@[simp] theorem State.onRecord_held (s : State) (k : Kind) (f : AlarmRecord → AlarmRecord) : (s.onRecord k f).held = s.held := rfl
@[simp] theorem State.onRecord_tb (s : State) (k : Kind) (f : AlarmRecord → AlarmRecord) : (s.onRecord k f).tb = s.tb := rfl
@[simp] theorem State.onRecord_lc (s : State) (k : Kind) (f : AlarmRecord → AlarmRecord) : (s.onRecord k f).lc = s.lc := rfl
@[simp] theorem State.onRecord_pt (s : State) (k : Kind) (f : AlarmRecord → AlarmRecord) : (s.onRecord k f).pt = s.pt := rfl
@[simp] theorem State.onRecord_ri (s : State) (k : Kind) (f : AlarmRecord → AlarmRecord) : (s.onRecord k f).ri = s.ri := rfl
@[simp] theorem State.onRecord_du (s : State) (k : Kind) (f : AlarmRecord → AlarmRecord) : (s.onRecord k f).du = s.du := rfl
@[simp] theorem State.onRecord_hs (s : State) (k : Kind) (f : AlarmRecord → AlarmRecord) : (s.onRecord k f).hs = s.hs := rfl
@[simp] theorem State.onRecord_ou (s : State) (k : Kind) (f : AlarmRecord → AlarmRecord) : (s.onRecord k f).ou = s.ou := rfl
@[simp] theorem State.onRecord_mp (s : State) (k : Kind) (f : AlarmRecord → AlarmRecord) : (s.onRecord k f).mp = s.mp := rfl
@[simp] theorem State.onRecord_conds (s : State) (k : Kind) (f : AlarmRecord → AlarmRecord) : (s.onRecord k f).conds = s.conds := rfl
@[simp] theorem State.onRecord_choices (s : State) (k : Kind) (f : AlarmRecord → AlarmRecord) : (s.onRecord k f).choices = s.choices := rfl
@[simp] theorem State.onRecord_pending (s : State) (k : Kind) (f : AlarmRecord → AlarmRecord) : (s.onRecord k f).pending = s.pending := rfl

/-! ### `State.drew` -/

@[simp] theorem State.drew_held (s : State) : (s.drew).held = s.held := rfl
@[simp] theorem State.drew_tb (s : State) : (s.drew).tb = s.tb := rfl
@[simp] theorem State.drew_pt (s : State) : (s.drew).pt = s.pt := rfl
@[simp] theorem State.drew_ri (s : State) : (s.drew).ri = s.ri := rfl
@[simp] theorem State.drew_du (s : State) : (s.drew).du = s.du := rfl
@[simp] theorem State.drew_hs (s : State) : (s.drew).hs = s.hs := rfl
@[simp] theorem State.drew_ou (s : State) : (s.drew).ou = s.ou := rfl
@[simp] theorem State.drew_au (s : State) : (s.drew).au = s.au := rfl
@[simp] theorem State.drew_mp (s : State) : (s.drew).mp = s.mp := rfl
@[simp] theorem State.drew_conds (s : State) : (s.drew).conds = s.conds := rfl
@[simp] theorem State.drew_choices (s : State) : (s.drew).choices = s.choices := rfl
@[simp] theorem State.drew_pending (s : State) : (s.drew).pending = s.pending := rfl

/-! ### `State.answer` -/

@[simp] theorem State.answer_held (s : State) (c : Byte) (r : Reply) : (s.answer c r).held = s.held := rfl
@[simp] theorem State.answer_tb (s : State) (c : Byte) (r : Reply) : (s.answer c r).tb = s.tb := rfl
@[simp] theorem State.answer_lc (s : State) (c : Byte) (r : Reply) : (s.answer c r).lc = s.lc := rfl
@[simp] theorem State.answer_pt (s : State) (c : Byte) (r : Reply) : (s.answer c r).pt = s.pt := rfl
@[simp] theorem State.answer_ri (s : State) (c : Byte) (r : Reply) : (s.answer c r).ri = s.ri := rfl
@[simp] theorem State.answer_du (s : State) (c : Byte) (r : Reply) : (s.answer c r).du = s.du := rfl
@[simp] theorem State.answer_hs (s : State) (c : Byte) (r : Reply) : (s.answer c r).hs = s.hs := rfl
@[simp] theorem State.answer_ou (s : State) (c : Byte) (r : Reply) : (s.answer c r).ou = s.ou := rfl
@[simp] theorem State.answer_au (s : State) (c : Byte) (r : Reply) : (s.answer c r).au = s.au := rfl
@[simp] theorem State.answer_conds (s : State) (c : Byte) (r : Reply) : (s.answer c r).conds = s.conds := rfl
@[simp] theorem State.answer_choices (s : State) (c : Byte) (r : Reply) : (s.answer c r).choices = s.choices := rfl
@[simp] theorem State.answer_pending (s : State) (c : Byte) (r : Reply) : (s.answer c r).pending = s.pending := rfl

/-! ### `State.sentNothing` -/

@[simp] theorem State.sentNothing_held (s : State) (n : Nat) : (s.sentNothing n).held = s.held := rfl
@[simp] theorem State.sentNothing_tb (s : State) (n : Nat) : (s.sentNothing n).tb = s.tb := rfl
@[simp] theorem State.sentNothing_lc (s : State) (n : Nat) : (s.sentNothing n).lc = s.lc := rfl
@[simp] theorem State.sentNothing_pt (s : State) (n : Nat) : (s.sentNothing n).pt = s.pt := rfl
@[simp] theorem State.sentNothing_ri (s : State) (n : Nat) : (s.sentNothing n).ri = s.ri := rfl
@[simp] theorem State.sentNothing_du (s : State) (n : Nat) : (s.sentNothing n).du = s.du := rfl
@[simp] theorem State.sentNothing_hs (s : State) (n : Nat) : (s.sentNothing n).hs = s.hs := rfl
@[simp] theorem State.sentNothing_ou (s : State) (n : Nat) : (s.sentNothing n).ou = s.ou := rfl
@[simp] theorem State.sentNothing_au (s : State) (n : Nat) : (s.sentNothing n).au = s.au := rfl
@[simp] theorem State.sentNothing_conds (s : State) (n : Nat) : (s.sentNothing n).conds = s.conds := rfl
@[simp] theorem State.sentNothing_choices (s : State) (n : Nat) : (s.sentNothing n).choices = s.choices := rfl
@[simp] theorem State.sentNothing_pending (s : State) (n : Nat) : (s.sentNothing n).pending = s.pending := rfl

/-! ### `State.holdBack` -/

@[simp] theorem State.holdBack_held (s : State) (p : Published) : (s.holdBack p).held = s.held := rfl
@[simp] theorem State.holdBack_tb (s : State) (p : Published) : (s.holdBack p).tb = s.tb := rfl
@[simp] theorem State.holdBack_lc (s : State) (p : Published) : (s.holdBack p).lc = s.lc := rfl
@[simp] theorem State.holdBack_pt (s : State) (p : Published) : (s.holdBack p).pt = s.pt := rfl
@[simp] theorem State.holdBack_ri (s : State) (p : Published) : (s.holdBack p).ri = s.ri := rfl
@[simp] theorem State.holdBack_hs (s : State) (p : Published) : (s.holdBack p).hs = s.hs := rfl
@[simp] theorem State.holdBack_ou (s : State) (p : Published) : (s.holdBack p).ou = s.ou := rfl
@[simp] theorem State.holdBack_au (s : State) (p : Published) : (s.holdBack p).au = s.au := rfl
@[simp] theorem State.holdBack_mp (s : State) (p : Published) : (s.holdBack p).mp = s.mp := rfl
@[simp] theorem State.holdBack_conds (s : State) (p : Published) : (s.holdBack p).conds = s.conds := rfl
@[simp] theorem State.holdBack_choices (s : State) (p : Published) : (s.holdBack p).choices = s.choices := rfl
@[simp] theorem State.holdBack_pending (s : State) (p : Published) : (s.holdBack p).pending = s.pending := rfl
@[simp] theorem State.holdBack_pub (s : State) (p : Published) : (s.holdBack p).du.pub = p := rfl
@[simp] theorem State.holdBack_unpublished (s : State) (p : Published) : (s.holdBack p).du.unpublished = some s.du.pub := rfl

@[simp] theorem State.drew_drawn (s : State) : s.drew.lc.drawn = s.lc.drawn + 1 := rfl

@[simp] theorem State.answer_buffer (s : State) (c : Byte) (r : Reply) :
    (s.answer c r).mp.buffer = .preparing (r.frame c) := rfl
@[simp] theorem State.answer_params (s : State) (c : Byte) (r : Reply) : (s.answer c r).mp.params = s.mp.params := rfl
@[simp] theorem State.answer_status (s : State) (c : Byte) (r : Reply) : (s.answer c r).mp.status = s.mp.status := rfl
@[simp] theorem State.sentNothing_spiOut (s : State) (n : Nat) : (s.sentNothing n).mp.spiOut = List.replicate n 0xFF := rfl
@[simp] theorem State.sentNothing_params (s : State) (n : Nat) : (s.sentNothing n).mp.params = s.mp.params := rfl
@[simp] theorem State.sentNothing_status (s : State) (n : Nat) : (s.sentNothing n).mp.status = s.mp.status := rfl

/-! ### Events -/

/-- An event reaching a running part has its effect. -/
theorem State.event_running {s : State} (h : s.held = .nothing) (f : State → State) : s.event f = .next (f s) := by
  simp [State.event, h]

/-- An event reaching a held part has none. -/
theorem State.event_held {s : State} (h : s.held ≠ .nothing) (f : State → State) : s.event f = .next s := by
  simp [State.event, h]

/-- A guarded event reaching a held part has none. -/
theorem State.whenDue_held {s : State} (h : s.held ≠ .nothing) (due : Bool) (f : State → State) :
    s.whenDue due f = .next s := State.event_held h _

/-- A host command reaching a held part has none. -/
theorem State.command_held {s : State} (h : s.held ≠ .nothing) (early : Bool) (code : Byte) (len : Nat) (args : List Byte)
    (body : State → State × Reply) : s.command early code len args body = .next s := State.event_held h _

/-- An event whose occasion has come has its effect. -/
theorem State.whenDue_due {s : State} {due : Bool} (h : s.held = .nothing) (hd : due = true) (f : State → State) :
    s.whenDue due f = .next (f s) := by simp [State.whenDue, State.event, h, hd]

/-- An event whose occasion has not come has none. -/
theorem State.whenDue_idle {s : State} {due : Bool} (hd : due = false) (f : State → State) :
    s.whenDue due f = .next s := by simp [State.whenDue, State.event, hd]

/-- Everything an event can answer. -/
theorem State.event_cases {s t : State} {f : State → State} (h : s.event f = .next t) :
    (s.held ≠ .nothing ∧ t = s) ∨ (s.held = .nothing ∧ t = f s) := by
  unfold State.event at h
  by_cases hs : s.held = .nothing <;> simp_all

/-- Everything a guarded event can answer. -/
theorem State.whenDue_cases {s t : State} {due : Bool} {f : State → State} (h : s.whenDue due f = .next t) :
    t = s ∨ (s.held = .nothing ∧ due = true ∧ t = f s) := by
  rcases State.event_cases h with ⟨_, h⟩ | ⟨h1, h2⟩
  · exact .inl h
  · cases due
    · exact .inl (by simpa using h2)
    · exact .inr ⟨h1, rfl, by simpa using h2⟩

/-- Everything a host command can answer: the part is held, the transaction is ignored, it is answered REFUSED or
BAD_ARGUMENT with no effect, or it is carried out (R214, R215). -/
theorem State.command_cases {s t : State} {early : Bool} {code : Byte} {len : Nat} {args : List Byte}
    {body : State → State × Reply} (h : s.command early code len args body = .next t) :
    (s.held ≠ .nothing ∧ t = s) ∨
    (s.held = .nothing ∧
      let s1 := s.sentNothing (1 + args.length)
      (s.deaf early = true ∧ t = s1) ∨
      (s.deaf early = false ∧ s.mp.status = .fault ∧ code ≠ 1 ∧ t = s1.answer code .refused) ∨
      (s.deaf early = false ∧ ¬(s.mp.status = .fault ∧ code ≠ 1) ∧ args.length ≠ len ∧ t = s1.answer code .badArgument) ∨
      (s.deaf early = false ∧ ¬(s.mp.status = .fault ∧ code ≠ 1) ∧ args.length = len ∧
        t = (body s1).1.answer code (body s1).2)) := by
  rcases State.event_cases h with h | ⟨h1, h2⟩
  · exact .inl h
  · refine .inr ⟨h1, ?_⟩
    unfold State.perform at h2
    dsimp only at h2 ⊢
    split at h2
    · exact .inl ⟨‹_›, h2⟩
    · split at h2
      · exact .inr (.inl ⟨by simp_all, by simp_all, by simp_all, h2⟩)
      · split at h2
        · exact .inr (.inr (.inl ⟨by simp_all, ‹_›, ‹_›, h2⟩))
        · exact .inr (.inr (.inr ⟨by simp_all, ‹_›, by simp_all, h2⟩))

end Sys2Proof.Machine
end

