-- ==== Sys2Proof/Laws/Alarms.lean ====
section
/-! SUPPORT. What the alarm side of an event can do: one lemma per shared operation on conditions, records, pins,
squelches and the permit. -/

namespace Sys2Proof.Machine

/-! ### Things kept per kind -/

@[simp] theorem PerKind.get_ofFn {α : Type} (f : Kind → α) (k : Kind) : (PerKind.ofFn f).get k = f k := by
  cases k <;> rfl

@[simp] theorem PerKind.get_set_self {α : Type} (p : PerKind α) (k : Kind) (a : α) : (p.set k a).get k = a := by
  cases k <;> rfl

theorem PerKind.get_set_ne {α : Type} (p : PerKind α) {k j : Kind} (a : α) (h : j ≠ k) :
    (p.set k a).get j = p.get j := by
  cases k <;> cases j <;> first | rfl | exact absurd rfl h

theorem mem_kinds (k : Kind) : k ∈ kinds := by cases k <;> decide

/-! ### Frames compose -/

theorem Untouched.refl (s : State) : Untouched s s := ⟨rfl, rfl, rfl, rfl, rfl, rfl, rfl, rfl, rfl, rfl⟩

theorem Untouched.trans {s t u : State} (a : Untouched s t) (b : Untouched t u) : Untouched s u :=
  ⟨b.held.trans a.held, b.tb.trans a.tb, b.lc.trans a.lc, b.pt.trans a.pt, b.ri.trans a.ri, b.du.trans a.du,
   b.hs.trans a.hs, b.mp.trans a.mp, b.choices.trans a.choices, b.pending.trans a.pending⟩

theorem Outputs.sameSchedules_refl (a : Outputs) : a.sameSchedules a := rfl

theorem Outputs.sameSchedules_trans {a b c : Outputs} (h1 : a.sameSchedules b) (h2 : b.sameSchedules c) :
    a.sameSchedules c := by
  unfold Outputs.sameSchedules at *
  rw [h2, h1]

theorem OnlyAlarms.refl (ks : List Kind) (s : State) : OnlyAlarms ks s s :=
  ⟨.refl s, Outputs.sameSchedules_refl _, fun _ _ _ => rfl, fun _ _ _ => rfl⟩

theorem OnlyAlarms.trans {ks : List Kind} {s t u : State} (a : OnlyAlarms ks s t) (b : OnlyAlarms ks t u) :
    OnlyAlarms ks s u :=
  ⟨a.blocks.trans b.blocks, Outputs.sameSchedules_trans a.outputs b.outputs,
   fun k h1 h2 => (b.conds k h1 h2).trans (a.conds k h1 h2),
   fun k h1 h2 => (b.records k h1 h2).trans (a.records k h1 h2)⟩

theorem OnlyAlarms.mono {ks js : List Kind} {s t : State} (a : OnlyAlarms ks s t) (h : ks ⊆ js) : OnlyAlarms js s t :=
  ⟨a.blocks, a.outputs, fun k h1 h2 => a.conds k (fun hk => h1 (h hk)) h2, fun k h1 h2 => a.records k (fun hk => h1 (h hk)) h2⟩

/-! ### The operations -/

/-- An event on one record touches that record alone. -/
theorem State.onRecord_only (s : State) (k : Kind) (f : AlarmRecord → AlarmRecord) : OnlyAlarms [k] s (s.onRecord k f) :=
  ⟨⟨rfl, rfl, rfl, rfl, rfl, rfl, rfl, rfl, rfl, rfl⟩, Outputs.sameSchedules_refl _, fun _ _ _ => rfl, fun j h _ => PerKind.get_set_ne _ _ (by simpa using h)⟩

theorem State.onRecord_get (s : State) (k : Kind) (f : AlarmRecord → AlarmRecord) :
    (s.onRecord k f).au.records.get k = f (s.au.records.get k) := PerKind.get_set_self ..

theorem State.reportRecord_only (s : State) (k : Kind) (v : Bool) : OnlyAlarms [k] s (s.reportRecord k v) :=
  s.onRecord_only k _

theorem State.notice_only (s : State) (k : Kind) : OnlyAlarms [k] s (s.notice k) := s.onRecord_only k _

theorem State.judgePermitLost_only (s : State) : OnlyAlarms [] s s.judgePermitLost := by
  unfold State.judgePermitLost
  dsimp only
  split
  · exact .refl _ _
  · refine ⟨⟨rfl, rfl, rfl, rfl, rfl, rfl, rfl, rfl, rfl, rfl⟩, Outputs.sameSchedules_refl _, fun j _ h => PerKind.get_set_ne _ _ h, fun j _ h => PerKind.get_set_ne _ _ h⟩

theorem State.evalSquelch_only (s : State) : OnlyAlarms [] s s.evalSquelch :=
  ⟨⟨rfl, rfl, rfl, rfl, rfl, rfl, rfl, rfl, rfl, rfl⟩, rfl, fun _ _ _ => rfl, fun _ _ _ => rfl⟩

theorem State.setTxok_only (s : State) (v : Bool) : OnlyAlarms [] s (s.setTxok v) := by
  unfold State.setTxok
  split
  · exact .refl _ _
  · refine OnlyAlarms.trans ?_ (State.judgePermitLost_only _)
    exact ⟨⟨rfl, rfl, rfl, rfl, rfl, rfl, rfl, rfl, rfl, rfl⟩, rfl, fun _ _ _ => rfl, fun _ _ _ => rfl⟩

theorem State.withdraw_only (s : State) : OnlyAlarms [] s s.withdraw :=
  OnlyAlarms.trans (t := { s with ou := { s.ou with holdoff := 0 } })
    ⟨⟨rfl, rfl, rfl, rfl, rfl, rfl, rfl, rfl, rfl, rfl⟩, rfl, fun _ _ _ => rfl, fun _ _ _ => rfl⟩ (State.setTxok_only _ _)

theorem State.gatingReport_only (b : Bool) (s : State) : OnlyAlarms [] s (s.gatingReport b) := by
  unfold State.gatingReport
  split
  · exact s.withdraw_only
  · exact .refl _ _

/-- A report touches the record of its kind, and through the permit PERMIT_LOST. -/
theorem State.report_only (s : State) (k : Kind) (v : Bool) : OnlyAlarms [k] s (s.report k v) :=
  (s.reportRecord_only k v).trans ((State.gatingReport_only _ _).mono (by simp))

/-- A judgement touches the condition and the record of its kind, and through the permit PERMIT_LOST. -/
theorem State.judge_only (s : State) (k : Kind) (v : Bool) : OnlyAlarms [k] s (s.judge k v) := by
  unfold State.judge
  split
  · exact .refl _ _
  · refine OnlyAlarms.trans (t := { s with conds := s.conds.set k v }) ?_ (State.report_only _ _ _)
    exact ⟨⟨rfl, rfl, rfl, rfl, rfl, rfl, rfl, rfl, rfl, rfl⟩, rfl, fun j h _ => PerKind.get_set_ne _ _ (by simpa using h), fun _ _ _ => rfl⟩

/-- A report leaves the owners' conditions but PERMIT_LOST. -/
theorem State.report_conds (s : State) {k : Kind} (v : Bool) {j : Kind} (hj : j ≠ .permitLost) :
    (s.report k v).conds.get j = s.conds.get j := (State.gatingReport_only _ _).conds j (by simp) hj

/-- What the load leaves of a record (R194, R192). -/
theorem AlarmRecord.load_eq (r : AlarmRecord) (cls : Machine.Class) (now : SecNs) : r.load cls now = { r with
    effective := cls
    timer := if r.state = .active ∧ cls = .standing then 0 else r.timer
    changed := if cls = r.effective then r.changed else now } := by
  unfold AlarmRecord.load AlarmRecord.touched
  by_cases h : cls = r.effective <;> simp [h]

/-- A judgement leaves the condition judged. -/
theorem State.judge_conds (s : State) {k : Kind} (v : Bool) (hk : k ≠ .permitLost) : (s.judge k v).conds.get k = v := by
  unfold State.judge
  split
  · assumption
  · rw [State.report_conds _ _ hk]; exact PerKind.get_set_self ..

theorem State.judgePermit_only (s : State) : OnlyAlarms [] s s.judgePermit := by
  unfold State.judgePermit
  dsimp only
  split
  · split
    · exact OnlyAlarms.trans (t := { s with ou := { s.ou with holdoff := min s.mp.params.hP (s.ou.holdoff + 1) } })
        ⟨⟨rfl, rfl, rfl, rfl, rfl, rfl, rfl, rfl, rfl, rfl⟩, rfl, fun _ _ _ => rfl, fun _ _ _ => rfl⟩ (State.setTxok_only _ _)
    · exact ⟨⟨rfl, rfl, rfl, rfl, rfl, rfl, rfl, rfl, rfl, rfl⟩, rfl, fun _ _ _ => rfl, fun _ _ _ => rfl⟩
  · exact s.withdraw_only

/-- A publication at the output unit touches the squelches, the permit, and PERMIT_LOST. -/
theorem State.published_only (s : State) {permit : State → State} (h : ∀ s, OnlyAlarms [] s (permit s)) :
    OnlyAlarms [] s (s.published permit) :=
  (s.evalSquelch_only.trans (h _)).trans (State.judgePermitLost_only _)

/-- A status held back and published: the discipline unit's status, and what a publication at the output unit touches. -/
theorem State.withPublished_only (s : State) (p : Published) :
    OnlyAlarms [] { s with du := { s.du with pub := p, unpublished := none } } (s.withPublished p) :=
  State.published_only _ fun s => s.judgePermit_only

/-- With nothing held back there is nothing to publish. -/
theorem State.publish_none {s : State} (h : s.du.unpublished = none) : s.publish = s := by simp [State.publish, h]

/-- A status held back is published. -/
theorem State.publish_some {s : State} {p : Published} (h : s.du.unpublished = some p) : s.publish = s.withPublished p := by
  simp only [State.publish, h]
  rfl

/-- The reports of a completion touch five kinds. -/
theorem State.reportCompletion_only (s : State) (c : Completion) :
    OnlyAlarms [.noContributor, .holdBudget, .freqClamp, .phaseStep, .holdEntered] s (s.reportCompletion c) := by
  unfold State.reportCompletion
  dsimp only
  have h1 := (s.judge_only .noContributor (decide (c.du.contributors = 0))).mono
    (js := [.noContributor, .holdBudget, .freqClamp, .phaseStep, .holdEntered]) (by simp)
  have h2 := h1.trans ((State.judge_only _ .holdBudget (decide (c.du.pub.state = .lapsed))).mono (by simp))
  have h3 : ∀ o : Option Bool, OnlyAlarms [.noContributor, .holdBudget, .freqClamp, .phaseStep, .holdEntered] s
      (match o with
        | some active => ((s.judge .noContributor (decide (c.du.contributors = 0))).judge .holdBudget
            (decide (c.du.pub.state = .lapsed))).judge .freqClamp active
        | none => (s.judge .noContributor (decide (c.du.contributors = 0))).judge .holdBudget
            (decide (c.du.pub.state = .lapsed))) := by
    intro o
    cases o
    · exact h2
    · exact h2.trans ((State.judge_only _ .freqClamp _).mono (by simp))
  have h4 := fun u (h : OnlyAlarms [.noContributor, .holdBudget, .freqClamp, .phaseStep, .holdEntered] s u) =>
    h.trans ((State.notice_only u .phaseStep).mono (by simp))
  have h5 := fun u (h : OnlyAlarms [.noContributor, .holdBudget, .freqClamp, .phaseStep, .holdEntered] s u) =>
    h.trans ((State.notice_only u .holdEntered).mono (by simp))
  cases c.entered <;> cases c.step
  · exact h3 _
  · exact h4 _ (h3 _)
  · exact h5 _ (h3 _)
  · exact h5 _ (h4 _ (h3 _))

/-! ### The fields a judgement, a notice or a publication leaves alone -/

@[simp] theorem State.judge_tb (s : State) (k : Kind) (v : Bool) : (s.judge k v).tb = s.tb := (s.judge_only k v).blocks.tb
@[simp] theorem State.judge_lc (s : State) (k : Kind) (v : Bool) : (s.judge k v).lc = s.lc := (s.judge_only k v).blocks.lc
@[simp] theorem State.judge_pt (s : State) (k : Kind) (v : Bool) : (s.judge k v).pt = s.pt := (s.judge_only k v).blocks.pt
@[simp] theorem State.judge_ri (s : State) (k : Kind) (v : Bool) : (s.judge k v).ri = s.ri := (s.judge_only k v).blocks.ri
@[simp] theorem State.judge_du (s : State) (k : Kind) (v : Bool) : (s.judge k v).du = s.du := (s.judge_only k v).blocks.du
@[simp] theorem State.judge_hs (s : State) (k : Kind) (v : Bool) : (s.judge k v).hs = s.hs := (s.judge_only k v).blocks.hs
@[simp] theorem State.judge_mp (s : State) (k : Kind) (v : Bool) : (s.judge k v).mp = s.mp := (s.judge_only k v).blocks.mp
@[simp] theorem State.judge_held (s : State) (k : Kind) (v : Bool) : (s.judge k v).held = s.held :=
  (s.judge_only k v).blocks.held
@[simp] theorem State.judge_choices (s : State) (k : Kind) (v : Bool) : (s.judge k v).choices = s.choices :=
  (s.judge_only k v).blocks.choices
@[simp] theorem State.judge_pending (s : State) (k : Kind) (v : Bool) : (s.judge k v).pending = s.pending :=
  (s.judge_only k v).blocks.pending

/-- The pins and the indication as `refresh` forms them are exactly what the records make them. -/
theorem Alarms.refresh_exact (a : Alarms) (g : PerKind Bool) (s : State) (ha : s.au = a.refresh g)
    (hg : s.mp.params.gatingSet = g) : PinsExact s := by
  subst hg
  simp only [PinsExact, ha, Alarms.refresh, List.any_eq_true, Bool.and_eq_true, AlarmRecord.calls, AlarmRecord.drives,
    decide_eq_true_eq]
  refine ⟨?_, ?_, ?_, ?_⟩ <;> constructor
  · rintro ⟨k, _, h⟩; exact ⟨k, h⟩
  · rintro ⟨k, h⟩; exact ⟨k, mem_kinds k, h⟩
  · rintro ⟨k, _, h1, h2⟩; exact ⟨k, h2, h1⟩
  · rintro ⟨k, h1, h2⟩; exact ⟨k, mem_kinds k, h2, h1⟩
  · rintro ⟨k, _, h1, h2⟩; exact ⟨k, h2, h1⟩
  · rintro ⟨k, h1, h2⟩; exact ⟨k, mem_kinds k, h2, h1⟩
  · rintro ⟨k, _, h⟩; exact ⟨k, h⟩
  · rintro ⟨k, h⟩; exact ⟨k, mem_kinds k, h⟩

/-- After an event on a record the pins are exact (R192). -/
theorem State.onRecord_exact (s : State) (k : Kind) (f : AlarmRecord → AlarmRecord) : PinsExact (s.onRecord k f) :=
  Alarms.refresh_exact _ _ _ rfl rfl

/-! ### Conditions and records agree (R193, R195, R196) -/

/-- An event's time stamped on a record leaves its condition. -/
@[simp] theorem AlarmRecord.touched_condition (old new : AlarmRecord) (now : SecNs) :
    (old.touched new now).condition = new.condition := by
  unfold AlarmRecord.touched
  split <;> rfl

/-- A rise leaves the condition present (R195). -/
@[simp] theorem AlarmRecord.rise_condition (r : AlarmRecord) (now : SecNs) : (r.rise now).condition = true := by
  unfold AlarmRecord.rise
  cases h : r.condition <;> simp [h]

/-- A fall leaves the condition absent (R196). -/
@[simp] theorem AlarmRecord.fall_condition (r : AlarmRecord) (cls : Class) (now : SecNs) :
    (r.fall cls now).condition = false := by
  unfold AlarmRecord.fall
  cases h : r.condition
  · simp [h]
  · cases r.state <;> simp

/-- An owner's change reported keeps conditions and records in agreement. -/
theorem State.reportRecord_agree {s : State} (h : RecordsAgree s) (k : Kind) (v : Bool) :
    RecordsAgree ({ s with conds := s.conds.set k v }.reportRecord k v) := by
  intro j
  simp only [State.reportRecord, State.onRecord, Alarms.refresh]
  by_cases hj : j = k
  · subst hj
    rw [PerKind.get_set_self, PerKind.get_set_self]
    cases v <;> simp
  · rw [PerKind.get_set_ne _ _ hj, PerKind.get_set_ne _ _ hj]
    exact h j

end Sys2Proof.Machine
end

