-- ==== Sys2Proof/Laws/History.lean ====
section
/-! SUPPORT. What the shared operations of the history store can do: a record's slot, what a program leaves in it,
where a record is placed, and what the start scan finds. -/

namespace Sys2Proof.Machine

/-- A record takes 32 bytes (08, section 8.3). -/
@[simp] theorem HistRecord.slot_length (r : HistRecord) : r.slot.length = 32 := by
  simp [HistRecord.slot, HistRecord.fields, HistRecord.head, be, beInt]

/-- The first 18 bytes of a slot are the fields with their check (R159). -/
@[simp] theorem HistRecord.slot_take (r : HistRecord) : r.slot.take 18 = r.fields := by
  unfold HistRecord.slot
  rw [List.append_assoc, List.take_left']
  simp [HistRecord.fields, HistRecord.head, be, beInt]

/-- What a program leaves in its slot, byte by byte (R162; log 21): bits cleared at most, and the marker touched only where
the fields read back right. -/
theorem programmed_eq {old : List Byte} (h : old.length = 32) (r : HistRecord) (left : List Byte) :
    let cell := fun i => old.getD i 0 &&& left.getD i (r.slot.getD i 0)
    programmed old r left =
      (List.range 31).map cell ++ [if (List.range 18).map cell = r.slot.take 18 then cell 31 else old.getD 31 0] := by
  intro cell
  have hc : ((old.zip r.slot).mapIdx fun i p => p.1 &&& left.getD i p.2) = (List.range 32).map cell := by
    apply List.ext_getElem
    · simp [h]
    · intro i _ h2
      simp at h2
      simp [cell, h, h2, List.getD_eq_getElem?_getD]
  have h18 : ((List.range 32).map cell).take 18 = (List.range 18).map cell := rfl
  have h31 : ((List.range 32).map cell).take 31 = (List.range 31).map cell := rfl
  have h32 : (List.range 32).map cell = (List.range 31).map cell ++ [cell 31] := rfl
  unfold programmed
  dsimp only
  rw [hc, HistRecord.slot_take, h18, h31]
  split
  · exact h32
  · congr 1
    simp [List.getD_eq_getElem?_getD, h]

/-- What a program cut short leaves in its slot (R166): bits cleared at most, none that the record sets, and the marker
touched only where the fields are whole. -/
theorem programCut_cases {old : List Byte} (h : old.length = 32) (r : HistRecord) (left : List Byte) :
    (programCut old r left).length = 32 ∧
    (∀ i, i < 32 →
      (programCut old r left).getD i 0 &&& old.getD i 0 = (programCut old r left).getD i 0 ∧
      old.getD i 0 &&& r.slot.getD i 0 &&& (programCut old r left).getD i 0 = old.getD i 0 &&& r.slot.getD i 0) ∧
    ((programCut old r left).getD 31 0 ≠ old.getD 31 0 → (programCut old r left).take 18 = r.fields) := by
  have hc : ∀ cells, cells = ((old.zip r.slot).mapIdx fun i p => p.1 &&& (left.getD i p.1 ||| p.2)) →
      cells.length = 32 ∧ ∀ i, i < 32 → cells.getD i 0 = old.getD i 0 &&& (left.getD i (old.getD i 0) ||| r.slot.getD i 0) := by
    rintro _ rfl
    refine ⟨by simp [h], fun i hi => ?_⟩
    simp [h, hi, List.getD_eq_getElem?_getD]
  obtain ⟨hl, hi⟩ := hc _ rfl
  have key : ∀ a x b : Byte, (a &&& (x ||| b)) &&& a = a &&& (x ||| b) ∧ a &&& b &&& (a &&& (x ||| b)) = a &&& b := by
    intro a x b
    constructor <;> · ext i; simp; grind
  unfold programCut
  dsimp only
  split
  · next hf => exact ⟨hl, fun i h' => by rw [hi i h']; exact key _ _ _, fun _ => hf⟩
  · next hf =>
    have h31 : ∀ cells : List Byte, cells.length = 32 → ∀ i, (cells.take 31 ++ [old.getD 31 erased]).getD i 0 =
        if i < 31 then cells.getD i 0 else if i = 31 then old.getD 31 0 else 0 := by
      intro cells hl i
      simp only [List.getD_eq_getElem?_getD, List.getElem?_append, List.length_take, hl, List.getElem?_take]
      by_cases h1 : i < 31
      · simp [h1]
      · by_cases h2 : i = 31
        · subst h2; simp [h]
        · simp [h1, h2]; rw [List.getElem?_eq_none (by simp; omega)]; rfl
    refine ⟨by simp [h], fun i h' => ?_, fun hne => absurd (by rw [h31 _ hl]; simp) hne⟩
    rw [h31 _ hl]
    split
    · rw [hi i h']; exact key _ _ _
    · have : i = 31 := by omega
      subst this
      constructor
      · simp
      · simp only []
        ext i
        simp
        grind

/-- Where a record placed goes (R161). -/
theorem History.place_cases (h : History) (r : HistRecord) (retry : Bool) :
    (∃ k, h.nextFree = some k ∧ h.place r retry = ({ h with op := .program r retry h.sector k 0 }, false)) ∨
    (∃ c, h.nextFree = none ∧ h.nextSector = some c ∧ h.place r retry = ({ h with op := .erase r retry c 0 }, false)) ∨
    (h.nextFree = none ∧ h.nextSector = none ∧ h.place r retry = ({ h with op := .idle }, true)) := by
  unfold History.place
  cases hf : h.nextFree with
  | some k => exact .inl ⟨k, rfl, rfl⟩
  | none =>
    cases hs : h.nextSector with
    | some c => exact .inr (.inl ⟨c, rfl, rfl, rfl⟩)
    | none => exact .inr (.inr ⟨rfl, rfl, rfl⟩)

/-! ### The start scan (R167) -/

/-- What an incompletely erased sector shows (R167). -/
theorem brokenOrder_iff (l : List SlotState) : brokenOrder l = true ↔
    ∃ i j, i < j ∧ j < l.length ∧ l[i]? = some .erased ∧ ∃ y, l[j]? = some y ∧ y ≠ .erased := by
  induction l with
  | nil => simp [brokenOrder]
  | cons x xs ih =>
    simp only [brokenOrder, Bool.or_eq_true, Bool.and_eq_true, decide_eq_true_eq, List.any_eq_true, ih]
    constructor
    · rintro (⟨rfl, y, hy, hne⟩ | ⟨i, j, h1, h2, h3, y, h4, h5⟩)
      · obtain ⟨j, hj, rfl⟩ := List.mem_iff_getElem.mp hy
        exact ⟨0, j + 1, by omega, by simp; omega, rfl, _, by simp [hj], hne⟩
      · exact ⟨i + 1, j + 1, by omega, by simp; omega, by simpa using h3, y, by simpa using h4, h5⟩
    · rintro ⟨i, j, h1, h2, h3, y, h4, h5⟩
      obtain ⟨j, rfl⟩ : ∃ k, j = k + 1 := ⟨j - 1, by omega⟩
      cases i with
      | zero =>
        simp at h3 h4 h2
        exact .inl ⟨h3, y, List.mem_of_getElem? h4, h5⟩
      | succ i =>
        simp at h2 h3 h4
        exact .inr ⟨i, j, by omega, by omega, h3, y, h4, h5⟩

/-- The seed is the last of the highest sequence (R167). -/
theorem bestSeed_split (l : List Seed) (x : Seed) (h : bestSeed l = some x) :
    ∃ a b, l = a ++ x :: b ∧ (∀ y ∈ a, y.record.seq ≤ x.record.seq) ∧ ∀ y ∈ b, y.record.seq < x.record.seq := by
  induction l generalizing x with
  | nil => simp [bestSeed] at h
  | cons z zs ih =>
    simp only [bestSeed] at h
    split at h
    · next y hy =>
      obtain ⟨a, b, rfl, h1, h2⟩ := ih y hy
      split at h
      · next hlt =>
        simp at h; subst h
        refine ⟨[], _, rfl, by simp, ?_⟩
        intro w hw
        simp at hw
        rcases hw with hw | rfl | hw
        · have := h1 w hw; omega
        · exact hlt
        · have := h2 w hw; omega
      · next hge =>
        simp at h; subst h
        refine ⟨z :: a, b, rfl, ?_, h2⟩
        intro w hw; simp at hw
        rcases hw with rfl | hw
        · omega
        · exact h1 w hw
    · next hn =>
      have : zs = [] := by
        cases zs with
        | nil => rfl
        | cons w ws => simp only [bestSeed] at hn; split at hn <;> [split at hn; skip] <;> simp at hn
      simp at h; subst h; subst this
      exact ⟨[], [], rfl, by simp, by simp⟩
/-- Every valid record is found by the scan (R167). -/
theorem History.mem_found (h : History) {c : Fin 4} {k : Fin 32} {r : HistRecord}
    (hr : parseRecord (h.slotBytes c k.val) = some r) : (⟨r, c, k⟩ : Seed) ∈ h.found := by
  simp only [History.found, sectors, slotNumbers, List.mem_flatMap, List.mem_finRange, true_and, List.mem_filterMap]
  exact ⟨c, k, by simp [hr]⟩

/-- The scan finds records in the order of their places (R167). -/
theorem History.found_sorted (h : History) :
    h.found.Pairwise fun x y => x.sector.val * 32 + x.slot.val < y.sector.val * 32 + y.slot.val := by
  simp only [History.found, List.pairwise_flatMap]
  constructor
  · intro c _
    rw [List.pairwise_filterMap]
    have : (slotNumbers).Pairwise (· < ·) := by decide
    refine this.imp ?_
    intro a b hab x hx y hy
    simp at hx hy
    obtain ⟨_, _, rfl⟩ := hx
    obtain ⟨_, _, rfl⟩ := hy
    show c.val * 32 + a.val < c.val * 32 + b.val
    have : a.val < b.val := hab
    omega
  · have : (sectors).Pairwise (· < ·) := by decide
    refine this.imp ?_
    intro a b hab x hx y hy
    simp at hx hy
    obtain ⟨i, _, _, _, rfl⟩ := hx
    obtain ⟨j, _, _, _, rfl⟩ := hy
    show a.val * 32 + i.val < b.val * 32 + j.val
    have : a.val < b.val := hab
    have := i.isLt
    omega

end Sys2Proof.Machine
end

