-- ==== Sys2Proof/Laws/Memory.lean ====
section
/-! SUPPORT. The record area: what a read gives after a write, and the canonical form every write keeps. -/

namespace Sys2Proof.Machine

/-- An address below every listed one reads erased. -/
theorem Memory.read_below {m : Memory} {a : Nat} (h : ∀ d ∈ m, a < d.1) : m.read a = erased := by
  induction m with
  | nil => rfl
  | cons c m ih =>
    have hc : a < c.1 := h c (by simp)
    have : c.1 ≠ a := by omega
    simp only [Memory.read, this, if_false]
    exact ih fun d hd => h d (by simp [hd])

/-- The parts of the canonical form. -/
theorem Memory.wf_cons {c : Host.Cell} {m : Memory} :
    Memory.wf (c :: m) = true ↔ c.1 < areaSize ∧ c.2 ≠ erased ∧ (∀ d ∈ m, c.1 < d.1) ∧ m.wf = true := by
  simp [Memory.wf, and_assoc]

/-- What a written memory lists. -/
theorem Memory.mem_write {m : Memory} {a : Nat} {b : Byte} {d : Host.Cell} (h : d ∈ m.write a b) :
    d = (a, b) ∨ d ∈ m := by
  induction m with
  | nil =>
    unfold Memory.write at h
    split at h <;> simp_all
  | cons c m ih =>
    unfold Memory.write at h
    split at h
    · split at h
      · exact .inr h
      · exact List.mem_cons.mp h
    · split at h
      · split at h
        · exact .inr (List.mem_cons_of_mem _ h)
        · exact (List.mem_cons.mp h).imp_right (List.mem_cons_of_mem _)
      · rcases List.mem_cons.mp h with rfl | h
        · exact .inr (by simp)
        · exact (ih h).imp_right (List.mem_cons_of_mem _)

/-- A write inside the area keeps the canonical form. -/
theorem Memory.write_wf {m : Memory} {a : Nat} {b : Byte} (h : m.wf = true) (ha : a < areaSize) :
    (m.write a b).wf = true := by
  induction m with
  | nil =>
    unfold Memory.write
    split
    · rfl
    · simp_all [Memory.wf]
  | cons c m ih =>
    obtain ⟨h1, h2, h3, h4⟩ := Memory.wf_cons.mp h
    unfold Memory.write
    split
    · split
      · exact h
      · refine Memory.wf_cons.mpr ⟨ha, ‹_›, ?_, h⟩
        intro d hd
        rcases List.mem_cons.mp hd with rfl | hd
        · assumption
        · have := h3 d hd; omega
    · split
      · split
        · exact h4
        · exact Memory.wf_cons.mpr ⟨ha, ‹_›, fun d hd => by have := h3 d hd; simp_all, h4⟩
      · refine Memory.wf_cons.mpr ⟨h1, h2, fun d hd => ?_, ih h4⟩
        rcases Memory.mem_write hd with rfl | hd
        · simp only; omega
        · exact h3 d hd

/-- A read after a write: the byte written at its address, every other byte as before. -/
theorem Memory.read_write {m : Memory} {a : Nat} {b : Byte} (h : m.wf = true) (x : Nat) :
    (m.write a b).read x = if x = a then b else m.read x := by
  induction m with
  | nil =>
    unfold Memory.write
    split
    · subst_vars
      simp [Memory.read]
    · by_cases hx : x = a
      · simp [Memory.read, hx]
      · simp [Memory.read, hx, Ne.symm hx]
  | cons c m ih =>
    obtain ⟨_, _, h3, h4⟩ := Memory.wf_cons.mp h
    have ih := ih h4
    unfold Memory.write
    split
    · rename_i hlt
      have hb : Memory.read (c :: m) a = erased := Memory.read_below fun d hd => by
        rcases List.mem_cons.mp hd with rfl | hd
        · exact hlt
        · have := h3 d hd; omega
      split
      · subst_vars
        by_cases hx : x = a
        · subst hx; simpa using hb
        · simp [hx]
      · by_cases hx : x = a
        · simp [Memory.read, hx]
        · simp [Memory.read, hx, Ne.symm hx]
    · split
      · rename_i hac
        have hb : Memory.read m a = erased := Memory.read_below fun d hd => hac ▸ h3 d hd
        split
        · subst_vars
          by_cases hx : x = c.1
          · subst hx; simpa using hb
          · simp [Memory.read, hx, Ne.symm hx]
        · by_cases hx : x = a
          · simp [Memory.read, hx]
          · have : c.1 ≠ x := by omega
            simp [Memory.read, hx, Ne.symm hx, this]
      · by_cases hc : c.1 = x
        · have : x ≠ a := by omega
          simp [Memory.read, hc, this]
        · simp only [Memory.read, hc, if_false, ih]

/-- Writing bytes that fit in the area keeps the canonical form. -/
theorem Memory.writeBytes_wf {bs : List Byte} {m : Memory} {a : Nat} (h : m.wf = true)
    (ha : a + bs.length ≤ areaSize) : (m.writeBytes a bs).wf = true := by
  induction bs generalizing m a with
  | nil => exact h
  | cons b bs ih =>
    simp only [List.length_cons] at ha
    exact ih (Memory.write_wf h (by omega)) (by omega)

/-- A read after writing bytes: the byte written at its address, every other byte as before. -/
theorem Memory.read_writeBytes {bs : List Byte} {m : Memory} {a : Nat} (h : m.wf = true)
    (ha : a + bs.length ≤ areaSize) (x : Nat) :
    (m.writeBytes a bs).read x = if a ≤ x ∧ x < a + bs.length then bs.getD (x - a) erased else m.read x := by
  induction bs generalizing m a with
  | nil => simp [Memory.writeBytes]
  | cons b bs ih =>
    simp only [List.length_cons] at ha ⊢
    simp only [Memory.writeBytes]
    rw [ih (Memory.write_wf h (by omega)) (by omega), Memory.read_write h]
    by_cases h1 : a + 1 ≤ x ∧ x < a + 1 + bs.length
    · have h2 : a ≤ x ∧ x < a + (bs.length + 1) := by omega
      obtain ⟨n, rfl⟩ : ∃ n, x = a + (n + 1) := ⟨x - a - 1, by omega⟩
      simp only [h1, h2, if_true, and_self]
      have e1 : a + (n + 1) - (a + 1) = n := by omega
      have e2 : a + (n + 1) - a = n + 1 := by omega
      rw [e1, e2]; simp
    · by_cases hx : x = a
      · subst hx; simp
      · have h2 : ¬(a ≤ x ∧ x < a + (bs.length + 1)) := by omega
        rw [if_neg h1, if_neg h2, if_neg hx]

/-- The area at reset has the canonical form. -/
theorem Memory.reset_wf : State.reset.hs.area.wf = true := rfl

end Sys2Proof.Machine
end

