-- ==== Sys2Proof/Laws/Peers.lean ====
section
/-! SUPPORT. The peer table: what replacing a slot changes, what a pass over the slots leaves, and what a delivered
beacon can touch. -/

namespace Sys2Proof.Machine

/-! ### Slots -/

theorem State.entryAt_eq (s : State) (i : Nat) : s.entryAt i = s.pt.at i := rfl

/-- A slot replaced reads as what was put there; every other slot stands. -/
theorem PeerTable.at_set (t : PeerTable) {i : Nat} (o : Option Entry) (j : Nat) (h : i < t.slots.length) :
    PeerTable.at { t with slots := t.slots.set i o } j = if j = i then o else t.at j := by
  simp only [PeerTable.at, List.getD_eq_getElem?_getD, List.getElem?_set]
  by_cases hj : i = j
  · subst hj; simp [h]
  · simp [hj, Ne.symm hj]

/-- A slot with an entry is one of the table's. -/
theorem PeerTable.at_lt {t : PeerTable} {i : Nat} {e : Entry} (h : t.at i = some e) : i < t.slots.length := by
  by_contra hc
  simp [PeerTable.at, List.getD_eq_getElem?_getD, List.getElem?_eq_none (Nat.le_of_not_lt hc)] at h

/-- The slot of an address holds an entry of it. -/
theorem PeerTable.slotOf_some {t : PeerTable} {a i : Nat} (h : t.slotOf a = some i) :
    i < t.slots.length ∧ ∃ e, t.at i = some e ∧ e.addr = a := by
  obtain ⟨hi, hp, -⟩ := List.findIdx?_eq_some_iff_getElem.mp h
  refine ⟨hi, ?_⟩
  obtain ⟨e, he, ha⟩ := Option.any_eq_true .. |>.mp hp
  exact ⟨e, by simp [PeerTable.at, List.getD_eq_getElem?_getD, hi, he], by simpa using ha⟩

/-- An address without a slot has no entry. -/
theorem PeerTable.slotOf_none {t : PeerTable} {a : Nat} (h : t.slotOf a = none) {i : Nat} {e : Entry}
    (he : t.at i = some e) : e.addr ≠ a := by
  have hi := PeerTable.at_lt he
  have := List.findIdx?_eq_none_iff.mp h t.slots[i] (List.getElem_mem hi)
  have hg : t.slots[i] = some e := by simpa [PeerTable.at, List.getD_eq_getElem?_getD, hi] using he
  rw [hg] at this
  simpa using this

/-! ### The two conditions over the table -/

/-- Judging PEER_LINK and PEER_SUSPECT touches those kinds alone. -/
theorem State.judgePeers_only (s : State) : OnlyAlarms [.peerLink, .peerSuspect] s s.judgePeers :=
  ((s.judge_only .peerLink _).mono (by simp)).trans ((State.judge_only _ .peerSuspect _).mono (by simp))

/-- A slot replaced and the conditions judged: the slot, those two kinds, and nothing else. -/
theorem State.putSlot_only (s : State) (i : Nat) (o : Option Entry) :
    OnlyAlarms [.peerLink, .peerSuspect] (s.setSlot i o) (s.putSlot i o) := State.judgePeers_only _

theorem State.putSlot_pt (s : State) (i : Nat) (o : Option Entry) :
    (s.putSlot i o).pt = { s.pt with slots := s.pt.slots.set i o } := (s.putSlot_only i o).blocks.pt

/-- What a change of entries may touch: the slots and the two kinds. -/
structure OnlySlots (s t : State) : Prop where
  rest : OnlyAlarms [.peerLink, .peerSuspect] { s with pt := t.pt } t
  counts : t.pt = { s.pt with slots := t.pt.slots }
  length : t.pt.slots.length = s.pt.slots.length

theorem OnlySlots.refl (s : State) : OnlySlots s s := ⟨.refl _ _, rfl, rfl⟩

theorem OnlySlots.trans {s t u : State} (a : OnlySlots s t) (b : OnlySlots t u) : OnlySlots s u := by
  refine ⟨OnlyAlarms.trans (t := { t with pt := u.pt }) ?_ b.rest, ?_, b.length.trans a.length⟩
  · obtain ⟨⟨h1, h2, h3, -, h5, h6, h7, h8, h9, h10⟩, ho, hc, hr⟩ := a.rest
    exact ⟨⟨h1, h2, h3, rfl, h5, h6, h7, h8, h9, h10⟩, ho, hc, hr⟩
  · rw [b.counts, a.counts]

theorem State.putSlot_slots (s : State) (i : Nat) (o : Option Entry) : OnlySlots s (s.putSlot i o) := by
  refine ⟨?_, by rw [State.putSlot_pt], by rw [State.putSlot_pt]; exact List.length_set⟩
  have h : { s with pt := (s.putSlot i o).pt } = s.setSlot i o := by rw [State.putSlot_pt]; rfl
  rw [h]
  exact s.putSlot_only i o

theorem State.putSlot_at (s : State) {i : Nat} (o : Option Entry) (j : Nat) (h : i < s.pt.slots.length) :
    (s.putSlot i o).pt.at j = if j = i then o else s.pt.at j := by
  rw [State.putSlot_pt]
  exact PeerTable.at_set _ _ _ h

/-! ### Passes over the slots -/

/-- A pass over slots that replaces each entry by `f` of it, as the boundary and the write-back do. -/
def State.pass (f : Entry → Option Entry) (s : State) : List Nat → State
  | [] => s
  | i :: rest =>
    State.pass f
      (match s.entryAt i with
       | some e => s.putSlot i (f e)
       | none => s) rest

theorem State.pass_step_slots (f : Entry → Option Entry) (s : State) (i : Nat) :
    OnlySlots s (match s.entryAt i with | some e => s.putSlot i (f e) | none => s) := by
  split
  · exact s.putSlot_slots _ _
  · exact .refl _

theorem State.pass_slots (f : Entry → Option Entry) (is : List Nat) (s : State) : OnlySlots s (State.pass f s is) := by
  induction is generalizing s with
  | nil => exact .refl _
  | cons i is ih => exact (State.pass_step_slots f s i).trans (ih _)

/-- Each slot of a pass is replaced once; the others stand. -/
theorem State.pass_at (f : Entry → Option Entry) (is : List Nat) (s : State) (hn : is.Nodup)
    (hl : ∀ i ∈ is, i < s.pt.slots.length) (j : Nat) :
    (State.pass f s is).pt.at j = if j ∈ is then (s.pt.at j).bind f else s.pt.at j := by
  induction is generalizing s with
  | nil => simp [State.pass]
  | cons i is ih =>
    obtain ⟨hi, hn⟩ := List.nodup_cons.mp hn
    have hs := State.pass_step_slots f s i
    unfold State.pass
    rw [ih _ hn (fun k hk => by rw [hs.length]; exact hl k (by simp [hk]))]
    have hat : ∀ k, (match s.entryAt i with | some e => s.putSlot i (f e) | none => s).pt.at k
        = if k = i then (s.pt.at i).bind f else s.pt.at k := by
      intro k
      rw [State.entryAt_eq]
      cases he : s.pt.at i with
      | some e => simp only [State.putSlot_at s (f e) k (hl i (by simp)), Option.bind_some]
      | none =>
        by_cases hk : k = i
        · simp [hk, he]
        · simp [hk]
    rw [hat]
    by_cases hj : j = i
    · subst hj; simp [hi]
    · simp [hj]

theorem State.ageSlots_eq (is : List Nat) (s t : State) (h : t.tb.interval = s.tb.interval) (hp : t.mp.params = s.mp.params) :
    t.ageSlots is = State.pass (fun e => e.age (silenceLimit s.tb.interval) s.mp.params.k) t is := by
  induction is generalizing t with
  | nil => rfl
  | cons i is ih =>
    unfold State.ageSlots State.pass
    rw [h, hp]
    have hs := State.pass_step_slots (fun e => e.age (silenceLimit s.tb.interval) s.mp.params.k) t i
    exact ih _ ((congrArg TimeBase.interval hs.rest.blocks.tb).trans h) ((congrArg Port.params hs.rest.blocks.mp).trans hp)

theorem State.writeBackSlots_eq (ws : List WriteBack) (is : List Nat) (s : State) :
    s.writeBackSlots ws is = State.pass (fun e => some (e.writeBack ws)) s is := by
  induction is generalizing s with
  | nil => rfl
  | cons i is ih => unfold State.writeBackSlots State.pass; exact ih _

/-- The boundary's pass: every entry ages by the rules of R70 and R72, and nothing but the table and its two conditions
is touched. -/
theorem State.ageSlots_spec (s : State) (hl : s.pt.slots.length = 24) :
    OnlySlots s (s.ageSlots (List.range 24)) ∧
    ∀ j, (s.ageSlots (List.range 24)).pt.at j = (s.pt.at j).bind fun e => e.age (silenceLimit s.tb.interval) s.mp.params.k := by
  rw [State.ageSlots_eq _ s s rfl rfl]
  refine ⟨State.pass_slots _ _ _, fun j => ?_⟩
  rw [State.pass_at _ _ _ List.nodup_range (by simp [hl])]
  by_cases hj : j < 24
  · simp [hj]
  · have : s.pt.at j = none := List.getD_eq_default _ _ (by omega)
    simp [hj, this]

/-- The write-back's pass: every entry takes what the completion gives it (R81). -/
theorem State.writeBackCompletion_spec (s : State) (ws : List WriteBack) (hl : s.pt.slots.length = 24) :
    OnlySlots s (s.writeBackCompletion ws) ∧ ∀ j, (s.writeBackCompletion ws).pt.at j = (s.pt.at j).map fun e => e.writeBack ws := by
  unfold State.writeBackCompletion
  rw [State.writeBackSlots_eq]
  refine ⟨State.pass_slots _ _ _, fun j => ?_⟩
  rw [State.pass_at _ _ _ List.nodup_range (by simp [hl])]
  by_cases hj : j < 24
  · simp only [List.mem_range, hj, if_true]
    cases s.pt.at j <;> rfl
  · have : s.pt.at j = none := List.getD_eq_default _ _ (by omega)
    simp [hj, this]

/-! ### Delivery -/

/-- What a sample can change in an entry: its ring, a NEW state to VALID, and the fault count (R75, R76). -/
theorem Entry.take_only (e : Entry) (dMax : Nat) (x : Sample) :
    ∃ r f, (e.take dMax x = { e with ring := r, faults := f } ∨
      e.state = .new ∧ e.take dMax x = { e with ring := r, faults := f, state := .valid }) ∧
      (r = e.ring ∨ r = pushSample e.ring { x with delay := max 0 x.delay }) := by
  unfold Entry.take
  split
  · exact ⟨e.ring, _, .inl rfl, .inl rfl⟩
  · refine ⟨_, e.faults, ?_, .inr rfl⟩
    dsimp only
    split
    · rename_i h; exact .inr ⟨h.1, rfl⟩
    · exact .inl rfl

/-- What measuring can change in an entry: its ring, a NEW state to VALID, and the two counts (R73 to R76). -/
theorem Entry.measure_only (e : Entry) (own dMax : Nat) (l : Line) (b : Beacon) (t4 : Option Stamp) :
    ∃ r f u, (e.measure own dMax l b t4 = { e with ring := r, faults := f, unmatched := u } ∨
      e.state = .new ∧ e.measure own dMax l b t4 = { e with ring := r, faults := f, unmatched := u, state := .valid }) ∧
      (r = e.ring ∨ ∃ x, r = pushSample e.ring x) := by
  unfold Entry.measure
  split
  · split
    · split
      · obtain ⟨r, f, h, hr⟩ := e.take_only dMax (formSample _ _ b.stamp _)
        exact ⟨r, f, e.unmatched, h, hr.imp_right fun h => ⟨_, h⟩⟩
      · exact ⟨e.ring, e.faults, _, .inl rfl, .inl rfl⟩
    · exact ⟨e.ring, e.faults, e.unmatched, .inl rfl, .inl rfl⟩
  · exact ⟨e.ring, e.faults, e.unmatched, .inl rfl, .inl rfl⟩

/-- A ring with a sample joined holds at most four, and one more than before while it held fewer (R76). -/
theorem pushSample_length (ring : List Sample) (x : Sample) : (pushSample ring x).length = min 4 (ring.length + 1) := by
  simp [pushSample]
  omega

/-- Measuring at slot `i` replaces the entry there and nothing else of the table. -/
theorem State.measureAt_spec (s : State) (i : Nat) (b : Beacon) (t4 : Option Stamp) (unreported : Bool) :
    OnlySlots s (s.measureAt i b t4 unreported) ∧ (∀ j, j ≠ i → (s.measureAt i b t4 unreported).pt.at j = s.pt.at j) ∧
    ∀ e, s.pt.at i = some e → ∃ n, (s.measureAt i b t4 unreported).pt.at i =
      some { e.measure s.mp.params.address s.mp.params.dMax s.lc b t4 with drops := n } := by
  unfold State.measureAt
  rw [State.entryAt_eq]
  cases he : s.pt.at i with
  | none =>
    dsimp only
    exact ⟨.refl s, fun _ _ => rfl, fun _ h => absurd h (by simp)⟩
  | some e =>
    dsimp only
    refine ⟨s.putSlot_slots _ _, fun j hj => ?_, fun e' h => ?_⟩
    · rw [State.putSlot_at _ _ _ (PeerTable.at_lt he), if_neg hj]
    · cases h
      rw [State.putSlot_at _ _ _ (PeerTable.at_lt he), if_pos rfl]
      generalize e.measure s.mp.params.address s.mp.params.dMax s.lc b t4 = m
      cases unreported
      · exact ⟨m.drops, by rw [if_neg Bool.false_ne_true]⟩
      · exact ⟨satAdd 65535 m.drops 1, by rw [if_pos rfl]⟩

/-- A beacon accepted onto the entry in slot `i` leaves it updated and its received count advanced. -/
theorem State.acceptAt_spec (s : State) {i : Nat} (e : Entry) (b : Beacon) (t4 : Option Stamp) (hi : i < s.pt.slots.length) :
    OnlySlots s (s.acceptAt i e b t4) ∧
    ∀ j, (s.acceptAt i e b t4).pt.at j = if j = i then some (e.update b (heardTime t4 s.now)).halve else s.pt.at j := by
  have h1 := s.putSlot_slots i (some (e.update b (heardTime t4 s.now)))
  refine ⟨h1.trans (State.putSlot_slots _ _ _), fun j => ?_⟩
  unfold State.acceptAt
  rw [State.putSlot_at _ _ _ (by rw [h1.length]; exact hi), State.putSlot_at _ _ _ hi]
  split <;> rfl

/-- A known sender's beacon: its entry is updated and measured, and nothing else of the table changes (R61). -/
theorem State.deliver_known (s : State) {i : Nat} {e : Entry} (b : Beacon) (t4 : Option Stamp) (unreported : Bool)
    (h : s.pt.slotOf b.sender = some i) (he : s.pt.at i = some e) :
    OnlySlots s (s.deliver b t4 unreported) ∧ (∀ j, j ≠ i → (s.deliver b t4 unreported).pt.at j = s.pt.at j) ∧
    ∃ n, (s.deliver b t4 unreported).pt.at i = some { Entry.measure (e.update b (heardTime t4 s.now)).halve s.mp.params.address
      s.mp.params.dMax s.lc b t4 with drops := n } := by
  have hd : s.deliver b t4 unreported = (s.acceptAt i e b t4).measureAt i b t4 unreported := by
    simp only [State.deliver, h, State.entryAt_eq, he]
  obtain ⟨a1, a2⟩ := s.acceptAt_spec e b t4 (PeerTable.at_lt he)
  obtain ⟨m1, m2, m3⟩ := State.measureAt_spec (s.acceptAt i e b t4) i b t4 unreported
  rw [hd]
  refine ⟨a1.trans m1, fun j hj => by rw [m2 j hj, a2, if_neg hj], ?_⟩
  have := m3 _ (by rw [a2, if_pos rfl])
  rwa [a1.rest.blocks.mp, a1.rest.blocks.lc] at this

/-- An unknown sender's beacon where a slot can be found: a NEW entry, measured, and the admission counted (R62). -/
theorem State.deliver_new (s : State) {i : Nat} (b : Beacon) (t4 : Option Stamp) (unreported : Bool)
    (h : s.pt.slotOf b.sender = none) (hs : s.pt.slotFor b.adv.bound = some i) (hi : i < s.pt.slots.length) :
    OnlySlots { s with pt := { s.pt with admissions := satAdd 65535 s.pt.admissions 1 } } (s.deliver b t4 unreported) ∧
    (∀ j, j ≠ i → (s.deliver b t4 unreported).pt.at j = s.pt.at j) ∧
    ∃ n, (s.deliver b t4 unreported).pt.at i = some { Entry.measure (Entry.fresh b.sender .new b.adv b.seq
      (heardTime t4 s.now)) s.mp.params.address s.mp.params.dMax s.lc b t4 with drops := n } := by
  have hd : s.deliver b t4 unreported = (s.admitAt i b t4).measureAt i b t4 unreported := by
    simp only [State.deliver, h, hs]
  have p1 := s.putSlot_slots i none
  let s1 : State := s.putSlot i none
  let s2 : State := { s1 with pt := { s1.pt with admissions := satAdd 65535 s1.pt.admissions 1 } }
  have p2 : OnlySlots { s with pt := { s.pt with admissions := satAdd 65535 s.pt.admissions 1 } } s2 := by
    obtain ⟨⟨⟨h1, h2, h3, -, h5, h6, h7, h8, h9, h10⟩, ho, hc, hr⟩, hp, hl⟩ := p1
    refine ⟨⟨⟨h1, h2, h3, rfl, h5, h6, h7, h8, h9, h10⟩, ho, hc, hr⟩, ?_, hl⟩
    have hq : s1.pt = { s.pt with slots := s1.pt.slots } := hp
    have hs2 : s2.pt = { s1.pt with admissions := satAdd 65535 s1.pt.admissions 1 } := rfl
    rw [hs2, hq]
  have hi2 : i < s2.pt.slots.length := by rw [show s2.pt.slots = s1.pt.slots from rfl, p1.length]; exact hi
  have p3 : OnlySlots s2 (s.admitAt i b t4) := State.putSlot_slots _ _ _
  have hat : ∀ j, (s.admitAt i b t4).pt.at j =
      if j = i then some (Entry.fresh b.sender .new b.adv b.seq (heardTime t4 s.now)) else s.pt.at j := by
    intro j
    show (s2.putSlot i _).pt.at j = _
    rw [State.putSlot_at _ _ _ hi2]
    split
    · rfl
    · rename_i hj
      show (s.putSlot i none).pt.at j = _
      rw [State.putSlot_at _ _ _ hi, if_neg hj]
  obtain ⟨m1, m2, m3⟩ := State.measureAt_spec (s.admitAt i b t4) i b t4 unreported
  rw [hd]
  have q := p2.trans p3
  refine ⟨q.trans m1, fun j hj => by rw [m2 j hj, hat, if_neg hj], ?_⟩
  have := m3 _ (by rw [hat, if_pos rfl])
  rwa [q.rest.blocks.mp, q.rest.blocks.lc] at this

/-- An unknown sender's beacon where no slot can be found is refused (R63). -/
theorem State.deliver_refused (s : State) (b : Beacon) (t4 : Option Stamp) (unreported : Bool)
    (h : s.pt.slotOf b.sender = none) (hs : s.pt.slotFor b.adv.bound = none) :
    s.deliver b t4 unreported = s.refuse := by
  simp only [State.deliver, h, hs]

/-- The slot a newcomer takes is one of the table's (R62). -/
theorem PeerTable.slotFor_lt {t : PeerTable} {bound i : Nat} (h : t.slotFor bound = some i) : i < t.slots.length := by
  have pick : ∀ (ok : Entry → Bool) (better : Entry → Entry → Bool) (l : List (Option Entry)) (k : Nat)
      (best : Option (Nat × Entry)) (n : Nat), (∀ x, best = some x → x.1 < n) → k + l.length ≤ n →
      ∀ x, pickSlot ok better l k best = some x → x.1 < n := by
    intro ok better l
    induction l with
    | nil => intro k best n hb _ x hx; exact hb x hx
    | cons o l ih =>
      intro k best n hb hk x hx
      simp only [List.length_cons] at hk
      refine ih _ _ n ?_ (by omega) x hx
      intro y hy
      split at hy
      · split at hy
        · cases hy; omega
        · exact hb y (by simpa using hy)
      · split at hy
        · cases hy; omega
        · cases hy
      · exact hb y hy
  unfold PeerTable.slotFor at h
  split at h
  · cases h
    rename_i hf
    exact (List.findIdx?_eq_some_iff_getElem.mp hf).1
  · split at h
    · rename_i hb
      cases h
      exact pick _ _ _ _ _ _ (by simp) (by simp) _ hb
    · split at h
      · rename_i hb
        split at h
        · cases h
          exact pick _ _ _ _ _ _ (by simp) (by simp) _ hb
        · cases h
      · cases h

end Sys2Proof.Machine
end

