-- ==== Sys2Proof/Laws/PerInstr.lean ====
section
/-! SUPPORT. What holds of every command as syntax, one lemma per constructor. -/

namespace Sys2Proof.Laws

/-- No word spells the command, since no row of the table has bits: a command reaches the queue from
outside as an event (log 39). -/
def SpelledByNoWord.Statement (i : Instr) : Prop := ∀ nbits w : Nat, decodeTableWord nbits w ≠ some i

theorem SpelledByNoWord.powerOn : SpelledByNoWord.Statement .powerOn := nofun
theorem SpelledByNoWord.pinReset (pin : PinReset) : SpelledByNoWord.Statement (.pinReset pin) := nofun
theorem SpelledByNoWord.tick : SpelledByNoWord.Statement .tick := nofun
theorem SpelledByNoWord.epoch : SpelledByNoWord.Statement .epoch := nofun
theorem SpelledByNoWord.minuteBoundary : SpelledByNoWord.Statement .minuteBoundary := nofun
theorem SpelledByNoWord.beaconIntervalBoundary : SpelledByNoWord.Statement .beaconIntervalBoundary := nofun
theorem SpelledByNoWord.step : SpelledByNoWord.Statement .step := nofun
theorem SpelledByNoWord.combineCompletion : SpelledByNoWord.Statement .combineCompletion := nofun
theorem SpelledByNoWord.carrierPresent : SpelledByNoWord.Statement .carrierPresent := nofun
theorem SpelledByNoWord.carrierAbsent (bytes : List Byte) (whole : Bool) : SpelledByNoWord.Statement (.carrierAbsent bytes whole) := nofun
theorem SpelledByNoWord.receptionOverlong (bytes : List Byte) : SpelledByNoWord.Statement (.receptionOverlong bytes) := nofun
theorem SpelledByNoWord.rxCapture (found : Delimiter) : SpelledByNoWord.Statement (.rxCapture found) := nofun
theorem SpelledByNoWord.nextInstantReached : SpelledByNoWord.Statement .nextInstantReached := nofun
theorem SpelledByNoWord.lineIdle : SpelledByNoWord.Statement .lineIdle := nofun
theorem SpelledByNoWord.txCapture (q : BitVec 7) : SpelledByNoWord.Statement (.txCapture q) := nofun
theorem SpelledByNoWord.collisionDetected : SpelledByNoWord.Statement .collisionDetected := nofun
theorem SpelledByNoWord.jamEnd : SpelledByNoWord.Statement .jamEnd := nofun
theorem SpelledByNoWord.backoffEnd : SpelledByNoWord.Statement .backoffEnd := nofun
theorem SpelledByNoWord.transmissionComplete : SpelledByNoWord.Statement .transmissionComplete := nofun
theorem SpelledByNoWord.stuckTimerExpiry : SpelledByNoWord.Statement .stuckTimerExpiry := nofun
theorem SpelledByNoWord.configLoadComplete (image : List Byte) : SpelledByNoWord.Statement (.configLoadComplete image) := nofun
theorem SpelledByNoWord.startScanComplete : SpelledByNoWord.Statement .startScanComplete := nofun
theorem SpelledByNoWord.refMessage (bytes : List Byte) : SpelledByNoWord.Statement (.refMessage bytes) := nofun
theorem SpelledByNoWord.messageCollectionTimeout : SpelledByNoWord.Statement .messageCollectionTimeout := nofun
theorem SpelledByNoWord.pendingMessageExpiry : SpelledByNoWord.Statement .pendingMessageExpiry := nofun
theorem SpelledByNoWord.refEdge (edge : Edge) : SpelledByNoWord.Statement (.refEdge edge) := nofun
theorem SpelledByNoWord.windowGiveUp : SpelledByNoWord.Statement .windowGiveUp := nofun
theorem SpelledByNoWord.lossDeadlineExpiry : SpelledByNoWord.Statement .lossDeadlineExpiry := nofun
theorem SpelledByNoWord.programEnd (left : List Byte) : SpelledByNoWord.Statement (.programEnd left) := nofun
theorem SpelledByNoWord.eraseEnd (left : List Byte) : SpelledByNoWord.Statement (.eraseEnd left) := nofun
theorem SpelledByNoWord.ppsPulseTime : SpelledByNoWord.Statement .ppsPulseTime := nofun
theorem SpelledByNoWord.frameBoundary : SpelledByNoWord.Statement .frameBoundary := nofun
theorem SpelledByNoWord.foutEdge (pin : FoutPin) : SpelledByNoWord.Statement (.foutEdge pin) := nofun
theorem SpelledByNoWord.pulseEnd (pin : PulsePin) : SpelledByNoWord.Statement (.pulseEnd pin) := nofun
theorem SpelledByNoWord.escalationTimerExpiry (kind : Kind) : SpelledByNoWord.Statement (.escalationTimerExpiry kind) := nofun
theorem SpelledByNoWord.readStatus (early : Bool) (args : List Byte) : SpelledByNoWord.Statement (.readStatus early args) := nofun
theorem SpelledByNoWord.readPeer (early : Bool) (args : List Byte) : SpelledByNoWord.Statement (.readPeer early args) := nofun
theorem SpelledByNoWord.readAlarm (early : Bool) (args : List Byte) : SpelledByNoWord.Statement (.readAlarm early args) := nofun
theorem SpelledByNoWord.ackAlarm (early : Bool) (args : List Byte) : SpelledByNoWord.Statement (.ackAlarm early args) := nofun
theorem SpelledByNoWord.ackAll (early : Bool) : SpelledByNoWord.Statement (.ackAll early) := nofun
theorem SpelledByNoWord.lockoutPeer (early : Bool) (args : List Byte) : SpelledByNoWord.Statement (.lockoutPeer early args) := nofun
theorem SpelledByNoWord.releasePeer (early : Bool) (args : List Byte) : SpelledByNoWord.Statement (.releasePeer early args) := nofun
theorem SpelledByNoWord.forceHold (early : Bool) (args : List Byte) : SpelledByNoWord.Statement (.forceHold early args) := nofun
theorem SpelledByNoWord.releaseHold (early : Bool) (args : List Byte) : SpelledByNoWord.Statement (.releaseHold early args) := nofun
theorem SpelledByNoWord.setOffset (early : Bool) (args : List Byte) : SpelledByNoWord.Statement (.setOffset early args) := nofun
theorem SpelledByNoWord.restart (early : Bool) (args : List Byte) : SpelledByNoWord.Statement (.restart early args) := nofun
theorem SpelledByNoWord.readHistory (early : Bool) (args : List Byte) : SpelledByNoWord.Statement (.readHistory early args) := nofun
theorem SpelledByNoWord.badCommand (early : Bool) (code : Byte) (args : List Byte) : SpelledByNoWord.Statement (.badCommand early code args) := nofun
theorem SpelledByNoWord.responseRead (clocked : Nat) : SpelledByNoWord.Statement (.responseRead clocked) := nofun
theorem SpelledByNoWord.responseReady : SpelledByNoWord.Statement .responseReady := nofun
theorem SpelledByNoWord.powerLoss (left : List Byte) : SpelledByNoWord.Statement (.powerLoss left) := nofun
theorem SpelledByNoWord.messageByteStopBitLow : SpelledByNoWord.Statement .messageByteStopBitLow := nofun

end Sys2Proof.Laws
end

