-- ==== Sys2Proof/Laws/Reports.lean ====
section
/-! SUPPORT. What the shared operations report to the alarm table: every record changes by its owner's reports alone, one
lemma per operation. -/

namespace Sys2Proof.Machine

/-- Records change by reports alone, and the time of the reports and the configured classes stay, so that what follows
reports at the same moment. -/
structure Reporting (s t : State) : Prop where
  only : OnlyReports s t
  counter : t.tb.counter = s.tb.counter
  params : t.mp.params = s.mp.params

theorem AlarmRecord.taking_append (cls : Class) (now : SecNs) (r : AlarmRecord) (l m : List Bool) :
    r.taking cls now (l ++ m) = (r.taking cls now l).taking cls now m := List.foldl_append ..

theorem repeat_add {α : Type} (f : α → α) (m n : Nat) (a : α) :
    Nat.repeat f (m + n) a = Nat.repeat f m (Nat.repeat f n a) := by
  induction m with
  | zero => simp [Nat.repeat]
  | succ m ih => rw [Nat.succ_add]; simp [Nat.repeat, ih]

/-- With records and conditions as they were there were no reports. -/
theorem OnlyReports.of_eq {s t : State} (ha : t.au.records = s.au.records) (hc : t.conds = s.conds) : OnlyReports s t :=
  ⟨fun k _ => ⟨[], by rw [hc]; rfl, by rw [ha]; rfl⟩, fun k _ => ⟨by rw [hc], 0, by rw [ha]; rfl⟩⟩

/-! ### Reports compose -/

theorem Reporting.of_eq {s t : State} (ha : t.au.records = s.au.records) (hc : t.conds = s.conds)
    (h1 : t.tb.counter = s.tb.counter) (h2 : t.mp.params = s.mp.params) : Reporting s t := ⟨.of_eq ha hc, h1, h2⟩

theorem Reporting.refl (s : State) : Reporting s s := .of_eq rfl rfl rfl rfl

/-- Reports after reports at one moment. -/
theorem Reporting.trans {s t u : State} (a : Reporting s t) (b : Reporting t u) : Reporting s u := by
  refine ⟨⟨fun k hk => ?_, fun k hk => ?_⟩, b.counter.trans a.counter, b.params.trans a.params⟩
  · obtain ⟨l, h1, h2⟩ := a.only.conditions k hk
    obtain ⟨m, h3, h4⟩ := b.only.conditions k hk
    refine ⟨l ++ m, ?_, ?_⟩
    · rw [h3, h1]; cases m using List.reverseRecOn <;> simp [List.getLastD_eq_getLast?]
    · rw [h4, h2, a.counter, a.params, AlarmRecord.taking_append]
  · obtain ⟨h1, n, h2⟩ := a.only.notices k hk
    obtain ⟨h3, m, h4⟩ := b.only.notices k hk
    exact ⟨h3.trans h1, m + n, by rw [h4, h2, a.counter, repeat_add]⟩

/-! ### The operations -/

/-- An owner's change and its report. -/
theorem State.reportRecord_reports (s : State) {k : Kind} (hk : Params.defaultClass k ≠ .notice) (v : Bool) :
    Reporting s ({ s with conds := s.conds.set k v }.reportRecord k v) := by
  refine ⟨⟨?_, ?_⟩, rfl, rfl⟩
  · intro j hj
    by_cases h : j = k
    · subst h
      refine ⟨[v], ?_, ?_⟩
      · exact PerKind.get_set_self ..
      · show (PerKind.set _ _ _).get j = _
        rw [PerKind.get_set_self]; cases v <;> rfl
    · exact ⟨[], PerKind.get_set_ne _ _ h, PerKind.get_set_ne _ _ h⟩
  · intro j hj
    have h : j ≠ k := fun e => hk (e ▸ hj)
    exact ⟨PerKind.get_set_ne _ _ h, 0, PerKind.get_set_ne _ _ h⟩

theorem State.judgePermitLost_reports (s : State) : Reporting s s.judgePermitLost := by
  unfold State.judgePermitLost
  dsimp only
  split
  · exact .refl _
  · exact s.reportRecord_reports (k := .permitLost) (by decide) _

theorem State.setTxok_reports (s : State) (v : Bool) : Reporting s (s.setTxok v) := by
  unfold State.setTxok
  split
  · exact .refl _
  · exact Reporting.trans (t := State.evalSquelch { s with ou := { s.ou with txok := v } }) (.of_eq rfl rfl rfl rfl)
      (State.judgePermitLost_reports _)

theorem State.withdraw_reports (s : State) : Reporting s s.withdraw :=
  Reporting.trans (t := { s with ou := { s.ou with holdoff := 0 } }) (.of_eq rfl rfl rfl rfl) (State.setTxok_reports _ _)

theorem State.gatingReport_reports (b : Bool) (s : State) : Reporting s (s.gatingReport b) := by
  unfold State.gatingReport
  split
  · exact s.withdraw_reports
  · exact .refl _

/-- A judgement is at most a report of the condition judged, and through the permit one of PERMIT_LOST. -/
theorem State.judge_reports (s : State) {k : Kind} (hk : Params.defaultClass k ≠ .notice) (v : Bool) :
    Reporting s (s.judge k v) := by
  unfold State.judge
  split
  · exact .refl _
  · exact (s.reportRecord_reports hk v).trans (State.gatingReport_reports _ _)

theorem State.notice_reports (s : State) {k : Kind} (hk : Params.defaultClass k = .notice) : Reporting s (s.notice k) := by
  refine ⟨⟨?_, ?_⟩, rfl, rfl⟩
  · intro j hj
    have h : j ≠ k := fun e => hj (e ▸ hk)
    exact ⟨[], rfl, PerKind.get_set_ne _ _ h⟩
  · intro j hj
    refine ⟨rfl, ?_⟩
    by_cases h : j = k
    · subst h; exact ⟨1, PerKind.get_set_self ..⟩
    · exact ⟨0, PerKind.get_set_ne _ _ h⟩

theorem State.judgePermit_reports (s : State) : Reporting s s.judgePermit := by
  unfold State.judgePermit
  dsimp only
  split
  · split
    · exact Reporting.trans (t := { s with ou := { s.ou with holdoff := min s.mp.params.hP (s.ou.holdoff + 1) } })
        (.of_eq rfl rfl rfl rfl) (State.setTxok_reports _ _)
    · exact .of_eq rfl rfl rfl rfl
  · exact s.withdraw_reports

theorem State.published_reports (s : State) {permit : State → State} (h : ∀ s, Reporting s (permit s)) : Reporting s (s.published permit) :=
  Reporting.trans (t := permit s.evalSquelch)
    (Reporting.trans (t := s.evalSquelch) (.of_eq rfl rfl rfl rfl) (h _)) (State.judgePermitLost_reports _)

theorem State.withPublished_reports (s : State) (p : Published) : Reporting s (s.withPublished p) :=
  Reporting.trans (t := { s with du := { s.du with pub := p, unpublished := none } }) (.of_eq rfl rfl rfl rfl)
    (State.published_reports _ fun s => s.judgePermit_reports)

theorem State.publish_reports (s : State) : Reporting s s.publish := by
  cases h : s.du.unpublished with
  | none => rw [State.publish_none h]; exact .refl _
  | some p => rw [State.publish_some h]; exact s.withPublished_reports p

/-! ### What a transaction put on data out stands apart from the alarm side (R214) -/

theorem State.judgePermitLost_sentNothing (s : State) (n : Nat) :
    (s.sentNothing n).judgePermitLost = s.judgePermitLost.sentNothing n := by
  show (if s.conds.permitLost = (!s.ou.txok && decide (s.du.pub.state ≠ .free)) then _ else _) = _
  unfold State.judgePermitLost
  dsimp only
  split <;> rfl

theorem State.setTxok_sentNothing (s : State) (n : Nat) (v : Bool) : (s.sentNothing n).setTxok v = (s.setTxok v).sentNothing n := by
  show (if s.ou.txok = v then s.sentNothing n else _) = _
  unfold State.setTxok
  split
  · rfl
  · exact State.judgePermitLost_sentNothing (State.evalSquelch { s with ou := { s.ou with txok := v } }) n

theorem State.judgePermit_sentNothing (s : State) (n : Nat) : (s.sentNothing n).judgePermit = s.judgePermit.sentNothing n := by
  have hc : (s.sentNothing n).permitCondition = s.permitCondition := rfl
  have hm : (s.sentNothing n).mp.params = s.mp.params := rfl
  have ho : (s.sentNothing n).ou = s.ou := rfl
  by_cases h : s.permitCondition = true
  · by_cases hp : s.mp.params.hP ≤ min s.mp.params.hP (s.ou.holdoff + 1)
    · simp only [State.judgePermit, hc, hm, ho, h, if_true, if_pos hp]
      exact State.setTxok_sentNothing { s with ou := { s.ou with holdoff := min s.mp.params.hP (s.ou.holdoff + 1) } } n _
    · simp only [State.judgePermit, hc, hm, ho, h, if_true, if_neg hp]
      rfl
  · simp only [State.judgePermit, hc, h]
    exact State.setTxok_sentNothing { s with ou := { s.ou with holdoff := 0 } } n _

/-- A publication before a transaction's bytes or after them comes to the same. -/
theorem State.withPublished_sentNothing (s : State) (n : Nat) (p : Published) :
    (s.sentNothing n).withPublished p = (s.withPublished p).sentNothing n := by
  show State.judgePermitLost (State.judgePermit (State.sentNothing
    (State.evalSquelch { s with du := { s.du with pub := p, unpublished := none } }) n)) = _
  rw [State.judgePermit_sentNothing, State.judgePermitLost_sentNothing]
  rfl

end Sys2Proof.Machine
end

