-- ==== Sys2Proof/Laws/Start.lean ====
section
/-! SUPPORT. What a reset held and a reset released can do (R211): one lemma per case of each shared operation. -/

namespace Sys2Proof.Machine

/-! ### `State.standing` -/

@[simp] theorem State.standing_held (s : State) (h : HeldBy) (c : Cause) (m : Memory) : (s.standing h c m).held = h := rfl
@[simp] theorem State.standing_tb (s : State) (h : HeldBy) (c : Cause) (m : Memory) : (s.standing h c m).tb = .reset := rfl
@[simp] theorem State.standing_lc (s : State) (h : HeldBy) (c : Cause) (m : Memory) :
    (s.standing h c m).lc = .reset s.lc.seeding := rfl
@[simp] theorem State.standing_pt (s : State) (h : HeldBy) (c : Cause) (m : Memory) : (s.standing h c m).pt = .reset := rfl
@[simp] theorem State.standing_ri (s : State) (h : HeldBy) (c : Cause) (m : Memory) : (s.standing h c m).ri = .reset := rfl
@[simp] theorem State.standing_du (s : State) (h : HeldBy) (c : Cause) (m : Memory) : (s.standing h c m).du = .reset := rfl
@[simp] theorem State.standing_hs (s : State) (h : HeldBy) (c : Cause) (m : Memory) : (s.standing h c m).hs = .reset m := rfl
@[simp] theorem State.standing_ou (s : State) (h : HeldBy) (c : Cause) (m : Memory) : (s.standing h c m).ou = .reset := rfl
@[simp] theorem State.standing_au (s : State) (h : HeldBy) (c : Cause) (m : Memory) : (s.standing h c m).au = .reset := rfl
@[simp] theorem State.standing_mp (s : State) (h : HeldBy) (c : Cause) (m : Memory) : (s.standing h c m).mp = .reset c := rfl
@[simp] theorem State.standing_conds (s : State) (h : HeldBy) (c : Cause) (m : Memory) :
    (s.standing h c m).conds = .ofFn fun _ => false := rfl
@[simp] theorem State.standing_choices (s : State) (h : HeldBy) (c : Cause) (m : Memory) :
    (s.standing h c m).choices = s.choices := rfl
@[simp] theorem State.standing_pending (s : State) (h : HeldBy) (c : Cause) (m : Memory) :
    (s.standing h c m).pending = s.pending := rfl

/-- A held part that is released begins as it would from a part that runs. -/
@[simp] theorem State.standing_start (s : State) (h : HeldBy) (c d : Cause) (m n : Memory) :
    (s.standing h c m).start d n = s.start d n := rfl

/-! ### Assertion -/

/-- A reset that reaches a running part takes every block to its reset values, and cuts an operation short. -/
theorem State.assertReset_running {s : State} (h : s.held = .nothing) (c : Cause) (held : HeldBy) (left : List Byte) :
    s.assertReset c held left = s.standing held c (s.hs.cutShort left) := by simp [State.assertReset, h]

/-- A reset that reaches a held part changes only what holds it. -/
theorem State.assertReset_held {s : State} (h : s.held ≠ .nothing) (c : Cause) (held : HeldBy) (left : List Byte) :
    s.assertReset c held left = { s with held := held } := by simp [State.assertReset, h]

/-! ### Release -/

/-- Once nothing holds the part, every block begins. -/
@[simp] theorem State.releaseReset_last (s : State) (c : Cause) : s.releaseReset c .nothing = s.start c s.hs.area := by
  simp [State.releaseReset]

/-- While something else holds the part, a release changes only what holds it. -/
theorem State.releaseReset_still (s : State) (c : Cause) {held : HeldBy} (h : held ≠ .nothing) :
    s.releaseReset c held = { s with held := held } := by simp [State.releaseReset, h]

/-- A pin that is not low does not rise. -/
theorem State.pinRises_high {s : State} (h : s.held.pin = false) : s.pinRises = s := by simp [State.pinRises, h]

/-- Where the pin alone holds the part, its rise starts every block with cause PIN. -/
theorem State.pinRises_last {s : State} (h : s.held = ⟨false, true⟩) : s.pinRises = s.start .pin s.hs.area := by
  simp [State.pinRises, State.releaseReset, h, HeldBy.nothing]

/-- A pulse on a running part starts every block with cause PIN over what it leaves of an operation (R211, R166). -/
theorem State.pulse_running {s : State} (h : s.held = .nothing) (left : List Byte) :
    (s.pinFalls left).pinRises = s.start .pin (s.hs.cutShort left) := by
  rw [State.pinFalls, State.assertReset_running h, h]
  exact State.pinRises_last rfl

end Sys2Proof.Machine
end

