-- ==== Sys2Proof/Laws/Time.lean ====
section
/-! SUPPORT. The time scale: rounding, the counter under a tick and a step, boundaries crossed, and schedules. -/

namespace Sys2Proof.Machine

/-- The value of a counter in range lies on the time scale. -/
theorem Counter.value_lt {c : Counter} (h : c.inRange) : c.value < scaleU := by
  obtain ⟨h1, h2, h3⟩ := h
  simp only [Counter.value, scaleU, secU, nsU] at *
  omega

/-- The counter formed of a value is in range and has that value (R1). -/
theorem Counter.ofValue_spec {v : Nat} (h : v < scaleU) : (Counter.ofValue v).inRange ∧ (Counter.ofValue v).value = v := by
  simp only [Counter.ofValue, Counter.inRange, Counter.value, scaleU, secU, nsU] at *
  omega

/-- A tick keeps the counter in range and adds the increment on the circle of the time scale (R2). -/
theorem Counter.tick_spec {c : Counter} {inc : Nat} (h : c.inRange) (hi : inc ≤ 34363174342) :
    (c.tick inc).inRange ∧ (c.tick inc).value = (c.value + inc) % scaleU := by
  obtain ⟨h1, h2, h3⟩ := h
  unfold Counter.tick
  dsimp only
  by_cases hc : c.ns + inc / nsU + (c.frac + inc % nsU) / nsU < 1000000000
  · rw [if_pos hc]
    simp only [Counter.inRange, Counter.value, scaleU, secU, nsU] at *
    omega
  · rw [if_neg hc]
    by_cases ht : c.sec = 281474976710655
    · rw [if_pos ht]
      simp only [Counter.inRange, Counter.value, scaleU, secU, nsU] at *
      omega
    · rw [if_neg ht]
      simp only [Counter.inRange, Counter.value, scaleU, secU, nsU] at *
      omega

/-- A tick carries the seconds exactly when it passes a multiple of a second (R5). -/
theorem Counter.carries_iff {c : Counter} {inc : Nat} (h : c.inRange) :
    c.carries inc = true ↔ secU ≤ c.value % secU + inc := by
  obtain ⟨h1, h2, h3⟩ := h
  unfold Counter.carries
  rw [decide_eq_true_iff]
  simp only [Counter.value, secU, nsU] at *
  omega

/-- The seconds after a tick: one on where it carries, unchanged otherwise (R2). -/
theorem Counter.tick_sec {c : Counter} {inc : Nat} (h : c.inRange) :
    (c.tick inc).sec = if c.carries inc then (c.sec + 1) % 281474976710656 else c.sec := by
  obtain ⟨h1, h2, h3⟩ := h
  unfold Counter.tick Counter.carries
  dsimp only
  by_cases hc : c.ns + inc / nsU + (c.frac + inc % nsU) / nsU < 1000000000
  · rw [if_pos hc, if_neg (by rw [decide_eq_true_iff]; omega)]
  · have hb : decide (1000000000 ≤ c.ns + inc / nsU + (c.frac + inc % nsU) / nsU) = true := by
      rw [decide_eq_true_iff]; omega
    rw [if_neg hc, hb, if_pos rfl]
    dsimp only
    by_cases ht : c.sec = 281474976710655
    · rw [if_pos ht]; omega
    · rw [if_neg ht]; omega

/-- A step keeps the counter in range and adds its amount, clamped at the ends of the time scale (R11, R12). -/
theorem Counter.step_spec (c : Counter) (x : Int) :
    (c.step x).inRange ∧ ((c.step x).value : Int) = max 0 (min ((scaleU : Int) - 1) (c.value + x * 268435456)) := by
  have hp : (0 : Int) < scaleU := by decide
  have h0 : (⟨0, 0, 0⟩ : Counter).inRange ∧ ((⟨0, 0, 0⟩ : Counter).value : Int) = 0 := ⟨⟨by decide, by decide, by decide⟩, rfl⟩
  have h1 : (⟨281474976710655, 999999999, 4294967295⟩ : Counter).inRange ∧
      ((⟨281474976710655, 999999999, 4294967295⟩ : Counter).value : Int) = scaleU - 1 :=
    ⟨⟨by decide, by decide, by decide⟩, by decide⟩
  unfold Counter.step
  dsimp only
  rw [show ((sixteenthU : Nat) : Int) = 268435456 from rfl]
  by_cases hn : (c.value : Int) + x * 268435456 < 0
  · rw [if_pos hn]
    exact ⟨h0.1, by omega⟩
  · rw [if_neg hn]
    by_cases ht : (scaleU : Int) ≤ c.value + x * 268435456
    · rw [if_pos ht]
      exact ⟨h1.1, by omega⟩
    · rw [if_neg ht]
      have h2 := Counter.ofValue_spec (v := ((c.value : Int) + x * 268435456).toNat) (by omega)
      exact ⟨h2.1, by omega⟩

/-- Division rounding half away from zero, for a dividend of either sign. -/
theorem roundDiv_spec (n : Int) {d : Nat} (hd : 0 < d) :
    2 * (roundDiv n d * d - n).natAbs ≤ d ∧ (2 * (roundDiv n d * d - n).natAbs = d → n.natAbs ≤ (roundDiv n d * d).natAbs) := by
  have key : ∀ m : Nat, 2 * (((2 * m + d) / (2 * d) * d : Nat) - m : Int).natAbs ≤ d ∧
      (2 * (((2 * m + d) / (2 * d) * d : Nat) - m : Int).natAbs = d → m ≤ (2 * m + d) / (2 * d) * d) := by
    intro m
    have h1 := Nat.div_add_mod (2 * m + d) (2 * d)
    have h2 := Nat.mod_lt (2 * m + d) (show 0 < 2 * d by omega)
    have h3 : 2 * d * ((2 * m + d) / (2 * d)) = 2 * ((2 * m + d) / (2 * d) * d) := by ring
    omega
  obtain ⟨k1, k2⟩ := key n.natAbs
  unfold roundDiv
  generalize hq : (2 * n.natAbs + d) / (2 * d) = q at *
  have hcast : ((q * d : Nat) : Int) = q * d := by push_cast; rfl
  split
  · rw [show (-(q : Int)) * d = -((q * d : Nat) : Int) by rw [hcast]; ring]
    omega
  · rw [← hcast]
    omega

/-- The increment of F stays within the range of R3 while F stays within 100 ppm. -/
theorem incrementOf_range {f : Int} (h : inF f) : inIncrement (incrementOf f) := by
  obtain ⟨h1, h2⟩ := h
  simp only [incrementOf, roundDiv, inIncrement]
  split <;> omega

/-- The boundary a tick crosses, and that there is none otherwise (R7). -/
theorem crossed_spec (b : Interval) (v inc : Nat) (hi : inc ≤ 34363174342) :
    (∀ n, v < n * b.span → n * b.span ≤ v + inc → crossed b v inc = some (n * b.span % scaleU)) ∧
    ((∀ n, v < n * b.span → v + inc < n * b.span) → crossed b v inc = none) := by
  have hs : 34363174342 < b.span := by cases b <;> decide
  have hd := Nat.div_add_mod v b.span
  have hm := Nat.mod_lt v (show 0 < b.span by omega)
  have he : (v / b.span + 1) * b.span = b.span * (v / b.span) + b.span := by ring
  constructor
  · intro n h1 h2
    have : n = v / b.span + 1 := by
      apply Nat.le_antisymm
      · by_contra hc
        have : (v / b.span + 2) * b.span ≤ n * b.span := Nat.mul_le_mul_right _ (by omega)
        have : (v / b.span + 2) * b.span = b.span * (v / b.span) + b.span + b.span := by ring
        omega
      · by_contra hc
        have : n * b.span ≤ v / b.span * b.span := Nat.mul_le_mul_right _ (by omega)
        have : v / b.span * b.span = b.span * (v / b.span) := by ring
        omega
    subst this
    simp only [crossed]
    rw [if_pos h2]
  · intro h
    simp only [crossed]
    rw [if_neg]
    have := h (v / b.span + 1) (by omega)
    omega

/-- The next time of a schedule: on the schedule, on the time scale, after `v` by at most one period (R173, R174). -/
theorem nextAfter_spec {period : Nat} {phase : Int} {v : Nat} (hp : 0 < period) (hd : period ∣ scaleU) :
    nextAfter period phase v < scaleU ∧ ((nextAfter period phase v : Int) - phase) % period = 0 ∧
    ∃ k : Nat, 0 < k ∧ k ≤ period ∧ nextAfter period phase v = (v + k) % scaleU := by
  have hpi : (0 : Int) < period := by omega
  have h0 := Int.emod_nonneg ((v : Int) - phase) (show (period : Int) ≠ 0 by omega)
  have h1 := Int.emod_lt_of_pos ((v : Int) - phase) hpi
  have hs : 0 < scaleU := by decide
  refine ⟨Nat.mod_lt _ hs, ?_, _, ?_, ?_, rfl⟩
  · obtain ⟨q, hq⟩ := hd
    have he := Int.emod_add_mul_ediv ((v : Int) - phase) period
    have hn := Nat.mod_add_div (v + (period - ((v : Int) - phase) % period).toNat) scaleU
    apply Int.emod_eq_zero_of_dvd
    refine ⟨1 + ((v : Int) - phase) / period - q * ((v + (period - ((v : Int) - phase) % period).toNat) / scaleU : Nat), ?_⟩
    have hc : ((v + (period - ((v : Int) - phase) % period).toNat : Nat) : Int) = v + (period - ((v : Int) - phase) % period) := by
      push_cast; omega
    have hn' : ((nextAfter period phase v : Nat) : Int) = (v + (period - ((v : Int) - phase) % period))
        - scaleU * ((v + (period - ((v : Int) - phase) % period).toNat) / scaleU : Nat) := by
      rw [← hc, nextAfter]
      have : ((v + (period - ((v : Int) - phase) % period).toNat : Nat) : Int)
        = ((v + (period - ((v : Int) - phase) % period).toNat) % scaleU : Nat)
          + scaleU * ((v + (period - ((v : Int) - phase) % period).toNat) / scaleU : Nat) := by exact_mod_cast hn.symm
      omega
    rw [hn', show (scaleU : Int) = period * q by exact_mod_cast hq]
    linear_combination (-1 : Int) * he
  · omega
  · omega

/-- The next time of a schedule is the first after `v` (R173, R174, R179). -/
theorem nextAfter_first {period : Nat} {phase : Int} {v : Nat} (hp : 0 < period) (hd : period ∣ scaleU)
    (hl : period < scaleU) : FirstAfter period phase v (nextAfter period phase v) := by
  obtain ⟨h1, h2, k, h3, h4, h5⟩ := nextAfter_spec (phase := phase) (v := v) hp hd
  have : ((nextAfter period phase v : Int) - v) % scaleU = k := by
    rw [h5]
    push_cast
    rw [Int.sub_eq_add_neg, Int.emod_add_emod, show (v : Int) + k + -v = k by ring]
    exact Int.emod_eq_of_lt (by omega) (by omega)
  exact ⟨h1, h2, by omega, by omega⟩

/-- The next edge of a frequency output is the first multiple of its half-period after `v` (R175, R179). -/
theorem foutAfter_first {h : Nat} (v : Nat) (hh : 0 < h) : FirstMultiple (h * nsU) v (foutAfter h v) := by
  have hs : 0 < h * nsU := Nat.mul_pos hh (by decide)
  have hd := Nat.div_add_mod v (h * nsU)
  have hm := Nat.mod_lt v hs
  have he : (v / (h * nsU) + 1) * (h * nsU) = h * nsU * (v / (h * nsU)) + h * nsU := by ring
  exact ⟨(v / (h * nsU) + 1) * (h * nsU), by omega, by omega, Nat.mul_mod_left .., rfl⟩

/-- A value in sixteenths as a timestamp: 0 below zero time, and on the circle of the time scale above it (R45, R46, R48). -/
theorem Stamp.of16_spec (v : Int) :
    (v < 0 → Stamp.of16 v = ⟨0, 0⟩) ∧
    (0 ≤ v → (Stamp.of16 v).sec < 281474976710656 ∧ (Stamp.of16 v).sub < 16000000000 ∧
      (Stamp.of16 v).value16 = v % (281474976710656 * 16000000000)) := by
  constructor
  · intro h
    simp [Stamp.of16, h]
  · intro h
    unfold Stamp.of16 Stamp.value16
    rw [if_neg (by omega)]
    simp only [scale16]
    omega

end Sys2Proof.Machine
end

