-- ==== Sys2Proof/Laws/Wires.lean ====
section
/-! SUPPORT. What the wires carry: the host interface's, sampled and grouped into bytes (R213, R214), and the cluster
line's bits and its delimiter (R20, R31). -/

namespace Sys2Proof

/-- Nothing is sampled while select is high (R213). -/
theorem spiSampled_deselected {ws : List SpiWires} (h : ∀ w ∈ ws, w.select = true) (c : Bool) : spiSampled c ws = [] := by
  induction ws generalizing c with
  | nil => rfl
  | cons w ws ih => simp [spiSampled, h w (by simp), ih (fun v hv => h v (by simp [hv]))]

/-- Each bit set up on a low clock and held over its rise is sampled once, in order (R213, clock mode 0). -/
theorem spiSampled_clocked (bits : List Bool) {rest : List SpiWires} (h : ∀ w ∈ rest, w.select = true) (c : Bool) :
    spiSampled c ((bits.flatMap fun b => [(⟨false, false, b, true⟩ : SpiWires), ⟨false, true, b, true⟩]) ++ rest) = bits := by
  induction bits generalizing c with
  | nil => exact spiSampled_deselected h c
  | cons b bs ih => simp [spiSampled, ih true]

/-- No transaction is cut short once select is high (R211). -/
theorem spiCutShort_deselected {ws : List SpiWires} (h : ∀ w ∈ ws, w.select = true) : spiCutShort ws = false := by
  cases ws with
  | nil => rfl
  | cons w ws => simp [spiCutShort, h w (by simp)]

/-- A transaction in which RESET stays high runs to its end (R211). -/
theorem spiCutShort_clocked (bits : List Bool) {rest : List SpiWires} (h : ∀ w ∈ rest, w.select = true) :
    spiCutShort ((bits.flatMap fun b => [(⟨false, false, b, true⟩ : SpiWires), ⟨false, true, b, true⟩]) ++ rest) = false := by
  induction bits with
  | nil => exact spiCutShort_deselected h
  | cons b bs ih => simpa [spiCutShort] using ih

/-- A low level of RESET while select is low cuts the transaction short (R211, R213). -/
theorem spiCutShort_low {before : List SpiWires} {w : SpiWires} (h : ∀ v ∈ w :: before, v.select = false)
    (hr : w.reset = false) (after : List SpiWires) : spiCutShort (before ++ w :: after) = true := by
  induction before with
  | nil => simp [spiCutShort, h w (by simp), hr]
  | cons v vs ih =>
    simp [spiCutShort, h v (by simp), ih (fun u hu => h u (by simp only [List.mem_cons] at hu ⊢; tauto))]

/-- With no bits left no level is shown. -/
@[simp] theorem spiDataOutLevels_nil (c : Bool) (ws : List SpiWires) :
    spiDataOutLevels c [] ws = ws.map fun _ => none := by
  induction ws generalizing c with
  | nil => rfl
  | cons w ws ih => simp [spiDataOutLevels, ih]

/-- From a low level of RESET on data out shows nothing (R211). -/
theorem spiDataOutLevels_reset (c : Bool) (bits : List Bool) {w : SpiWires} (h : w.reset = false) (ws : List SpiWires) :
    spiDataOutLevels c bits (w :: ws) = none :: ws.map fun _ => none := by simp [spiDataOutLevels, h]

/-- No level is shown while select is high (R213; log 22). -/
theorem spiDataOutLevels_deselected {ws : List SpiWires} (h : ∀ w ∈ ws, w.select = true) (c : Bool) (bits : List Bool) :
    spiDataOutLevels c bits ws = ws.map fun _ => none := by
  induction ws generalizing c bits with
  | nil => rfl
  | cons w ws ih =>
    rw [spiDataOutLevels, ih fun v hv => h v (by simp [hv])]
    simp [h w (by simp)]

/-- After a rise, the next bit stands from the fall over the rise that follows it, bit by bit (R213, clock mode 0). -/
theorem spiDataOutLevels_high (b : Bool) (bits ins : List Bool) (h : ins.length = bits.length) :
    spiDataOutLevels true (b :: bits) (ins.flatMap fun i => [⟨false, false, i, true⟩, ⟨false, true, i, true⟩]) =
      bits.flatMap fun b => [some b, some b] := by
  induction ins generalizing b bits with
  | nil => rw [List.length_eq_zero_iff.mp h.symm]; rfl
  | cons i is ih =>
    obtain ⟨d, ds, rfl⟩ := List.exists_cons_of_length_eq_add_one h.symm
    simpa [spiDataOutLevels] using ih d ds (by simpa using h)

/-- Each bit stands over the rise at which the host samples it, the first from the fall of select (R213, clock mode 0). -/
theorem spiDataOutLevels_clocked (bits ins : List Bool) (h : ins.length = bits.length) :
    spiDataOutLevels false bits (ins.flatMap fun i => [⟨false, false, i, true⟩, ⟨false, true, i, true⟩]) =
      bits.flatMap fun b => [some b, some b] := by
  cases ins with
  | nil => rw [List.length_eq_zero_iff.mp h.symm]; rfl
  | cons i is =>
    obtain ⟨b, bs, rfl⟩ := List.exists_cons_of_length_eq_add_one h.symm
    simpa [spiDataOutLevels] using spiDataOutLevels_high b bs is (by simpa using h)

/-- Eight bits to a byte (R213). -/
@[simp] theorem spiDataOut_length (bytes : List Byte) : (spiDataOut bytes).length = 8 * bytes.length := by
  induction bytes with
  | nil => rfl
  | cons b bs ih => simp only [spiDataOut, List.flatMap_cons, List.length_append] at *; simp [ih]; omega

/-! ### The RESET pin (R211, R213) -/

/-- Levels that repeat the level before them have no edge. -/
theorem resetEdges_replicate (left : List Byte) (level : Bool) (n : Nat) (rest : List Bool) :
    resetEdges left level (List.replicate n level ++ rest) = resetEdges left level rest := by
  induction n with
  | zero => rfl
  | succ n ih => cases level <;> simpa [List.replicate_succ, resetEdges] using ih

/-- A low level after a high one is a fall, however long it lasts. -/
theorem resetEdges_low (left : List Byte) {n : Nat} (h : 0 < n) (rest : List Bool) :
    resetEdges left true (List.replicate n false ++ rest) = .falls left :: resetEdges left false rest := by
  obtain ⟨n, rfl⟩ := Nat.exists_eq_succ_of_ne_zero h.ne'
  simpa [List.replicate_succ, resetEdges] using resetEdges_replicate left false n rest

/-- A high level after a low one is a rise. -/
theorem resetEdges_high (left : List Byte) {n : Nat} (h : 0 < n) (rest : List Bool) :
    resetEdges left false (List.replicate n true ++ rest) = .rises :: resetEdges left true rest := by
  obtain ⟨n, rfl⟩ := Nat.exists_eq_succ_of_ne_zero h.ne'
  simpa [List.replicate_succ, resetEdges] using resetEdges_replicate left true n rest

/-! ### Bits and bytes (R213, R214) -/

/-- Fewer than eight bits make no byte (R214). -/
theorem spiBytes_short {bits : List Bool} (h : bits.length < 8) : spiBytes bits = [] := by
  match bits, h with
  | [], _ | [_], _ | [_, _], _ | [_, _, _], _ | [_, _, _, _], _ | [_, _, _, _, _], _ | [_, _, _, _, _, _], _
  | [_, _, _, _, _, _, _], _ => rfl

/-- The value of a byte's bits, most significant first, is the byte (R213). -/
theorem ofNat_bitsValue (b : Byte) :
    BitVec.ofNat 8 (bitsValue [b.getLsbD 7, b.getLsbD 6, b.getLsbD 5, b.getLsbD 4, b.getLsbD 3, b.getLsbD 2, b.getLsbD 1,
      b.getLsbD 0]) = b := by
  revert b
  decide +kernel

/-- Eight bits, most significant first, make their byte (R213). -/
theorem spiBytes_cons (b : Byte) (rest : List Bool) :
    spiBytes ([b.getLsbD 7, b.getLsbD 6, b.getLsbD 5, b.getLsbD 4, b.getLsbD 3, b.getLsbD 2, b.getLsbD 1, b.getLsbD 0] ++
      rest) = b :: spiBytes rest := by
  simp only [List.cons_append, List.nil_append, spiBytes, ofNat_bitsValue]

end Sys2Proof

namespace Sys2Proof.Machine

/-- Fewer than eight bits make no byte of the line (R32). -/
theorem lineBytes_short {bits : List Bool} (h : bits.length < 8) : lineBytes bits = [] := by
  match bits, h with
  | [], _ | [_], _ | [_, _], _ | [_, _, _], _ | [_, _, _, _], _ | [_, _, _, _, _], _ | [_, _, _, _, _, _], _
  | [_, _, _, _, _, _, _], _ => rfl

/-- A byte's bits and what follows them (R20). -/
theorem lineBits_cons (b : Byte) (bytes : List Byte) :
    lineBits (b :: bytes) = [b.getLsbD 0, b.getLsbD 1, b.getLsbD 2, b.getLsbD 3, b.getLsbD 4, b.getLsbD 5, b.getLsbD 6,
      b.getLsbD 7] ++ lineBits bytes := rfl

/-- Bytes take eight bits each. -/
@[simp] theorem lineBits_length (bytes : List Byte) : (lineBits bytes).length = 8 * bytes.length := by
  induction bytes with
  | nil => rfl
  | cons b bs ih => simp [lineBits_cons, ih]; omega

/-- A byte's bits packed are the byte (R20). -/
theorem ofNat_packBits (b : Byte) :
    BitVec.ofNat 8 (packBits [b.getLsbD 0, b.getLsbD 1, b.getLsbD 2, b.getLsbD 3, b.getLsbD 4, b.getLsbD 5, b.getLsbD 6,
      b.getLsbD 7]) = b := by
  revert b
  decide +kernel

/-- Bytes sent are read back, least significant bit first, and a partial byte after them makes none (R20, R32). -/
theorem lineBytes_lineBits (bytes : List Byte) {tail : List Bool} (h : tail.length < 8) :
    lineBytes (lineBits bytes ++ tail) = bytes := by
  induction bytes with
  | nil => exact lineBytes_short h
  | cons b bs ih => simp only [lineBits_cons, List.cons_append, List.nil_append, lineBytes, ih, ofNat_packBits]

/-- A receiver that catches at least 16 bits of the preamble finds the delimiter where it ends (R31). -/
theorem afterDelimiter_preamble {k : Nat} (h : k ≤ 48) (rest : List Bool) :
    afterDelimiter ((lineBits (List.replicate 8 0x55 ++ [0x9D])).drop k ++ rest) = some rest := by
  interval_cases k <;> rfl

end Sys2Proof.Machine
end

