-- ==== Sys2Proof/WellFormed.lean ====
section
/-! DEFINITION. Which commands are well formed: the operand could come from outside the part. -/

namespace Sys2Proof

/-- A command whose operands the outside could supply: an image is the 84 bytes of R208; what an erase or a cut leaves
covers at most a sector of 1,024 bytes and what a program leaves at most a slot of 32 (08, section 8.3); a message
stream is not empty (R90); BAD_COMMAND is a code above 0B hexadecimal (R215). -/
def Instr.wf : Instr → Bool
  | .configLoadComplete image => image.length == 84
  | .pinReset (.pulse left) | .pinReset (.falls left) | .powerLoss left | .eraseEnd left => decide (left.length ≤ 1024)
  | .programEnd left => decide (left.length ≤ 32)
  | .refMessage bytes => !bytes.isEmpty
  | .badCommand _ code _ => decide (0x0B < code.toNat)
  | _ => true

end Sys2Proof
end

