-- ==== Sys2Proof/Tests/Slice0.lean ====
section
/-! SUPPORT. Tests: ill-formed commands refused, the worked cases of the spec, and for every statement with hypotheses a
state and operands that meet them, each clause at a boundary of its range. -/

namespace Sys2Proof.Tests

open Sys2Proof.Machine

/-! ### Small states -/

/-- The state a command leaves. -/
def after (c : Instr) (s : State) : State :=
  match exec c s with
  | .next t => t
  | .fault _ => s
  | .refused _ => s

/-- A station of address 12 whose load completed with GOOD. -/
def station : State :=
  { State.reset with mp := { State.reset.mp with status := .good, params := { Params.default with address := 12 } } }

/-- The station with its line controller in an access state. -/
def onLine (a : Access) : State := { station with lc := { station.lc with access := a } }

/-- The station with a status published and a permit. -/
def tracking : State :=
  { station with
    du := { station.du with pub := ⟨.track, .traceable, 2, 198, [3, 18, 0], false, false⟩ }
    ou := { station.ou with txok := true, holdoff := 5 } }

/-- A header advertised in TRACK, TRACEABLE. -/
def advert (rank bound : Nat) (sources : List Nat) : Advertised :=
  ⟨.track, .traceable, rank, bound, false, false, sources, false, false, 0⟩

/-- An entry of station `addr`. -/
def peer (addr : Nat) (st : EntryState) : Entry := .fresh addr st (advert 1 50 [0, 0, 0]) 7 ⟨0, 0⟩

/-- The station with one entry, in slot 3. -/
def withPeer (e : Entry) : State := station.setSlot 3 (some e)

/-- The station with every slot taken by a LOCKED_OUT entry. -/
def fullTable : State :=
  { station with pt := { station.pt with slots := (List.range 24).map fun i => some (peer (i + 20) .lockedOut) } }

/-- A beacon of station 3 reporting nothing. -/
def beacon3 : Beacon := ⟨3, 8, advert 1 50 [0, 0, 0], ⟨5, 160⟩, []⟩

/-- The station collecting a frame whose delimiter was captured at 5 s. -/
def collecting : State :=
  { station with
    tb := { station.tb with rx := some ⟨⟨5, 0⟩, 0⟩ }
    lc := { station.lc with carrier := true, idle := false, receiver := .collecting } }

/-- The transmission record of a frame on the line, its delimiter driven when `stamp` is given. -/
def record (stamp : Option Stamp) : TxRecord := ⟨12, 0, advert 2 198 [0, 0, 0], [], stamp⟩

/-- A record of the history store. -/
def hist : HistRecord := ⟨1, 2502400, 183, 64, 20004⟩

/-- An image of zeros but for its station address, with its CRC. -/
def image (addr : Byte) : List Byte :=
  let bytes := addr :: List.replicate 79 0
  bytes ++ be 4 (crc32 bytes)

/-- The station with a status held back: TRACK, with the hold-off one short of the permit. -/
def lateStatus : State :=
  { station with
    du := { station.du with unpublished := some ⟨.track, .traceable, 2, 1100, [3, 18, 0], false, false⟩ }
    ou := { station.ou with holdoff := 4 } }

/-! ### Ill-formed commands are refused -/

theorem test_wf_image_of_84_bytes : (Instr.configLoadComplete (List.replicate 83 0)).wf = false := by decide
theorem test_wf_pin_reset_covers_a_sector : (Instr.pinReset (.falls (List.replicate 1025 0))).wf = false := by decide +kernel
theorem test_wf_power_loss_covers_a_sector : (Instr.powerLoss (List.replicate 1025 0)).wf = false := by decide +kernel
theorem test_wf_erase_covers_a_sector : (Instr.eraseEnd (List.replicate 1025 0)).wf = false := by decide +kernel
theorem test_wf_program_covers_a_slot : (Instr.programEnd (List.replicate 33 0)).wf = false := by decide
theorem test_wf_message_has_bytes : (Instr.refMessage []).wf = false := by decide
theorem test_wf_bad_command_code : (Instr.badCommand false 0x0B []).wf = false := by decide
theorem test_wf_bad_command_from_0C : (Instr.badCommand false 0x0C []).wf = true := by decide

/-! ### Checks (R21, R159: the check values of the two codes) -/

theorem test_crc32_check_value :
    crc32 [0x31, 0x32, 0x33, 0x34, 0x35, 0x36, 0x37, 0x38, 0x39] = 0xCBF43926 := by decide +kernel

theorem test_crc16_check_value :
    crc16 [0x31, 0x32, 0x33, 0x34, 0x35, 0x36, 0x37, 0x38, 0x39] = 0x29B1 := by decide +kernel

/-! ### The queue -/

theorem witness_frontCommandRuns :
    { station with pending := [.tick, .epoch] }.pending = Instr.tick :: [.epoch] ∧ station.pending = [] := by decide

/-- The station with its RESET pin held low. -/
def pinLow : State := after (.pinReset (.falls [])) station

theorem witness_heldPartIgnoresEvents :
    pinLow.held = ⟨false, true⟩ ∧ (after (.powerLoss []) station).held = ⟨true, false⟩ ∧
    (after (.powerLoss []) pinLow).held = ⟨true, true⟩ ∧ (∀ left, Instr.tick ≠ .powerLoss left) ∧ Instr.tick ≠ .powerOn ∧
    (∀ pin, Instr.tick ≠ .pinReset pin) ∧ (after (.powerLoss []) station).held.pin = false := by
  refine ⟨by decide, by decide, by decide, nofun, nofun, nofun, by decide⟩

theorem witness_heldPartIgnoresEvents_at_reset :
    pinLow.AtResetWhileHeld ∧ step { pinLow with pending := [.tick] } = .next pinLow :=
  ⟨fun _ => by decide, rfl⟩

theorem test_held_pin_ignores_tick_and_commands :
    after .tick pinLow = pinLow ∧ after (.readStatus false []) pinLow = pinLow ∧ pinLow.dataOut = none := by decide

/-- The supply comes back with the pin still low: the pin holds the part, and its rise starts it. -/
theorem test_pin_outlasts_power_on :
    let s := after .powerOn (after (.powerLoss []) pinLow)
    s.held = ⟨false, true⟩ ∧ (after (.pinReset .rises) s).held = .nothing ∧
    (after (.pinReset .rises) s).mp.cause = .pin := by decide

theorem witness_eventsWaitForOccasion_idle_part :
    let s := station
    s.tb.epochs = [] ∧ s.tb.minutes = [] ∧ s.tb.intervals = [] ∧ s.tb.orders = [] ∧ s.du.snapshot = none ∧
    s.mp.status ≠ .notLoaded ∧ s.hs.op = .idle ∧ s.ou.pps.next = none ∧ s.ou.frame.next = none ∧ s.mp.buffer = .empty ∧
    s.lc.carrier = false ∧ s.lc.receiver ≠ .collecting ∧ s.lc.nextInstant = none ∧ s.lc.access ≠ .send ∧
    s.lc.access ≠ .jam ∧ s.lc.access ≠ .backoff ∧ s.ri.active = false ∧ s.ri.message = none ∧ s.ri.closed = false ∧
    s.ri.deadline = none := by decide

theorem witness_eventsWaitForOccasion_busy_part :
    let unreached := { onLine .wait with lc := { (onLine .wait).lc with nextInstant := some ⟨5, false⟩ } }
    collecting.lc.carrier = true ∧ (onLine .send).lc.access = .send ∧ (onLine .jam).lc.access = .jam ∧
    station.lc.receiver ≠ .searching ∧ afterDelimiter (lineBits [0x55, 0x9D]) ≠ some [] ∧
    (List.replicate 183 (0 : Byte)).length ≤ 183 ∧
    (after .startScanComplete station).hs.scanning = false ∧ station.tb.before = none ∧
    unreached.lc.nextInstant = some ⟨5, false⟩ ∧ after .nextInstantReached unreached = unreached := by decide +kernel

/-! ### Starting afresh -/

theorem witness_resetsStartAfresh_idle : station.held = .nothing ∧ station.hs.area.wf = true ∧ station.hs.op = .idle ∧ pinLow.held = ⟨false, true⟩ ∧
    after (.pinReset .rises) pinLow = after (.pinReset (.pulse [])) station := by
  decide

/-- A program of slot 1 of sector 2 cut short, in an area that lists a byte of the slot and one on either side. -/
def cutProgram : State :=
  { station with hs := { station.hs with op := .program hist false 2 1 9, area := [(2079, 1), (2080, 0x0F), (2112, 3)] } }

theorem witness_resetsStartAfresh_program :
    cutProgram.held = .nothing ∧ cutProgram.hs.area.wf = true ∧ cutProgram.hs.op = .program hist false 2 1 9 ∧
    2079 < slotBase 2 1 ∧ slotBase 2 1 + 32 ≤ 2112 ∧
    (after (.pinReset (.pulse [])) cutProgram).hs.area = cutProgram.hs.area := by decide +kernel

/-- A program cut short with its fields whole and its marker programmed, and one cut with a field bit left to clear. -/
theorem witness_resetsStartAfresh_marker :
    let s := { cutProgram with hs := { cutProgram.hs with area := [] } }
    let cut := fun left : List Byte => (after (.pinReset (.pulse left)) s).hs.area
    (cut hist.slot).read (slotBase 2 1 + 31) ≠ s.hs.area.read (slotBase 2 1 + 31) ∧
    (cut hist.slot).bytes (slotBase 2 1) 32 = hist.slot ∧
    (cut (0xFF :: hist.slot.drop 1)).read (slotBase 2 1 + 31) = 0xFF := by decide +kernel

theorem witness_resetsStartAfresh_erase :
    let s := { cutProgram with hs := { cutProgram.hs with op := .erase hist false 3 9 } }
    s.held = .nothing ∧ s.hs.area.wf = true ∧ s.hs.op = .erase hist false 3 9 ∧ 2112 < slotBase 3 0 ∧
    slotBase 3 0 + 1024 ≤ 4096 := by decide

/-- The CRC of eighty zero bytes, twenty at a time. -/
theorem crc32_of_eighty_zeros : crc32 (List.replicate 80 0) = 2384664806 := by
  have split : List.replicate 80 (0 : Byte) =
      List.replicate 20 0 ++ (List.replicate 20 0 ++ (List.replicate 20 0 ++ List.replicate 20 0)) := by decide
  have h1 : (List.replicate 20 0).foldl crc32Byte 4294967295#32 = 4029310066#32 := by decide +kernel
  have h2 : (List.replicate 20 0).foldl crc32Byte 4029310066#32 = 370393678#32 := by decide +kernel
  have h3 : (List.replicate 20 0).foldl crc32Byte 370393678#32 = 4226643703#32 := by decide +kernel
  have h4 : (List.replicate 20 0).foldl crc32Byte 4226643703#32 = 1910302489#32 := by decide +kernel
  rw [crc32, split, List.foldl_append, List.foldl_append, List.foldl_append, h1, h2, h3, h4]
  decide

theorem witness_imageLoadHandsValues_wrong_crc :
    let zeros : List Byte := List.replicate 84 0
    State.reset.held = .nothing ∧ State.reset.mp.status = .notLoaded ∧ zeros.length = 84 ∧
    crc32 (zeros.take 80) ≠ ofBE (zeros.drop 80) := by
  refine ⟨rfl, rfl, rfl, ?_⟩
  rw [show (List.replicate 84 (0 : Byte)).take 80 = List.replicate 80 0 from by decide, crc32_of_eighty_zeros]
  decide

theorem ofBE_be4 {v : Nat} (h : v < 4294967296) : ofBE (be 4 v) = v := by
  simp only [be, ofBE, List.foldl_cons, List.foldl_nil, BitVec.toNat_ofNat]
  omega

/-- The image of any address carries its CRC. -/
theorem witness_imageLoadHandsValues_good (addr : Byte) :
    (image addr).length = 84 ∧ crc32 ((image addr).take 80) = ofBE ((image addr).drop 80) ∧ (image addr).getD 0 0 = addr := by
  have h : (addr :: List.replicate 79 (0 : Byte)).length = 80 := by simp
  refine ⟨by simp [image, be], ?_, rfl⟩
  rw [image, List.take_left' h, List.drop_left' h, ofBE_be4 (BitVec.isLt _)]

theorem witness_imageLoadHandsValues_addresses :
    ((image 0).getD 0 0).toNat = 0 ∧ 250 < ((image 251).getD 0 0).toNat ∧ 1 ≤ ((image 1).getD 0 0).toNat ∧
    ((image 250).getD 0 0).toNat ≤ 250 := by decide

/-- At the load an ACTIVE STANDING record's timer starts again, and its class stands; a record whose class changes takes
the time (R194, R192). -/
theorem test_record_at_load :
    let r : AlarmRecord := ⟨.standing, true, .active, 3, some ⟨1, 0⟩, ⟨2, 0⟩, 77⟩
    r.load .standing ⟨9, 5⟩ = { r with timer := 0 } ∧
    r.load .urgent ⟨9, 5⟩ = { r with effective := .urgent, changed := ⟨9, 5⟩ } := by decide

/-- Two discards before the load stay below the default T_err of 20 and reach a loaded T_err of 1 (R35). -/
theorem test_line_errors_judged_at_load :
    let s := { State.reset with lc := { State.reset.lc with errNow := 2 } }
    let t := s.loadGood (1 :: List.replicate 83 0)
    s.conds.lineErrors = false ∧ t.mp.params.tErr = 1 ∧ t.conds.lineErrors = true ∧
    t.au.records.lineErrors.state = .active ∧ t.au.records.lineErrors.raises = 1 ∧ t.ou.txok = false := by decide +kernel

theorem test_image_load_starts_schedules :
    let o := Outputs.started Params.default .free (secU - 1)
    o.pps.next = some secU ∧ o.frame.next = some secU ∧ o.frame.number = 100 ∧ o.fout0.next = some secU ∧
    o.fout0.rising = true ∧ o.pps.squelch = .squelched ∧ (Outputs.started Params.default .track 0).pps.squelch = .resuming := by
  decide

/-- An image with every field at its least value, but for the policies and the permit-gating selection given. -/
def leastImage (policies gating : List Byte) : List Byte :=
  [1, 0, 2, 1, 0, 1, 0, 0, 0, 0, 0, 0, 0, 4, 0, 0, 0, 100, 0, 10, 2, 1, 0, 100, 0, 0, 0, 0, 0, 0, 0] ++
  [255, 254, 121, 96, 0, 0, 0, 0, 0, 100, 0, 50, 1, 4, 226, 50, 155, 0, 0, 0, 3, 232, 0, 0, 0, 0, 0] ++
  [0, 0, 3, 232, 0, 0, 0, 4, 0, 0, 0, 4] ++ policies ++ [1, 0, 0, 0, 0] ++ gating ++ [0, 0, 0, 0, 0]

theorem test_image_adjusted :
    (leastImage [0, 0] [0, 0]).length = 84 ∧ imageAdjusted (leastImage [2, 170] [199, 247]) = false ∧
    imageAdjusted (leastImage [3, 0] [0, 0]) = true ∧ imageAdjusted (leastImage [0, 0] [0, 8]) = true ∧
    imageAdjusted (leastImage [0, 0] [32, 0]) = true := by decide

theorem witness_imageFieldsClamped : (image 1).length = 84 := (witness_imageLoadHandsValues_good 1).1

theorem test_image_fields_clamped :
    let p := imageParams (1 :: List.replicate 83 0)
    p.k = 2 ∧ p.escalation = 0 ∧ p.w = 100 ∧ p.polPps = .always ∧ p.stat1 = .stateTrack ∧ imageAdjusted (1 :: List.replicate 83 0) = true := by decide

/-! ### The time base -/

/-- The worked tick of 01: across a minute, with the increment of F of +2,526,597 ppt. -/
def atMinute : State := { station with tb := { station.tb with counter := ⟨1019, 999999995, 4294900000⟩, increment := 34359825181 } }

theorem witness_tickAdvancesAndMarks :
    atMinute.held = .nothing ∧ atMinute.tb.counter.sec < 281474976710656 ∧ atMinute.tb.counter.ns < 1000000000 ∧
    atMinute.tb.counter.frac < 4294967296 ∧ 0 < atMinute.tb.increment ∧ atMinute.tb.increment ≤ 34363174342 ∧
    secU ≤ atMinute.tb.counter.value % secU + atMinute.tb.increment ∧
    atMinute.tb.counter.value < 4080 * atMinute.tb.interval.span ∧
    4080 * atMinute.tb.interval.span ≤ atMinute.tb.counter.value + atMinute.tb.increment ∧
    station.tb.counter.value % secU + station.tb.increment < secU := by decide

theorem test_tick_across_a_minute :
    (after .tick atMinute).tb.epochs = [1020] ∧ (after .tick atMinute).tb.minutes = [1020] ∧
    (after .tick atMinute).tb.intervals = [1020 * secU] := by decide

theorem test_tick_at_the_top_of_the_scale :
    (Counter.tick ⟨281474976710655, 999999999, 0⟩ 34359738368) = ⟨0, 7, 0⟩ := by decide

theorem witness_tickCountsElapsedTime :
    (after .tick cutProgram).hs.op = .program hist false 2 1 10 ∧ station.hs.op = .idle ∧ station.held = .nothing ∧
    station.du.unpublished = none ∧ lateStatus.held = .nothing ∧
    lateStatus.du.unpublished = some ⟨.track, .traceable, 2, 1100, [3, 18, 0], false, false⟩ ∧
    (after .tick lateStatus).ou.txok = true ∧ (after .tick lateStatus).du.unpublished = none := by decide

/-- An instant passed by a step is reached at the next tick, and one ahead of the counter is not. -/
theorem test_instant_reached_at_tick :
    let at' := fun n => { onLine .wait with
      tb := { station.tb with counter := ⟨0, 100, 0⟩ }, lc := { (onLine .wait).lc with nextInstant := some ⟨n, false⟩ } }
    (after .tick (at' 0)).lc.nextInstant = some ⟨0, true⟩ ∧
    (after .tick (at' (108 * nsU))).lc.nextInstant = some ⟨108 * nsU, true⟩ ∧
    (after .tick (at' (108 * nsU + 1))).lc.nextInstant = some ⟨108 * nsU + 1, false⟩ := by decide

theorem witness_incrementFormedFromF :
    (-100000000 ≤ (-100000000 : Int) ∧ (-100000000 : Int) ≤ 100000000) ∧
    ((100000000 : Int) ≤ 100000000 ∧ (0 : Int) ≤ 100000000 ∧ (-100000000 : Int) ≤ 0) := by decide

/-- The worked backward step of 01: 3.5 ms at 2,000.0013 s. -/
def stepping : State :=
  { station with tb := { station.tb with counter := ⟨2000, 1300000, 700000⟩, orders := [-56000000] } }

theorem witness_stepMovesCounterAndNotifies :
    stepping.held = .nothing ∧ stepping.tb.orders = -56000000 :: [] ∧ stepping.tb.counter.sec < 281474976710656 ∧
    stepping.tb.counter.ns < 1000000000 ∧ stepping.tb.counter.frac < 4294967296 ∧ 0 < stepping.mp.params.h0 ∧
    0 < stepping.mp.params.h1 ∧ stepping.ou.pps.next = none ∧
    (after .step stepping).tb.counter = ⟨1999, 997800000, 700000⟩ ∧ (after .step stepping).tb.stepCtr = 1 ∧
    (after .step stepping).tb.before = some ⟨stepping.tb.counter, 0⟩ ∧
    (after .step { stepping with ou := .started Params.default .free 0 }).ou.pps.next = some (2000 * secU) := by decide

theorem test_step_clamped_at_zero_time :
    Counter.step ⟨1, 1500000, 0⟩ (-24000000000) = ⟨0, 0, 0⟩ ∧
    Counter.applied ⟨1, 1500000, 0⟩ ⟨0, 0, 0⟩ = -16024000000 := by decide

/-- The station at the epoch of 8 s with a pulse of the old offset due there and a PPS shadow waiting. -/
def due8 : State :=
  { station with
    tb := { station.tb with epochs := [8], counter := ⟨8, 0, 0⟩ }
    ou := { station.ou with ppsShadow := some (-1), pps := ⟨0, some (8 * secU), none, .resuming⟩ } }

theorem witness_epochTakesSnapshot :
    let s := { station with tb := { station.tb with epochs := [8] } }
    let t := { s with ou := { s.ou with ppsShadow := some 25 } }
    let late := { lateStatus with tb := s.tb }
    s.held = .nothing ∧ s.tb.epochs = 8 :: [] ∧ s.mp.params.gatingSet.get .permitLost = false ∧ s.ou.ppsShadow = none ∧ t.ou.ppsShadow = some 25 ∧ s.du.unpublished = none ∧
    late.held = .nothing ∧ late.tb.epochs = 8 :: [] ∧ late.du.unpublished.isSome = true ∧
    (after .epoch late).du.snapshot.map (fun n => n.prev.state) = some .track ∧
    (after .epoch t).ou.pps.next = some (8 * secU + 25 * nsU) ∧ due8.ou.ppsShadow = some (-1) ∧
    due8.ou.pps.next = some (8 * secU) ∧ ((8 * secU : Nat) - (8 * secU : Nat) : Int) % scaleU < (scaleU / 2 : Nat) ∧
    (after .epoch due8).ou.pps.squelch = .running ∧ (after .epoch due8).ou.pps.pulse.isSome = true ∧
    (after .epoch due8).ou.pps.next = some (9 * secU - nsU) ∧ (after .epoch s).du.snapshot.isSome = true := by decide

/-! ### The management port -/

theorem witness_commandsJudgedInOrder :
    let f := { station with mp := { station.mp with status := .fault } }
    State.reset.held = .nothing ∧ State.reset.mp.status = .notLoaded ∧ station.mp.status ≠ .notLoaded ∧
    11 < (0x0C : Byte).toNat ∧ f.mp.status = .fault ∧ (7 : Byte) ≠ 1 ∧ ([] : List Byte).length ≠ 1 ∧
    (after (.forceHold false []) f).mp.buffer = .preparing [5, 7, 0] ∧
    (after (.readAlarm false []) station).mp.buffer = .preparing [3, 3, 0] ∧
    (after (.badCommand false 0x0C []) f).mp.buffer = .preparing [2, 0x0C, 0] ∧
    (after (.ackAll false) f).mp.buffer = .preparing [5, 4, 0] ∧ (after (.ackAll true) station).mp.buffer = .empty ∧
    transaction true [0x0B, 1] = some (.readHistory true [1]) ∧ transaction false [0x0C] = some (.badCommand false 0x0C []) := by
  decide

/-- READ_STATUS clocked in most significant bit first, with three bits more, and a rise of the clock with select high. -/
theorem witness_commandsJudgedInOrder_wires :
    let bit := fun b => [(⟨false, false, b, true⟩ : SpiWires), ⟨false, true, b, true⟩]
    let code := [false, false, false, false, false, false, false, true]
    wireTransaction false ((code ++ [true, true, true]).flatMap bit ++ [⟨true, false, true, true⟩, ⟨true, true, true, true⟩]) =
      some (.readStatus false []) ∧
    wireTransaction false (code.flatMap bit ++ [⟨false, false, false, false⟩, ⟨true, false, false, true⟩]) = none ∧
    wireTransaction false (code.flatMap bit ++ [⟨true, false, false, false⟩]) = some (.readStatus false []) ∧
    spiDataOut [0x81] = [true, false, false, false, false, false, false, true] ∧
    resetEdges [] true [true, false, false, true, false, true, false] =
      [.falls [], .rises, .falls [], .rises, .falls []] := by decide

theorem witness_readsAnswerTheirRecords :
    station.held = .nothing ∧ station.mp.status ≠ .notLoaded ∧ station.du.pub.sources.length = 3 ∧
    station.mp.status = .good ∧ station.statusRecord.length = 38 ∧
    (station.alarmRecordBytes .refLoss).length = 29 ∧ (station.peerRecord 3 (peer 9 .new)).length = 47 ∧
    (peer 9 .new).adv.sources.length = 3 ∧ (station.au.records.get .refLoss).first = none ∧
    ((station.judge .refLoss true).au.records.get .refLoss).first = some ⟨0, 0⟩ ∧ station.hs.seed = none ∧
    { station.hs with seed := some ⟨hist, 3, 31⟩ }.seed = some ⟨hist, 3, 31⟩ := by decide

theorem witness_readsAnswerTheirRecords_slots :
    let h : History := { station.hs with area := [(2080, 0x0F), (3072, 0)] }
    let p := { h with op := .program hist false 2 1 9 }
    let e := { h with op := .erase hist false 3 9 }
    h.op = .idle ∧ (h.readSlot 2 1).head? = some 0x0F ∧ p.op = .program hist false 2 1 9 ∧
    p.readSlot 2 1 = List.replicate 32 0xFF ∧ (p.readSlot 3 0).head? = some 0 ∧ e.op = .erase hist false 3 9 ∧
    e.readSlot 3 0 = List.replicate 32 0xFF ∧ (e.readSlot 2 1).head? = some 0x0F := by decide +kernel

theorem test_read_peer_by_address :
    (after (.readPeer false [1, 9]) (withPeer (peer 9 .valid))).mp.buffer =
      .preparing ([1, 2, 47] ++ (withPeer (peer 9 .valid)).peerRecord 3 (peer 9 .valid)) ∧
    (after (.readPeer false [0, 23]) station).mp.buffer = .preparing [4, 2, 0] ∧
    (after (.readPeer false [0, 24]) station).mp.buffer = .preparing [3, 2, 0] := by decide

theorem test_read_history_slot_is_erased :
    (after (.readHistory false [1, 3, 31]) station).mp.buffer =
      .preparing ([1, 11, 49, 0, 0] ++ List.replicate 32 0xFF ++ [0, 0, 0, 0, 0, 0, 0, 0, 0, 0, 0, 0, 0, 0, 0]) := by decide +kernel

theorem witness_responseReadTakesAnswer :
    let s := { station with mp := { station.mp with buffer := .preparing [1, 10, 0] } }
    let t := after .responseReady s
    s.held = .nothing ∧ s.mp.buffer = .preparing [1, 10, 0] ∧ s.mp.buffer ≠ .ready [1, 10, 0] ∧
    t.mp.buffer = .ready [1, 10, 0] ∧ (after (.responseRead 3) t).mp.buffer = .empty ∧
    (after (.responseRead 2) t).mp.buffer = .ready [1, 10, 0] ∧ (after (.responseRead 2) s).mp.spiOut = [0, 0xFF] := by
  decide

/-- Data out changes as the clock falls, and stands while it rises (R213). -/
theorem witness_commandsJudgedInOrder_levels :
    spiDataOutLevels false [true, false] [⟨false, false, false, true⟩, ⟨false, true, false, true⟩,
      ⟨false, false, false, true⟩, ⟨true, false, false, true⟩] = [some true, some true, some false, none] ∧
    spiDataOutLevels false [true, false] [⟨false, false, false, true⟩, ⟨false, true, false, false⟩] = [some true, none] ∧
    (after (.responseRead 1) station).held = .nothing ∧
    (List.replicate 8 false).length = 8 * (after (.responseRead 1) station).mp.spiOut.length := by decide

theorem witness_holdRequestSetAndCleared :
    let m : Minute := ⟨5, 60⟩
    let s := { tracking with hs := { tracking.hs with ring := List.replicate 8 m } }
    let t := { tracking with hs := { tracking.hs with ring := List.replicate 7 m } }
    s.held = .nothing ∧ s.mp.status = .good ∧ s.du.pub.state = .track ∧ 8 ≤ s.hs.ring.length ∧
    t.hs.ring.length < 8 ∧ t.hs.seed = none ∧ station.du.pub.state = .free ∧
    (after (.forceHold false []) s).du.holdReq = true ∧ (after (.forceHold false []) t).mp.buffer = .preparing [5, 7, 0] := by
  decide

theorem witness_setOffsetWritesShadow :
    station.held = .nothing ∧ station.mp.status = .good ∧ ofBESigned [0x1D, 0xCD, 0x64, 0xFF] = 499999999 ∧
    ofBESigned [0xE2, 0x32, 0x9B, 0x00] = -500000000 ∧ ofBESigned [0x1D, 0xCD, 0x65, 0x00] = 500000000 ∧
    ofBESigned [0x00, 0x98, 0x96, 0x7F] < (station.mp.params.frameLen.ns : Int) ∧ 1 < (2 : Byte).toNat ∧
    (after (.setOffset false [0, 0x1D, 0xCD, 0x64, 0xFF]) station).ou.ppsShadow = some 499999999 ∧
    (after (.setOffset false [0, 0x1D, 0xCD, 0x65, 0x00]) station).ou.ppsShadow = none ∧
    (after (.setOffset false [1, 0x00, 0x98, 0x96, 0x7F]) station).ou.frameShadow = some 9999999 := by decide

theorem witness_restartStartsMeasurementAfresh :
    tracking.held = .nothing ∧ tracking.mp.status = .good ∧ (onLine .wait).lc.access = .wait ∧
    (onLine .send).lc.access = .send ∧ (after (.restart false []) tracking).ou.txok = false ∧
    (after (.restart false []) tracking).du.pub.state = .free ∧
    (after (.restart false []) (onLine .send)).lc.after = .listen ∧
    (after (.restart false []) (onLine .listen)).lc.listen = 3 ∧
    tracking.du.unpublished = none ∧ (onLine .send).du.unpublished = none ∧ (onLine .listen).du.unpublished = none := by
  decide

/-- The status held back reaches the output unit at the RESTART: PERMIT_LOST rises with it and falls with FREE (R106, R185). -/
theorem witness_restartStartsMeasurementAfresh_late :
    let s := { lateStatus with ou := .reset }
    let t := after (.restart false []) s
    s.held = .nothing ∧ s.mp.status = .good ∧
    s.du.unpublished = some ⟨.track, .traceable, 2, 1100, [3, 18, 0], false, false⟩ ∧
    t.du.unpublished = none ∧ t.du.pub.state = .free ∧ t.au.records.permitLost.raises = 1 ∧
    t.au.records.permitLost.state = .clearedUnacked ∧ t.conds.permitLost = false := by decide

theorem witness_lockoutAndRelease_entries :
    let s := withPeer (peer 250 .valid)
    let t := withPeer (peer 250 .lockedOut)
    s.held = .nothing ∧ s.mp.status = .good ∧ s.pt.slots.length = 24 ∧ (250 : Byte).toNat ≤ 250 ∧
    s.pt.slotOf (250 : Byte).toNat = some 3 ∧ s.pt.at 3 = some (peer 250 .valid) ∧
    s.pt.slotOf (1 : Byte).toNat = none ∧ s.pt.slots.findIdx? Option.isNone = some 0 ∧
    t.pt.at 3 = some (peer 250 .lockedOut) ∧
    (after (.releasePeer false [250]) t).pt.at 3 = some { peer 250 .lockedOut with state := .new } ∧
    (after (.releasePeer false [250]) s).mp.buffer = .preparing [5, 6, 0] := by decide

theorem witness_lockoutAndRelease_refusals :
    (0 : Byte).toNat = 0 ∧ 250 < (251 : Byte).toNat ∧ (12 : Byte).toNat = station.mp.params.address ∧
    fullTable.held = .nothing ∧ fullTable.mp.status = .good ∧ fullTable.pt.slots.length = 24 ∧
    fullTable.pt.slotOf (3 : Byte).toNat = none ∧ fullTable.pt.slots.findIdx? Option.isNone = none ∧
    (after (.lockoutPeer false [3]) fullTable).mp.buffer = .preparing [5, 5, 0] ∧
    (after (.lockoutPeer false [12]) station).mp.buffer = .preparing [3, 5, 0] := by decide

/-! ### Alarms -/

theorem witness_alarmRecordTransitions :
    let r := AlarmRecord.reset .refLoss
    let up := r.rise ⟨7, 1⟩
    r.condition = false ∧ up.condition = true ∧ up.state = .active ∧
    (up.ack .standing ⟨8, 0⟩).state = .acked ∧ ((up.ack .standing ⟨8, 0⟩).fall .standing ⟨9, 0⟩).state = .clear ∧
    (up.fall .standing ⟨9, 0⟩).state = .clearedUnacked ∧ up.changed = ⟨7, 1⟩ ∧ r.state = .clear ∧
    r.taking .standing ⟨7, 1⟩ [true, false] = up.fall .standing ⟨7, 1⟩ := by decide

/-- A command that reports a condition: the reference loss deadline reached (R98). -/
theorem witness_alarmRecordTransitions_reports :
    let s := { station with ri := { station.ri with active := true, deadline := some 0 } }
    actsOnRecords .lossDeadlineExpiry = false ∧ (after .lossDeadlineExpiry s).conds.refLoss = true ∧
    (after .lossDeadlineExpiry s).au.records.refLoss.raises = 1 := by decide

/-- The station with REF_LOSS present and ACTIVE. -/
def alarmed : State := station.judge .refLoss true

theorem witness_acknowledgeActsOnRecords :
    alarmed.held = .nothing ∧ alarmed.mp.status = .good ∧ 15 ≤ (15 : Byte).toNat ∧ (15 : Byte) ≠ 0xFF ∧
    (after (.ackAlarm false [0]) alarmed).au.records.refLoss.state = .acked ∧
    (after (.ackAll false) alarmed).mp.buffer = .preparing [1, 4, 1, 1] ∧
    (after (.ackAlarm false [15]) alarmed).mp.buffer = .preparing [3, 4, 0] := by decide

/-- REF_LOSS has stood for the thirty minutes of the default escalation. -/
def overdue : State :=
  { alarmed with au := { alarmed.au with records := { alarmed.au.records with
      refLoss := { alarmed.au.records.refLoss with timer := 225000000000 } } } }

theorem witness_escalationMakesUrgent :
    overdue.held = .nothing ∧ overdue.mp.params.classes.get .refLoss = .standing ∧
    (overdue.au.records.get .refLoss).state = .active ∧ (overdue.au.records.get .refLoss).effective = .standing ∧
    overdue.mp.params.escalation ≠ 0 ∧
    overdue.mp.params.escalation * 7500000000 ≤ (overdue.au.records.get .refLoss).timer ∧
    (after (.escalationTimerExpiry .refLoss) overdue).au.alarmU = true ∧
    (after (.escalationTimerExpiry .refLoss) overdue).au.alarmS = false := by decide

/-- A state with the permit asserted and nothing raised keeps the permit sound, and a tick leads on from it. -/
theorem witness_permitSoundAtEveryStep :
    let s := { tracking with pending := [.tick] }
    PermitSound s ∧ ∃ t, step s = .next t := by
  refine ⟨⟨fun k => by cases k <;> rfl, fun k => by cases k <;> decide, fun k _ => by cases k <;> decide,
    fun k _ => by cases k <;> decide, ⟨?_, ?_, ?_, ?_⟩, rfl, fun _ => ⟨.inl rfl, by decide, fun k _ => by cases k <;> rfl⟩⟩,
    _, rfl⟩
  all_goals
    constructor
    · exact nofun
    · rintro ⟨k, h⟩; cases k <;> exact absurd h (by decide)

/-! ### The combine -/

/-- Peer 3 of the worked combine at 7,002 s (06). -/
def c3 : Candidate := ⟨3, 1, false, 1920, 100⟩

/-- Peers 18 and 30 of the worked combine. -/
def c18 : Candidate := ⟨18, 2, false, 1280, 200⟩

/-- Peer 30 of the worked combine. -/
def c30 : Candidate := ⟨30, 3, false, -640, 400⟩

/-- The snapshot of the worked combine: peer 41 names this station among its sources. -/
def worked : Snapshot :=
  { peers := [⟨3, false, 1920, 0, 100, advert 1 50 [0, 0, 0]⟩, ⟨18, false, 1280, 0, 200, advert 2 50 [0, 0, 0]⟩,
      ⟨30, false, -640, 0, 400, advert 3 50 [0, 0, 0]⟩, ⟨41, false, -3050, 0, 173, advert 3 50 [12, 3, 0]⟩]
    ref := none
    prev := ⟨.track, .traceable, 2, 198, [3, 18, 0], false, false⟩
    epoch := 7002 }

theorem test_worked_combine :
    worked.contributors 12 50 = [c3, c18, c30] ∧ combinedOffset (worked.contributors 12 50) = some 1676 := by decide

theorem witness_weightFromUncertainty :
    ({ c3 with unc := 0 } : Candidate).weight = 2 ^ 40 ∧ c3.unc ≠ 0 ∧ ({ c3 with unc := 65535 } : Candidate).unc = 65535 ∧
    [c3] ≠ [] ∧ c3.unc ≤ 65535 ∧ (⟨3, false, 1920, 0, 100, advert 1 50 [0, 0, 0]⟩ : Estimate) ∈ worked.peers ∧
    c3 ∈ [c3, c18, c30] ∧ ([c3, c18, c30].map Candidate.addr).Nodup ∧ c3.addr = 3 := by decide

/-- Five peers of one uncertainty: the fifth is left out. -/
def crowd : Snapshot :=
  { worked with peers := [5, 4, 3, 2, 1].map fun a => ⟨a, false, 16, 0, 100, advert 1 50 [0, 0, 0]⟩ }

theorem witness_fourMostCertainSelected :
    (⟨5, 1, false, 16, 100⟩ : Candidate) ∈ crowd.admitted 12 50 ∧ (⟨5, 1, false, 16, 100⟩ : Candidate) ∉ crowd.contributors 12 50 ∧
    (⟨4, 1, false, 16, 100⟩ : Candidate) ∈ crowd.contributors 12 50 := by decide

/-- A peer of held time alone, one nanosecond inside the bound less the margin of 50 ns. -/
def heldOnly : Snapshot :=
  { worked with peers := [⟨3, false, 0, 0, 147, { advert 1 50 [0, 0, 0] with trac := .held }⟩] }

theorem witness_admittedAreEligible :
    c3 ∈ worked.candidates 12 ∧ c3.held = false ∧ c3 ∈ worked.admitted 12 50 ∧
    (∀ c ∈ heldOnly.candidates 12, c.held = true) ∧ (⟨3, 1, true, 0, 147⟩ : Candidate) ∈ heldOnly.candidates 12 ∧
    (⟨3, 1, true, 0, 147⟩ : Candidate) ∈ heldOnly.admitted 12 50 ∧ heldOnly.prev.state = .track ∧
    heldOnly.prev.trac = .traceable ∧
    ({ heldOnly with peers := [⟨3, false, 0, 0, 148, { advert 1 50 [0, 0, 0] with trac := .held }⟩] } : Snapshot).admitted 12 50
      = [] ∧
    (⟨0, -1, false, 5, 9⟩ : Candidate) ∈ ({ worked with ref := some (5, 9) } : Snapshot).admitted 12 50 := by decide

theorem witness_combinedOffsetIsWeightedMean :
    [c3, c18, c30] ≠ [] ∧ (∀ c ∈ [c3, c18, c30], c.unc ≤ 65535) ∧
    combinedOffset [⟨1, 0, false, 1, 8⟩, ⟨2, 0, false, 0, 8⟩] = some 1 ∧ combinedOffset [c3] = some 1920 := by decide

theorem witness_verdictsFollowOffset :
    let e : Estimate := ⟨30, false, 1676 + 16 * 400, 0, 400, advert 3 50 [0, 0, 0]⟩
    let n : Snapshot := { worked with peers := [e] }
    e ∈ n.peers ∧ (none : Option Int) = none ∧ 3 ≤ [c3, c18, c30].length ∧ [c3, c18].length < 3 ∧ e.disagrees 250 1676 = false ∧
    e.disagrees 250 1675 = true := by decide

theorem witness_stateSettledFromEach_acquire :
    let p := Params.default
    let r : Runs := ⟨7, 0, 2⟩
    2 ≤ p.l ∧ ¬r.none + 1 < p.g ∧ p.g ≤ r.none + 1 ∧ (⟨0, 0, 1⟩ : Runs).none + 1 < p.g ∧ (1600 : Int).natAbs ≤ 16 * p.tLock ∧
    (1600 : Int).natAbs ≤ 16 * p.s ∧ p.l ≤ r.lock + 1 ∧ (⟨6, 0, 0⟩ : Runs).lock + 1 < p.l ∧ 16 * p.tLock < (-1601 : Int).natAbs ∧
    (settle p .acquire r (some 1600) false true).1 = .track ∧ (settle p .acquire r (some (-1601)) false true).1 = .acquire := by
  decide

theorem witness_stateSettledFromEach_track :
    let p := Params.default
    (16000 : Int).natAbs ≤ 16 * p.s ∧ 16 * p.s < (16001 : Int).natAbs ∧ (⟨0, 1, 0⟩ : Runs).large < 2 ∧ 2 ≤ (⟨0, 2, 0⟩ : Runs).large ∧
    (⟨0, 0, 1⟩ : Runs).none + 1 < p.g ∧ p.g ≤ (⟨0, 0, 2⟩ : Runs).none + 1 ∧
    (settle p .track ⟨0, 2, 0⟩ (some 16001) false true).1 = .acquire ∧
    (settle p .lapsed ⟨0, 0, 0⟩ (some 16000) false true).1 = .track := by decide

theorem witness_steeringOfEachKind :
    16 * Params.default.s < (16001 : Int).natAbs ∧ (16000 : Int).natAbs ≤ 16 * Params.default.s ∧
    servo 2 8 99990000 8000 = ⟨100000000, 99990000, none, some true⟩ ∧
    servo 2 8 2500000 1676 = ⟨2526597, 2500409, none, some false⟩ := by decide

/-- The station in HOLD from 20,004 s with the worked entry data of 07. -/
def holding : Discipline :=
  { Discipline.reset with
    hold := some ⟨40, 2, 20004, 2502400, 183, 8⟩
    pub := ⟨.hold, .held, 2, 1089, [0, 0, 0], false, false⟩
    elapsed := 3643 }

/-- The combine in HOLD without a candidate, begun 3,644 s after the entry. -/
def holdSnapshot : Snapshot := { worked with peers := [], prev := holding.pub, epoch := 23648 }

theorem witness_holdoverFollowsPrediction :
    let c := holding.complete Params.default (History.reset []) holdSnapshot
    c.du.pub.state = .hold ∧ holdSnapshot.prev.state = .hold ∧ holding.hold = some ⟨40, 2, 20004, 2502400, 183, 8⟩ ∧
    c.du.elapsed = 3644 ∧ c.du.pub.bound = 1099 ∧ c.du.f = 2502400 + 183 * 68 := by decide

theorem witness_holdoverFollowsPrediction_history :
    let h := fun n => { History.reset [] with ring := (List.range n).map fun (i : Nat) => (⟨i, i⟩ : Minute) }
    let seeded := { h 7 with seed := some ⟨hist, 0, 0⟩ }
    (h 7).valid = false ∧ (h 7).ring.length < 8 ∧ (h 7).seed = none ∧ (h 7).derive = ⟨0, 0, .none⟩ ∧ seeded.valid = true ∧
    seeded.seed = some ⟨hist, 0, 0⟩ ∧ seeded.derive = ⟨2502400, 183, .seed⟩ ∧ seeded.leadMinutes = 8 ∧
    8 ≤ (h 8).ring.length ∧ (h 8).derive = ⟨4, 0, .ring⟩ ∧ (h 31).ring.length < 32 ∧ (h 31).leadMinutes = 0 ∧
    32 ≤ (h 32).ring.length ∧ (h 32).derive = ⟨24, 1, .ring⟩ ∧ (h 32).leadMinutes = 8 := by decide

theorem witness_holdoverFollowsPrediction_entry :
    let h := { History.reset [] with seed := some ⟨hist, 0, 0⟩ }
    let d := { Discipline.reset with holdReq := true, pub := worked.prev }
    let c := d.complete { Params.default with address := 12 } h worked
    c.du.pub.state = .hold ∧ worked.prev.state ≠ .hold ∧ worked.prev.state ≠ .lapsed ∧ c.entered = true ∧
    c.du.pub.bound = 198 := by decide

theorem witness_holdoverBoundDoesNotDecrease :
    let e : HoldEntry := ⟨40, 2, 20004, 2502400, 183, 8⟩
    let c := holding.complete Params.default (History.reset []) holdSnapshot
    let n := { holdSnapshot with prev := { holding.pub with bound := 1100 }, epoch := 23649 }
    holding.hold = some e ∧ holdSnapshot.prev.state = .hold ∧ c.du.pub.state = .hold ∧
    e.boundAt 200 50 3643 = 1099 ∧
    (3643 : Int) ≤ min 4294967295 (((holdSnapshot.epoch : Int) - e.time) % 281474976710656) ∧
    (holding.complete Params.default (History.reset []) n).du.pub.state = .lapsed := by decide

theorem witness_statusPublishedWhole :
    c3 ∈ [c3, c18, c30] ∧ c3.unc ≤ 65535 ∧ (∀ c ∈ [c3, c18, c30], c3.unc ≤ c.unc ∧ c3.rank ≤ c.rank) ∧ -1 ≤ c3.rank ∧
    c3.rank ≤ 13 ∧
    publication .track worked.prev [c3, c18, c30] (some 1676) false 0 0 =
      ⟨.track, .traceable, 2, 205, [3, 18, 30], false, false⟩ := by decide

/-- The station tracking with the worked combine in flight. -/
def combining : State := { tracking with du := { tracking.du with snapshot := some worked, fInt := 2500000 } }

/-- A combine of one peer 2 s off, which steps, from ACQUIRE. -/
def ordering : State :=
  let far : Estimate := ⟨3, false, 32000000000, 0, 100, advert 1 50 [0, 0, 0]⟩
  { station with du := { station.du with
      snapshot := some { worked with peers := [far], prev := { Published.free with state := .acquire } } } }

theorem witness_completionTakesEffectWhole :
    let s := combining
    let c := s.du.complete s.mp.params s.hs worked
    let g := settle s.mp.params worked.prev.state ⟨0, 0, 0⟩ (some 1676) false s.hs.valid
    s.held = .nothing ∧ s.du.snapshot = some worked ∧ s.pt.slots.length = 24 ∧ c.du.f = 2526597 ∧ g.1 = .track ∧ g.1 ≠ .hold ∧
    c.clamp = some false ∧ s.mp.status = .good ∧ c.du.pub.state = .track ∧ c.du.pub.bound ≤ s.mp.params.budget ∧
    s.au.gating = false ∧ s.mp.params.gatingSet.noContributor = false ∧
    (s.completeWith worked true true true).ou.txok = true ∧
    (station.du.complete station.mp.params station.hs { worked with peers := [], prev := .free }).clamp = none := by
  decide +kernel

/-- Both orders of a step and its publication: with the step first, the status before it stands till the next tick. -/
theorem test_step_before_its_publication :
    let n := ordering.du.snapshot.getD worked
    let early := ordering.completeWith n true true false
    let late := ordering.completeWith n true true true
    early.du.pub.bound = 65535 ∧ early.du.pub.state = .acquire ∧ early.du.unpublished = none ∧
    early.tb.orders = [32000000000] ∧ early.au.records.phaseStep.state = .active ∧ late.du.pub = ordering.du.pub ∧
    late.du.unpublished = some early.du.pub ∧ late.tb.orders = [32000000000] ∧ (after .tick late).du.pub = early.du.pub := by
  decide

/-- Leaving holdover: the entry data dropped, and F_int starts from the hold frequency. -/
theorem witness_completionTakesEffectWhole_leaving_holdover :
    let d := { holding with f := 2502500, fInt := 7, elapsed := 9 }
    let n := { worked with prev := holding.pub }
    let g := settle { Params.default with address := 12 } .hold ⟨0, 0, 0⟩ (some 1676) false false
    let c := d.complete { Params.default with address := 12 } (History.reset []) n
    g.1 = .track ∧ g.1 ≠ .hold ∧ (n.prev.state = .hold ∨ n.prev.state = .lapsed) ∧ c.du.hold = none ∧ c.du.elapsed = 0 ∧
    c.du.fInt = 2502909 := by decide

/-- In HOLD the bound decides between HOLD and LAPSED; a gating alarm present when the completion comes bars the permit. -/
theorem witness_completionTakesEffectWhole_holding :
    let c := holding.complete Params.default (History.reset []) holdSnapshot
    let s := { combining with
      mp := { combining.mp with params := { combining.mp.params with gatingSet := .ofFn fun k => k == Kind.refLoss } } }
    let a := s.judge .refLoss true
    (settle Params.default .hold ⟨0, 0, 0⟩ none false false).1 = .hold ∧ c.du.pub.state = .hold ∧ c.entered = false ∧
    a.au.gating = true ∧ Kind.refLoss ∉ [Kind.noContributor, .holdBudget, .freqClamp, .peerSuspect, .peerLink, .permitLost] ∧
    a.mp.params.gatingSet.get .refLoss = true ∧ (a.au.records.get .refLoss).condition = true ∧
    (a.completeWith worked false false false).ou.txok = false := by decide +kernel

theorem witness_statusSoundAtEveryStep :
    let s := { tracking with pending := [.tick] }
    StatusSound s ∧ ∃ t, step s = .next t :=
  ⟨⟨⟨by decide, by decide, by decide, by decide, by decide⟩, nofun, nofun, by decide⟩, _, rfl⟩

theorem witness_timeSoundAtEveryStep :
    let s := { atMinute with pending := [.tick] }
    TimeSound s ∧ ∃ t, step s = .next t :=
  ⟨⟨⟨by decide, by decide, by decide⟩, by decide, ⟨by decide, by decide⟩, ⟨by decide, by decide⟩, ⟨by decide, by decide⟩,
    ⟨by decide, by decide⟩⟩, _, rfl⟩

/-! ### The cluster line -/

theorem witness_carrierAndDelimiterSeen :
    let s := { collecting with lc := { collecting.lc with receiver := .searching } }
    station.held = .nothing ∧ station.lc.carrier = false ∧ s.held = .nothing ∧ s.lc.carrier = true ∧ s.lc.access ≠ .send ∧
    s.lc.access ≠ .jam ∧ s.lc.receiver ≠ .collecting ∧ s.lc.receiver = .searching ∧
    afterDelimiter (lineBits [0x55, 0x55, 0x55, 0x9D]) = some [] ∧
    (after .carrierPresent station).lc.receiver = .searching ∧ (after (.carrierAbsent [] true) s).lc.carrier = false ∧
    (after (.rxCapture ⟨lineBits [0x55, 0x55, 0x55, 0x9D], 127⟩) s).tb.rx = some ⟨⟨0, 127⟩, 0⟩ := by decide

theorem witness_badReceptionCounted :
    collecting.held = .nothing ∧ collecting.lc.receiver = .collecting ∧ collecting.lc.carrier = true ∧
    collecting.lc.access ≠ .send ∧ collecting.lc.access ≠ .jam ∧ parseFrame (List.replicate 27 0) true = none ∧
    parseFrame beacon3.frame false = none ∧ (after (.carrierAbsent [] true) collecting).lc.errNow = 1 ∧
    183 < (List.replicate 184 (0 : Byte)).length ∧
    (after (.receptionOverlong (List.replicate 184 0)) collecting).lc.receiver = .ignoring ∧
    (after (.receptionOverlong (List.replicate 183 0)) collecting).lc.receiver = .collecting := by decide +kernel

theorem witness_goodBeaconDelivered :
    collecting.held = .nothing ∧ collecting.lc.carrier = true ∧ collecting.lc.access ≠ .send ∧ collecting.lc.access ≠ .jam ∧
    collecting.lc.receiver = .collecting ∧ parseFrame beacon3.frame true = some beacon3 ∧ collecting.mp.status = .good ∧
    beacon3.sender ≠ collecting.mp.params.address ∧ collecting.tb.rx = some ⟨⟨5, 0⟩, 0⟩ ∧ (0 : Nat) = collecting.tb.stepCtr ∧
    collecting.lc.stepWait = false ∧ collecting.pt.slots.length = 24 ∧ collecting.pt.slotOf 3 = none ∧
    collecting.pt.slotFor 50 = some 0 ∧
    (after (.carrierAbsent beacon3.frame true) collecting).lc.filling = [⟨3, 8, ⟨5, 0⟩⟩] := by decide +kernel

/-- A good beacon without a stamp, a step having come, and one in the step wait: neither goes to the filling plane. -/
theorem witness_goodBeaconDelivered_unreported :
    let stepped := { collecting with tb := { collecting.tb with stepCtr := 1 } }
    let waiting := { collecting with lc := { collecting.lc with stepWait := true } }
    stepped.tb.rx = some ⟨⟨5, 0⟩, 0⟩ ∧ stepped.tb.stepCtr ≠ 0 ∧ waiting.lc.stepWait = true ∧
    (after (.carrierAbsent beacon3.frame true) stepped).lc.filling = [] ∧
    (after (.carrierAbsent beacon3.frame true) waiting).lc.filling = [] ∧
    ((after (.carrierAbsent beacon3.frame true) waiting).pt.at 0).map Entry.heard = some ⟨5, 0⟩ ∧
    ((after (.carrierAbsent beacon3.frame true) stepped).pt.at 0).map Entry.heard = some ⟨0, 0⟩ := by decide +kernel

/-- Heard before the load, and in MUTE under FAULT: carrier ends and nothing is delivered (R33, R40). -/
theorem witness_goodBeaconDelivered_unloaded :
    let unloaded := { collecting with mp := { collecting.mp with status := .notLoaded } }
    let mute := { collecting with mp := { collecting.mp with status := .fault }, lc := { collecting.lc with access := .mute } }
    unloaded.held = .nothing ∧ unloaded.lc.carrier = true ∧ unloaded.lc.access = .listen ∧ mute.lc.access = .mute ∧
    parseFrame beacon3.frame true = some beacon3 ∧ (after (.carrierAbsent beacon3.frame true) unloaded).lc.carrier = false ∧
    (after (.carrierAbsent beacon3.frame true) mute).lc.receiver = .off := by decide +kernel

theorem witness_goodBeaconDelivered_known :
    let s := collecting.setSlot 3 (some (peer 3 .stale))
    let full := { fullTable with tb := collecting.tb, lc := collecting.lc }
    let r : Report := ⟨3, 5, ⟨1, 0⟩⟩
    let seen := { s with lc := { s.lc with filling := [r] } }
    let others := { s with lc := { s.lc with filling := (List.range 12).map fun i => ⟨i + 100, 0, ⟨1, 0⟩⟩ } }
    s.pt.slotOf 3 = some 3 ∧ s.pt.at 3 = some (peer 3 .stale) ∧ full.pt.slotOf 3 = none ∧ full.pt.slotFor 50 = none ∧
    (∃ p ∈ seen.lc.filling, p.addr = beacon3.sender) ∧ (∀ p ∈ others.lc.filling, p.addr ≠ beacon3.sender) ∧
    12 ≤ others.lc.filling.length ∧ (others.lc.filling.drop 1).length < 12 ∧
    ((s.deliver beacon3 (some ⟨5, 0⟩) false).pt.at 3).map Entry.state = some .new ∧
    (full.deliver beacon3 none false).conds.tableFull = true := by decide

/-- A frame of the station's own address. -/
def ownFrame : List Byte := { beacon3 with sender := 12 }.frame

theorem witness_ownAddressHeard :
    parseFrame ownFrame true = some { beacon3 with sender := 12 } ∧
    ({ beacon3 with sender := 12 } : Beacon).sender = collecting.mp.params.address ∧
    { collecting.lc with access := .wait }.access = .wait ∧ { collecting.lc with access := .defer }.access = .defer ∧
    collecting.lc.access = .listen ∧ collecting.mp.status = .good ∧ collecting.lc.receiver = .collecting ∧
    (after (.carrierAbsent ownFrame true) collecting).lc.clashAge = 0 := by decide +kernel

theorem witness_intervalBoundaryCounts :
    let s := { station with tb := { station.tb with intervals := [secU] }, lc := { station.lc with listen := 1 } }
    let t := { s with lc := { s.lc with clash := 2 } }
    s.held = .nothing ∧ s.tb.intervals = secU :: [] ∧ s.pt.slots.length = 24 ∧
    (after .beaconIntervalBoundary s).lc.access = .wait ∧ (after .beaconIntervalBoundary t).lc.access = .clashHold ∧
    (after .beaconIntervalBoundary t).lc.nextInstant = none := by decide +kernel

/-- The third boundary ends the listen period; a station not yet loaded draws no instant there (R39, R40, R58). -/
theorem test_no_instant_before_the_load :
    let s := fun status => { station with
      mp := { station.mp with status := status }, tb := { station.tb with intervals := [secU] }
      lc := { station.lc with listen := 1 } }
    let t := fun status => (after .beaconIntervalBoundary (s status)).lc
    (t .good).access = .wait ∧ (t .good).nextInstant.isSome ∧ (t .good).drawn = 1 ∧
    (t .notLoaded).access = .wait ∧ (t .notLoaded).nextInstant = none ∧ (t .notLoaded).drawn = 0 := by decide +kernel

/-- A station whose next instant a tick has reached, in an access state. -/
def due (a : Access) : State := { onLine a with lc := { (onLine a).lc with nextInstant := some ⟨0, true⟩ } }

theorem witness_instantReachedByState :
    let stuck := { due .wait with lc := { (due .wait).lc with stuck := 625000, idle := false, carrier := true } }
    let busy := { due .wait with lc := { (due .wait).lc with stuck := 624999, idle := false } }
    (due .wait).held = .nothing ∧ (due .wait).lc.nextInstant = some ⟨0, true⟩ ∧ (⟨0, true⟩ : Instant).reached = true ∧
    625000 ≤ stuck.lc.stuck ∧ busy.lc.stuck < 625000 ∧ busy.lc.idle = false ∧ (due .wait).lc.idle = true ∧
    (due .send).lc.after = .normal ∧ (after .nextInstantReached stuck).lc.abNow = 1 ∧
    (after .nextInstantReached (due .wait)).lc.access = .send ∧ (after .nextInstantReached busy).lc.access = .defer ∧
    (after .nextInstantReached (due .send)).lc.due = true := by decide

theorem witness_instantReachedByState_pending :
    let with' := fun a (stuck : Nat) idle => { due a with lc := { (due a).lc with beacon := true, stuck := stuck, idle := idle } }
    (with' .defer 0 true).lc.access = .defer ∧ (with' .backoff 0 true).lc.access = .backoff ∧
    (after .nextInstantReached (with' .defer 625000 false)).lc.abNow = 2 ∧
    (after .nextInstantReached (with' .backoff 0 true)).lc.access = .send ∧
    (after .nextInstantReached (with' .defer 624999 false)).lc.access = .defer := by decide

theorem witness_instantReachedByState_jam :
    let with' := fun beacon (stuck : Nat) => { due .jam with lc := { (due .jam).lc with beacon := beacon, stuck := stuck } }
    let ending := { due .send with lc := { (due .send).lc with after := .clashHold } }
    (with' true 0).lc.access = .jam ∧ (with' true 0).lc.after = .normal ∧ (with' true 0).lc.beacon = true ∧
    (with' false 0).lc.beacon = false ∧ (after .nextInstantReached (with' true 625000)).lc.abNow = 2 ∧
    (after .nextInstantReached (with' true 0)).lc.abNow = 1 ∧ (after .nextInstantReached (with' true 0)).lc.beacon = true ∧
    (after .nextInstantReached (with' false 625000)).lc.abNow = 1 ∧
    (after .nextInstantReached (with' false 624999)).lc.beacon = true ∧ ending.lc.after ≠ .normal ∧
    (after .nextInstantReached ending).lc.due = false := by decide

theorem witness_transmissionStartsAndIsStamped :
    let s := { onLine .defer with lc := { (onLine .defer).lc with idle := false, gap := 5000 } }
    let b := onLine .backoff
    let t := { onLine .send with lc := { (onLine .send).lc with sent := 800, record := some (record none) } }
    s.held = .nothing ∧ s.lc.carrier = false ∧ s.lc.idle = false ∧ 5000 ≤ s.lc.gap ∧ s.lc.access = .defer ∧
    (onLine .wait).lc.access ≠ .defer ∧ b.lc.access = .backoff ∧ b.lc.backoff = 0 ∧ b.lc.idle = true ∧
    { b.lc with idle := false }.idle = false ∧ t.lc.access = .send ∧ 800 ≤ t.lc.sent ∧ t.lc.record = some (record none) ∧
    (record none).stamp = none ∧ (after .lineIdle s).lc.access = .send ∧
    (after (.txCapture 127) t).lc.record = some (record (some ⟨0, 127⟩)) := by decide

theorem witness_collisionJamBackoff :
    let s := { onLine .send with lc := { (onLine .send).lc with sent := 3599, record := some (record none), sending := some [] } }
    let long := { s with lc := { s.lc with sent := 7999, sending := some (List.replicate 12 ⟨3, 0, ⟨1, 0⟩⟩) } }
    let last := { s with lc := { s.lc with attempts := 3 } }
    let j := { onLine .jam with lc := { (onLine .jam).lc with jam := 2000, beacon := true, attempts := 1 } }
    s.held = .nothing ∧ s.lc.after = .normal ∧ s.lc.access = .send ∧ s.lc.sent < 8000 ∧ s.lc.sent < s.lc.frameTicks ∧
    long.lc.sent < 8000 ∧ long.lc.sent < long.lc.frameTicks ∧ s.lc.due = false ∧ s.lc.attempts + 1 < 4 ∧ 4 ≤ last.lc.attempts + 1 ∧ 2000 ≤ j.lc.jam ∧
    j.lc.beacon = true ∧ 0 < j.lc.attempts ∧ { j.lc with attempts := 0 }.attempts = 0 ∧ (onLine .jam).lc.beacon = false ∧
    (after .collisionDetected s).lc.access = .jam ∧ (after .collisionDetected last).lc.abNow = 1 := by decide

theorem witness_collisionJamBackoff_due :
    let s := { onLine .send with lc := { (onLine .send).lc with sent := 0, due := true, sending := some [] } }
    let stuck := { s with lc := { s.lc with stuck := 625000 } }
    let ending := fun a => { s with lc := { s.lc with after := a } }
    let ended := fun a => { onLine .jam with lc := { (onLine .jam).lc with jam := 2000, after := a } }
    s.lc.sent < s.lc.frameTicks ∧ s.lc.due = true ∧ s.lc.stuck < 625000 ∧ 625000 ≤ stuck.lc.stuck ∧
    (ending .clashHold).lc.after ≠ .normal ∧ (ended .listen).lc.after = .listen ∧ (ended .clashHold).lc.after = .clashHold ∧
    (after .collisionDetected s).lc.beacon = true ∧ (after .collisionDetected stuck).lc.abNow = 2 ∧
    (after .collisionDetected (ending .listen)).lc.abNow = 0 ∧ (after .jamEnd (ended .listen)).lc.access = .listen ∧
    (after .jamEnd (ended .clashHold)).lc.access = .clashHold := by decide

theorem witness_transmissionCompletesOrSticks :
    let s := { onLine .send with lc := { (onLine .send).lc with
      sent := 3600, record := some (record (some ⟨5, 3⟩)), sending := some [], carrier := true } }
    let stuck := { onLine .defer with lc := { (onLine .defer).lc with carrier := true, stuck := 625000, beacon := true } }
    s.held = .nothing ∧ s.lc.access = .send ∧ s.lc.after = .normal ∧ s.lc.due = false ∧
    s.lc.record = some (record (some ⟨5, 3⟩)) ∧ (record (some ⟨5, 3⟩)).stamp = some ⟨5, 3⟩ ∧ s.lc.frameTicks ≤ s.lc.sent ∧
    stuck.lc.carrier = true ∧ 625000 ≤ stuck.lc.stuck ∧ stuck.lc.access = .defer ∧
    (after .transmissionComplete s).lc.history = [⟨0, ⟨5, 3⟩⟩] ∧ (after .stuckTimerExpiry stuck).lc.beacon = false := by
  decide +kernel

theorem witness_transmissionCompletesOrSticks_due :
    let s := fun due (stuck : Nat) a => { onLine .send with lc := { (onLine .send).lc with
      sent := 3600, record := some (record (some ⟨5, 3⟩)), sending := some [], carrier := true, idle := false
      due := due, stuck := stuck, after := a } }
    (s true 0 .normal).lc.due = true ∧ (s true 624999 .normal).lc.stuck < 625000 ∧ (s true 0 .normal).lc.idle = false ∧
    (s false 0 .clashHold).lc.after = .clashHold ∧ (s false 0 .listen).lc.after = .listen ∧
    (after .transmissionComplete (s true 624999 .normal)).lc.access = .defer ∧
    (after .transmissionComplete (s true 625000 .normal)).lc.abNow = 1 ∧
    (after .transmissionComplete (s false 0 .clashHold)).lc.access = .clashHold ∧
    (after .transmissionComplete (s false 0 .listen)).lc.history = [] := by decide +kernel

/-- A frame that one bit, or a partial byte, sets apart from a beacon's is not taken. -/
theorem test_bad_frames_refused :
    parseFrame (beacon3.frame.set 3 5) true = none ∧ parseFrame beacon3.frame false = none ∧
    parseFrame beacon3.frame true = some beacon3 := by decide +kernel

theorem witness_beaconReadBackAsSent :
    ({ beacon3 with reports := [⟨12, 4, ⟨4, 15999999999⟩⟩] } : Beacon).Wf :=
  ⟨by decide, by decide, by decide, by decide, by decide, ⟨by decide, by decide⟩, by decide,
    fun r h => by simp at h; subst h; exact ⟨by decide, by decide, by decide⟩, by decide⟩

/-- The delimiter's bits written out (R20): 9D hexadecimal, least significant bit first. -/
theorem test_delimiter_bits : lineBits [0x9D] = [true, false, true, true, true, false, false, true] := by decide

/-- A frame heard from the last sixteen bits of its preamble on, with a partial byte after it; and from fifteen, none. -/
theorem test_frame_heard_in_bits :
    lineReception ((lineBits (List.replicate 8 0x55 ++ [0x9D, 1, 2])).drop 48 ++ [true]) = some ([1, 2], false) ∧
    lineReception ((lineBits (List.replicate 8 0x55 ++ [0x9D, 1, 2])).drop 49) = none := by decide +kernel

theorem witness_storesSoundAtEveryStep :
    let s := { cutProgram with pending := [.tick] }
    StoresSound s ∧ ∃ t, step s = .next t :=
  ⟨⟨⟨by decide, by decide⟩, nofun, by decide, ⟨nofun, by decide, nofun, nofun, nofun⟩, by decide, by decide,
    fun h => absurd h (by decide), fun h => absurd h (by decide), rfl, rfl, rfl⟩, _, rfl⟩

/-- A history of two entries below the sequence counter, across its wrap, with a transmission on the line. -/
theorem witness_storesSoundAtEveryStep_sent :
    let l := { (onLine .send).lc with seq := 0, record := some (record none), history := [⟨254, ⟨1, 0⟩⟩, ⟨255, ⟨2, 0⟩⟩] }
    l.SentSound ∧ (record none).steps = [] :=
  ⟨⟨fun i x h => by match i, h with | 0, h => cases h; rfl | 1, h => cases h; rfl, by decide, fun r h => by cases h; rfl,
    fun r h hs => by cases h; exact absurd rfl hs, nofun⟩, rfl⟩

/-- Before the load, and with FAULT, the line controller is silent. -/
theorem witness_storesSoundAtEveryStep_unloaded :
    State.reset.loaded = false ∧ State.reset.lc.Silent ∧
    let s := State.reset.loadFault []
    s.mp.status = .fault ∧ s.lc.access = .mute ∧ s.lc.Silent :=
  ⟨rfl, ⟨.inl rfl, rfl, rfl, rfl, rfl, rfl, rfl, rfl⟩, rfl, rfl, ⟨.inr (.inr (.inr rfl)), rfl, rfl, rfl, rfl, rfl, rfl, rfl⟩⟩

/-! ### The peer table -/

theorem witness_samplesFormedAndChecked :
    let e := { peer 3 .new with ring := [⟨0, 0, ⟨5, 0⟩⟩] }
    ((3000 : Int) - ((⟨5, 3000⟩ : Stamp).value16 - (⟨5, 0⟩ : Stamp).value16)) % scale16 = 0 ∧
    -(scale16 / 2 : Nat) ≤ (3000 : Int) ∧ (3000 : Int) < (scale16 / 2 : Nat) ∧
    formSample ⟨5, 0⟩ ⟨5, 3000⟩ ⟨5, 5000⟩ ⟨5, 6001⟩ = ⟨999, 2000, ⟨5, 6001⟩⟩ ∧ (-321 : Int) < -320 ∧
    16000 * ((12 : Nat) : Int) < 192001 ∧ e.state = .new ∧ 1 ≤ e.ring.length ∧
    (e.take 12 ⟨7, -320, ⟨5, 6001⟩⟩).ring = [⟨0, 0, ⟨5, 0⟩⟩, ⟨7, 0, ⟨5, 6001⟩⟩] ∧
    (e.take 12 ⟨7, -321, ⟨5, 6001⟩⟩).faults = 1 := by decide

theorem witness_samplesFormedAndChecked_measure :
    let e := peer 3 .suspect
    let b : Beacon := { beacon3 with reports := [⟨12, 4, ⟨4, 3000⟩⟩, ⟨13, 4, ⟨4, 0⟩⟩] }
    let l := { station.lc with history := [⟨4, ⟨4, 0⟩⟩, ⟨5, ⟨4, 9⟩⟩] }
    e.state = .suspect ∧ (⟨12, 4, ⟨4, 3000⟩⟩ : Report) ∈ b.reports ∧ (b.reports.map Report.addr).Nodup ∧
    (l.history.map Sent.seq).Nodup ∧ (⟨4, ⟨4, 0⟩⟩ : Sent) ∈ l.history ∧ (∀ h ∈ station.lc.history, h.seq ≠ 4) ∧
    (∀ r ∈ beacon3.reports, r.addr ≠ 12) ∧ (peer 3 .stale).state = .stale ∧
    (e.measure 12 12 l b (some ⟨5, 3160⟩)).ring = [⟨0, 3000, ⟨5, 3160⟩⟩] ∧
    (e.measure 12 12 station.lc b (some ⟨5, 3160⟩)).unmatched = 1 ∧ e.measure 12 12 l b none = e := by decide

theorem witness_estimatesFromRings :
    let e := { peer 3 .valid with ring := [⟨9, 20, ⟨5, 0⟩⟩, ⟨7, 4, ⟨6, 0⟩⟩, ⟨8, 4, ⟨7, 0⟩⟩] }
    (e.snapshot 9 20).marked = true ∧ (e.snapshot 10 20).ring.length = 2 ∧
    (e.snapshot 9 20).estimate 20 = some ⟨3, false, 8, 1, 71, advert 1 50 [0, 0, 0]⟩ := by decide

theorem witness_entryLifeRules :
    (peer 3 .valid).state = .valid ∧ { peer 3 .valid with disagree := 2 }.disagree + 1 = 3 ∧
    ({ peer 3 .valid with disagree := 2 }.verdict true).state = .suspect ∧
    ({ peer 3 .suspect with agree := 9 }.verdict false).state = .valid ∧
    ({ peer 3 .valid with silence := 3 }.age 240 4).map Entry.state = some .stale ∧
    { peer 3 .stale with silence := 239 }.age 240 4 = none ∧ (peer 3 .lockedOut).state = .lockedOut ∧
    ((8 : Byte) - 7 - 1).toNat = 0 := by decide

/-- The slot of a newcomer: a free one, then the STALE entry longest silent, then the largest bound if it is larger. -/
theorem witness_entryLifeRules_slots :
    let full := fun (st : EntryState) => (fullTable.pt.slots.set 5 (some (peer 3 st))).set 9 (some (peer 4 st))
    let table := fun slots => { fullTable.pt with slots := slots }
    (table ((full .stale).set 7 none)).slots[7]? = some none ∧ (table ((full .stale).set 7 none)).slotFor 9 = some 7 ∧
    (table (full .stale)).slots.findIdx? Option.isNone = none ∧ (table (full .stale)).at 5 = some (peer 3 .stale) ∧
    (table (full .stale)).slotFor 9 = some 5 ∧
    (table ((full .stale).set 9 (some { peer 4 .stale with silence := 1 }))).slotFor 9 = some 9 ∧
    (table (full .valid)).at 9 = some (peer 4 .valid) ∧ (table (full .valid)).slotFor 49 = some 9 ∧
    (table (full .valid)).slotFor 50 = none ∧ fullTable.pt.slotFor 0 = none := by decide

theorem witness_entryLifeRules_writeBack :
    let e := { peer 3 .valid with marked := true, disagree := 2 }
    let w : WriteBack := ⟨3, some 109, some true⟩
    e.marked = true ∧ w ∈ [w] ∧ w.addr = e.addr ∧ ([w].map WriteBack.addr).Nodup ∧ w.verdict = some true ∧
    (e.writeBack [w]).state = .suspect ∧ (e.writeBack [w]).contributor = true ∧
    (e.writeBack [{ w with verdict := none }]).weight = 109 ∧
    ({ e with marked := false, contributor := true }.writeBack [w]).contributor = false := by decide

theorem witness_peersSoundAtEveryStep :
    let s := { withPeer (peer 250 .valid) with pending := [.tick] }
    PeersSound s ∧ ∃ t, step s = .next t := by
  have only : ∀ i e, (withPeer (peer 250 .valid)).pt.at i = some e → i = 3 ∧ e = peer 250 .valid := by
    intro i e h
    by_cases hi : i < 24
    · interval_cases i <;> first | exact ⟨rfl, (Option.some.inj h).symm⟩ | exact nomatch h
    · have : (withPeer (peer 250 .valid)).pt.at i = none :=
        List.getD_eq_default _ _ (by show 24 ≤ i; omega)
      exact nomatch this.symm.trans h
  refine ⟨⟨rfl, fun i j a b ha hb _ => (only i a ha).1.trans (only j b hb).1.symm, fun i e h => ?_, fun i e h => ?_, nofun,
    ⟨nofun, ?_⟩, ⟨nofun, ?_⟩⟩, _, rfl⟩
  · obtain ⟨-, rfl⟩ := only i e h; decide
  · obtain ⟨-, rfl⟩ := only i e h; decide
  · rintro ⟨i, e, h, h1⟩; obtain ⟨-, rfl⟩ := only i e h; exact absurd h1 (by decide)
  · rintro ⟨i, e, h, h1⟩; obtain ⟨-, rfl⟩ := only i e h; exact absurd h1 (by decide)

/-! ### The reference input -/

/-- The station with its reference input ACTIVE and a message of a valid fix for second 1 pending. -/
def receiving : State :=
  { station with ri := { RefInput.activate 0 with message := some ⟨1, true, 30, 0⟩ } }

/-- The same with the gate CLOSED and the next edge expected at 1 s, the counter standing there. -/
def windowed : State :=
  { receiving with
    tb := { receiving.tb with counter := ⟨1, 0, 0⟩ }
    ri := { receiving.ri with closed := true, expected := some secU } }

theorem witness_messagesCollected :
    let body : List Byte := [0, 0, 0, 0, 0, 1, 1, 0, 30, 224]
    receiving.held = .nothing ∧ receiving.ri.active = true ∧ receiving.ri.held = [] ∧ body.length = 10 ∧
    (after (.refMessage ([0x6E, 0x91] ++ body)) receiving).ri.message = some ⟨1, true, 30, 0⟩ ∧
    125000 < { receiving.ri with quiet := 125001 }.quiet ∧
    (after (.refMessage ([0x6E, 0x6E, 0x91] ++ body)) receiving).ri.message = some ⟨1, true, 30, 0⟩ ∧
    { receiving.ri with held := [0x6E] }.held = [0x6E] ∧
    (after (.refMessage [0x6E, 0x91, 0]) receiving).ri.held.length = 3 ∧
    (after (.refMessage ([0x6E, 0x91] ++ body.take 9)) receiving).ri.held.length = 11 ∧
    137500000 ≤ ({ (⟨1, true, 30, 0⟩ : Message) with age := 137500000 } : Message).age := by decide

theorem witness_edgesJudgedByGate_open :
    let s := { receiving with ri := { receiving.ri with message := none } }
    receiving.held = .nothing ∧ receiving.ri.active = true ∧ receiving.ri.closed = false ∧ s.ri.message = none ∧
    receiving.ri.message = some ⟨1, true, 30, 0⟩ ∧
    (after (.refEdge ⟨0, false⟩) receiving).ri.sample = some ⟨16000000000, 30, 0⟩ := by decide

theorem witness_edgesJudgedByGate_run :
    let s := { receiving with
      tb := { receiving.tb with counter := ⟨1, 0, 0⟩ }
      ri := { receiving.ri with run := 3, runTime := 0, runLabel := 0 } }
    let off := { s with ri := { s.ri with runLabel := 1 } }
    let second := { s with ri := { s.ri with run := 1 } }
    0 < s.ri.run ∧ Near secU (s.ri.runTime + secU) (1000 * nsU) ∧ 1 = (s.ri.runLabel + 1) % 281474976710656 ∧
    ¬(1 = (off.ri.runLabel + 1) % 281474976710656) ∧ receiving.ri.run = 0 ∧
    (after (.refEdge ⟨0, false⟩) s).ri.closed = true ∧ (after (.refEdge ⟨0, false⟩) s).ri.expected = some (2 * secU : Int) ∧
    (after (.refEdge ⟨0, false⟩) off).ri.run = 1 ∧ (after (.refEdge ⟨0, false⟩) second).ri.run = 2 :=
  ⟨by decide, ⟨0, by decide⟩, by decide⟩

theorem witness_edgesJudgedByGate_window :
    windowed.ri.closed = true ∧ windowed.ri.expected = some (secU : Int) ∧
    Near (secU + 1000 * nsU : Nat) secU (windowed.mp.params.w * nsU) ∧
    windowed.mp.params.w * nsU < (timeDiff secU (secU + 1000 * nsU + 1 : Nat)).natAbs ∧
    (after (.refEdge ⟨0, false⟩) windowed).ri.valid = true ∧
    (after (.refEdge ⟨0, false⟩) { windowed with ri := { windowed.ri with expected := some 0, misplaced := 1 } }).ri.misplaced = 2 ∧
    (after (.refEdge ⟨0, false⟩) { windowed with ri := { windowed.ri with expected := some 0, misplaced := 2 } }).ri.closed =
      false :=
  ⟨by decide, by decide, ⟨0, by decide⟩, by decide⟩

/-- An edge captured before a step only drops the pending message; the REF channel holds its time before the step. -/
theorem witness_edgesJudgedByGate_late :
    let s := { windowed with tb := { windowed.tb with before := some ⟨⟨3, 0, 0⟩, 3⟩ } }
    s.tb.before = some ⟨⟨3, 0, 0⟩, 3⟩ ∧ 3 ≠ s.tb.stepCtr ∧ s.ri.active = true ∧
    (after (.refEdge ⟨127, true⟩) s).tb.ref = some ⟨⟨3, 127⟩, 3⟩ ∧ (after (.refEdge ⟨127, true⟩) s).ri.message = none ∧
    (after (.refEdge ⟨127, true⟩) s).ri.expected = s.ri.expected := by decide

theorem witness_edgesJudgedByGate_times :
    let s := { windowed with tb := { windowed.tb with counter := ⟨1, 500000000, 0⟩ } }
    let late := { s with tb := { s.tb with counter := ⟨2, 500000000, 0⟩ } }
    s.ri.deadline = some ((2500000000 * nsU : Nat) : Int) ∧
    ((s.tb.counter.value : Int) - ((secU : Int) + (500000000 * nsU : Nat))) % scaleU < (scaleU / 2 : Nat) ∧
    ((scaleU / 2 : Nat) : Int) ≤ ((s.tb.counter.value : Int) - (2500000000 * nsU : Nat)) % scaleU ∧
    ((late.tb.counter.value : Int) - (2500000000 * nsU : Nat)) % scaleU < (scaleU / 2 : Nat) ∧
    (after .windowGiveUp s).ri.expected = some (2 * secU : Int) ∧ (after .lossDeadlineExpiry late).conds.refLoss = true ∧
    after .windowGiveUp late = late := by
  decide

/-! ### The history store -/

/-- The station at a minute of sixty completions in TRACK. -/
def minuteEnd : State :=
  { station with
    tb := { station.tb with minutes := [120] }
    hs := { station.hs with count := 60, sum := 6030, recorded := 59, op := .idle } }

theorem witness_minutesRecorded :
    minuteEnd.held = .nothing ∧ minuteEnd.tb.minutes = 120 :: [] ∧ minuteEnd.hs.count = 60 ∧ minuteEnd.hs.allTrack = true ∧
    60 ≤ minuteEnd.hs.recorded + 1 ∧ minuteEnd.hs.lastSeq < 16777215 ∧ station.hs.count ≠ 60 ∧
    { minuteEnd.hs with recorded := 58 }.recorded + 1 < 60 ∧ 16777215 ≤ { minuteEnd.hs with lastSeq := 16777215 }.lastSeq ∧
    { minuteEnd.hs with op := .erase hist false 0 0 }.op ≠ .idle ∧
    { minuteEnd.hs with sector := 0, nextSlot := 31 }.nextFree = some 31 ∧ minuteEnd.hs.nextFree = none ∧
    minuteEnd.hs.nextSector = some 0 ∧ { minuteEnd.hs with unusable := [0, 1, 2, 3] }.nextSector = none ∧
    (after .minuteBoundary minuteEnd).hs.ring = [⟨101, 120⟩] ∧
    (after .minuteBoundary minuteEnd).hs.op = .erase ⟨1, 0, 0, 1, 120⟩ false 0 0 := by decide +kernel

/-- The combine begun at the epoch of a minute boundary belongs to the minute the boundary opens, whichever of the two
commands comes first (R6). -/
theorem witness_minutesRecorded_orders :
    let n := { worked with epoch := 120 }
    let s := { minuteEnd with du := { combining.du with snapshot := some n } }
    let handed := fun s : State => s.completeWith n true true false
    let late := after .minuteBoundary (handed s)
    120 - 120 % 60 ∈ s.tb.minutes ∧ 7002 - 7002 % 60 ∉ combining.tb.minutes ∧
    (handed s).hs.count = 60 ∧ late.hs.ring = [⟨101, 120⟩] ∧ late.hs.count = 1 ∧ late.hs.ahead = [] ∧
    late.hs = (handed (after .minuteBoundary s)).hs := by decide +kernel

/-- The station at the end of a program of slot 31 of sector 0. -/
def programmedOut : State :=
  { station with hs := { station.hs with op := .program hist true 0 31 187500, sector := 0 } }

/-- The station at the end of an erase of sector 1. -/
def erasedOut : State := { station with hs := { station.hs with op := .erase hist false 1 5625000, area := [(1023, 0), (1024, 0), (2047, 7), (2048, 0)] } }

theorem witness_recordOperationsEnd :
    programmedOut.held = .nothing ∧ programmedOut.hs.area.wf = true ∧
    programmedOut.hs.op = .program hist true 0 31 187500 ∧ programmedOut.hs.waiting = none ∧
    programmedOut.hs.nextSector ≠ none ∧
    { programmedOut.hs with op := .program hist false 0 31 187500 }.op = .program hist false 0 31 187500 ∧
    slotState (programmedOut.hs.slotBytes 0 31) = .erased ∧ erasedOut.hs.area.read (slotBase 1 0 + 0) ≠ 0xFF ∧ erasedOut.hs.area.wf = true ∧
    erasedOut.hs.op = .erase hist false 1 5625000 ∧ (1 : Fin 4) ∉ erasedOut.hs.unusable ∧ station.hs.scanning = true ∧
    (after (.programEnd []) programmedOut).hs.nextSlot = 32 ∧
    station.du.fSet = false ∧ { station.du with fSet := true }.fSet = true := by decide +kernel

/-- A failed program is tried again in the next sector, a second failure lets the pending append go, and one without a
sector left is lost with it; a program that took cleared no bit leaves its slot ERASED (R163, R165; log 37). -/
theorem witness_recordOperationsEnd_failures :
    let with' := fun retry waiting unusable => { programmedOut with hs := { programmedOut.hs with
      op := .program hist retry 0 31 187500, waiting := waiting, unusable := unusable } }
    let t := fun retry waiting unusable left => after (.programEnd left) (with' retry waiting unusable)
    (t false none [] [0, 0, 0]).hs.op = .erase hist true 1 0 ∧ (t true (some hist) [] [0, 0, 0]).hs.op = .erase hist false 1 0 ∧
    (t true (some hist) [] []).hs.waiting = none ∧ (t true (some hist) [] []).au.records.historyFault.raises = 0 ∧
    (t false (some hist) [0, 1, 2, 3] [0, 0, 0]).au.records.historyFault.raises = 3 ∧
    (t true none [] (List.replicate 32 0xFF)).hs.area = [] := by decide +kernel

theorem test_slot_holds_its_record :
    parseRecord (History.slotBytes { station.hs with area := Memory.writeBytes [] 32 hist.slot } 0 1) = some hist := by
  decide +kernel

/-- The start scan of an area with slot 1 of sector 2 programmed and slot 0 not: the sector is marked, and the seed found,
whether or not a completion has set F. -/
theorem witness_recordOperationsEnd_scan :
    let s := { station with hs := { station.hs with area := Memory.writeBytes [] (slotBase 2 1) hist.slot } }
    let f := { s with du := { s.du with fSet := true } }
    let t := after .startScanComplete s
    s.hs.scanning = true ∧ s.hs.area.wf = true ∧ t.hs.needsErase = [2] ∧ t.hs.seed = some ⟨hist, 2, 1⟩ ∧
    t.hs.nextSlot = 2 ∧ t.du.f = 2502400 ∧ (after .startScanComplete f).hs.lastSeq = 1 ∧
    (after .startScanComplete f).du.f = 0 := by decide +kernel

theorem test_seed_is_the_last_of_the_highest :
    bestSeed [⟨hist, 0, 1⟩, ⟨{ hist with seq := 9 }, 0, 2⟩, ⟨{ hist with seq := 9 }, 3, 0⟩] =
      some ⟨{ hist with seq := 9 }, 3, 0⟩ := by decide

theorem witness_recordReadBackAsProgrammed : hist.Wf :=
  ⟨by decide, ⟨by decide, by decide⟩, by decide, by decide, by decide⟩

/-- A committed slot whose check differs, or whose sequence number is 0, holds no valid record (R159). -/
theorem witness_recordReadBackAsProgrammed_invalid :
    let altered := hist.slot.set 17 0
    let zero := ({ hist with seq := 0 } : HistRecord).slot
    altered.length = 32 ∧ slotState altered = .committed ∧ parseRecord altered = none ∧ parseRecord hist.slot = some hist ∧
    slotState zero = .committed ∧ parseRecord zero = none := by decide +kernel

/-! ### The timing outputs -/

/-- The station at 1 s with every edge due there and RESUMING outputs. -/
def edges : State :=
  { station with
    tb := { station.tb with counter := ⟨1, 0, 0⟩ }
    ou := { station.ou with
      pps := ⟨0, some secU, none, .resuming⟩
      frame := ⟨0, some secU, 0, none, none, .running, .resuming⟩
      fout0 := ⟨some secU, true, false, 0, .resuming⟩ } }

theorem witness_edgesDrivenWhenDue_rising :
    let shadow := { edges with ou := { edges.ou with frameShadow := some 3 } }
    edges.held = .nothing ∧ edges.ou.pps.next = some secU ∧ edges.ou.frame.next = some secU ∧ edges.ou.frameShadow = none ∧
    (edges.ou.fout .fout0).next = some secU ∧
    ((edges.tb.counter.value : Int) - (secU : Nat)) % scaleU < (scaleU / 2 : Nat) ∧
    shadow.ou.frameShadow = some 3 ∧ shadow.ou.frame.number = 0 ∧ (0 : Int) ≤ 3 ∧
    (after .ppsPulseTime edges).ou.pps.pulse = some ⟨12500000, 127⟩ ∧
    (after .frameBoundary shadow).ou.frame.next = some (secU + 3 * nsU) ∧
    (after (.foutEdge .fout0) edges).ou.fout0.level = true := by decide

theorem witness_edgesDrivenWhenDue_falling :
    let p : Option Pulse := some ⟨0, 0⟩
    let s := { station with ou := { station.ou with
      pps := ⟨0, none, p, .stopping⟩, frame := ⟨0, none, 0, p, p, .running, .stopping⟩ } }
    let up := { station with ou := { station.ou with pps := ⟨0, none, some ⟨1, 0⟩, .running⟩ } }
    s.ou.pps.pulse = some ⟨0, 0⟩ ∧ s.ou.frame.pulse = some ⟨0, 0⟩ ∧ s.ou.frame.pulse0 = some ⟨0, 0⟩ ∧
    station.ou.pulseLevel .pps = false ∧ up.ou.pps.pulse = some ⟨1, 0⟩ ∧
    (after (.pulseEnd .pps) s).ou.pps.squelch = .squelched ∧ (after (.pulseEnd .frame) s).ou.frame.squelch = .running ∧
    (after (.pulseEnd .frame0) s).ou.frame.squelch0 = .squelched ∧ (after (.pulseEnd .pps) up).ou.pps.pulse.isSome = true := by
  decide

/-- The place of an edge: at the tick's start, at its last 1/128, at its end, and outside it. -/
theorem witness_edgesDrivenWhenDue_places :
    let b := { station.tb with counter := ⟨1, 0, 0⟩ }
    0 < b.lastInc ∧ ((secU : Int) - ((b.counter.value : Int) - b.lastInc) - b.lastInc) % scaleU = 0 ∧
    b.edgePos (secU - 34359738368) = 0 ∧ b.edgePos (secU - 268435456) = 127 ∧ b.edgePos (secU - 268435457) = 126 ∧
    b.edgePos secU = 127 ∧ b.edgePos (secU + 1) = 127 ∧ b.edgePos (secU - 34359738369) = 0 := by decide

theorem witness_edgesDrivenWhenDue_fout :
    let g := fun squelch rising => { edges with ou := { edges.ou with fout1 := ⟨some secU, rising, !rising, 9, squelch⟩ } }
    (((g .stopping false)).ou.fout .fout1).next = some secU ∧ Past (g .stopping false).tb.counter.value secU ∧
    (after (.foutEdge .fout1) (g .stopping false)).ou.fout1.squelch = .squelched ∧
    (after (.foutEdge .fout1) (g .stopping false)).ou.fout1.level = false ∧
    (after (.foutEdge .fout1) (g .resuming false)).ou.fout1.squelch = .resuming ∧
    (after (.foutEdge .fout1) (g .resuming false)).ou.fout1.level = true ∧
    (after (.foutEdge .fout1) (g .squelched true)).ou.fout1.level = false ∧
    (after (.foutEdge .fout1) (g .running true)).ou.fout1.pos = 127 :=
  ⟨by decide, by unfold Past; decide, by decide⟩

theorem witness_permitJudgedAtPublication :
    let s := { tracking with
      ou := { tracking.ou with txok := false, holdoff := 4 }, conds := { tracking.conds with permitLost := true } }
    s.mp.status = .good ∧ s.du.pub.state = .track ∧ s.du.pub.bound ≤ s.mp.params.budget ∧ s.au.gating = false ∧
    (s.published State.judgePermit).ou.txok = true ∧ (s.published State.judgePermit).conds.permitLost = false ∧
    ({ s with du := { s.du with pub := .free } }.published State.judgePermit).conds.permitLost = false ∧
    ({ s with du := { s.du with pub := { s.du.pub with bound := 1101 } } }.published State.judgePermit).ou.holdoff = 0 ∧
    (station.published State.judgePermit).ou.txok = false := by decide

/-- FRAME runs by permit: released to RESUMING as the permit comes, and STOPPING in its pulse as it goes. -/
theorem witness_permitJudgedAtPublication_gates :
    let s := { tracking with ou := { tracking.ou with txok := false, holdoff := 4 } }
    let t := { tracking with
      du := { tracking.du with pub := .free }
      ou := { tracking.ou with frame := { tracking.ou.frame with squelch := .running, pulse := some ⟨9, 0⟩ } } }
    s.mayRun .permit = false ∧ s.ou.frame.squelch = .squelched ∧ (s.published State.judgePermit).ou.frame.squelch = .resuming ∧
    t.mayRun .permit = true ∧ t.ou.frame.squelch = .running ∧ (t.published State.judgePermit).ou.frame.squelch = .stopping ∧
    (t.published State.judgePermit).ou.fout1.squelch = .squelched ∧ tracking.stat0 = true ∧ tracking.stat1 = true ∧
    station.stat0 = false ∧ (withPeer (peer 3 .valid)).pt.allTraceable = true ∧ station.pt.allTraceable = false := by decide

end Sys2Proof.Tests
end

section
/-! SUPPORT. The increment formed from F (R3): the rounding is odd in its dividend, and within F's range the sum is never
cut off at zero. -/

namespace Sys2Proof.Machine

/-- For a dividend of at least 0, rounding half away from zero is rounding half up (00, section 4.5). -/
theorem roundDiv_of_nonneg {n : Int} (d : Nat) (hn : 0 ≤ n) : roundDiv n d = (2 * n + d) / (2 * d) := by
  rw [roundDiv, if_neg (not_lt.mpr hn)]
  push_cast
  rw [abs_of_nonneg hn]

theorem roundDiv_zero (d : Nat) : roundDiv 0 d = 0 := by
  have half_lt : d / (2 * d) = 0 := by
    rw [Nat.div_eq_zero_iff]
    omega
  simp [roundDiv, half_lt]

/-- Equal sizes round to equal sizes: the sign of the dividend is the sign of the correction (R3). -/
theorem roundDiv_neg (n : Int) (d : Nat) : roundDiv (-n) d = -roundDiv n d := by
  obtain hn | rfl | hn := lt_trichotomy n 0
  · rw [roundDiv, roundDiv, if_neg (by omega), if_pos hn, Int.natAbs_neg, neg_neg]
  · rw [neg_zero, roundDiv_zero, neg_zero]
  · rw [roundDiv, roundDiv, if_pos (by omega), if_neg (by omega), Int.natAbs_neg]

/-- Within F's range R3's sum is positive, so it is the increment itself. -/
theorem incrementOf_eq_add_roundDiv {f : Int} (h : inF f) :
    (incrementOf f : Int) = 34359738368 + roundDiv (34359738368 * f) 1000000000000 := by
  have hpos : 34356302394 ≤ incrementOf f := (incrementOf_range h).1
  unfold incrementOf at *
  omega

theorem incrementOf_of_nonneg {f : Int} (h : inF f) (hf : 0 ≤ f) :
    (incrementOf f : Int) = 34359738368 + (2 * (34359738368 * f) + 1000000000000) / 2000000000000 := by
  rw [incrementOf_eq_add_roundDiv h, roundDiv_of_nonneg _ (by omega)]
  rfl

theorem incrementOf_of_nonpos {f : Int} (h : inF f) (hf : f ≤ 0) :
    (incrementOf f : Int) = 34359738368 - (2 * (34359738368 * -f) + 1000000000000) / 2000000000000 := by
  have hneg : 34359738368 * f = -(34359738368 * -f) := by ring
  rw [incrementOf_eq_add_roundDiv h, hneg, roundDiv_neg, roundDiv_of_nonneg _ (by omega)]
  rfl

/-- Settles O11: the two signs of F by the rounding's oddness, the limits by `incrementOf_range`, and R3's table by
evaluation. -/
theorem incrementFormedFromF : Obligations.IncrementFormedFromF := by
  refine ⟨fun f h => ⟨incrementOf_of_nonneg h, incrementOf_of_nonpos h, incrementOf_range h⟩, ?zero, ?typical, ?top, ?bottom⟩
  case zero => decide
  case typical => decide
  case top => decide
  case bottom => decide

end Sys2Proof.Machine
end

section
/-! SUPPORT. Samples (R73 to R76): the reduction modulo the time scale, what a record is found by, and one equation for
each thing a beacon's report can do to an entry. -/

namespace Sys2Proof.Machine

/-! ### Reduction and search -/

/-- The reduced value is the only one of its residue in the range (R74). -/
theorem wrapSigned_eq {m : Nat} {a v : Int} (hmod : (a - v) % m = 0) (hlo : -(m / 2 : Nat) ≤ a) (hhi : a < (m / 2 : Nat)) :
    wrapSigned m v = a := by
  have hres : v % m = a % m := (Int.emod_eq_emod_iff_emod_sub_eq_zero.mpr hmod).symm
  rw [wrapSigned, hres]
  obtain hneg | hpos := lt_or_ge a 0
  · have hup : a % m = a + m := by
      rw [← Int.add_emod_right, Int.emod_eq_of_lt (by omega) (by omega)]
    rw [hup, if_neg (by omega), add_sub_cancel_right]
  · rw [Int.emod_eq_of_lt hpos (by omega), if_pos hhi]

/-- Where no two of a list bear the same key, an element is what its key finds. -/
theorem find?_key_eq_some {α β : Type} [BEq β] [LawfulBEq β] {key : α → β} {l : List α} {x : α} (hx : x ∈ l)
    (hl : (l.map key).Nodup) : l.find? (fun y => key y == key x) = some x := by
  cases hf : l.find? (fun y => key y == key x) with
  | none => exact absurd (beq_self_eq_true (key x)) (List.find?_eq_none.mp hf x hx)
  | some y =>
    have hkey : key y = key x := eq_of_beq (List.find?_some (p := fun y => key y == key x) hf)
    rw [List.inj_on_of_nodup_map hl (List.mem_of_find?_eq_some hf) hx hkey]

/-- The transmit history answers with the stamp of the transmission of the sequence asked for (R51). -/
theorem Line.sentStamp_of_mem {l : Line} {h : Sent} (hh : h ∈ l.history) (hl : (l.history.map Sent.seq).Nodup) :
    l.sentStamp h.seq = some h.stamp := by
  rw [Line.sentStamp, find?_key_eq_some hh hl, Option.map_some]

theorem Line.sentStamp_of_absent {l : Line} {seq : Byte} (h : ∀ x ∈ l.history, x.seq ≠ seq) : l.sentStamp seq = none := by
  simpa [Line.sentStamp] using h

/-! ### The check of a sample, and the ring (R75, R76) -/

theorem pushSample_eq (ring : List Sample) (x : Sample) : pushSample ring x = (ring ++ [x]).drop (ring.length - 3) := rfl

theorem two_le_pushSample_length (ring : List Sample) (x : Sample) : 2 ≤ (pushSample ring x).length ↔ 1 ≤ ring.length := by
  rw [pushSample_length]
  omega

theorem Entry.take_of_outside (e : Entry) {dMax : Nat} {x : Sample} (h : x.delay < -320 ∨ 16000 * (dMax : Int) < x.delay) :
    e.take dMax x = { e with faults := min 65535 (e.faults + 1) } := by
  rw [Entry.take, if_pos (by push_cast; exact h), satAdd]

theorem Entry.take_of_within (e : Entry) {dMax : Nat} {x : Sample} (hlo : -320 ≤ x.delay)
    (hhi : x.delay ≤ 16000 * (dMax : Int)) :
    e.take dMax x = { e with
      ring := (e.ring ++ [{ x with delay := max 0 x.delay }]).drop (e.ring.length - 3)
      state := if e.state = .new ∧ 1 ≤ e.ring.length then .valid else e.state } := by
  rw [Entry.take, if_neg (by push_cast; omega)]
  simp only [two_le_pushSample_length]
  rw [pushSample_eq]

/-! ### What a beacon gives an entry (R73, R51) -/

section
variable {e : Entry} {own dMax : Nat} {l : Line} {b : Beacon}

theorem Entry.measure_without_stamp : e.measure own dMax l b none = e := rfl

theorem Entry.measure_of_unreported {t4 : Option Stamp} (h : ∀ r ∈ b.reports, r.addr ≠ own) :
    e.measure own dMax l b t4 = e := by
  have hnone : b.reports.find? (fun r => r.addr == own) = none := by simpa using h
  cases t4 <;> simp [Entry.measure, hnone]

theorem Entry.measure_of_unmeasurable {t4 : Option Stamp} (h : e.measurable = false) : e.measure own dMax l b t4 = e := by
  unfold Entry.measure
  split
  · simp [h]
  · rfl

theorem Entry.measure_of_unsent {t : Stamp} {r : Report} (hm : e.measurable = true)
    (hr : b.reports.find? (fun r => r.addr == own) = some r) (hs : l.sentStamp r.seq = none) :
    e.measure own dMax l b (some t) = { e with unmatched := min 65535 (e.unmatched + 1) } := by
  simp [Entry.measure, hr, hm, hs, satAdd]

theorem Entry.measure_of_sent {t t1 : Stamp} {r : Report} (hm : e.measurable = true)
    (hr : b.reports.find? (fun r => r.addr == own) = some r) (hs : l.sentStamp r.seq = some t1) :
    e.measure own dMax l b (some t) = e.take dMax (formSample t1 r.time b.stamp t) := by
  simp [Entry.measure, hr, hm, hs]

end

/-- Settles O49: the reduced differences are unique in their range, a sample is taken or counted by its delay, and a
beacon's report of this station, being the only one, is matched against the only transmission of its sequence. -/
theorem samplesFormedAndChecked : Obligations.SamplesFormedAndChecked := by
  refine ⟨?formed, ?checked, ?given⟩
  case formed =>
    intro t1 t2 t3 t4 a b ha halo hahi hb hblo hbhi
    rw [formSample, wrapSigned_eq ha halo hahi, wrapSigned_eq hb hblo hbhi]
  case checked =>
    intro e dMax x
    refine ⟨e.take_of_outside, fun hlo hhi => ?_⟩
    rw [e.take_of_within hlo hhi]
    exact ⟨rfl, rfl, rfl⟩
  case given =>
    intro e own dMax l b t4
    refine ⟨?none, ?some⟩
    case none =>
      rintro (rfl | hrep | hstale | hlocked)
      · exact Entry.measure_without_stamp
      · exact Entry.measure_of_unreported hrep
      · exact Entry.measure_of_unmeasurable (by simp [Entry.measurable, hstale])
      · exact Entry.measure_of_unmeasurable (by simp [Entry.measurable, hlocked])
    case some =>
      rintro t rfl r hr rfl hreports hstate
      have hm : e.measurable = true := decide_eq_true hstate
      have hfind := find?_key_eq_some hr hreports
      refine ⟨fun habsent => Entry.measure_of_unsent hm hfind (Line.sentStamp_of_absent habsent), fun h hh hseq hsent => ?_⟩
      exact Entry.measure_of_sent hm hfind (hseq ▸ Line.sentStamp_of_mem hh hsent)

end Sys2Proof.Machine
end

section
/-! SUPPORT. The combine (R113 to R116): the library's sort behind the source list, the size of a weight, the weighted
mean, and what each peer of the snapshot is handed back. -/

namespace Sys2Proof.Machine

/-! ### The order of selection and of the source list (R112, R127) -/

section
variable {α : Type} (le : α → α → Bool)

theorem insertBy_eq_orderedInsert (a : α) (l : List α) : insertBy le a l = l.orderedInsert (fun a b => le a b) a := by
  induction l with
  | nil => rfl
  | cons b bs ih =>
    rw [List.orderedInsert_cons, ← ih]
    rfl

theorem sortBy_eq_insertionSort (l : List α) : sortBy le l = l.insertionSort (fun a b => le a b) := by
  induction l with
  | nil => rfl
  | cons a l ih => rw [List.insertionSort_cons, ← ih, ← insertBy_eq_orderedInsert]; rfl

theorem sortBy_perm (l : List α) : (sortBy le l).Perm l := by
  rw [sortBy_eq_insertionSort]
  exact List.perm_insertionSort _ l

theorem sortBy_pairwise (htotal : ∀ a b, le a b ∨ le b a) (htrans : ∀ a b c, le a b → le b c → le a c) (l : List α) :
    (sortBy le l).Pairwise (fun a b => le a b) := by
  have : Std.Total (fun a b => le a b = true) := ⟨htotal⟩
  have : IsTrans α (fun a b => le a b = true) := ⟨htrans⟩
  rw [sortBy_eq_insertionSort]
  exact List.pairwise_insertionSort _ l

end

theorem Candidate.heavier_iff (a b : Candidate) :
    a.heavier b = true ↔ b.weight < a.weight ∨ a.weight = b.weight ∧ a.addr ≤ b.addr :=
  decide_eq_true_iff

theorem Candidate.heavier_total (a b : Candidate) : a.heavier b = true ∨ b.heavier a = true := by
  simp only [Candidate.heavier_iff]
  omega

theorem Candidate.heavier_trans (a b c : Candidate) (hab : a.heavier b = true) (hbc : b.heavier c = true) :
    a.heavier c = true := by
  simp only [Candidate.heavier_iff] at *
  omega

theorem pairwise_sortBy_heavier (cs : List Candidate) :
    (sortBy Candidate.heavier cs).Pairwise (fun a b => b.weight < a.weight ∨ a.weight = b.weight ∧ a.addr ≤ b.addr) :=
  (sortBy_pairwise _ Candidate.heavier_total Candidate.heavier_trans cs).imp fun h => (Candidate.heavier_iff _ _).mp h

/-! ### The weight (R113) -/

section
variable {c : Candidate} {cs : List Candidate}

theorem Candidate.weight_of_unc_zero (h : c.unc = 0) : c.weight = 2 ^ 40 := if_pos h

theorem Candidate.weight_of_unc_ne_zero (h : c.unc ≠ 0) : c.weight = 2 ^ 40 / c.unc ^ 2 := by
  rw [sq]
  exact if_neg h

/-- 256 is 2^40 over the square of 65,536, which no uncertainty of 16 bits reaches (R113). -/
theorem Candidate.le_weight (h : c.unc ≤ 65535) : 256 ≤ c.weight := by
  by_cases hzero : c.unc = 0
  · rw [Candidate.weight_of_unc_zero hzero]
    omega
  · have hsq : c.unc ^ 2 ≤ 65535 ^ 2 := Nat.pow_le_pow_left h 2
    rw [Candidate.weight_of_unc_ne_zero hzero, Nat.le_div_iff_mul_le (by positivity)]
    omega

theorem sum_weight_pos (hcs : cs ≠ []) (h : ∀ c ∈ cs, c.unc ≤ 65535) : 0 < (cs.map Candidate.weight).sum := by
  obtain ⟨c, rest, rfl⟩ := List.exists_cons_of_ne_nil hcs
  have hc : 256 ≤ c.weight := Candidate.le_weight (h c List.mem_cons_self)
  rw [List.map_cons, List.sum_cons]
  omega

end

/-! ### The combined offset (R114) -/

/-- A multiple of the divisor is divided without a rest, so nothing is rounded. -/
theorem roundDiv_mul_cancel (v : Int) {d : Nat} (hd : 0 < d) : roundDiv (d * v) d = v := by
  have hnear : 2 * (roundDiv (d * v) d * d - d * v).natAbs ≤ d := (roundDiv_spec (d * v) hd).1
  rw [mul_comm (d : Int) v, ← sub_mul, Int.natAbs_mul, Int.natAbs_natCast] at hnear
  have hdiff : (roundDiv (v * d) d - v).natAbs = 0 := by
    by_contra hne
    have hle := Nat.le_mul_of_pos_left d (Nat.pos_of_ne_zero hne)
    omega
  rw [mul_comm]
  omega

theorem combinedOffset_of_ne_nil {cs : List Candidate} (h : cs ≠ []) :
    combinedOffset cs =
      some (roundDiv (cs.map fun c => (c.weight : Int) * c.offset).sum (cs.map Candidate.weight).sum) :=
  if_neg (by simpa using h)

theorem combinedOffset_singleton {c : Candidate} (h : 0 < c.weight) : combinedOffset [c] = some c.offset := by
  rw [combinedOffset_of_ne_nil (List.cons_ne_nil c [])]
  simp [roundDiv_mul_cancel c.offset h]

theorem Discipline.complete_lastX (d : Discipline) (p : Params) (h : History) (n : Snapshot) :
    (d.complete p h n).du.lastX = (combinedOffset (n.contributors p.address p.m)).getD d.lastX := rfl

/-- Settles O28: the rounding is `roundDiv_spec` over a sum of weights that is never 0, and a single weight cancels. -/
theorem combinedOffsetIsWeightedMean : Obligations.CombinedOffsetIsWeightedMean := by
  refine ⟨rfl, Discipline.complete_lastX, fun cs hcs hunc => ?_⟩
  have hpos : 0 < (cs.map Candidate.weight).sum := sum_weight_pos hcs hunc
  obtain ⟨hnear, htie⟩ := roundDiv_spec (cs.map fun c => (c.weight : Int) * c.offset).sum hpos
  refine ⟨_, combinedOffset_of_ne_nil hcs, hnear, htie, ?single⟩
  case single =>
    rintro c rfl
    have hc : 0 < c.weight := by simpa using hpos
    exact Option.some.inj ((combinedOffset_of_ne_nil hcs).symm.trans (combinedOffset_singleton hc))

/-! ### What goes back to the peer table (R115, R116) -/

/-- What one peer of the snapshot is handed back by a completion with contributors `cs` and offset `x` (R116). -/
def Estimate.handedBack (d : Nat) (cs : List Candidate) (x : Option Int) (e : Estimate) : WriteBack where
  addr := e.addr
  weight := (cs.find? fun c => c.addr == e.addr).map Candidate.weight
  verdict := if 3 ≤ cs.length then x.map fun v => e.disagrees d v else none

theorem Snapshot.writeBack_eq_map (n : Snapshot) (d : Nat) (cs : List Candidate) (x : Option Int) :
    n.writeBack d cs x = n.peers.map (Estimate.handedBack d cs x) := rfl

theorem Snapshot.handedBack_mem {n : Snapshot} {e : Estimate} (he : e ∈ n.peers) (d : Nat) (cs : List Candidate)
    (x : Option Int) : e.handedBack d cs x ∈ n.writeBack d cs x := by
  rw [Snapshot.writeBack_eq_map]
  exact List.mem_map_of_mem he

section
variable {e : Estimate} {d : Nat} {cs : List Candidate} {x : Option Int}

@[simp] theorem Estimate.handedBack_addr : (e.handedBack d cs x).addr = e.addr := rfl

theorem Snapshot.writeBack_map_addr (n : Snapshot) :
    (n.writeBack d cs x).map WriteBack.addr = n.peers.map Estimate.addr := by
  simp [Snapshot.writeBack_eq_map, Function.comp_def]

theorem Estimate.handedBack_weight :
    (e.handedBack d cs x).weight = (cs.find? fun c => c.addr == e.addr).map Candidate.weight := rfl

theorem Estimate.handedBack_weight_isSome :
    (e.handedBack d cs x).weight.isSome ↔ ∃ c ∈ cs, c.addr = e.addr := by
  simp [Estimate.handedBack_weight]

/-- A contributor is handed its own weight, the addresses of the contributors being different (R113). -/
theorem Estimate.handedBack_weight_of_mem {c : Candidate} (hc : c ∈ cs) (hcs : (cs.map Candidate.addr).Nodup)
    (haddr : c.addr = e.addr) : (e.handedBack d cs x).weight = some c.weight := by
  rw [Estimate.handedBack_weight, ← haddr, find?_key_eq_some hc hcs, Option.map_some]

theorem Estimate.handedBack_verdict_none (h : cs.length < 3 ∨ x = none) : (e.handedBack d cs x).verdict = none := by
  obtain hfew | rfl := h
  · exact if_neg (by omega)
  · exact ite_self none

theorem Estimate.disagrees_eq (v : Int) :
    e.disagrees d v = decide (16 * d < (e.offset - v).natAbs ∧ 16 * e.unc < (e.offset - v).natAbs) :=
  decide_eq_decide.mpr (by omega)

theorem Estimate.handedBack_verdict_some {v : Int} (h : 3 ≤ cs.length) :
    (e.handedBack d cs (some v)).verdict = some (e.disagrees d v) := if_pos h

end

/-- Settles O25: the weight by cases on an uncertainty of 0, the write-back by the contributors' addresses, and the
source list by the sort behind it. -/
theorem weightFromUncertainty : Obligations.WeightFromUncertainty := by
  refine ⟨fun c => ⟨Candidate.weight_of_unc_zero, Candidate.weight_of_unc_ne_zero, ?least, Candidate.le_weight⟩,
    fun cs hcs hunc => (sum_weight_pos hcs hunc).ne', ?handed, fun cs => ?listed⟩
  case least =>
    intro h
    rw [Candidate.weight_of_unc_ne_zero (by omega), h]
    rfl
  case handed =>
    intro n d cs x e c he hc hcs haddr
    exact ⟨_, Snapshot.handedBack_mem he d cs x, rfl, Estimate.handedBack_weight_of_mem hc hcs haddr⟩
  case listed => exact ⟨_, sortBy_perm _ _, pairwise_sortBy_heavier _, rfl⟩

/-- Settles O29: a peer's record in the write-back is the one handed back for it, whose flag and verdict the
contributors and x decide. -/
theorem verdictsFollowOffset : Obligations.VerdictsFollowOffset := by
  refine fun n d cs x => ⟨n.writeBack_map_addr, fun e he => ?_⟩
  refine ⟨_, Snapshot.handedBack_mem he d cs x, rfl, Estimate.handedBack_weight_isSome,
    Estimate.handedBack_verdict_none, ?_⟩
  rintro v rfl hthree
  rw [Estimate.handedBack_verdict_some hthree, Estimate.disagrees_eq]

end Sys2Proof.Machine
end

section
/-! SUPPORT. Steering (R117 to R120, R123, R144): F, F_int and the clamp flag of the servo, and the steering each settled
state has. -/

namespace Sys2Proof.Machine

/-! ### The servo (R118, R119) -/

/-- The proportional term of x, or its integral step, with the shift exponent `k` (R118). -/
def servoTerm (k : Nat) (x : Int) : Int := roundDiv (1000 * x) (16 * 2 ^ k)

/-- F_int', the integral moved by its step and clamped (R118). -/
def integralMoved (i : Nat) (fInt x : Int) : Int := max (-100000000) (min 100000000 (fInt + servoTerm i x))

theorem servoTerm_eq (k : Nat) (x : Int) : servoTerm k x = roundDiv (1000 * x) (2 ^ (k + 4)) := by
  rw [pow_add, mul_comm (2 ^ k)]
  rfl

theorem integralMoved_eq (i : Nat) (fInt x : Int) :
    integralMoved i fInt x = clampInt (-fLimit) fLimit (fInt + roundDiv (1000 * x) (2 ^ (i + 4))) := by
  rw [← servoTerm_eq]
  rfl

/-- The output clamp is active on `v` (R119). -/
theorem beyond_iff (v : Int) : beyond v = true ↔ v < -100000000 ∨ 100000000 < v := decide_eq_true_iff

theorem servo_eq (p i : Nat) (fInt x : Int) :
    servo p i fInt x =
      ⟨max (-100000000) (min 100000000 (integralMoved i fInt x + servoTerm p x)),
        if !beyond (integralMoved i fInt x + servoTerm p x) ∨ (integralMoved i fInt x).natAbs < fInt.natAbs
          then integralMoved i fInt x else fInt,
        none, some (beyond (integralMoved i fInt x + servoTerm p x))⟩ := by
  rw [integralMoved_eq, servoTerm_eq]
  rfl

section
variable {p i : Nat} {fInt x : Int}

theorem servo_clamp_iff : (servo p i fInt x).clamp = some true ↔ beyond (integralMoved i fInt x + servoTerm p x) = true := by
  rw [servo_eq, Option.some_inj]

theorem servo_fInt_of_within (h : ¬beyond (integralMoved i fInt x + servoTerm p x) = true) :
    (servo p i fInt x).fInt = integralMoved i fInt x := by
  rw [servo_eq]
  exact if_pos (.inl (by simpa using h))

/-- The anti-windup: under an active clamp the integral moves only towards zero (R119). -/
theorem servo_fInt_of_beyond (h : beyond (integralMoved i fInt x + servoTerm p x) = true) :
    (servo p i fInt x).fInt =
      if (integralMoved i fInt x).natAbs < fInt.natAbs then integralMoved i fInt x else fInt := by
  simp [servo_eq, h]

end

/-! ### The steering of each settled state (R107) -/

section
variable {p : Params} {f fInt x hold : Int}

theorem steer_acquire :
    steer p .acquire f fInt (some x) hold =
      if within x p.s then servo p.p p.i fInt x else stepSteering fInt x := rfl

theorem steer_acquire_of_large (h : 16 * p.s < x.natAbs) :
    steer p .acquire f fInt (some x) hold = ⟨fInt, fInt, some x, some false⟩ := by
  have hout : within x p.s = false := decide_eq_false (by omega)
  rw [steer_acquire, hout]
  rfl

theorem steer_acquire_of_within (h : x.natAbs ≤ 16 * p.s) :
    steer p .acquire f fInt (some x) hold = servo p.p p.i fInt x := by
  have hin : within x p.s = true := decide_eq_true h
  rw [steer_acquire, if_pos hin]

theorem steer_holdover {st : DState} (h : st = .hold ∨ st = .lapsed) (x : Option Int) :
    steer p st f fInt x hold = ⟨max (-100000000) (min 100000000 hold), fInt, none,
      some (decide (hold < -100000000 ∨ 100000000 < hold))⟩ := by
  obtain rfl | rfl := h <;> rfl

end

/-- Settles O31: the servo by whether its output clamp is active, and the steering of each state with and without x. -/
theorem steeringOfEachKind : Obligations.SteeringOfEachKind := by
  refine ⟨?servo, fun _ _ _ _ _ => steer_acquire_of_large, fun _ _ _ _ _ => steer_acquire_of_within, ?track, ?coast,
    fun _ _ _ _ _ x h => steer_holdover h x⟩
  case servo =>
    intro p i fInt x fp cand active
    have hactive : beyond (integralMoved i fInt x + servoTerm p x) = true ↔ active := beyond_iff _
    refine ⟨?_, servo_clamp_iff.trans hactive, ?_, fun h => servo_fInt_of_within (mt hactive.mp h),
      fun h => servo_fInt_of_beyond (hactive.mpr h)⟩
    · rw [servo_eq]
      rfl
    · rw [servo_eq]
  case track => exact fun _ _ _ _ _ => rfl
  case coast => exact fun _ _ _ _ x => ⟨by cases x <;> rfl, rfl, rfl⟩

end Sys2Proof.Machine
end

section
/-! SUPPORT. The hold request (R148, R149): a loaded part carries out a command with its right number of argument bytes, and
FORCE_HOLD's work by its two conditions. -/

namespace Sys2Proof.Machine

/-! ### A command carried out (R214, R215) -/

section
variable {s : State} {code : Byte} {len : Nat} {args : List Byte}

/-- A running part with its configuration loaded carries a command of the right length out and answers what its work
answers; `State.command_cases` without the ways a command can fail to be carried out. -/
theorem State.command_carried_out (hheld : s.held = .nothing) (hloaded : s.mp.status = .good ∨ s.mp.status = .adjusted)
    (hlen : args.length = len) (body : State → State × Reply) :
    s.command false code len args body =
      .next ((body (s.sentNothing (1 + args.length))).1.answer code (body (s.sentNothing (1 + args.length))).2) := by
  have hdeaf : s.deaf false = false := by obtain h | h := hloaded <;> simp [State.deaf, h]
  have hfault : s.mp.status ≠ .fault := by obtain h | h := hloaded <;> simp [h]
  rw [State.command, State.event_running hheld]
  simp [State.perform, hdeaf, hfault, hlen]

end

/-! ### FORCE_HOLD's two conditions (R148) -/

theorem History.valid_iff (h : History) : h.valid = true ↔ 8 ≤ h.ring.length ∨ h.seed.isSome = true := by
  rw [History.valid, Bool.or_eq_true, decide_eq_true_iff]

/-- The hold can be forced: the published state is TRACK, HOLD or LAPSED, and the history is valid (R148). -/
def State.HoldForcible (s : State) : Prop :=
  (s.du.pub.state = .track ∨ s.du.pub.state = .hold ∨ s.du.pub.state = .lapsed) ∧
    (8 ≤ s.hs.ring.length ∨ s.hs.seed.isSome = true)

/-- Either condition failing is the hold not being forcible: the states left over are FREE and ACQUIRE. -/
theorem State.not_holdForcible_iff (s : State) :
    ¬s.HoldForcible ↔
      s.du.pub.state = .free ∨ s.du.pub.state = .acquire ∨ s.hs.ring.length < 8 ∧ s.hs.seed = none := by
  have hhistory : ¬(8 ≤ s.hs.ring.length ∨ s.hs.seed.isSome = true) ↔ s.hs.ring.length < 8 ∧ s.hs.seed = none := by
    simp
  rw [State.HoldForcible, not_and_or, hhistory]
  cases s.du.pub.state <;> simp

section
variable {s : State}

theorem State.forceHold_of_forcible (h : s.HoldForcible) :
    s.forceHold = ({ s with du := { s.du with holdReq := true } }, .ok []) :=
  if_pos ⟨h.1, s.hs.valid_iff.mpr h.2⟩

theorem State.forceHold_of_not_forcible (h : ¬s.HoldForcible) : s.forceHold = (s, .refused) :=
  if_neg fun ⟨hstate, hvalid⟩ => h ⟨hstate, s.hs.valid_iff.mp hvalid⟩

end

/-- Settles O17: both commands are carried out by `State.command_carried_out`, and FORCE_HOLD's work splits on its two
conditions, which stand as data out is cleared. -/
theorem holdRequestSetAndCleared : Obligations.HoldRequestSetAndCleared := by
  intro s hheld hloaded
  have hforce : exec (.forceHold false []) s =
      .next ((s.sentNothing 1).forceHold.1.answer 7 (s.sentNothing 1).forceHold.2) :=
    State.command_carried_out hheld hloaded rfl _
  refine ⟨?set, ?refused, ?cleared⟩
  case set =>
    intro h
    have hforcible : (s.sentNothing 1).HoldForcible := h
    rw [hforce, State.forceHold_of_forcible hforcible]
    rfl
  case refused =>
    intro h
    have hnot : ¬(s.sentNothing 1).HoldForcible := s.not_holdForcible_iff.mpr h
    rw [hforce, State.forceHold_of_not_forcible hnot]
    rfl
  case cleared =>
    exact State.command_carried_out (code := 8) (args := []) hheld hloaded rfl
      fun s => ({ s with du := { s.du with holdReq := false } }, .ok [])

end Sys2Proof.Machine
end

section
/-! SUPPORT. An alarm record under each event (R192, R193, R195 to R198): one equation per event and per state the record
stands in. -/

namespace Sys2Proof.Machine

section
variable {old new r : AlarmRecord}

/-- A changed state is stamped with the event's time (R192). -/
theorem AlarmRecord.touched_of_state_ne (h : new.state ≠ old.state) (now : SecNs) :
    old.touched new now = { new with changed := now } :=
  if_neg fun same => h same.1

/-- A changed condition is stamped with the event's time (R192). -/
theorem AlarmRecord.touched_of_condition_ne (h : new.condition ≠ old.condition) (now : SecNs) :
    old.touched new now = { new with changed := now } :=
  if_neg fun same => h same.2.1

/-! ### Rise and fall (R193, R195, R196) -/

theorem AlarmRecord.rise_of_present (h : r.condition = true) (now : SecNs) : r.rise now = r := if_pos h

theorem AlarmRecord.fall_of_absent (h : r.condition = false) (cls : Class) (now : SecNs) : r.fall cls now = r := by
  simp [AlarmRecord.fall, h]

theorem AlarmRecord.rise_of_absent (h : r.condition = false) (now : SecNs) : r.rise now = { r with
    condition := true, raises := min 65535 (r.raises + 1), first := some (r.first.getD now), changed := now
    state := if r.state = .clear ∨ r.state = .clearedUnacked then .active else r.state
    timer := if r.state = .clear ∨ r.state = .clearedUnacked then 0 else r.timer } := by
  rw [AlarmRecord.rise, if_neg (by simp [h]), AlarmRecord.touched_of_condition_ne (by simp [h])]
  rfl

theorem AlarmRecord.fall_of_active (h : r.condition = true) (hs : r.state = .active) (cls : Class) (now : SecNs) :
    r.fall cls now = { r with
      condition := false, state := .clearedUnacked, effective := cls, timer := 0, changed := now } := by
  simp only [AlarmRecord.fall, h, hs]
  exact AlarmRecord.touched_of_condition_ne (by simp [h]) now

theorem AlarmRecord.fall_of_acked (h : r.condition = true) (hs : r.state = .acked) (cls : Class) (now : SecNs) :
    r.fall cls now = { r with condition := false, state := .clear, changed := now } := by
  simp only [AlarmRecord.fall, h, hs]
  exact AlarmRecord.touched_of_condition_ne (by simp [h]) now

/-! ### Notice (R197) -/

/-- Only a saturated count leaves a notice's raise uncounted. -/
theorem satAdd_one_eq_self_iff (top v : Nat) : satAdd top v 1 = v ↔ v = top := by
  rw [satAdd]
  omega

theorem AlarmRecord.notice_eq (r : AlarmRecord) (now : SecNs) : r.notice now = { r with
    state := .active, raises := min 65535 (r.raises + 1), first := some (r.first.getD now)
    changed := if r.state = .active ∧ r.raises = 65535 then r.changed else now } := by
  rw [AlarmRecord.notice, AlarmRecord.touched]
  by_cases h : r.state = .active ∧ r.raises = 65535
  · obtain ⟨hstate, hraises⟩ := h
    rw [if_pos ⟨hstate.symm, rfl, rfl, (satAdd_one_eq_self_iff ..).mpr hraises⟩, if_pos ⟨hstate, hraises⟩]
    rfl
  · rw [if_neg fun same => h ⟨same.1.symm, (satAdd_one_eq_self_iff ..).mp same.2.2.2⟩, if_neg h]
    rfl

/-! ### Acknowledge (R198) -/

theorem AlarmRecord.ack_of_active (h : r.state = .active) (cls : Class) (now : SecNs) : r.ack cls now = { r with
    state := if cls = .notice then .clear else .acked, effective := cls, timer := 0, changed := now } := by
  simp only [AlarmRecord.ack, h]
  exact AlarmRecord.touched_of_state_ne (by rw [h]; split <;> nofun) now

theorem AlarmRecord.ack_of_clearedUnacked (h : r.state = .clearedUnacked) (cls : Class) (now : SecNs) :
    r.ack cls now = { r with state := .clear, effective := cls, timer := 0, changed := now } := by
  simp only [AlarmRecord.ack, h]
  exact AlarmRecord.touched_of_state_ne (by rw [h]; nofun) now

theorem AlarmRecord.ack_of_settled (h : r.state = .clear ∨ r.state = .acked) (cls : Class) (now : SecNs) :
    r.ack cls now = r := by
  obtain h | h := h <;> simp only [AlarmRecord.ack, h]

end

/-! ### Reports one after the other -/

theorem AlarmRecord.taking_concat (cls : Class) (now : SecNs) (r : AlarmRecord) (l : List Bool) (v : Bool) :
    r.taking cls now (l ++ [v]) =
      if v then (r.taking cls now l).rise now else (r.taking cls now l).fall cls now :=
  AlarmRecord.taking_append cls now r l [v]

end Sys2Proof.Machine
end

section
/-! SUPPORT. What the operations of each block report to the alarm table (R193, R197), and what every command does. An
operation that judges no condition and gives no notice reports nothing; the others are reports one after the other, at one
moment and under one configuration. -/

namespace Sys2Proof.Machine

/-! ### Reports along an event -/

/-- What a report reads and writes: the records, the owners' conditions, the time, and the parameters with the configured
classes. -/
def State.reportView (s : State) : PerKind AlarmRecord × PerKind Bool × Counter × Params :=
  (s.au.records, s.conds, s.tb.counter, s.mp.params)

/-- An operation that leaves all a report reads and writes reports nothing. -/
theorem Reporting.quiet {s t : State} (h : t.reportView = s.reportView) : Reporting s t := by
  simp only [State.reportView, Prod.mk.injEq] at h
  obtain ⟨records, conds, counter, params⟩ := h
  exact .of_eq records conds counter params

/-- What is done before the first report and reports nothing. -/
theorem Reporting.after_quiet {s s' t : State} (h : Reporting s' t) (hs : s'.reportView = s.reportView) : Reporting s t :=
  (Reporting.quiet hs).trans h

theorem Reporting.ite {p : Prop} [Decidable p] {s t u : State} (ht : Reporting s t) (hu : Reporting s u) :
    Reporting s (if p then t else u) := by
  split
  · exact ht
  · exact hu

section
variable {s t : State} {f : State → State}

theorem State.event_reports (h : s.event f = .next t) (hf : Reporting s (f s)) : Reporting s t := by
  obtain ⟨-, rfl⟩ | ⟨-, rfl⟩ := State.event_cases h
  · exact .refl _
  · exact hf

theorem State.whenDue_reports {due : Bool} (h : s.whenDue due f = .next t) (hf : Reporting s (f s)) : Reporting s t := by
  obtain rfl | ⟨-, -, rfl⟩ := State.whenDue_cases h
  · exact .refl _
  · exact hf

/-- A host command reports what its work reports: judging the transaction and answering it report nothing (R214, R215). -/
theorem State.command_reports {early : Bool} {code : Byte} {len : Nat} {args : List Byte} {body : State → State × Reply}
    (h : s.command early code len args body = .next t) (hbody : ∀ s, Reporting s (body s).1) : Reporting s t := by
  refine State.event_reports h ?_
  rw [State.perform]
  have sent : Reporting s (s.sentNothing (1 + args.length)) := .quiet rfl
  have worked := sent.trans (hbody _)
  exact .ite sent (.ite (.quiet rfl) (.ite (.quiet rfl) (worked.trans (.quiet rfl))))

end

/-! ### History store: HISTORY_FAULT (R161, R163, R164) -/

theorem State.placeRecord_reports (s : State) (r : HistRecord) (retry : Bool) : Reporting s (s.placeRecord r retry) :=
  .ite (.after_quiet (State.notice_reports _ (by decide)) rfl) (.quiet rfl)

theorem State.startWaiting_reports (s : State) : Reporting s s.startWaiting := by
  unfold State.startWaiting
  split
  · exact .after_quiet (State.placeRecord_reports _ _ _) rfl
  · exact .refl _

theorem State.placeNext_reports (s : State) (r : HistRecord) (retry : Bool) : Reporting s (s.placeNext r retry) :=
  (s.placeRecord_reports r retry).trans (State.startWaiting_reports _)

theorem State.appendRecord_reports (s : State) (r : HistRecord) : Reporting s (s.appendRecord r) := by
  unfold State.appendRecord
  split
  · exact s.placeRecord_reports r false
  · exact .quiet rfl

theorem State.recordMinute_reports (s : State) (sec : Nat) : Reporting s (s.recordMinute sec) :=
  .ite (.quiet rfl) (.ite (.quiet rfl) (.after_quiet (State.appendRecord_reports _ _) rfl))

theorem State.endProgram_reports (s : State) (r : HistRecord) (retry : Bool) (c : Fin 4) (k : Fin 32) (left : List Byte) :
    Reporting s (s.endProgram r retry c k left) := by
  have fault (u : State) : Reporting u (u.notice .historyFault) := u.notice_reports (by decide)
  unfold State.endProgram
  dsimp only
  refine .ite ?programmed (.ite ?dropped ?retried)
  case programmed => exact .after_quiet (State.startWaiting_reports _) rfl
  case dropped => exact .after_quiet ((fault _).trans (State.startWaiting_reports _)) rfl
  case retried => exact .after_quiet ((fault _).trans (State.placeNext_reports _ _ _)) rfl

theorem State.endErase_reports (s : State) (r : HistRecord) (retry : Bool) (c : Fin 4) (left : List Byte) :
    Reporting s (s.endErase r retry c left) := by
  unfold State.endErase
  dsimp only
  refine .ite ?erased ?unusable
  case erased => exact .after_quiet (State.placeNext_reports _ _ _) rfl
  case unusable => exact .after_quiet ((State.notice_reports _ (by decide)).trans (State.placeNext_reports _ _ _)) rfl

/-! ### Peer table: PEER_LINK, PEER_SUSPECT, TABLE_FULL (R63, R69, R83, R88) -/

theorem State.judgePeers_reports (s : State) : Reporting s s.judgePeers :=
  (s.judge_reports (by decide) _).trans (State.judge_reports _ (by decide) _)

theorem State.putSlot_reports (s : State) (i : Nat) (o : Option Entry) : Reporting s (s.putSlot i o) :=
  .after_quiet (State.judgePeers_reports _) rfl

theorem State.pass_reports (f : Entry → Option Entry) (is : List Nat) (s : State) : Reporting s (State.pass f s is) := by
  induction is generalizing s with
  | nil => exact .refl s
  | cons i is ih =>
    refine Reporting.trans ?_ (ih _)
    split
    · exact s.putSlot_reports _ _
    · exact .refl s

theorem State.peerBoundary_reports (s : State) : Reporting s s.peerBoundary := by
  have aged : Reporting s (s.ageSlots (List.range 24)) := by
    rw [State.ageSlots_eq _ s s rfl rfl]
    exact State.pass_reports _ _ s
  unfold State.peerBoundary
  generalize s.ageSlots (List.range 24) = u at aged ⊢
  exact aged.trans (.after_quiet (State.judge_reports _ (by decide) _) rfl)

theorem State.writeBackCompletion_reports (s : State) (ws : List WriteBack) : Reporting s (s.writeBackCompletion ws) := by
  rw [State.writeBackCompletion, State.writeBackSlots_eq]
  exact State.pass_reports _ _ s

theorem State.measureAt_reports (s : State) (i : Nat) (b : Beacon) (t4 : Option Stamp) (unreported : Bool) :
    Reporting s (s.measureAt i b t4 unreported) := by
  unfold State.measureAt
  split
  · exact s.putSlot_reports _ _
  · exact .refl s

theorem State.acceptAt_reports (s : State) (i : Nat) (e : Entry) (b : Beacon) (t4 : Option Stamp) :
    Reporting s (s.acceptAt i e b t4) :=
  (s.putSlot_reports _ _).trans (State.putSlot_reports _ _ _)

theorem State.admitAt_reports (s : State) (i : Nat) (b : Beacon) (t4 : Option Stamp) : Reporting s (s.admitAt i b t4) :=
  (s.putSlot_reports i none).trans (.after_quiet (State.putSlot_reports _ _ _) rfl)

theorem State.refuse_reports (s : State) : Reporting s s.refuse := .after_quiet (State.judge_reports _ (by decide) _) rfl

theorem State.deliver_reports (s : State) (b : Beacon) (t4 : Option Stamp) (unreported : Bool) :
    Reporting s (s.deliver b t4 unreported) := by
  unfold State.deliver
  split
  case h_1 =>
    split
    · exact (s.acceptAt_reports _ _ _ _).trans (State.measureAt_reports _ _ _ _ _)
    · exact .refl s
  case h_2 =>
    split
    · exact (s.admitAt_reports _ _ _).trans (State.measureAt_reports _ _ _ _ _)
    · exact s.refuse_reports

theorem State.restartPeers_reports (s : State) : Reporting s s.restartPeers :=
  .after_quiet ((State.judgePeers_reports _).trans (State.judge_reports _ (by decide) _)) rfl

theorem State.lockout_reports {s t : State} {addr : Nat} (h : s.lockout addr = some t) : Reporting s t := by
  unfold State.lockout at h
  split at h
  case h_1 =>
    split at h
    · obtain rfl := Option.some.inj h
      exact .ite (.refl s) (s.putSlot_reports _ _)
    · obtain rfl := Option.some.inj h
      exact .refl s
  case h_2 =>
    split at h
    · obtain rfl := Option.some.inj h
      exact s.putSlot_reports _ _
    · exact absurd h nofun

theorem State.lockoutPeer_reports (s : State) (addr : Nat) : Reporting s (s.lockoutPeer addr).1 := by
  unfold State.lockoutPeer
  split
  · split
    · exact State.lockout_reports ‹_›
    · exact .refl s
  · exact .refl s

theorem State.releasePeer_reports (s : State) (addr : Nat) : Reporting s (s.releasePeer addr).1 := by
  unfold State.releasePeer
  repeat' split
  all_goals exact .quiet rfl

/-! ### Discipline unit: NO_CONTRIBUTOR, HOLD_BUDGET, FREQ_CLAMP, PHASE_STEP, HOLD_ENTERED (R107, R151) -/

theorem State.reportCompletion_reports (s : State) (c : Completion) : Reporting s (s.reportCompletion c) := by
  unfold State.reportCompletion
  extract_lets s1 s2 s3 s4
  have budget : Reporting s s2 := (s.judge_reports (by decide) _).trans (s1.judge_reports (by decide) _)
  have clamp : Reporting s s3 := by
    unfold s3
    split
    · exact budget.trans (s2.judge_reports (by decide) _)
    · exact budget
  have step : Reporting s s4 := .ite (clamp.trans (s3.notice_reports (by decide))) clamp
  exact .ite (step.trans (s4.notice_reports (by decide))) step

theorem State.holdBack_reports (s : State) (before : Published) : Reporting s (s.holdBack before) := .quiet rfl

/-- A completion reports its judgements and notices, what its write-back changes of the table's conditions, and what its
publication does to the permit, in whichever order (log 8, log 47). -/
theorem State.completeWith_reports (s : State) (n : Snapshot) (reports back late : Bool) :
    Reporting s (s.completeWith n reports back late) := by
  unfold State.completeWith
  extract_lets c ws s1 s2 s3 s4 s5
  have settled : Reporting s s1 := .quiet rfl
  refine .ite ?heldBack ?published
  case heldBack =>
    have written := (settled.trans (s1.holdBack_reports s.du.pub)).trans (State.writeBackCompletion_reports _ ws)
    exact written.trans (State.reportCompletion_reports _ c)
  case published =>
    have wroteFirst : Reporting s s2 := .ite (settled.trans (s1.writeBackCompletion_reports ws)) settled
    have toldFirst : Reporting s s3 := .ite (wroteFirst.trans (s2.reportCompletion_reports c)) wroteFirst
    have published : Reporting s s4 := toldFirst.trans (s3.published_reports State.judgePermit_reports)
    have wrote : Reporting s s5 := .ite published (published.trans (s4.writeBackCompletion_reports ws))
    exact .ite wrote (wrote.trans (s5.reportCompletion_reports c))

/-! ### Line controller: LINE_CONGESTION, LINE_ERRORS, ADDRESS_CLASH (R35 to R37) -/

theorem State.judgeErrors_reports (s : State) : Reporting s s.judgeErrors := s.judge_reports (by decide) _

theorem State.judgeCongestion_reports (s : State) : Reporting s s.judgeCongestion := s.judge_reports (by decide) _

theorem State.abandon_reports (s : State) : Reporting s s.abandon := .after_quiet (State.judgeCongestion_reports _) rfl

theorem State.pendInJam_reports (s : State) : Reporting s s.pendInJam :=
  .ite (.after_quiet (State.abandon_reports _) rfl) (.quiet rfl)

theorem State.startTx_reports (s : State) : Reporting s s.startTx := .quiet rfl

theorem State.pend_reports (s : State) : Reporting s s.pend :=
  .ite (.after_quiet (State.abandon_reports _) rfl) (.ite (.after_quiet (State.startTx_reports _) rfl) (.quiet rfl))

theorem State.instantReached_reports (s : State) : Reporting s s.instantReached := by
  unfold State.instantReached
  dsimp only
  split
  case h_1 => exact .after_quiet (State.pend_reports _) rfl
  case h_2 => exact .after_quiet ((State.abandon_reports _).trans (State.pend_reports _)) rfl
  case h_3 => exact .after_quiet ((State.abandon_reports _).trans (State.pend_reports _)) rfl
  case h_4 =>
    exact .after_quiet ((Reporting.ite (State.abandon_reports _) (.refl _)).trans (State.pendInJam_reports _)) rfl
  case h_5 => exact .quiet rfl
  case h_6 => exact .quiet rfl

theorem State.collide_reports (s : State) : Reporting s s.collide := by
  unfold State.collide
  extract_lets l preStep s1
  have cut : Reporting s s1 := .quiet rfl
  have abandoned : Reporting s s1.abandon := cut.trans s1.abandon_reports
  split
  · exact .ite (abandoned.trans (.after_quiet (State.pendInJam_reports _) rfl)) (.ite abandoned cut)
  · exact .quiet rfl

theorem State.endJam_reports (s : State) : Reporting s s.endJam := by
  unfold State.endJam
  dsimp only
  split
  · exact .quiet rfl
  · exact .quiet rfl
  · exact .ite (.quiet rfl) (.ite (.quiet rfl) (.quiet rfl))

theorem State.complete_reports (s : State) (r : TxRecord) (stamp : Stamp) : Reporting s (s.complete r stamp) := by
  unfold State.complete
  dsimp only
  split
  · exact .quiet rfl
  · exact .quiet rfl
  · exact .ite (.after_quiet (State.pend_reports _) rfl) (.quiet rfl)

theorem State.discard_reports (s : State) : Reporting s s.discard := .after_quiet (State.judgeErrors_reports _) rfl

theorem State.goodBeacon_reports (s : State) (b : Beacon) : Reporting s (s.goodBeacon b) := by
  unfold State.goodBeacon
  split
  · exact .ite (s.deliver_reports _ _ _) (.after_quiet (State.deliver_reports _ _ _ _) rfl)
  · exact s.deliver_reports _ _ _

theorem State.clashBeacon_reports (s : State) : Reporting s s.clashBeacon :=
  .after_quiet (State.judge_reports _ (by decide) _) rfl

theorem State.receive_reports (s : State) (bytes : List Byte) (whole : Bool) : Reporting s (s.receive bytes whole) := by
  unfold State.receive
  split
  · exact .ite (.ite s.clashBeacon_reports (s.goodBeacon_reports _)) (.refl s)
  · exact s.discard_reports

theorem State.lineBoundary_reports (s : State) (t : Nat) : Reporting s (s.lineBoundary t) := by
  refine Reporting.trans ?drawn ((State.judgeCongestion_reports _).trans (State.judge_reports _ (by decide) _))
  exact .ite (.quiet rfl) (.quiet rfl)

theorem State.windowEpoch_reports (s : State) : Reporting s s.windowEpoch := .after_quiet (State.judgeErrors_reports _) rfl

/-! ### Reference input: REF_LOSS, REF_MISPLACED (R97 to R99) -/

theorem State.yieldSample_reports (s : State) (t : Int) (m : Option Message) (inWindow : Bool) :
    Reporting s (s.yieldSample t m inWindow) := by
  unfold State.yieldSample
  split
  · exact .after_quiet (State.judge_reports _ (by decide) _) rfl
  · exact .ite (.after_quiet (State.judge_reports _ (by decide) _) rfl) (.quiet rfl)

theorem State.openEdge_reports (s : State) (t : Int) : Reporting s (s.openEdge t) := by
  unfold State.openEdge
  split
  · exact .after_quiet (State.yieldSample_reports _ _ _ _) rfl
  · exact .refl s

theorem State.windowEdge_reports (s : State) (t : Int) : Reporting s (s.windowEdge t) :=
  .after_quiet ((State.yieldSample_reports _ _ _ _).trans (State.judge_reports _ (by decide) _)) rfl

theorem State.misplacedEdge_reports (s : State) : Reporting s s.misplacedEdge :=
  .ite (.after_quiet (State.judge_reports _ (by decide) _) rfl) (.quiet rfl)

theorem State.judgeEdge_reports (s : State) (c : Capture) : Reporting s (s.judgeEdge c) := by
  refine .ite (.quiet rfl) ?_
  split
  · exact .ite (s.windowEdge_reports _) s.misplacedEdge_reports
  · exact s.misplacedEdge_reports
  · exact s.openEdge_reports _

/-! ### Management port: RESTART (R212) -/

theorem State.restart_reports (s : State) : Reporting s s.restart := by
  unfold State.restart
  extract_lets s1 _ s2
  have emptied : Reporting s2 (s2.restartPeers.judge .holdBudget false) :=
    s2.restartPeers_reports.trans (State.judge_reports _ (by decide) _)
  have afresh : Reporting s s2 := s.publish_reports.trans (.quiet rfl)
  exact afresh.trans (emptied.trans (State.published_reports _ State.withdraw_reports))

theorem State.forceHold_reports (s : State) : Reporting s s.forceHold.1 := by
  unfold State.forceHold
  split
  · exact .quiet rfl
  · exact .refl s

theorem State.setOffset_reports (s : State) (selector : Nat) (v : Int) : Reporting s (s.setOffset selector v).1 := by
  unfold State.setOffset
  repeat' split
  all_goals exact .quiet rfl

/-! ### Output unit and time base -/

theorem State.driveFrame_reports (s : State) (t : Nat) : Reporting s (s.driveFrame t) := by
  unfold State.driveFrame
  dsimp only
  split
  · exact .quiet rfl
  · exact .quiet rfl

theorem State.applyPpsShadow_reports (s : State) (sec : Nat) : Reporting s (s.applyPpsShadow sec) := by
  unfold State.applyPpsShadow
  split
  · extract_lets s1
    have driven : Reporting s s1 := by
      unfold s1
      split
      · exact .ite (.quiet rfl) (.refl s)
      · exact .refl s
    exact driven.trans (.quiet rfl)
  · exact .refl s

theorem State.takeSnapshot_reports (s : State) (sec : Nat) : Reporting s (s.takeSnapshot sec) := .quiet rfl

/-! ### The commands -/

section
variable {s t : State}

theorem execEpoch_reports (h : execEpoch s = .next t) : Reporting s t := by
  refine State.event_reports h ?_
  split
  · refine s.publish_reports.trans (Reporting.trans ?_ (State.takeSnapshot_reports _ _))
    refine Reporting.trans ?_ (State.windowEpoch_reports _)
    exact .after_quiet (State.applyPpsShadow_reports _ _) rfl
  · exact .refl s

theorem execMinuteBoundary_reports (h : execMinuteBoundary s = .next t) : Reporting s t := by
  refine State.event_reports h ?_
  split
  · exact Reporting.after_quiet (Reporting.trans (.ite (State.recordMinute_reports _ _) (.refl _)) (.quiet rfl)) rfl
  · exact .refl s

theorem execBeaconIntervalBoundary_reports (h : execBeaconIntervalBoundary s = .next t) : Reporting s t := by
  refine State.event_reports h ?_
  split
  · exact .after_quiet ((State.lineBoundary_reports _ _).trans (State.peerBoundary_reports _)) rfl
  · exact .refl s

/-- A step moves the counter, whose time the reports of other events take, and reports nothing itself (R11). -/
theorem execStep_onlyReports (h : execStep s = .next t) : OnlyReports s t := by
  obtain ⟨-, rfl⟩ | ⟨-, rfl⟩ := State.event_cases h
  · exact .of_eq rfl rfl
  · split
    · exact .of_eq rfl rfl
    · exact .of_eq rfl rfl

theorem execCombineCompletion_reports (h : execCombineCompletion s = .next t) : Reporting s t := by
  refine State.event_reports h ?_
  split
  · exact .after_quiet (State.completeWith_reports _ _ _ _ _) rfl
  · exact .refl s

theorem execCarrierAbsent_reports {bytes : List Byte} {whole : Bool} (h : execCarrierAbsent bytes whole s = .next t) :
    Reporting s t :=
  State.whenDue_reports h (.ite (.after_quiet (State.receive_reports _ _ _) rfl) (.quiet rfl))

theorem execReceptionOverlong_reports {bytes : List Byte} (h : execReceptionOverlong s bytes = .next t) : Reporting s t :=
  State.whenDue_reports h (.after_quiet (State.discard_reports _) rfl)

theorem execLineIdle_reports (h : execLineIdle s = .next t) : Reporting s t :=
  State.whenDue_reports h (.ite (.after_quiet (State.startTx_reports _) rfl) (.quiet rfl))

theorem execBackoffEnd_reports (h : execBackoffEnd s = .next t) : Reporting s t :=
  State.whenDue_reports h (.ite s.startTx_reports (.quiet rfl))

theorem execTransmissionComplete_reports (h : execTransmissionComplete s = .next t) : Reporting s t := by
  refine State.event_reports h ?_
  split
  · exact s.complete_reports _ _
  · exact .refl s

theorem execStuckTimerExpiry_reports (h : execStuckTimerExpiry s = .next t) : Reporting s t :=
  State.whenDue_reports h (.after_quiet (State.abandon_reports _) rfl)

theorem execRefEdge_reports {edge : Edge} (h : execRefEdge edge s = .next t) : Reporting s t := by
  refine State.whenDue_reports h ?_
  split
  · exact .after_quiet (State.judgeEdge_reports _ _) rfl
  · exact .refl s

theorem execLossDeadlineExpiry_reports (h : execLossDeadlineExpiry s = .next t) : Reporting s t :=
  State.whenDue_reports h (.after_quiet (State.judge_reports _ (by decide) _) rfl)

theorem execProgramEnd_reports {left : List Byte} (h : execProgramEnd left s = .next t) : Reporting s t := by
  refine State.event_reports h ?_
  split
  · exact .ite (s.endProgram_reports _ _ _ _ _) (.refl s)
  · exact .refl s

theorem execEraseEnd_reports {left : List Byte} (h : execEraseEnd left s = .next t) : Reporting s t := by
  refine State.event_reports h ?_
  split
  · exact .ite (s.endErase_reports _ _ _ _) (.refl s)
  · exact .refl s

theorem execPpsPulseTime_reports (h : execPpsPulseTime s = .next t) : Reporting s t := by
  refine State.event_reports h ?_
  split
  · exact .ite (.quiet rfl) (.refl s)
  · exact .refl s

theorem execFrameBoundary_reports (h : execFrameBoundary s = .next t) : Reporting s t := by
  refine State.event_reports h ?_
  split
  · exact .ite (s.driveFrame_reports _) (.refl s)
  · exact .refl s

theorem execFoutEdge_reports {pin : FoutPin} (h : execFoutEdge pin s = .next t) : Reporting s t := by
  refine State.event_reports h ?_
  split
  · exact .ite (.quiet rfl) (.refl s)
  · exact .refl s

theorem execPulseEnd_reports {pin : PulsePin} (h : execPulseEnd pin s = .next t) : Reporting s t := by
  refine State.event_reports h ?_
  cases pin <;> exact .quiet rfl

theorem execResponseReady_reports (h : execResponseReady s = .next t) : Reporting s t := by
  refine State.event_reports h ?_
  split
  · exact .quiet rfl
  · exact .refl s

theorem execBadCommand_reports {early : Bool} {code : Byte} {args : List Byte}
    (h : execBadCommand early code args s = .next t) : Reporting s t :=
  State.whenDue_reports h (.ite (.quiet rfl) (.quiet rfl))

/-- Every command that does not act on the alarm table otherwise changes records by their owners' reports alone (R193). -/
theorem exec_onlyReports {c : Instr} (hc : actsOnRecords c = false) (h : exec c s = .next t) : OnlyReports s t := by
  cases c with
  | powerOn | pinReset | powerLoss | tick | configLoadComplete | ackAlarm | ackAll | escalationTimerExpiry =>
    exact absurd hc nofun
  | epoch => exact (execEpoch_reports h).only
  | minuteBoundary => exact (execMinuteBoundary_reports h).only
  | beaconIntervalBoundary => exact (execBeaconIntervalBoundary_reports h).only
  | step => exact execStep_onlyReports h
  | combineCompletion => exact (execCombineCompletion_reports h).only
  | carrierAbsent => exact (execCarrierAbsent_reports h).only
  | receptionOverlong => exact (execReceptionOverlong_reports h).only
  | nextInstantReached => exact (State.whenDue_reports h s.instantReached_reports).only
  | lineIdle => exact (execLineIdle_reports h).only
  | collisionDetected => exact (State.whenDue_reports h s.collide_reports).only
  | jamEnd => exact (State.whenDue_reports h s.endJam_reports).only
  | backoffEnd => exact (execBackoffEnd_reports h).only
  | transmissionComplete => exact (execTransmissionComplete_reports h).only
  | stuckTimerExpiry => exact (execStuckTimerExpiry_reports h).only
  | refEdge => exact (execRefEdge_reports h).only
  | lossDeadlineExpiry => exact (execLossDeadlineExpiry_reports h).only
  | programEnd => exact (execProgramEnd_reports h).only
  | eraseEnd => exact (execEraseEnd_reports h).only
  | ppsPulseTime => exact (execPpsPulseTime_reports h).only
  | frameBoundary => exact (execFrameBoundary_reports h).only
  | foutEdge => exact (execFoutEdge_reports h).only
  | pulseEnd => exact (execPulseEnd_reports h).only
  | readStatus | readPeer | readAlarm | readHistory =>
    exact (State.command_reports h fun u => .refl u).only
  | lockoutPeer => exact (State.command_reports h fun u => u.lockoutPeer_reports _).only
  | releasePeer => exact (State.command_reports h fun u => u.releasePeer_reports _).only
  | forceHold => exact (State.command_reports h State.forceHold_reports).only
  | releaseHold => exact (State.command_reports h fun u => .quiet rfl).only
  | setOffset => exact (State.command_reports h fun u => u.setOffset_reports _ _).only
  | restart => exact (State.command_reports h State.restart_reports).only
  | badCommand => exact (execBadCommand_reports h).only
  | responseReady => exact (execResponseReady_reports h).only
  | responseRead =>
    rw [exec, execResponseRead] at h
    exact (State.event_reports h (.quiet rfl)).only
  | carrierPresent | rxCapture | txCapture | startScanComplete | refMessage | messageCollectionTimeout
  | messageByteStopBitLow | pendingMessageExpiry | windowGiveUp =>
    simp only [exec, execCarrierPresent, execRxCapture, execTxCapture, execStartScanComplete, execRefMessage,
      execMessageCollectionTimeout, execMessageByteStopBitLow, execPendingMessageExpiry, execWindowGiveUp] at h
    exact (State.whenDue_reports h (.quiet rfl)).only

end

/-- Settles O21: `exec_onlyReports` for the commands, and for the record one equation per event and state it stands in. -/
theorem alarmRecordTransitions : Obligations.AlarmRecordTransitions :=
  ⟨fun _ _ _ hc h => exec_onlyReports hc h, fun r now cls =>
    ⟨fun h => AlarmRecord.rise_of_present h now, fun h => AlarmRecord.fall_of_absent h cls now,
      fun h => AlarmRecord.rise_of_absent h now, fun h hs => AlarmRecord.fall_of_active h hs cls now,
      fun h hs => AlarmRecord.fall_of_acked h hs cls now, r.notice_eq now, fun h => AlarmRecord.ack_of_active h cls now,
      fun h => AlarmRecord.ack_of_clearedUnacked h cls now, fun h => AlarmRecord.ack_of_settled h cls now, rfl,
      AlarmRecord.taking_concat cls now r⟩⟩

end Sys2Proof.Machine
end

section
/-! SUPPORT. Reading the answer (R217): the RDY pin, what a read takes out of the response buffer and what it leaves there,
by whether the buffer is READY, and the two events of the answer. -/

namespace Sys2Proof.Machine

/-! ### The pins of the SPI target (R211, R213) -/

theorem State.rdy_iff (s : State) : s.rdy = true ↔ s.held = .nothing ∧ ∃ frame, s.mp.buffer = .ready frame := by
  cases h : s.mp.buffer with
  | ready frame => simp [State.rdy, h]
  | empty | preparing => simp [State.rdy, h]

theorem State.dataOut_running {s : State} (h : s.held = .nothing) : s.dataOut = some (spiDataOut s.mp.spiOut) := if_pos h

theorem State.dataOut_held {s : State} (h : s.held ≠ .nothing) : s.dataOut = none := if_neg h

theorem State.dataOut_eq_none_iff (s : State) : s.dataOut = none ↔ s.held ≠ .nothing := by
  refine ⟨fun hnone hheld => ?_, State.dataOut_held⟩
  rw [State.dataOut_running hheld] at hnone
  exact Option.some_ne_none _ hnone

/-! ### The response buffer under a read (R217) -/

section
variable {b : Buffer}

/-- The answer as far as it is clocked, and FF for every byte after it. -/
theorem Buffer.out_ready (frame : List Byte) (n : Nat) :
    (Buffer.ready frame).out n = frame.take n ++ List.replicate (n - frame.length) 0xFF :=
  calc (Buffer.ready frame).out n
    _ = (frame ++ List.replicate n 0xFF).take n := rfl
    _ = frame.take n ++ List.replicate (n - frame.length) 0xFF := by simp [List.take_append]

theorem Buffer.out_of_not_ready (h : ∀ frame, b ≠ .ready frame) (n : Nat) :
    b.out n = [0].take n ++ List.replicate (n - 1) 0xFF := by
  cases b with
  | ready frame => exact absurd rfl (h frame)
  | empty | preparing => exact Buffer.out_ready [0] n

theorem Buffer.read_ready (frame : List Byte) (n : Nat) :
    (Buffer.ready frame).read n = if frame.length ≤ n then .empty else .ready frame := rfl

theorem Buffer.read_of_not_ready (h : ∀ frame, b ≠ .ready frame) (n : Nat) : b.read n = b := by
  cases b with
  | ready frame => exact absurd rfl (h frame)
  | empty | preparing => rfl

end

/-! ### The two events of the answer (R216, R217) -/

section
variable {s : State}

theorem exec_responseRead (h : s.held = .nothing) (n : Nat) :
    exec (.responseRead n) s =
      .next { s with mp := { s.mp with buffer := s.mp.buffer.read n, spiOut := s.mp.buffer.out n } } :=
  calc exec (.responseRead n) s
    _ = execResponseRead n s := rfl
    _ = _ := State.event_running h _

theorem exec_responseReady_of_preparing (h : s.held = .nothing) {frame : List Byte} (hb : s.mp.buffer = .preparing frame) :
    exec .responseReady s = .next { s with mp := { s.mp with buffer := .ready frame } } :=
  calc exec .responseReady s
    _ = execResponseReady s := rfl
    _ = .next { s with mp := { s.mp with buffer := .ready frame } } :=
      (State.event_running h _).trans (by simp only [hb])

end

/-- Settles O16: the pins as they stand, and each event by its own equation at the buffer it finds. -/
theorem responseReadTakesAnswer : Obligations.ResponseReadTakesAnswer := by
  refine ⟨fun s => ⟨s.rdy_iff, s.dataOut_eq_none_iff, State.dataOut_running⟩, fun s n hheld => ?_⟩
  refine ⟨?ready, ?notReady, ?taken⟩
  case ready =>
    intro frame hb
    refine ⟨s.rdy_iff.mpr ⟨hheld, frame, hb⟩, ?_⟩
    rw [exec_responseRead hheld, hb, Buffer.read_ready, Buffer.out_ready]
  case notReady =>
    intro hb
    have hrdy : ¬s.rdy = true := fun h => by
      obtain ⟨-, frame, hready⟩ := s.rdy_iff.mp h
      exact hb frame hready
    refine ⟨Bool.eq_false_iff.mpr hrdy, ?_⟩
    rw [exec_responseRead hheld, Buffer.read_of_not_ready hb, Buffer.out_of_not_ready hb]
  case taken =>
    intro frame hb
    exact ⟨_, exec_responseReady_of_preparing hheld hb, (State.rdy_iff _).mpr ⟨hheld, frame, rfl⟩, rfl⟩

end Sys2Proof.Machine
end

section
/-! SUPPORT. The check of frames and images at work: the register of R21 followed bit by bit. -/

namespace Sys2Proof.Machine

/-- R21's check value, and the CRC of the first eighty bytes of an image of zeros (R209). -/
example : crc32 [0x31, 0x32, 0x33, 0x34, 0x35, 0x36, 0x37, 0x38, 0x39] = 0xCBF43926 ∧
    crc32 (List.replicate 80 0) = 2384664806 := by
  simp [crc32, crc32Byte, crc32Bit, Nat.repeat, List.replicate]

end Sys2Proof.Machine
end

section
/-! SUPPORT. The blocks of the state, by name; and the alarm side kept sound: what an operation on records, pins and the permit
does to the invariant of 10 and of 09, section 9.5, without the permit's own condition and with it. -/

namespace Sys2Proof.Machine

/-! ### The blocks of the state -/

/-- The counter, the step counter and the increments (R1, R3, R13). -/
def TimeBase.clock (t : TimeBase) : Counter × Nat × Nat × Nat := (t.counter, t.stepCtr, t.increment, t.lastInc)

/-- The blocks of the state beside the alarm unit, the owners' conditions and the queue; and three parts of blocks that few
commands touch: the clock of the time base, F with F_int in the discipline unit, and in the port the settings with the load's
status. -/
inductive Block where
  | clock | rate | setup | held | tb | lc | pt | ri | du | hs | ou | mp | choices
  deriving DecidableEq

/-- The block stands; of the output unit that is its schedules, pulses, levels and offsets. -/
def Block.Stands : Block → State → State → Prop
  | .clock, s, t => t.tb.clock = s.tb.clock
  | .rate, s, t => (t.du.f, t.du.fInt) = (s.du.f, s.du.fInt)
  | .setup, s, t => (t.mp.params, t.mp.status) = (s.mp.params, s.mp.status)
  | .held, s, t => t.held = s.held
  | .tb, s, t => t.tb = s.tb
  | .lc, s, t => t.lc = s.lc
  | .pt, s, t => t.pt = s.pt
  | .ri, s, t => t.ri = s.ri
  | .du, s, t => t.du = s.du
  | .hs, s, t => t.hs = s.hs
  | .ou, s, t => s.ou.sameSchedules t.ou
  | .mp, s, t => t.mp = s.mp
  | .choices, s, t => t.choices = s.choices

theorem Block.stands_refl (b : Block) (s : State) : b.Stands s s := by cases b <;> rfl

theorem Block.Stands.trans {b : Block} {s t u : State} (h : b.Stands s t) (h' : b.Stands t u) : b.Stands s u := by
  cases b with
  | ou => exact Outputs.sameSchedules_trans h h'
  | _ => exact Eq.trans h' h

/-- The state with the blocks listed, and the alarm unit, blotted out: what two states share that differ in them alone. -/
def State.besides (s : State) (bs : List Block) : State :=
  { s with
    held := bif bs.contains .held then .nothing else s.held
    tb := bif bs.contains .tb then
        (bif bs.contains .clock then .reset else { TimeBase.reset with
          counter := s.tb.counter, stepCtr := s.tb.stepCtr, increment := s.tb.increment, lastInc := s.tb.lastInc })
      else s.tb
    lc := bif bs.contains .lc then .reset 0 else s.lc
    pt := bif bs.contains .pt then .reset else s.pt
    ri := bif bs.contains .ri then .reset else s.ri
    du := bif bs.contains .du then
        (bif bs.contains .rate then .reset else { Discipline.reset with f := s.du.f, fInt := s.du.fInt })
      else s.du
    hs := bif bs.contains .hs then .reset [] else s.hs
    ou := bif bs.contains .ou then .reset else s.ou
    au := .reset
    mp := bif bs.contains .mp then
        (bif bs.contains .setup then .reset .pin else { Port.reset .pin with params := s.mp.params, status := s.mp.status })
      else s.mp
    choices := bif bs.contains .choices then 0 else s.choices }

/-- What differs in the blocks listed alone leaves every other block. -/
theorem Block.stands_of_besides {b : Block} {bs : List Block} {s t : State} (h : t.besides bs = s.besides bs)
    (hb : bs.contains b = false) : b.Stands s t := by
  cases b with
  | clock =>
    have htb := congrArg (fun u : State => u.tb.clock) h
    simp only [State.besides, hb, cond_false] at htb
    cases hc : bs.contains .tb <;> simp only [hc, cond_true, cond_false] at htb
    · exact htb
    · simpa [Block.Stands, TimeBase.clock] using htb
  | rate =>
    have hdu := congrArg (fun u : State => (u.du.f, u.du.fInt)) h
    simp only [State.besides, hb, cond_false] at hdu
    cases hc : bs.contains .du <;> simpa only [Block.Stands, hc, cond_true, cond_false] using hdu
  | setup =>
    have hmp := congrArg (fun u : State => (u.mp.params, u.mp.status)) h
    simp only [State.besides, hb, cond_false] at hmp
    cases hc : bs.contains .mp <;> simpa only [Block.Stands, hc, cond_true, cond_false] using hmp
  | held => simpa only [Block.Stands, State.besides, hb, cond_false] using congrArg State.held h
  | tb => simpa only [Block.Stands, State.besides, hb, cond_false] using congrArg State.tb h
  | lc => simpa only [Block.Stands, State.besides, hb, cond_false] using congrArg State.lc h
  | pt => simpa only [Block.Stands, State.besides, hb, cond_false] using congrArg State.pt h
  | ri => simpa only [Block.Stands, State.besides, hb, cond_false] using congrArg State.ri h
  | du => simpa only [Block.Stands, State.besides, hb, cond_false] using congrArg State.du h
  | hs => simpa only [Block.Stands, State.besides, hb, cond_false] using congrArg State.hs h
  | ou =>
    have hou : t.ou = s.ou := by simpa only [State.besides, hb, cond_false] using congrArg State.ou h
    rw [Block.Stands, hou]
    exact Outputs.sameSchedules_refl _
  | mp => simpa only [Block.Stands, State.besides, hb, cond_false] using congrArg State.mp h
  | choices => simpa only [Block.Stands, State.besides, hb, cond_false] using congrArg State.choices h

/-! ### The alarm side without the permit (R192 to R203) -/

/-- What the invariant asks of one record, `present` being the condition its owner judges (R193, R195 to R198). -/
def AlarmRecord.SoundFor (k : Kind) (present : Bool) (r : AlarmRecord) : Prop :=
  r.condition = present ∧
    (Params.defaultClass k ≠ .notice → (r.condition = true ↔ r.state = .active ∨ r.state = .acked)) ∧
    (Params.defaultClass k = .notice → r.condition = false ∧ (r.state = .clear ∨ r.state = .active))

/-- The invariant of the alarm side but for the permit. -/
structure AlarmsSound (s : State) : Prop where
  records : ∀ k, (s.au.records.get k).SoundFor k (s.conds.get k)
  classes : ∀ k, s.mp.params.classes.get k = .notice ↔ Params.defaultClass k = .notice
  pins : PinsExact s
  never : s.mp.params.gatingSet.get .permitLost = false

theorem permitSound_iff (s : State) : PermitSound s ↔ AlarmsSound s ∧ PermitSafe s := by
  constructor
  · intro h
    exact ⟨⟨fun k => ⟨h.agree k, h.live k, h.notices k⟩, h.classes, h.pins, h.never⟩, h.safe⟩
  · rintro ⟨h, hsafe⟩
    exact ⟨fun k => (h.records k).1, h.classes, fun k => (h.records k).2.1, fun k => (h.records k).2.2, h.pins, h.never, hsafe⟩

/-- The alarm side stays sound, and with it the permit safe. -/
def AlarmsKept (s t : State) : Prop := AlarmsSound s → AlarmsSound t ∧ (PermitSafe s → PermitSafe t)

/-- What the invariant reads. -/
def State.permitView (s : State) : Alarms × PerKind Bool × Bool × Published × Params :=
  (s.au, s.conds, s.ou.txok, s.du.pub, s.mp.params)

section
variable {s t u : State}

theorem AlarmsKept.refl (s : State) : AlarmsKept s s := fun h => ⟨h, id⟩

theorem AlarmsKept.trans (h : AlarmsKept s t) (h' : AlarmsKept t u) : AlarmsKept s u := fun hs =>
  ⟨(h' (h hs).1).1, (h' (h hs).1).2 ∘ (h hs).2⟩

/-- What leaves the records, the conditions and the parameters leaves the alarm side sound. -/
theorem AlarmsSound.congr (hs : AlarmsSound s) (hau : t.au = s.au) (hconds : t.conds = s.conds)
    (hparams : t.mp.params = s.mp.params) : AlarmsSound t := by
  refine ⟨?_, ?_, ?_, ?_⟩
  · rw [hau, hconds]; exact hs.records
  · rw [hparams]; exact hs.classes
  · simp only [PinsExact, hau, hparams]; exact hs.pins
  · rw [hparams]; exact hs.never

theorem AlarmsKept.of_view (h : t.permitView = s.permitView) : AlarmsKept s t := by
  simp only [State.permitView, Prod.mk.injEq] at h
  obtain ⟨hau, hconds, htxok, hpub, hparams⟩ := h
  refine fun hs => ⟨hs.congr hau hconds hparams, fun hsafe => ?_⟩
  rw [PermitSafe, htxok, hpub, hparams, hau]
  exact hsafe

theorem permitSafe_of_txok (h : t.ou.txok = false) : PermitSafe t := fun htxok => absurd (h.symm.trans htxok) nofun

/-! ### One record -/

@[simp] theorem AlarmRecord.touched_state (old new : AlarmRecord) (now : SecNs) : (old.touched new now).state = new.state := by
  unfold AlarmRecord.touched
  split <;> rfl

/-- What leaves a record's condition and state leaves it sound. -/
theorem AlarmRecord.SoundFor.congr {k : Kind} {v : Bool} {r q : AlarmRecord} (h : r.SoundFor k v)
    (hcondition : q.condition = r.condition) (hstate : q.state = r.state) : q.SoundFor k v := by
  rw [AlarmRecord.SoundFor, hcondition, hstate]
  exact h

section
variable {k : Kind} {v : Bool} {r : AlarmRecord}

theorem AlarmRecord.SoundFor.rise (h : r.SoundFor k v) (hk : Params.defaultClass k ≠ .notice) (now : SecNs) :
    (r.rise now).SoundFor k true := by
  obtain ⟨-, hlive, -⟩ := h
  refine ⟨r.rise_condition now, fun _ => ?_, fun hn => absurd hn hk⟩
  rw [AlarmRecord.rise_condition]
  cases hc : r.condition with
  | true => rw [AlarmRecord.rise_of_present hc, ← hlive hk, hc]
  | false =>
    have hstate : r.state = .clear ∨ r.state = .clearedUnacked := by
      have hnot := mt (hlive hk).mpr (by simp [hc])
      cases hs : r.state <;> simp [hs] at hnot ⊢
    simp [AlarmRecord.rise_of_absent hc, hstate]

theorem AlarmRecord.SoundFor.fall (h : r.SoundFor k v) (hk : Params.defaultClass k ≠ .notice) (cls : Class) (now : SecNs) :
    (r.fall cls now).SoundFor k false := by
  obtain ⟨-, hlive, -⟩ := h
  refine ⟨r.fall_condition cls now, fun _ => ?_, fun hn => absurd hn hk⟩
  rw [AlarmRecord.fall_condition]
  cases hc : r.condition with
  | false => rw [AlarmRecord.fall_of_absent hc, ← hlive hk, hc]
  | true =>
    obtain hs | hs := (hlive hk).mp hc
    · simp [AlarmRecord.fall_of_active hc hs]
    · simp [AlarmRecord.fall_of_acked hc hs]

theorem AlarmRecord.SoundFor.notice (h : r.SoundFor k v) (hk : Params.defaultClass k = .notice) (now : SecNs) :
    (r.notice now).SoundFor k v := by
  obtain ⟨hpresent, -, hnotice⟩ := h
  rw [AlarmRecord.notice_eq]
  exact ⟨hpresent, fun hn => absurd hk hn, fun _ => ⟨(hnotice hk).1, .inr rfl⟩⟩

theorem AlarmRecord.SoundFor.ack (h : r.SoundFor k v) {cls : Class} (hcls : cls = .notice ↔ Params.defaultClass k = .notice)
    (now : SecNs) : (r.ack cls now).SoundFor k v := by
  obtain ⟨hpresent, hlive, hnotice⟩ := h
  cases hs : r.state with
  | clear | acked => rw [AlarmRecord.ack_of_settled (by simp [hs])]; exact ⟨hpresent, hlive, hnotice⟩
  | active =>
    rw [AlarmRecord.ack_of_active hs]
    refine ⟨hpresent, fun hn => ?_, fun hn => ⟨(hnotice hn).1, .inl (if_pos (hcls.mpr hn))⟩⟩
    have hc : r.condition = true := (hlive hn).mpr (.inl hs)
    simp [hc, mt hcls.mp hn]
  | clearedUnacked =>
    rw [AlarmRecord.ack_of_clearedUnacked hs]
    refine ⟨hpresent, fun hn => ?_, fun hn => ⟨(hnotice hn).1, .inl rfl⟩⟩
    have hc : ¬r.condition = true := mt (hlive hn).mp (by simp [hs])
    simp [hc]

end

/-! ### Operations on records -/

/-- An event on the record of `k` that leaves it sound; the owners' conditions of the other kinds stand (R192). -/
theorem AlarmsSound.onRecord (hs : AlarmsSound s) {k : Kind} {f : AlarmRecord → AlarmRecord} (hau : u.au = s.au)
    (hparams : u.mp.params = s.mp.params) (hconds : ∀ j, j ≠ k → u.conds.get j = s.conds.get j)
    (hf : (f (s.au.records.get k)).SoundFor k (u.conds.get k)) : AlarmsSound (u.onRecord k f) := by
  refine ⟨fun j => ?_, hparams ▸ hs.classes, u.onRecord_exact k f, hparams ▸ hs.never⟩
  by_cases hj : j = k
  · subst hj
    rw [State.onRecord_get, hau]
    exact hf
  · have hget : (u.onRecord k f).au.records.get j = s.au.records.get j := by
      rw [← hau]
      exact PerKind.get_set_ne _ _ hj
    rw [hget, State.onRecord_conds, hconds j hj]
    exact hs.records j

/-- A report of the owner's condition (R193, R195, R196). -/
theorem AlarmsSound.reportRecord (hs : AlarmsSound s) {k : Kind} (hk : Params.defaultClass k ≠ .notice) (v : Bool) :
    AlarmsSound ({ s with conds := s.conds.set k v }.reportRecord k v) := by
  refine hs.onRecord rfl rfl (fun j hj => PerKind.get_set_ne _ _ hj) ?_
  rw [show ({ s with conds := s.conds.set k v } : State).conds.get k = v from PerKind.get_set_self ..]
  cases v with
  | true => exact (hs.records k).rise hk _
  | false => exact (hs.records k).fall hk _ _

theorem State.onRecord_other (s : State) {k j : Kind} (h : j ≠ k) (f : AlarmRecord → AlarmRecord) :
    (s.onRecord k f).au.records.get j = s.au.records.get j := PerKind.get_set_ne _ _ h

/-- The permit rests on the conditions of the permit-gating records, the published state and the budget. -/
theorem PermitSafe.congr (hs : PermitSafe s) (htxok : t.ou.txok = s.ou.txok) (hpub : t.du.pub = s.du.pub)
    (hparams : t.mp.params = s.mp.params)
    (hrecords : ∀ k, s.mp.params.gatingSet.get k = true →
      (t.au.records.get k).condition = (s.au.records.get k).condition) : PermitSafe t := by
  intro h
  rw [htxok] at h
  obtain ⟨hstate, hbound, hgate⟩ := hs h
  rw [hpub, hparams]
  exact ⟨hstate, hbound, fun k hk => (hrecords k hk).trans (hgate k hk)⟩

theorem AlarmsKept.notice (s : State) {k : Kind} (hk : Params.defaultClass k = .notice) : AlarmsKept s (s.notice k) := by
  refine fun hs => ⟨hs.onRecord rfl rfl (fun _ _ => rfl) ((hs.records k).notice hk _), fun hsafe => ?_⟩
  refine hsafe.congr rfl rfl rfl fun j _ => ?_
  by_cases hj : j = k
  · subst hj
    rw [State.notice, State.onRecord_get, AlarmRecord.notice_eq]
  · rw [State.notice, State.onRecord_other _ hj]

/-- An acknowledge changes no condition (R198). -/
theorem AlarmRecord.ack_condition (r : AlarmRecord) (cls : Class) (now : SecNs) : (r.ack cls now).condition = r.condition := by
  unfold AlarmRecord.ack
  split
  · exact AlarmRecord.touched_condition _ _ _
  · exact AlarmRecord.touched_condition _ _ _
  · rfl

/-- An event on one record that leaves its condition. -/
theorem AlarmsKept.onRecord (s : State) {k : Kind} {f : AlarmRecord → AlarmRecord}
    (hcondition : ∀ r, (f r).condition = r.condition)
    (hf : AlarmsSound s → (f (s.au.records.get k)).SoundFor k (s.conds.get k)) : AlarmsKept s (s.onRecord k f) := by
  refine fun hs => ⟨hs.onRecord rfl rfl (fun _ _ => rfl) (hf hs), fun hsafe => hsafe.congr rfl rfl rfl fun j _ => ?_⟩
  by_cases hj : j = k
  · subst hj
    rw [State.onRecord_get, hcondition]
  · rw [State.onRecord_other _ hj]

/-- The escalation timers stand apart from all the invariant reads (R200). -/
theorem AlarmRecord.tick_eq (r : AlarmRecord) (cls : Class) (e : Nat) :
    r.tick cls e = { r with timer := (r.tick cls e).timer } := by
  unfold AlarmRecord.tick
  split <;> rfl

theorem AlarmsKept.tick (s : State) (hau : t.au = s.au.tick s.mp.params) (hconds : t.conds = s.conds)
    (htxok : t.ou.txok = s.ou.txok) (hpub : t.du.pub = s.du.pub) (hparams : t.mp.params = s.mp.params) : AlarmsKept s t := by
  have hrecord (k : Kind) : t.au.records.get k =
      { s.au.records.get k with
        timer := ((s.au.records.get k).tick (s.mp.params.classes.get k) s.mp.params.escalation).timer } := by
    rw [← AlarmRecord.tick_eq, hau]
    exact PerKind.get_ofFn _ k
  refine fun hs => ⟨⟨fun k => ?_, hparams ▸ hs.classes, ?_, hparams ▸ hs.never⟩, fun hsafe => ?_⟩
  · rw [hrecord, hconds]
    exact (hs.records k).congr rfl rfl
  · simp only [PinsExact, hrecord, hparams]
    rw [hau]
    exact hs.pins
  · exact hsafe.congr htxok hpub hparams fun k _ => by rw [hrecord]

/-! ### The permit (R183 to R185, R203) -/

theorem AlarmsKept.judgePermitLost (s : State) : AlarmsKept s s.judgePermitLost := by
  unfold State.judgePermitLost
  dsimp only
  split
  · exact .refl s
  · refine fun hs => ⟨hs.reportRecord (k := .permitLost) (by decide) _, fun hsafe => hsafe.congr rfl rfl rfl fun j hj => ?_⟩
    have hne : j ≠ .permitLost := by
      rintro rfl
      exact absurd (hs.never.symm.trans hj) nofun
    exact congrArg AlarmRecord.condition (State.onRecord_other _ hne _)

@[simp] theorem State.judgePermitLost_ou (s : State) : s.judgePermitLost.ou = s.ou := by
  unfold State.judgePermitLost
  dsimp only
  split <;> rfl

@[simp] theorem State.setTxok_txok (s : State) (v : Bool) : (s.setTxok v).ou.txok = v := by
  unfold State.setTxok
  split
  next h => exact h
  next => rw [State.judgePermitLost_ou]; rfl

@[simp] theorem State.withdraw_txok (s : State) : s.withdraw.ou.txok = false := State.setTxok_txok _ _

theorem AlarmsSound.setTxok (hs : AlarmsSound s) (v : Bool) : AlarmsSound (s.setTxok v) := by
  unfold State.setTxok
  split
  · exact hs
  · have switched : AlarmsSound (State.evalSquelch { s with ou := { s.ou with txok := v } }) := hs.congr rfl rfl rfl
    exact (AlarmsKept.judgePermitLost _ switched).1

theorem AlarmsSound.withdraw (hs : AlarmsSound s) : AlarmsSound s.withdraw := by
  have begun : AlarmsSound { s with ou := { s.ou with holdoff := 0 } } := hs.congr rfl rfl rfl
  exact begun.setTxok false

theorem AlarmsKept.withdraw (s : State) : AlarmsKept s s.withdraw :=
  fun hs => ⟨hs.withdraw, fun _ => permitSafe_of_txok s.withdraw_txok⟩

/-- A rise of the indication withdraws the permit, and no rise does nothing (R184, R203). -/
theorem AlarmsKept.gatingReport (b : Bool) (s : State) : AlarmsKept s (s.gatingReport b) := by
  unfold State.gatingReport
  split
  · exact .withdraw s
  · exact .refl s

/-- The permit-gating indication is raised exactly where a permit-gating record's condition is present (R203). -/
theorem AlarmsSound.gating_false_iff (hs : AlarmsSound s) :
    s.au.gating = false ↔ ∀ k, s.mp.params.gatingSet.get k = true → (s.au.records.get k).condition = false := by
  rw [Bool.eq_false_iff, Ne, hs.pins.2.2.2]
  simp

/-- A report of a condition that may be permit-gating: its rise withdraws the permit (R184, R203). -/
theorem AlarmsKept.report (s : State) {k : Kind} (hk : Params.defaultClass k ≠ .notice) (v : Bool) :
    AlarmsKept s (State.report { s with conds := s.conds.set k v } k v) := by
  intro hs
  have hreported := hs.reportRecord hk v
  unfold State.report State.gatingReport
  split
  next => exact ⟨hreported.withdraw, fun _ => permitSafe_of_txok (State.withdraw_txok _)⟩
  next hquiet =>
    refine ⟨hreported, fun hsafe htxok => ?_⟩
    obtain ⟨hstate, hbound, hgate⟩ := hsafe htxok
    refine ⟨hstate, hbound, hreported.gating_false_iff.mp ?_⟩
    rw [hs.gating_false_iff.mpr hgate] at hquiet
    simpa using hquiet

theorem AlarmsKept.judge (s : State) {k : Kind} (hk : Params.defaultClass k ≠ .notice) (v : Bool) :
    AlarmsKept s (s.judge k v) := by
  unfold State.judge
  split
  · exact .refl s
  · exact .report s hk v

/-! ### Publications (R180, R183) -/

theorem State.permitCondition_iff (s : State) : s.permitCondition = true ↔
    s.loaded = true ∧ (s.du.pub.state = .track ∨ s.du.pub.state = .hold) ∧ s.du.pub.bound ≤ s.mp.params.budget ∧
      s.au.gating = false := by
  simp [State.permitCondition, and_assoc]

theorem AlarmsSound.judgePermit (hs : AlarmsSound s) : AlarmsSound s.judgePermit := by
  unfold State.judgePermit
  dsimp only
  have counted : AlarmsSound { s with ou := { s.ou with holdoff := min s.mp.params.hP (s.ou.holdoff + 1) } } :=
    hs.congr rfl rfl rfl
  split
  · split
    · exact counted.setTxok true
    · exact counted
  · exact hs.withdraw

/-- The permit judged at a publication is safe, whatever stood before (R183). -/
theorem AlarmsSound.judgePermit_safe (hs : AlarmsSound s) : PermitSafe s.judgePermit := by
  by_cases hc : s.permitCondition = true
  · obtain ⟨-, hstate, hbound, hgating⟩ := s.permitCondition_iff.mp hc
    have judged := s.judgePermit_only
    intro _
    rw [judged.blocks.du, judged.blocks.mp]
    refine ⟨hstate, hbound, fun k hk => ?_⟩
    have hne : k ≠ .permitLost := by
      rintro rfl
      exact absurd (hs.never.symm.trans hk) nofun
    rw [judged.records k (by simp) hne]
    exact hs.gating_false_iff.mp hgating k hk
  · rw [State.judgePermit, if_neg hc]
    exact permitSafe_of_txok s.withdraw_txok

/-- A publication at the output unit whose work on the permit leaves it safe, whatever stood before. -/
theorem AlarmsSound.published (hs : AlarmsSound s) {permit : State → State}
    (hpermit : ∀ u, AlarmsSound u → AlarmsSound (permit u) ∧ PermitSafe (permit u)) :
    AlarmsSound (s.published permit) ∧ PermitSafe (s.published permit) := by
  have evaluated : AlarmsSound s.evalSquelch := hs.congr rfl rfl rfl
  obtain ⟨hsound, hsafe⟩ := hpermit _ evaluated
  obtain ⟨hlast, hkeep⟩ := AlarmsKept.judgePermitLost _ hsound
  exact ⟨hlast, hkeep hsafe⟩

theorem AlarmsSound.published_judgePermit (hs : AlarmsSound s) :
    AlarmsSound (s.published State.judgePermit) ∧ PermitSafe (s.published State.judgePermit) :=
  hs.published fun _ hu => ⟨hu.judgePermit, hu.judgePermit_safe⟩

theorem AlarmsSound.published_withdraw (hs : AlarmsSound s) :
    AlarmsSound (s.published State.withdraw) ∧ PermitSafe (s.published State.withdraw) :=
  hs.published fun u hu => ⟨hu.withdraw, permitSafe_of_txok u.withdraw_txok⟩

/-- What makes the permit safe at its end keeps the alarm side sound. -/
theorem AlarmsKept.of_safe (h : AlarmsSound s → AlarmsSound t ∧ PermitSafe t) : AlarmsKept s t :=
  fun hs => ⟨(h hs).1, fun _ => (h hs).2⟩

end

end Sys2Proof.Machine
end

section
/-! SUPPORT. Frames: which blocks and which conditions an operation may touch, and that it leaves the alarm side sound; one lemma
per shared operation and one for each command. -/

namespace Sys2Proof.Machine

/-! ### The frame of an operation -/

/-- Of the blocks only those listed may have changed, and of the conditions only those of the kinds listed and
PERMIT_LOST; the queue stands, and the alarm side stays sound. -/
structure Frame (bs : List Block) (ks : List Kind) (s t : State) : Prop where
  blocks : ∀ b, bs.contains b = false → b.Stands s t
  conds : ∀ k, ks.contains k = false → k ≠ .permitLost → t.conds.get k = s.conds.get k
  pending : t.pending = s.pending
  alarms : AlarmsKept s t

/-- Every member of the one list is one of the other. -/
def allIn {α : Type} [BEq α] (l l' : List α) : Bool := l.all l'.contains

theorem contains_eq_false_of_allIn {α : Type} [BEq α] [LawfulBEq α] {l l' : List α} {a : α} (h : allIn l l' = true)
    (ha : l'.contains a = false) : l.contains a = false := by
  rw [Bool.eq_false_iff] at ha ⊢
  exact fun hl => ha (List.all_eq_true.mp h a (List.contains_iff_mem.mp hl))

section
variable {bs : List Block} {ks : List Kind} {s t u : State} {f : State → State}

theorem Frame.refl (s : State) : Frame bs ks s s := ⟨fun b _ => b.stands_refl s, fun _ _ _ => rfl, rfl, .refl s⟩

theorem Frame.trans (h : Frame bs ks s t) (h' : Frame bs ks t u) : Frame bs ks s u :=
  ⟨fun b hb => (h.blocks b hb).trans (h'.blocks b hb), fun k hk hp => (h'.conds k hk hp).trans (h.conds k hk hp),
    h'.pending.trans h.pending, h.alarms.trans h'.alarms⟩

theorem Frame.mono {bs' : List Block} {ks' : List Kind} (h : Frame bs ks s t)
    (hsub : (allIn bs bs' && allIn ks ks') = true) : Frame bs' ks' s t := by
  obtain ⟨hb, hk⟩ := (Bool.and_eq_true _ _).mp hsub
  exact ⟨fun b hn => h.blocks b (contains_eq_false_of_allIn hb hn),
    fun k hn => h.conds k (contains_eq_false_of_allIn hk hn), h.pending, h.alarms⟩

theorem Frame.ite {p : Prop} [Decidable p] (ht : Frame bs ks s t) (hu : Frame bs ks s u) :
    Frame bs ks s (if p then t else u) := by
  split
  · exact ht
  · exact hu

/-- What touches the alarm side alone touches no block. -/
theorem OnlyAlarms.frame (h : OnlyAlarms ks s t) (ha : AlarmsKept s t) : Frame [] ks s t := by
  refine ⟨fun b _ => ?_, fun k hk => h.conds k fun hm => ?_, h.blocks.pending, ha⟩
  · cases b with
    | clock => exact congrArg TimeBase.clock h.blocks.tb
      | rate => exact congrArg (fun d : Discipline => (d.f, d.fInt)) h.blocks.du
    | setup => exact congrArg (fun m : Port => (m.params, m.status)) h.blocks.mp
    | held => exact h.blocks.held
    | tb => exact h.blocks.tb
    | lc => exact h.blocks.lc
    | pt => exact h.blocks.pt
    | ri => exact h.blocks.ri
    | du => exact h.blocks.du
    | hs => exact h.blocks.hs
    | ou => exact h.outputs
    | mp => exact h.blocks.mp
    | choices => exact h.blocks.choices
  · rw [List.contains_iff_mem.mpr hm] at hk
    exact absurd hk nofun

/-- The condition of a kind judged, in a wider frame. -/
theorem Frame.judge {k : Kind} {v : Bool} (hk : (allIn [k] ks && Params.defaultClass k != .notice) = true) :
    Frame bs ks s (s.judge k v) := by
  obtain ⟨hmem, hclass⟩ := (Bool.and_eq_true _ _).mp hk
  exact ((s.judge_only k v).frame (.judge s (by simpa using hclass) v)).mono (by rw [hmem]; rfl)

/-- A notice event, in a wider frame. -/
theorem Frame.notice {k : Kind} (hk : (allIn [k] ks && Params.defaultClass k == .notice) = true) :
    Frame bs ks s (s.notice k) := by
  obtain ⟨hmem, hclass⟩ := (Bool.and_eq_true _ _).mp hk
  exact ((s.notice_only k).frame (.notice s (by simpa using hclass))).mono (by rw [hmem]; rfl)

/-- Blocks among those listed, and the records, replaced by others that keep the alarm side sound. -/
theorem Frame.change (h : t.besides bs = s.besides bs) (ha : AlarmsKept s t) : Frame bs ks s t :=
  have hconds : (t.besides bs).conds = (s.besides bs).conds := congrArg _ h
  have hpending : (t.besides bs).pending = (s.besides bs).pending := congrArg _ h
  ⟨fun _ hb => Block.stands_of_besides h hb, fun k _ _ => congrArg (PerKind.get · k) hconds, hpending, ha⟩

/-- Blocks among those listed replaced by others, in nothing the alarm side reads. -/
theorem Frame.update (h : (t.besides bs, t.permitView) = (s.besides bs, s.permitView)) : Frame bs ks s t :=
  .change (congrArg Prod.fst h) (.of_view (congrArg Prod.snd h))

/-- What is done after blocks among those listed are replaced. -/
theorem Frame.after_update (h : Frame bs ks t u) (ht : (t.besides bs, t.permitView) = (s.besides bs, s.permitView)) :
    Frame bs ks s u :=
  (Frame.update ht).trans h

/-- What is done after blocks among those listed are replaced, where the two together keep the alarm side sound. -/
theorem Frame.after_change (h : Frame bs ks t u) (ht : t.besides bs = s.besides bs) (ha : AlarmsKept s u) : Frame bs ks s u :=
  have hconds : (t.besides bs).conds = (s.besides bs).conds := congrArg _ ht
  have hpending : (t.besides bs).pending = (s.besides bs).pending := congrArg _ ht
  ⟨fun b hb => (Block.stands_of_besides ht hb).trans (h.blocks b hb),
    fun k hk hp => (h.conds k hk hp).trans (congrArg (PerKind.get · k) hconds), h.pending.trans hpending, ha⟩

/-! ### An event that reaches the part -/

theorem Frame.event (h : s.event f = .next t) (hf : Frame bs ks s (f s)) : Frame bs ks s t := by
  obtain ⟨-, rfl⟩ | ⟨-, rfl⟩ := State.event_cases h
  · exact .refl _
  · exact hf

theorem Frame.whenDue {due : Bool} (h : s.whenDue due f = .next t) (hf : Frame bs ks s (f s)) : Frame bs ks s t := by
  obtain rfl | ⟨-, -, rfl⟩ := State.whenDue_cases h
  · exact .refl _
  · exact hf

/-- A host command touches the port, for its answer, and what its work touches (R214 to R216). -/
theorem Frame.command {early : Bool} {code : Byte} {len : Nat} {args : List Byte} {body : State → State × Reply}
    (h : s.command early code len args body = .next t) (hmp : bs.contains .mp = true)
    (hbody : ∀ s, Frame bs ks s (body s).1) : Frame bs ks s t := by
  refine Frame.event h ?_
  rw [State.perform]
  have port : allIn [Block.mp] bs = true ∧ allIn [] ks = true := ⟨by simpa [allIn] using hmp, rfl⟩
  have sent : Frame bs ks s (s.sentNothing (1 + args.length)) :=
    (Frame.update rfl : Frame [.mp] [] s (s.sentNothing _)).mono (by rw [port.1, port.2]; rfl)
  have answered (u : State) (r : Reply) : Frame bs ks u (u.answer code r) :=
    (Frame.update rfl : Frame [.mp] [] u (u.answer code r)).mono (by rw [port.1, port.2]; rfl)
  exact .ite sent (.ite (sent.trans (answered _ _)) (.ite (sent.trans (answered _ _))
    ((sent.trans (hbody _)).trans (answered _ _))))

end

/-! ### History store -/

section
variable (s : State)

theorem State.placeRecord_frame (r : HistRecord) (retry : Bool) :
    Frame [.hs] [.historyFault] s (s.placeRecord r retry) :=
  .ite (.after_update (.notice rfl) rfl) (.update rfl)

theorem State.startWaiting_frame : Frame [.hs] [.historyFault] s s.startWaiting := by
  unfold State.startWaiting
  split
  · exact .after_update (State.placeRecord_frame _ _ _) rfl
  · exact .refl _

theorem State.placeNext_frame (r : HistRecord) (retry : Bool) : Frame [.hs] [.historyFault] s (s.placeNext r retry) :=
  (s.placeRecord_frame r retry).trans (State.startWaiting_frame _)

theorem State.appendRecord_frame (r : HistRecord) : Frame [.hs] [.historyFault] s (s.appendRecord r) := by
  unfold State.appendRecord
  split
  · exact s.placeRecord_frame r false
  · exact .update rfl

theorem State.recordMinute_frame (sec : Nat) : Frame [.hs] [.historyFault] s (s.recordMinute sec) :=
  .ite (.update rfl) (.ite (.update rfl) (.after_update (State.appendRecord_frame _ _) rfl))

theorem State.endProgram_frame (r : HistRecord) (retry : Bool) (c : Fin 4) (k : Fin 32) (left : List Byte) :
    Frame [.hs] [.historyFault] s (s.endProgram r retry c k left) := by
  have fault (u : State) : Frame [.hs] [.historyFault] u (u.notice .historyFault) := .notice rfl
  unfold State.endProgram
  dsimp only
  refine .ite ?programmed (.ite ?dropped ?retried)
  case programmed => exact .after_update (State.startWaiting_frame _) rfl
  case dropped => exact .after_update ((fault _).trans (State.startWaiting_frame _)) rfl
  case retried => exact .after_update ((fault _).trans (State.placeNext_frame _ _ _)) rfl

theorem State.endErase_frame (r : HistRecord) (retry : Bool) (c : Fin 4) (left : List Byte) :
    Frame [.hs] [.historyFault] s (s.endErase r retry c left) := by
  unfold State.endErase
  dsimp only
  refine .ite ?erased ?unusable
  case erased => exact .after_update (State.placeNext_frame _ _ _) rfl
  case unusable =>
    exact .after_update ((Frame.notice rfl).trans (State.placeNext_frame _ _ _)) rfl

/-! ### Peer table -/

theorem State.judgePeers_frame : Frame [] [.peerLink, .peerSuspect] s s.judgePeers := (Frame.judge rfl).trans (.judge rfl)

theorem State.putSlot_frame (i : Nat) (o : Option Entry) : Frame [.pt] [.peerLink, .peerSuspect] s (s.putSlot i o) :=
  .after_update ((State.judgePeers_frame _).mono rfl) rfl

theorem State.pass_frame (f : Entry → Option Entry) (is : List Nat) (s : State) :
    Frame [.pt] [.peerLink, .peerSuspect] s (State.pass f s is) := by
  induction is generalizing s with
  | nil => exact .refl s
  | cons i is ih =>
    refine Frame.trans ?_ (ih _)
    split
    · exact s.putSlot_frame _ _
    · exact .refl s

theorem State.peerBoundary_frame : Frame [.pt] [.peerLink, .peerSuspect, .tableFull] s s.peerBoundary := by
  have aged : Frame [.pt] [.peerLink, .peerSuspect, .tableFull] s (s.ageSlots (List.range 24)) := by
    rw [State.ageSlots_eq _ s s rfl rfl]
    exact (State.pass_frame _ _ s).mono rfl
  unfold State.peerBoundary
  generalize s.ageSlots (List.range 24) = u at aged ⊢
  exact aged.trans (.after_update (.judge rfl) rfl)

theorem State.writeBackCompletion_frame (ws : List WriteBack) :
    Frame [.pt] [.peerLink, .peerSuspect] s (s.writeBackCompletion ws) := by
  rw [State.writeBackCompletion, State.writeBackSlots_eq]
  exact (State.pass_frame _ _ s)

theorem State.measureAt_frame (i : Nat) (b : Beacon) (t4 : Option Stamp) (unreported : Bool) :
    Frame [.pt] [.peerLink, .peerSuspect] s (s.measureAt i b t4 unreported) := by
  unfold State.measureAt
  split
  · exact s.putSlot_frame _ _
  · exact .refl s

theorem State.acceptAt_frame (i : Nat) (e : Entry) (b : Beacon) (t4 : Option Stamp) :
    Frame [.pt] [.peerLink, .peerSuspect] s (s.acceptAt i e b t4) :=
  (s.putSlot_frame _ _).trans (State.putSlot_frame _ _ _)

theorem State.admitAt_frame (i : Nat) (b : Beacon) (t4 : Option Stamp) :
    Frame [.pt] [.peerLink, .peerSuspect] s (s.admitAt i b t4) :=
  ((s.putSlot_frame i none).trans (.update (by rfl))).trans (State.putSlot_frame _ _ _)

theorem State.refuse_frame : Frame [.pt] [.tableFull] s s.refuse :=
  .after_update (.judge rfl) rfl

theorem State.deliver_frame (b : Beacon) (t4 : Option Stamp) (unreported : Bool) :
    Frame [.pt] [.peerLink, .peerSuspect, .tableFull] s (s.deliver b t4 unreported) := by
  unfold State.deliver
  split
  case h_1 =>
    split
    · exact ((s.acceptAt_frame _ _ _ _).trans (State.measureAt_frame _ _ _ _ _)).mono rfl
    · exact .refl s
  case h_2 =>
    split
    · exact ((s.admitAt_frame _ _ _).trans (State.measureAt_frame _ _ _ _ _)).mono rfl
    · exact s.refuse_frame.mono rfl

theorem State.restartPeers_frame : Frame [.pt] [.peerLink, .peerSuspect, .tableFull] s s.restartPeers :=
  .after_update (((State.judgePeers_frame _).mono rfl).trans (.judge rfl)) rfl

theorem State.lockoutPeer_frame (addr : Nat) : Frame [.pt] [.peerLink, .peerSuspect] s (s.lockoutPeer addr).1 := by
  unfold State.lockoutPeer
  split
  · split
    case h_1 t h =>
      unfold State.lockout at h
      split at h
      · split at h
        · obtain rfl := Option.some.inj h
          exact .ite (.refl s) (s.putSlot_frame _ _)
        · obtain rfl := Option.some.inj h
          exact .refl s
      · split at h
        · obtain rfl := Option.some.inj h
          exact (s.putSlot_frame _ _)
        · exact absurd h nofun
    case h_2 => exact .refl s
  · exact .refl s

theorem State.releasePeer_frame (addr : Nat) : Frame [.pt] [] s (s.releasePeer addr).1 := by
  unfold State.releasePeer
  repeat' split
  all_goals first | exact .refl s | exact .update rfl

/-! ### Discipline unit -/

theorem State.published_judgePermit_frame : Frame [] [] s (s.published State.judgePermit) :=
  (s.published_only State.judgePermit_only).frame (.of_safe AlarmsSound.published_judgePermit)

theorem State.published_withdraw_frame : Frame [] [] s (s.published State.withdraw) :=
  (s.published_only State.withdraw_only).frame (.of_safe AlarmsSound.published_withdraw)

theorem State.publish_frame : Frame [.du] [] s s.publish := by
  cases h : s.du.unpublished with
  | none => rw [State.publish_none h]; exact .refl s
  | some p =>
    rw [State.publish_some h]
    refine .after_change ((State.published_judgePermit_frame _).mono rfl) rfl (.of_safe fun hs => ?_)
    have published : AlarmsSound { s with du := { s.du with pub := p, unpublished := none } } := hs.congr rfl rfl rfl
    exact published.published_judgePermit

theorem State.reportCompletion_frame (c : Completion) :
    Frame [] [.noContributor, .holdBudget, .freqClamp, .phaseStep, .holdEntered] s (s.reportCompletion c) := by
  unfold State.reportCompletion
  extract_lets s1 s2 s3 s4
  have budget : Frame [] [.noContributor, .holdBudget, .freqClamp, .phaseStep, .holdEntered] s s2 :=
    (Frame.judge rfl).trans (.judge rfl)
  have clamp : Frame [] [.noContributor, .holdBudget, .freqClamp, .phaseStep, .holdEntered] s s3 := by
    unfold s3
    split
    · exact budget.trans (.judge rfl)
    · exact budget
  have step : Frame [] [.noContributor, .holdBudget, .freqClamp, .phaseStep, .holdEntered] s s4 :=
    .ite (clamp.trans (.notice rfl)) clamp
  exact .ite (step.trans (.notice rfl)) step

/-- The kinds a completion reports (R120, R140, R142, R151, R69, R83). -/
def completionKinds : List Kind :=
  [.noContributor, .holdBudget, .freqClamp, .phaseStep, .holdEntered, .peerLink, .peerSuspect]

/-- What a completion settles, before its status is published or after it is held back: all that follows writes back to the
peer table, reports, and publishes at the output unit, which makes the permit safe. -/
theorem State.completeWith_settles (n : Snapshot) (reports back late : Bool) :
    let c := s.du.complete s.mp.params s.hs n
    Frame [.pt] completionKinds (s.settleCompletion c n.epoch) (s.completeWith n reports back late) ∧
        (AlarmsSound (s.settleCompletion c n.epoch) → PermitSafe (s.completeWith n reports back late)) ∨
      c.step.isSome ∧ Frame [.pt] completionKinds ((s.settleCompletion c n.epoch).holdBack s.du.pub)
        (s.completeWith n reports back late) := by
  unfold State.completeWith
  extract_lets c ws s1 s2 s3 s4 s5
  have write (u : State) : Frame [.pt] completionKinds u (u.writeBackCompletion ws) := (u.writeBackCompletion_frame ws).mono rfl
  have tell (u : State) : Frame [.pt] completionKinds u (u.reportCompletion c) := (u.reportCompletion_frame c).mono rfl
  split
  case isTrue hlate =>
    exact .inr ⟨((Bool.and_eq_true _ _).mp hlate).2, (write _).trans (tell _)⟩
  case isFalse =>
    have wroteFirst : Frame [.pt] completionKinds s1 s2 := .ite (write s1) (.refl s1)
    have toldFirst : Frame [.pt] completionKinds s1 s3 := .ite (wroteFirst.trans (tell s2)) wroteFirst
    have wrote : Frame [.pt] completionKinds s4 s5 := .ite (.refl s4) (write s4)
    have told : Frame [.pt] completionKinds s4 (if reports then s5 else s5.reportCompletion c) := .ite wrote (wrote.trans (tell s5))
    refine .inl ⟨(toldFirst.trans (s3.published_judgePermit_frame.mono rfl)).trans told, fun hs => ?_⟩
    obtain ⟨hsound, hsafe⟩ := (toldFirst.alarms hs).1.published_judgePermit
    exact (told.alarms hsound).2 hsafe

theorem State.completeWith_frame (n : Snapshot) (reports back late : Bool) :
    Frame [.clock, .rate, .du, .tb, .hs, .pt] completionKinds s (s.completeWith n reports back late) := by
  obtain ⟨h, hsafe⟩ | ⟨-, h⟩ := s.completeWith_settles n reports back late
  · refine Frame.after_change (bs := [.clock, .rate, .du, .tb, .hs, .pt]) (h.mono rfl) rfl fun hs => ?_
    have settled : AlarmsSound (s.settleCompletion (s.du.complete s.mp.params s.hs n) n.epoch) := hs.congr rfl rfl rfl
    exact ⟨(h.alarms settled).1, fun _ => hsafe settled⟩
  · exact Frame.after_update (bs := [.clock, .rate, .du, .tb, .hs, .pt]) (h.mono rfl) rfl

/-! ### Line controller -/

theorem State.abandon_frame : Frame [.lc] [.lineCongestion] s s.abandon :=
  .after_update (.judge rfl) rfl

theorem State.pendInJam_frame : Frame [.lc] [.lineCongestion] s s.pendInJam :=
  .ite (.after_update (State.abandon_frame _) rfl) (.update rfl)

theorem State.startTx_frame : Frame [.lc] [.lineCongestion] s s.startTx := .update rfl

theorem State.pend_frame : Frame [.lc] [.lineCongestion] s s.pend :=
  .ite (.after_update (State.abandon_frame _) rfl)
    (.ite (.after_update (State.startTx_frame _) rfl) (.update rfl))

theorem State.instantReached_frame : Frame [.lc] [.lineCongestion] s s.instantReached := by
  have taken : Frame [.lc] [.lineCongestion] s { s with lc := { s.lc with nextInstant := none } } := .update rfl
  unfold State.instantReached
  dsimp only
  split
  case h_1 => exact taken.trans (State.pend_frame _)
  case h_2 => exact taken.trans ((State.abandon_frame _).trans (State.pend_frame _))
  case h_3 => exact taken.trans ((State.abandon_frame _).trans (State.pend_frame _))
  case h_4 => exact taken.trans ((Frame.ite (State.abandon_frame _) (.refl _)).trans (State.pendInJam_frame _))
  case h_5 => exact .update rfl
  case h_6 => exact taken

theorem State.collide_frame : Frame [.lc] [.lineCongestion] s s.collide := by
  unfold State.collide
  extract_lets l preStep s1
  have cut : Frame [.lc] [.lineCongestion] s s1 := .update rfl
  have abandoned : Frame [.lc] [.lineCongestion] s s1.abandon := cut.trans s1.abandon_frame
  split
  · exact .ite ((abandoned.trans (.update (by rfl))).trans (State.pendInJam_frame _)) (.ite abandoned cut)
  · exact .update rfl

theorem State.endJam_frame : Frame [.lc] [] s s.endJam := by
  unfold State.endJam
  dsimp only
  split
  · exact .update rfl
  · exact .update rfl
  · exact .ite (.update rfl) (.ite (.update rfl) (.update rfl))

theorem State.complete_frame (r : TxRecord) (stamp : Stamp) : Frame [.lc] [.lineCongestion] s (s.complete r stamp) := by
  unfold State.complete
  dsimp only
  split
  · exact .update rfl
  · exact .update rfl
  · exact .ite (.after_update (State.pend_frame _) rfl) (.update rfl)

theorem State.discard_frame : Frame [.lc] [.lineErrors] s s.discard :=
  .after_update (.judge rfl) rfl

/-- The kinds a reception can bear on. -/
def receptionKinds : List Kind := [.peerLink, .peerSuspect, .tableFull, .addressClash, .lineErrors]

theorem State.goodBeacon_frame (b : Beacon) : Frame [.lc, .pt] [.peerLink, .peerSuspect, .tableFull] s (s.goodBeacon b) := by
  unfold State.goodBeacon
  split
  · exact .ite ((s.deliver_frame _ _ _).mono rfl) (.after_update ((State.deliver_frame _ _ _ _).mono rfl) rfl)
  · exact (s.deliver_frame _ _ _).mono rfl

theorem State.clashBeacon_frame : Frame [.lc] [.addressClash] s s.clashBeacon :=
  .after_update (.judge rfl) rfl

theorem State.receive_frame (bytes : List Byte) (whole : Bool) :
    Frame [.lc, .pt] receptionKinds s (s.receive bytes whole) := by
  unfold State.receive
  split
  · exact .ite (.ite (s.clashBeacon_frame.mono rfl) ((s.goodBeacon_frame _).mono rfl)) (.refl s)
  · exact s.discard_frame.mono rfl

theorem State.lineBoundary_frame (t : Nat) : Frame [.lc] [.lineCongestion, .addressClash] s (s.lineBoundary t) := by
  refine Frame.trans ?drawn ((Frame.judge rfl).trans (.judge rfl))
  exact .ite (.update rfl) (.update rfl)

theorem State.windowEpoch_frame : Frame [.lc] [.lineErrors] s s.windowEpoch :=
  .after_update (.judge rfl) rfl

/-! ### Reference input -/

theorem State.yieldSample_frame (t : Int) (m : Option Message) (inWindow : Bool) :
    Frame [.ri] [.refLoss] s (s.yieldSample t m inWindow) := by
  unfold State.yieldSample
  split
  · exact .after_update (.judge rfl) rfl
  · exact .ite (.after_update (.judge rfl) rfl) (.update rfl)

theorem State.openEdge_frame (t : Int) : Frame [.ri] [.refLoss] s (s.openEdge t) := by
  unfold State.openEdge
  split
  · exact .after_update (State.yieldSample_frame _ _ _ _) rfl
  · exact .refl s

theorem State.windowEdge_frame (t : Int) : Frame [.ri] [.refLoss, .refMisplaced] s (s.windowEdge t) :=
  .after_update (((State.yieldSample_frame _ _ _ _).mono rfl).trans (.judge rfl)) rfl

theorem State.misplacedEdge_frame : Frame [.ri] [.refMisplaced] s s.misplacedEdge :=
  .ite (.after_update (.judge rfl) rfl) (.update rfl)

theorem State.judgeEdge_frame (c : Capture) : Frame [.ri] [.refLoss, .refMisplaced] s (s.judgeEdge c) := by
  refine .ite (.update rfl) ?_
  split
  · exact .ite (s.windowEdge_frame _) (s.misplacedEdge_frame.mono rfl)
  · exact s.misplacedEdge_frame.mono rfl
  · exact (s.openEdge_frame _).mono rfl

/-! ### Management port, output unit, start -/

theorem State.ackOne_frame (k : Kind) : Frame [] [] s (s.ackOne k) :=
  .change rfl (.onRecord s (fun r => r.ack_condition _ _) fun hs => (hs.records k).ack (hs.classes k) _)

theorem State.escalate_frame (k : Kind) : Frame [] [] s (s.onRecord k (AlarmRecord.escalate s.now)) :=
  .change rfl (.onRecord s (fun _ => AlarmRecord.touched_condition _ _ _) fun hs =>
    (hs.records k).congr (AlarmRecord.touched_condition _ _ _) (AlarmRecord.touched_state _ _ _))

theorem State.ackKinds_frame (s : State) (ks : List Kind) : Frame [] [] s (s.ackKinds ks) := by
  induction ks generalizing s with
  | nil => exact .refl s
  | cons k ks ih => exact (s.ackOne_frame k).trans (ih _)

theorem State.ackAlarm_frame (code : Nat) : Frame [] [] s (s.ackAlarm code).1 := by
  unfold State.ackAlarm
  split
  · exact s.ackKinds_frame kinds
  · split
    · exact s.ackOne_frame _
    · exact .refl s

theorem State.restart_frame :
    Frame [.mp, .lc, .du, .ri, .pt] [.peerLink, .peerSuspect, .tableFull, .holdBudget] s s.restart := by
  unfold State.restart
  extract_lets s1 _ s2
  have emptied : Frame [.pt] [.peerLink, .peerSuspect, .tableFull, .holdBudget] s2 (s2.restartPeers.judge .holdBudget false) :=
    (s2.restartPeers_frame.mono rfl).trans (.judge rfl)
  refine (s.publish_frame.mono rfl).trans ?_
  refine .after_change ((emptied.trans ((State.published_withdraw_frame _).mono rfl)).mono rfl) rfl (.of_safe fun hs => ?_)
  have afresh : AlarmsSound s2 := hs.congr rfl rfl rfl
  exact (emptied.alarms afresh).1.published_withdraw

theorem State.forceHold_frame : Frame [.du] [] s s.forceHold.1 := by
  unfold State.forceHold
  split
  · exact .update rfl
  · exact .refl s

theorem State.setOffset_frame (selector : Nat) (v : Int) : Frame [.ou] [] s (s.setOffset selector v).1 := by
  unfold State.setOffset
  repeat' split
  all_goals first | exact .refl s | exact .update rfl

theorem State.driveFrame_frame (t : Nat) : Frame [.ou] [] s (s.driveFrame t) := by
  unfold State.driveFrame
  dsimp only
  split
  · exact .update rfl
  · exact .update rfl

theorem State.applyPpsShadow_frame (sec : Nat) : Frame [.ou] [] s (s.applyPpsShadow sec) := by
  unfold State.applyPpsShadow
  split
  · extract_lets s1
    have driven : Frame [.ou] [] s s1 := by
      unfold s1
      split
      · exact .ite (.update rfl) (.refl s)
      · exact .refl s
    exact driven.trans (.update rfl)
  · exact .refl s

theorem State.takeSnapshot_frame (sec : Nat) : Frame [.pt, .ri, .du] [] s (s.takeSnapshot sec) :=
  .update rfl

/-- The notice kinds, and no others, are of class NOTICE in every image (R194). -/
theorem imageParams_classes (image : List Byte) (k : Kind) :
    (imageParams image).classes.get k = .notice ↔ Params.defaultClass k = .notice := by
  simp only [imageParams, PerKind.get_ofFn]
  cases h : Params.defaultClass k with
  | notice => simp
  | standing | urgent =>
    refine iff_of_false ?_ nofun
    dsimp only
    split <;> simp

/-- No image selects PERMIT_LOST as permit-gating (R194). -/
theorem imageParams_never (image : List Byte) : (imageParams image).gatingSet.get .permitLost = false := by
  simp [imageParams, neverGating]

theorem AlarmsSound.load (hs : AlarmsSound s) (image : List Byte) {t : State}
    (hau : t.au = s.au.load (imageParams image) s.now) (hconds : t.conds = s.conds)
    (hparams : t.mp.params = imageParams image) : AlarmsSound t := by
  refine ⟨fun k => ?_, ?_, Alarms.refresh_exact _ _ _ hau (by rw [hparams]), by rw [hparams]; exact imageParams_never image⟩
  · have hrecord : t.au.records.get k = (s.au.records.get k).load ((imageParams image).classes.get k) s.now := by
      rw [hau]
      exact PerKind.get_ofFn _ k
    rw [hrecord, hconds, AlarmRecord.load_eq]
    exact (hs.records k).congr rfl rfl
  · rw [hparams]
    exact imageParams_classes image

theorem State.loadGood_frame (image : List Byte) : Frame [.setup, .mp, .tb, .ri, .ou] [.lineErrors] s (s.loadGood image) := by
  refine Frame.trans ?_ (.judge rfl)
  refine .after_change (((State.gatingReport_only _ _).frame (.gatingReport _ _)).mono rfl) rfl fun hs => ?_
  have kept := AlarmsKept.gatingReport s.au.gating
  refine ⟨(kept _ ?_).1, fun _ => (kept _ ?_).2 (permitSafe_of_txok rfl)⟩ <;> exact hs.load s image rfl rfl rfl

theorem State.assertReset_pending (cause : Cause) (held : HeldBy) (left : List Byte) :
    (s.assertReset cause held left).pending = s.pending := by
  unfold State.assertReset
  split <;> rfl

theorem State.releaseReset_pending (cause : Cause) (held : HeldBy) :
    (s.releaseReset cause held).pending = s.pending := by
  unfold State.releaseReset
  split <;> rfl

theorem State.pinRises_pending : s.pinRises.pending = s.pending := by
  unfold State.pinRises
  split
  · exact State.releaseReset_pending _ _ _
  · rfl

end

/-! ### The commands -/

/-- The command is one of the supply or of the RESET pin: it holds the part, releases it or starts it afresh (R211). -/
def isReset : Instr → Bool
  | .powerOn | .pinReset _ | .powerLoss _ => true
  | _ => false

/-- The blocks a command that is no reset may touch. -/
def commandBlocks : Instr → List Block
  | .tick => [.clock, .tb, .lc, .ri, .du, .hs, .ou]
  | .epoch => [.tb, .lc, .pt, .ri, .du, .ou]
  | .minuteBoundary => [.tb, .hs]
  | .beaconIntervalBoundary => [.tb, .lc, .pt]
  | .step => [.clock, .tb, .lc, .pt, .ri, .ou]
  | .combineCompletion => [.clock, .rate, .tb, .pt, .du, .hs, .choices]
  | .carrierPresent | .receptionOverlong _ | .nextInstantReached | .lineIdle | .collisionDetected | .jamEnd | .backoffEnd
  | .transmissionComplete | .stuckTimerExpiry => [.lc]
  | .carrierAbsent _ _ => [.lc, .pt]
  | .rxCapture _ | .txCapture _ => [.tb, .lc]
  | .configLoadComplete _ => [.tb, .lc, .ri, .ou, .setup, .mp]
  | .startScanComplete => [.clock, .rate, .tb, .du, .hs]
  | .refMessage _ | .messageCollectionTimeout | .messageByteStopBitLow | .pendingMessageExpiry | .windowGiveUp
  | .lossDeadlineExpiry => [.ri]
  | .refEdge _ => [.tb, .ri]
  | .programEnd _ | .eraseEnd _ => [.hs]
  | .ppsPulseTime | .frameBoundary | .foutEdge _ | .pulseEnd _ => [.ou]
  | .readStatus _ _ | .readPeer _ _ | .readAlarm _ _ | .readHistory _ _ | .ackAlarm _ _ | .ackAll _ | .badCommand _ _ _
  | .responseRead _ | .responseReady => [.mp]
  | .lockoutPeer _ _ | .releasePeer _ _ => [.pt, .mp]
  | .forceHold _ _ | .releaseHold _ _ => [.du, .mp]
  | .setOffset _ _ => [.ou, .mp]
  | .restart _ _ => [.lc, .pt, .ri, .du, .mp]
  | .escalationTimerExpiry _ | .powerOn | .pinReset _ | .powerLoss _ => []

/-- The kinds, beside PERMIT_LOST, whose condition a command that is no reset may change. -/
def commandKinds : Instr → List Kind
  | .epoch | .receptionOverlong _ | .configLoadComplete _ => [.lineErrors]
  | .minuteBoundary | .programEnd _ | .eraseEnd _ => [.historyFault]
  | .beaconIntervalBoundary => [.lineCongestion, .addressClash, .peerLink, .peerSuspect, .tableFull]
  | .combineCompletion => completionKinds
  | .carrierAbsent _ _ => receptionKinds
  | .nextInstantReached | .collisionDetected | .transmissionComplete | .stuckTimerExpiry | .lineIdle | .backoffEnd =>
    [.lineCongestion]
  | .refEdge _ => [.refLoss, .refMisplaced]
  | .lossDeadlineExpiry => [.refLoss]
  | .lockoutPeer _ _ => [.peerLink, .peerSuspect]
  | .restart _ _ => [.peerLink, .peerSuspect, .tableFull, .holdBudget]
  | _ => []

section
variable {s t : State}

theorem execTick_frame (h : execTick s = .next t) : Frame [.clock, .tb, .lc, .ri, .du, .hs, .ou] [] s t := by
  refine Frame.event h ((s.publish_frame.mono rfl).trans ?_)
  exact .change rfl (.tick s.publish rfl rfl rfl rfl rfl)

theorem execEpoch_frame (h : execEpoch s = .next t) : Frame [.tb, .lc, .pt, .ri, .du, .ou] [.lineErrors] s t := by
  refine Frame.event h ?_
  split
  · refine (s.publish_frame.mono rfl).trans (Frame.trans ?_ ((State.takeSnapshot_frame _ _).mono rfl))
    refine Frame.trans ?_ ((State.windowEpoch_frame _).mono rfl)
    exact .after_update ((State.applyPpsShadow_frame _ _).mono rfl) rfl
  · exact .refl s

theorem execMinuteBoundary_frame (h : execMinuteBoundary s = .next t) : Frame [.tb, .hs] [.historyFault] s t := by
  refine Frame.event h ?_
  split
  · exact .after_update ((Frame.ite ((State.recordMinute_frame _ _).mono rfl) (.refl _)).trans (.update rfl)) rfl
  · exact .refl s

theorem execBeaconIntervalBoundary_frame (h : execBeaconIntervalBoundary s = .next t) :
    Frame [.tb, .lc, .pt] [.lineCongestion, .addressClash, .peerLink, .peerSuspect, .tableFull] s t := by
  refine Frame.event h ?_
  split
  · exact .after_update (((State.lineBoundary_frame _ _).mono rfl).trans ((State.peerBoundary_frame _).mono rfl)) rfl
  · exact .refl s

theorem execStep_frame (h : execStep s = .next t) : Frame [.clock, .tb, .lc, .pt, .ri, .ou] [] s t := by
  refine Frame.event h ?_
  split
  · exact .update rfl
  · exact .refl s

theorem execCombineCompletion_frame (h : execCombineCompletion s = .next t) :
    Frame [.clock, .rate, .tb, .pt, .du, .hs, .choices] completionKinds s t := by
  refine Frame.event h ?_
  split
  · exact .after_update ((State.completeWith_frame _ _ _ _ _).mono rfl) rfl
  · exact .refl s

theorem execCarrierPresent_frame (h : execCarrierPresent s = .next t) : Frame [.lc] [] s t :=
  Frame.whenDue h (.update rfl)

theorem execStartScanComplete_frame (h : execStartScanComplete s = .next t) : Frame [.clock, .rate, .tb, .du, .hs] [] s t :=
  Frame.whenDue h (.update rfl)

theorem execCarrierAbsent_frame {bytes : List Byte} {whole : Bool} (h : execCarrierAbsent bytes whole s = .next t) :
    Frame [.lc, .pt] receptionKinds s t :=
  Frame.whenDue h (.ite (.after_update (State.receive_frame _ _ _) rfl) (.update rfl))

theorem execConfigLoadComplete_frame {image : List Byte} (h : execConfigLoadComplete image s = .next t) :
    Frame [.tb, .lc, .ri, .ou, .setup, .mp] [.lineErrors] s t :=
  Frame.whenDue h (.ite (.update rfl) ((State.loadGood_frame _ _).mono rfl))

theorem execRefEdge_frame {edge : Edge} (h : execRefEdge edge s = .next t) :
    Frame [.tb, .ri] [.refLoss, .refMisplaced] s t := by
  refine Frame.whenDue h ?_
  split
  · exact .after_update ((State.judgeEdge_frame _ _).mono rfl) rfl
  · exact .refl s

theorem execReceptionOverlong_frame {bytes : List Byte} (h : execReceptionOverlong s bytes = .next t) :
    Frame [.lc] [.lineErrors] s t :=
  Frame.whenDue h (.after_update (State.discard_frame _) rfl)

theorem execLineIdle_frame (h : execLineIdle s = .next t) : Frame [.lc] [.lineCongestion] s t :=
  Frame.whenDue h (.ite (.after_update (State.startTx_frame _) rfl) (.update rfl))

theorem execBackoffEnd_frame (h : execBackoffEnd s = .next t) : Frame [.lc] [.lineCongestion] s t :=
  Frame.whenDue h (.ite s.startTx_frame (.update rfl))

theorem execStuckTimerExpiry_frame (h : execStuckTimerExpiry s = .next t) : Frame [.lc] [.lineCongestion] s t :=
  Frame.whenDue h (.after_update (State.abandon_frame _) rfl)

theorem execLossDeadlineExpiry_frame (h : execLossDeadlineExpiry s = .next t) : Frame [.ri] [.refLoss] s t :=
  Frame.whenDue h (.after_update (.judge rfl) rfl)

theorem execBadCommand_frame {early : Bool} {code : Byte} {args : List Byte}
    (h : execBadCommand early code args s = .next t) : Frame [.mp] [] s t :=
  Frame.whenDue h (.ite (.update rfl) (.update rfl))

theorem execTransmissionComplete_frame (h : execTransmissionComplete s = .next t) :
    Frame [.lc] [.lineCongestion] s t := by
  refine Frame.event h ?_
  split
  · exact s.complete_frame _ _
  · exact .refl s

theorem execProgramEnd_frame {left : List Byte} (h : execProgramEnd left s = .next t) :
    Frame [.hs] [.historyFault] s t := by
  refine Frame.event h ?_
  split
  · exact .ite (s.endProgram_frame _ _ _ _ _) (.refl s)
  · exact .refl s

theorem execEraseEnd_frame {left : List Byte} (h : execEraseEnd left s = .next t) :
    Frame [.hs] [.historyFault] s t := by
  refine Frame.event h ?_
  split
  · exact .ite (s.endErase_frame _ _ _ _) (.refl s)
  · exact .refl s

theorem execPpsPulseTime_frame (h : execPpsPulseTime s = .next t) : Frame [.ou] [] s t := by
  refine Frame.event h ?_
  split
  · exact .ite (.update rfl) (.refl s)
  · exact .refl s

theorem execFrameBoundary_frame (h : execFrameBoundary s = .next t) : Frame [.ou] [] s t := by
  refine Frame.event h ?_
  split
  · exact .ite (s.driveFrame_frame _) (.refl s)
  · exact .refl s

theorem execFoutEdge_frame {pin : FoutPin} (h : execFoutEdge pin s = .next t) : Frame [.ou] [] s t := by
  refine Frame.event h ?_
  split
  · cases pin <;> exact .ite (.update rfl) (.refl s)
  · exact .refl s

theorem execPulseEnd_frame {pin : PulsePin} (h : execPulseEnd pin s = .next t) : Frame [.ou] [] s t := by
  refine Frame.event h ?_
  cases pin <;> exact .update rfl

theorem execResponseReady_frame (h : execResponseReady s = .next t) : Frame [.mp] [] s t := by
  refine Frame.event h ?_
  split
  · exact .update rfl
  · exact .refl s

theorem execEscalationTimerExpiry_frame {k : Kind} (h : execEscalationTimerExpiry k s = .next t) : Frame [] [] s t :=
  Frame.whenDue h (s.escalate_frame k)

/-- Every command but the resets stays in its frame. -/
theorem exec_frame {c : Instr} (hc : isReset c = false) (h : exec c s = .next t) :
    Frame (commandBlocks c) (commandKinds c) s t := by
  cases c with
  | powerOn | pinReset | powerLoss => exact absurd hc nofun
  | tick => exact execTick_frame h
  | epoch => exact execEpoch_frame h
  | minuteBoundary => exact execMinuteBoundary_frame h
  | beaconIntervalBoundary => exact execBeaconIntervalBoundary_frame h
  | step => exact execStep_frame h
  | combineCompletion => exact execCombineCompletion_frame h
  | carrierAbsent => exact execCarrierAbsent_frame h
  | receptionOverlong => exact execReceptionOverlong_frame h
  | nextInstantReached => exact Frame.whenDue h s.instantReached_frame
  | lineIdle => exact execLineIdle_frame h
  | collisionDetected => exact Frame.whenDue h s.collide_frame
  | jamEnd => exact Frame.whenDue h s.endJam_frame
  | backoffEnd => exact execBackoffEnd_frame h
  | transmissionComplete => exact execTransmissionComplete_frame h
  | stuckTimerExpiry => exact execStuckTimerExpiry_frame h
  | configLoadComplete => exact execConfigLoadComplete_frame h
  | carrierPresent => exact execCarrierPresent_frame h
  | startScanComplete => exact execStartScanComplete_frame h
  | rxCapture | txCapture =>
    simp only [exec, execRxCapture, execTxCapture] at h
    exact (Frame.whenDue h (.update rfl) : Frame [.tb, .lc] [] s t)
  | refMessage | messageCollectionTimeout | messageByteStopBitLow | pendingMessageExpiry | windowGiveUp =>
    simp only [exec, execRefMessage, execMessageCollectionTimeout, execMessageByteStopBitLow, execPendingMessageExpiry,
      execWindowGiveUp] at h
    exact (Frame.whenDue h (.update rfl) : Frame [.ri] [] s t)
  | escalationTimerExpiry => exact execEscalationTimerExpiry_frame h
  | lossDeadlineExpiry => exact execLossDeadlineExpiry_frame h
  | refEdge => exact execRefEdge_frame h
  | programEnd => exact execProgramEnd_frame h
  | eraseEnd => exact execEraseEnd_frame h
  | ppsPulseTime => exact execPpsPulseTime_frame h
  | frameBoundary => exact execFrameBoundary_frame h
  | foutEdge => exact execFoutEdge_frame h
  | pulseEnd => exact execPulseEnd_frame h
  | readStatus | readPeer | readAlarm | readHistory =>
    exact Frame.command (bs := [.mp]) (ks := []) h rfl fun u => .refl u
  | ackAlarm =>
    exact Frame.command (bs := [.mp]) (ks := []) h rfl fun u => (u.ackAlarm_frame _).mono rfl
  | ackAll =>
    exact Frame.command (bs := [.mp]) (ks := []) h rfl fun u => (u.ackKinds_frame kinds).mono rfl
  | lockoutPeer =>
    exact Frame.command (bs := [.pt, .mp]) (ks := [.peerLink, .peerSuspect]) h rfl fun u => (u.lockoutPeer_frame _).mono rfl
  | releasePeer =>
    exact Frame.command (bs := [.pt, .mp]) (ks := []) h rfl fun u => (u.releasePeer_frame _).mono rfl
  | forceHold =>
    exact Frame.command (bs := [.du, .mp]) (ks := []) h rfl fun u => u.forceHold_frame.mono rfl
  | releaseHold =>
    exact Frame.command (bs := [.du, .mp]) (ks := []) h rfl fun u => .update rfl
  | setOffset =>
    exact Frame.command (bs := [.ou, .mp]) (ks := []) h rfl fun u => (u.setOffset_frame _ _).mono rfl
  | restart =>
    exact Frame.command (bs := [.lc, .pt, .ri, .du, .mp]) (ks := [.peerLink, .peerSuspect, .tableFull, .holdBudget]) h rfl
      fun u => u.restart_frame.mono rfl
  | badCommand => exact execBadCommand_frame h
  | responseRead =>
    rw [exec, execResponseRead] at h
    exact (Frame.event h (.update rfl) : Frame [.mp] [] s t)
  | responseReady => exact execResponseReady_frame h

end

end Sys2Proof.Machine
end

section
/-! SUPPORT. A step and a command, said once: what a step answers, what a reset can leave, what each block of a command's
frame tells, and what a completion settles. -/

namespace Sys2Proof.Machine

/-! ### Steps -/

section
variable {s t : State}

theorem step_of_empty (h : s.pending = []) : step s = .next s := by rw [step, h]

theorem step_of_front {c : Instr} {rest : List Instr} (h : s.pending = c :: rest) :
    step s = exec c { s with pending := rest } := by rw [step, h]

/-- A predicate that does not read the queue and that every command keeps is kept by every step. -/
theorem step_keeps {P : State → Prop} (hqueue : ∀ s l, P s → P { s with pending := l })
    (hexec : ∀ c s t, P s → exec c s = .next t → P t) (hs : P s) (h : step s = .next t) : P t := by
  cases hp : s.pending with
  | nil =>
    rw [step_of_empty hp] at h
    cases h
    exact hs
  | cons c rest =>
    rw [step_of_front hp] at h
    exact hexec c _ t (hqueue s rest hs) h

/-! ### Resets (R211, R166) -/

/-- What a command of the supply or of the RESET pin can leave: the part as it was but for what holds it, which it did already,
every block begun, or every block standing at its reset values; over the record area as it was, or cut short. -/
def ResetTo (s t : State) : Prop :=
  (∃ held, (held ≠ .nothing → s.held ≠ .nothing) ∧ t = { s with held := held }) ∨
  (∃ cause area, (area = s.hs.area ∨ ∃ left, area = s.hs.cutShort left) ∧ t = s.start cause area) ∨
  ∃ held cause left, t = s.standing held cause (s.hs.cutShort left)

theorem ResetTo.held (s : State) {held : HeldBy} (h : held ≠ .nothing → s.held ≠ .nothing) : ResetTo s { s with held := held } :=
  .inl ⟨held, h, rfl⟩

theorem ResetTo.started (s : State) (cause : Cause) : ResetTo s (s.start cause s.hs.area) :=
  .inr (.inl ⟨cause, _, .inl rfl, rfl⟩)

theorem HeldBy.ne_nothing_of_pin {h : HeldBy} (hp : h.pin = true) : h ≠ .nothing := by
  rintro rfl
  exact absurd hp nofun

theorem HeldBy.ne_nothing_of_supply {h : HeldBy} (hp : h.supply = true) : h ≠ .nothing := by
  rintro rfl
  exact absurd hp nofun

theorem State.assertReset_resetTo (cause : Cause) (held : HeldBy) (left : List Byte) :
    ResetTo s (s.assertReset cause held left) := by
  unfold State.assertReset
  split
  next => exact .inr (.inr ⟨held, cause, left, rfl⟩)
  next h => exact .held s fun _ => h

theorem State.releaseReset_resetTo (cause : Cause) {held : HeldBy} (h : held ≠ .nothing → s.held ≠ .nothing) :
    ResetTo s (s.releaseReset cause held) := by
  unfold State.releaseReset
  split
  · exact .started s cause
  · exact .held s h

theorem State.pinRises_resetTo : ResetTo s s.pinRises := by
  unfold State.pinRises
  split
  next hp => exact State.releaseReset_resetTo _ fun _ => HeldBy.ne_nothing_of_pin hp
  next => exact .held s id

/-- A pulse on a held part: the pin rises again, and either the part begins over the area as it was or stays held. -/
theorem State.pulse_resetTo (left : List Byte) : ResetTo s (s.pinFalls left).pinRises := by
  by_cases h : s.held = .nothing
  · rw [State.pulse_running h]
    exact .inr (.inl ⟨.pin, _, .inr ⟨left, rfl⟩, rfl⟩)
  · rw [State.pinFalls, State.assertReset_held h, State.pinRises, if_pos rfl, State.releaseReset]
    split
    · exact .started s .pin
    · exact .held s fun _ => h

theorem exec_resetTo {c : Instr} (hc : isReset c = true) (h : exec c s = .next t) : ResetTo s t := by
  cases c with
  | powerOn =>
    cases h
    refine State.releaseReset_resetTo _ fun hn hs => hn ?_
    rw [hs]
    rfl
  | powerLoss left =>
    cases h
    exact State.assertReset_resetTo _ _ left
  | pinReset pin =>
    cases h
    cases pin with
    | pulse left => exact State.pulse_resetTo left
    | falls left => exact State.assertReset_resetTo _ _ left
    | rises => exact State.pinRises_resetTo
  | _ => exact absurd hc nofun

/-! ### What a frame tells -/

section
variable {bs : List Block} {ks : List Kind}

theorem Frame.clock (h : Frame bs ks s t) (hb : bs.contains .clock = false) : t.tb.clock = s.tb.clock := h.blocks .clock hb

theorem Frame.rate (h : Frame bs ks s t) (hb : bs.contains .rate = false) : (t.du.f, t.du.fInt) = (s.du.f, s.du.fInt) :=
  h.blocks .rate hb

theorem Frame.setup (h : Frame bs ks s t) (hb : bs.contains .setup = false) :
    (t.mp.params, t.mp.status) = (s.mp.params, s.mp.status) := h.blocks .setup hb

theorem Frame.held (h : Frame bs ks s t) (hb : bs.contains .held = false) : t.held = s.held := h.blocks .held hb

theorem Frame.tb (h : Frame bs ks s t) (hb : bs.contains .tb = false) : t.tb = s.tb := h.blocks .tb hb

theorem Frame.lc (h : Frame bs ks s t) (hb : bs.contains .lc = false) : t.lc = s.lc := h.blocks .lc hb

theorem Frame.pt (h : Frame bs ks s t) (hb : bs.contains .pt = false) : t.pt = s.pt := h.blocks .pt hb

theorem Frame.ri (h : Frame bs ks s t) (hb : bs.contains .ri = false) : t.ri = s.ri := h.blocks .ri hb

theorem Frame.du (h : Frame bs ks s t) (hb : bs.contains .du = false) : t.du = s.du := h.blocks .du hb

theorem Frame.hs (h : Frame bs ks s t) (hb : bs.contains .hs = false) : t.hs = s.hs := h.blocks .hs hb

theorem Frame.ou (h : Frame bs ks s t) (hb : bs.contains .ou = false) : s.ou.sameSchedules t.ou := h.blocks .ou hb

theorem Frame.mp (h : Frame bs ks s t) (hb : bs.contains .mp = false) : t.mp = s.mp := h.blocks .mp hb

theorem Frame.choices (h : Frame bs ks s t) (hb : bs.contains .choices = false) : t.choices = s.choices :=
  h.blocks .choices hb

end

/-- No command but a reset holds the part or releases it. -/
theorem held_not_mem_commandBlocks (c : Instr) : (commandBlocks c).contains .held = false := by
  cases c <;> rfl

/-! ### Host commands (R214 to R216) -/

/-- A host command keeps what its work keeps once the load has completed, and what of the port reads the parameters and the
load's status alone. -/
theorem State.command_keeps {P : State → Prop} {early : Bool} {code : Byte} {len : Nat} {args : List Byte}
    {body : State → State × Reply}
    (hport : ∀ (u : State) (mp : Port), mp.params = u.mp.params → mp.status = u.mp.status → P u → P { u with mp := mp })
    (hbody : ∀ u, u.mp.status ≠ .notLoaded → P u → P (body u).1) (hs : P s)
    (h : s.command early code len args body = .next t) : P t := by
  have sent : P (s.sentNothing (1 + args.length)) := hport s _ rfl rfl hs
  have answered (u : State) (r : Reply) (hu : P u) : P (u.answer code r) := hport u _ rfl rfl hu
  obtain ⟨-, rfl⟩ | ⟨-, ⟨-, rfl⟩ | ⟨-, -, -, rfl⟩ | ⟨-, -, -, rfl⟩ | ⟨hdeaf, -, -, rfl⟩⟩ := State.command_cases h
  · exact hs
  · exact sent
  · exact answered _ _ sent
  · exact answered _ _ sent
  · have hloaded : s.mp.status ≠ .notLoaded := fun hn => by simp [State.deaf, hn] at hdeaf
    exact answered _ _ (hbody _ hloaded sent)

/-! ### Publication (R124, R128) -/

theorem State.publish_du (s : State) :
    s.publish.du = { s.du with pub := s.du.unpublished.getD s.du.pub, unpublished := none } := by
  cases h : s.du.unpublished with
  | none => rw [State.publish_none h, Option.getD_none, ← h]
  | some p => rw [State.publish_some h]; exact (s.withPublished_only p).blocks.du

@[simp] theorem State.publish_tb (s : State) : s.publish.tb = s.tb := s.publish_frame.tb rfl

end

end Sys2Proof.Machine
end

section
/-! SUPPORT. The time base and the frequency stay in their ranges: what each command does to the counter, the increments, F
and F_int, and the obligation TimeSoundAtEveryStep. -/

namespace Sys2Proof.Machine

section
variable {s t : State}

theorem inF_clampInt (v : Int) : inF (clampInt (-fLimit) fLimit v) := by
  simp only [inF, clampInt, fLimit]
  omega

/-- What the invariant speaks of: the clock of the time base, F and F_int. -/
theorem TimeSound.congr (hs : TimeSound s) (hclock : t.tb.clock = s.tb.clock)
    (hrate : (t.du.f, t.du.fInt) = (s.du.f, s.du.fInt)) : TimeSound t := by
  simp only [TimeBase.clock, Prod.mk.injEq] at hclock hrate
  obtain ⟨hcounter, hstep, hinc, hlast⟩ := hclock
  obtain ⟨hf, hfInt⟩ := hrate
  exact ⟨hcounter ▸ hs.counter, hstep ▸ hs.stepCtr, hinc ▸ hs.increment, hlast ▸ hs.lastInc, hf ▸ hs.f, hfInt ▸ hs.fInt⟩

theorem TimeSound.of_frame {bs : List Block} {ks : List Kind} (hs : TimeSound s) (h : Frame bs ks s t)
    (hc : bs.contains .clock = false)
    (hr : bs.contains .rate = false) : TimeSound t :=
  hs.congr (h.clock hc) (h.rate hr)

/-- A new F, its increment, and a new F_int, all in range. -/
theorem TimeSound.of_rate (hs : TimeSound s) (hcounter : t.tb.counter = s.tb.counter) (hstep : t.tb.stepCtr = s.tb.stepCtr)
    (hlast : t.tb.lastInc = s.tb.lastInc) (hinc : t.tb.increment = incrementOf t.du.f) (hf : inF t.du.f)
    (hfInt : inF t.du.fInt) : TimeSound t :=
  ⟨hcounter ▸ hs.counter, hstep ▸ hs.stepCtr, hinc ▸ incrementOf_range hf, hlast ▸ hs.lastInc, hf, hfInt⟩

theorem timeSound_of_reset (htb : t.tb = .reset) (hdu : t.du = .reset) : TimeSound t := by
  have zero : inF 0 := ⟨by decide, by decide⟩
  have nominal : inIncrement 34359738368 := ⟨by decide, by decide⟩
  exact ⟨by rw [htb]; exact ⟨by decide, by decide, by decide⟩, by rw [htb]; decide, by rw [htb]; exact nominal,
    by rw [htb]; exact nominal, by rw [hdu]; exact zero, by rw [hdu]; exact zero⟩

theorem TimeSound.resetTo (hs : TimeSound s) (h : ResetTo s t) : TimeSound t := by
  obtain ⟨_, -, rfl⟩ | ⟨_, _, _, rfl⟩ | ⟨_, _, _, rfl⟩ := h
  · exact hs.congr rfl rfl
  · exact timeSound_of_reset rfl rfl
  · exact timeSound_of_reset rfl rfl

/-! ### Ticks and steps -/

theorem TimeSound.tick (hs : TimeSound s) (h : execTick s = .next t) : TimeSound t := by
  obtain ⟨-, rfl⟩ | ⟨-, rfl⟩ := State.event_cases h
  · exact hs
  · have hp : TimeSound s.publish := hs.of_frame s.publish_frame rfl rfl
    exact ⟨(Counter.tick_spec hp.counter hp.increment.2).1, hp.stepCtr, hp.increment, hp.increment, hp.f, hp.fInt⟩

theorem TimeSound.applyStep (hs : TimeSound s) (x : Int) : TimeSound (s.applyStep x) :=
  ⟨(Counter.step_spec _ x).1, Nat.mod_lt _ (by decide), hs.increment, hs.lastInc, hs.f, hs.fInt⟩

theorem TimeSound.step (hs : TimeSound s) (h : execStep s = .next t) : TimeSound t := by
  obtain ⟨-, rfl⟩ | ⟨-, rfl⟩ := State.event_cases h
  · exact hs
  · split
    next x rest _ => exact TimeSound.applyStep (s := { s with tb := { s.tb with orders := rest } }) (hs.congr rfl rfl) x
    next => exact hs

/-! ### Completions and the start scan -/

/-- Steering keeps F and F_int within 100 ppm (R118, R123, R144). -/
theorem steer_inF {p : Params} {settled : DState} {f fInt : Int} {x : Option Int} {hold : Int} (hf : inF f)
    (hfInt : inF fInt) : inF (steer p settled f fInt x hold).f ∧ inF (steer p settled f fInt x hold).fInt := by
  have served (y : Int) : inF (servo p.p p.i fInt y).f ∧ inF (servo p.p p.i fInt y).fInt := by
    unfold servo
    dsimp only
    refine ⟨inF_clampInt _, ?_⟩
    split
    · exact inF_clampInt _
    · exact hfInt
  unfold steer
  split
  · split
    · exact served _
    · exact ⟨hfInt, hfInt⟩
  · exact served _
  · exact ⟨inF_clampInt _, hfInt⟩
  · exact ⟨inF_clampInt _, hfInt⟩
  · exact ⟨hf, hfInt⟩

theorem Discipline.complete_inF {d : Discipline} {p : Params} {h : History} {n : Snapshot} (hf : inF d.f)
    (hfInt : inF d.fInt) : inF (d.complete p h n).du.f ∧ inF (d.complete p h n).du.fInt := by
  refine steer_inF hf ?_
  split
  · exact hf
  · exact hfInt

theorem TimeSound.completeWith (hs : TimeSound s) (n : Snapshot) (reports back late : Bool) :
    TimeSound (s.completeWith n reports back late) := by
  obtain ⟨hf, hfInt⟩ := s.du.complete_inF (p := s.mp.params) (h := s.hs) (n := n) hs.f hs.fInt
  have settled : TimeSound (s.settleCompletion (s.du.complete s.mp.params s.hs n) n.epoch) :=
    hs.of_rate rfl rfl rfl rfl hf hfInt
  obtain ⟨h, -⟩ | ⟨-, h⟩ := s.completeWith_settles n reports back late
  · exact settled.of_frame h rfl rfl
  · have waiting : TimeSound ((s.settleCompletion (s.du.complete s.mp.params s.hs n) n.epoch).holdBack s.du.pub) :=
      settled.congr rfl rfl
    exact waiting.of_frame h rfl rfl

theorem TimeSound.combineCompletion (hs : TimeSound s) (h : execCombineCompletion s = .next t) : TimeSound t := by
  obtain ⟨-, rfl⟩ | ⟨-, rfl⟩ := State.event_cases h
  · exact hs
  · split
    · exact TimeSound.completeWith (s := { s with choices := s.choices + 3 }) (hs.congr rfl rfl) _ _ _ _
    · exact hs

theorem TimeSound.startScanComplete (hs : TimeSound s) (h : execStartScanComplete s = .next t) : TimeSound t := by
  obtain rfl | ⟨-, -, rfl⟩ := State.whenDue_cases h
  · exact hs
  · dsimp only
    cases s.du.fSet with
    | true => exact hs.of_rate rfl rfl rfl rfl hs.f hs.fInt
    | false => exact hs.of_rate rfl rfl rfl rfl (inF_clampInt _) (inF_clampInt _)

/-! ### Every command and every step -/

theorem TimeSound.exec {c : Instr} (hs : TimeSound s) (h : exec c s = .next t) : TimeSound t := by
  cases hr : isReset c with
  | true => exact hs.resetTo (exec_resetTo hr h)
  | false =>
    cases c with
    | tick => exact hs.tick h
    | step => exact hs.step h
    | combineCompletion => exact hs.combineCompletion h
    | startScanComplete => exact hs.startScanComplete h
    | powerOn | pinReset | powerLoss => exact absurd hr nofun
    | _ => exact hs.of_frame (exec_frame hr h) rfl rfl

/-- Settles O37: every command keeps the clock of the time base, F and F_int in their ranges; those that set them clamp. -/
theorem timeSoundAtEveryStep : Obligations.TimeSoundAtEveryStep :=
  fun _ _ hs h => step_keeps (fun _ _ hs => hs.congr rfl rfl) (fun _ _ _ hs h => hs.exec h) hs h

end

end Sys2Proof.Machine
end

section
/-! SUPPORT. The combine: who is admitted and who selected, the state settled, and the status published (06, sections 6.2 to 6.4
and 6.9; 07, section 7.1). -/

namespace Sys2Proof.Machine

/-! ### The least of a list -/

section
variable {α β : Type} [LinearOrder β] {f : α → β} {l : List α} {a b : β}

theorem le_foldl_min_iff : b ≤ l.foldl (fun m c => min m (f c)) a ↔ b ≤ a ∧ ∀ c ∈ l, b ≤ f c := by
  induction l generalizing a with
  | nil => simp
  | cons c l ih => rw [List.foldl_cons, ih, le_min_iff, List.forall_mem_cons, and_assoc]

theorem foldl_min_eq {x : α} (hx : x ∈ l) (hle : ∀ c ∈ l, f x ≤ f c) (ha : f x ≤ a) :
    l.foldl (fun m c => min m (f c)) a = f x :=
  le_antisymm ((le_foldl_min_iff.mp le_rfl).2 x hx) (le_foldl_min_iff.mpr ⟨ha, hle⟩)

end

/-! ### Selection (R108 to R112) -/

theorem Candidate.before_iff (a b : Candidate) : a.before b = true ↔ a.unc < b.unc ∨ a.unc = b.unc ∧ a.addr ≤ b.addr :=
  decide_eq_true_iff

theorem Candidate.before_total (a b : Candidate) : a.before b = true ∨ b.before a = true := by
  simp only [Candidate.before_iff]
  omega

theorem Candidate.before_trans (a b c : Candidate) (hab : a.before b = true) (hbc : b.before c = true) :
    a.before c = true := by
  simp only [Candidate.before_iff] at *
  omega

section
variable {n : Snapshot} {own m : Nat}

theorem Snapshot.contributors_length : (n.contributors own m).length = min 4 (n.admitted own m).length := by
  rw [Snapshot.contributors, List.length_take, (sortBy_perm _ _).length_eq]

theorem Snapshot.contributors_subset {c : Candidate} (h : c ∈ n.contributors own m) : c ∈ n.admitted own m :=
  (sortBy_perm _ _).subset (List.mem_of_mem_take h)

/-- Settles O26: the contributors are the first four of the admitted in their order, and what is not among the first four of an
ordered list comes after them. -/
theorem fourMostCertainSelected : Obligations.FourMostCertainSelected := by
  refine fun n own m => ⟨Snapshot.contributors_length, fun c => Snapshot.contributors_subset, fun c hc hout b hb => ?_⟩
  have hsorted := sortBy_pairwise Candidate.before Candidate.before_total Candidate.before_trans (n.admitted own m)
  rw [← List.take_append_drop 4 (sortBy Candidate.before (n.admitted own m)), List.pairwise_append] at hsorted
  have hlater : c ∈ (sortBy Candidate.before (n.admitted own m)).drop 4 := by
    have hall : c ∈ sortBy Candidate.before (n.admitted own m) := (sortBy_perm _ _).mem_iff.mpr hc
    rw [← List.take_append_drop 4 (sortBy _ _)] at hall
    exact (List.mem_append.mp hall).resolve_left hout
  exact (Candidate.before_iff b c).mp (hsorted.2.2 b hb c hlater)

theorem Estimate.eligible_iff (e : Estimate) : e.eligible own = true ↔
    e.suspect = false ∧ (e.adv.state = .track ∨ e.adv.state = .hold) ∧ e.adv.trac ≠ .none ∧ e.adv.rank ≤ 13 ∧
      e.adv.urgent = false ∧ own ∉ e.adv.sources := by
  simp [Estimate.eligible, and_assoc]

theorem Snapshot.mem_candidates {c : Candidate} : c ∈ n.candidates own ↔
    (∃ o u, n.ref = some (o, u) ∧ c = ⟨0, -1, false, o, u⟩) ∨ ∃ e ∈ n.peers, c = e.candidate ∧ e.eligible own = true := by
  simp only [Snapshot.candidates, List.mem_append, List.mem_map, Option.mem_toList, List.mem_filter, Prod.exists]
  refine or_congr ?_ ?_
  · exact exists_congr fun o => exists_congr fun u => and_congr_right' eq_comm
  · exact exists_congr fun e => by rw [and_assoc, and_comm (a := e.eligible own = true), eq_comm]

theorem Snapshot.admitted_of_tier1 (h : ∃ c ∈ n.candidates own, c.held = false) :
    n.admitted own m = (n.candidates own).filter fun c => !c.held := by
  obtain ⟨c, hc, hheld⟩ := h
  have : ((n.candidates own).filter fun c => !c.held).isEmpty = false := by
    simpa using ⟨c, hc, hheld⟩
  simp [Snapshot.admitted, this]

theorem Snapshot.admitted_of_tier2 (h : ∀ c ∈ n.candidates own, c.held = true) :
    n.admitted own m = (n.candidates own).filter fun c => !n.prev.guarded || decide (c.unc + m < n.prev.bound) := by
  have : ((n.candidates own).filter fun c => !c.held).isEmpty = true := by simpa using h
  simp [Snapshot.admitted, this]

theorem Snapshot.admitted_sublist : (n.admitted own m).Sublist (n.candidates own) := by
  unfold Snapshot.admitted
  dsimp only
  split <;> exact List.filter_sublist

theorem Published.guarded_iff (p : Published) :
    p.guarded = true ↔ p.state = .hold ∨ p.state = .lapsed ∨ p.state = .track ∧ p.trac = .traceable :=
  decide_eq_true_iff

/-- Settles O27: the candidates by the two lists they are joined of, and the admitted by whether tier 1 holds one. -/
theorem admittedAreEligible : Obligations.AdmittedAreEligible := by
  refine fun n own m => ⟨fun c => ?_, Snapshot.admitted_sublist, fun htier c => ?_, fun htier c => ?_⟩
  · simp only [Snapshot.mem_candidates, Estimate.eligible_iff]
    rfl
  · simp [Snapshot.admitted_of_tier1 htier]
  · rw [Snapshot.admitted_of_tier2 htier, List.mem_filter, Bool.or_eq_true, Bool.not_eq_true', decide_eq_true_iff,
      ← Published.guarded_iff]
    refine and_congr_right' ?_
    cases n.prev.guarded
    · simp
    · simp only [Bool.true_eq_false, false_or, true_implies]
      omega

/-- No candidate's rank is beyond 13 (R108, R109). -/
theorem Snapshot.rank_le {c : Candidate} (h : c ∈ n.candidates own) : c.rank ≤ 13 := by
  obtain ⟨_, _, -, rfl⟩ | ⟨e, -, rfl, he⟩ := Snapshot.mem_candidates.mp h
  · exact (by norm_num : (-1 : Int) ≤ 13)
  · obtain ⟨-, -, -, hrank, -⟩ := e.eligible_iff.mp he
    exact Int.ofNat_le.mpr hrank

end

/-! ### Settling (R133 to R139) -/

theorem within_iff (x : Int) (ns : Nat) : within x ns = true ↔ x.natAbs ≤ 16 * ns := decide_eq_true_iff

section
variable {p : Params} {r : Runs} {x : Int} {req valid : Bool} {lock : Nat}

theorem settleAcquire_locked (h : x.natAbs ≤ 16 * p.tLock ∧ x.natAbs ≤ 16 * p.s) (hl : p.l ≤ lock + 1) :
    settleAcquire p lock x = (.track, .zero) := by
  simp [settleAcquire, within_iff, h, hl]

theorem settleAcquire_locking (h : x.natAbs ≤ 16 * p.tLock ∧ x.natAbs ≤ 16 * p.s) (hl : lock + 1 < p.l) :
    settleAcquire p lock x = (.acquire, ⟨lock + 1, 0, 0⟩) := by
  simp [settleAcquire, within_iff, h, hl]

theorem settleAcquire_off (h : ¬(x.natAbs ≤ 16 * p.tLock ∧ x.natAbs ≤ 16 * p.s)) :
    settleAcquire p lock x = (.acquire, .zero) := by
  simp [settleAcquire, within_iff, h]

theorem settle_free_some (hl : 2 ≤ p.l) : settle p .free r (some x) req valid =
    (.acquire, ⟨if x.natAbs ≤ 16 * p.tLock ∧ x.natAbs ≤ 16 * p.s then 1 else 0, 0, 0⟩) := by
  change settleAcquire p 0 x = _
  split
  next h => rw [settleAcquire_locking h (by omega)]
  next h => rw [settleAcquire_off h]; rfl

theorem settle_acquire_none : settle p .acquire r none req valid =
    if p.g ≤ r.none + 1 then (.free, .zero) else (.acquire, { r with lock := 0, none := r.none + 1 }) := rfl

theorem settle_acquire_some : settle p .acquire r (some x) req valid =
    match settleAcquire p r.lock x with
    | (.acquire, q) => (.acquire, { q with large := r.large })
    | other => other := rfl

theorem settle_track_req (o : Option Int) : settle p .track r o true valid = (.hold, .zero) := by cases o <;> rfl

theorem settle_track_some : settle p .track r (some x) false valid =
    if within x p.s then (.track, { r with large := 0, none := 0 })
    else if 3 ≤ r.large + 1 then (.acquire, .zero)
    else (.track, { r with large := r.large + 1, none := 0 }) := by
  simp [settle]

theorem settle_track_none : settle p .track r none false valid =
    if p.g ≤ r.none + 1 then (if valid then (.hold, .zero) else (.free, .zero))
    else (.track, { r with large := 0, none := r.none + 1 }) := by
  simp [settle]

/-- Both states of holdover settle alike (R139). -/
theorem settle_holdover {prev : DState} (h : prev = .hold ∨ prev = .lapsed) (o : Option Int) (req : Bool) :
    settle p prev r o req valid =
      match o with
      | some x => if req then (.hold, r) else if within x p.s then (.track, .zero) else (.acquire, .zero)
      | none => (.hold, r) := by
  obtain rfl | rfl := h <;> cases o <;> rfl

/-- Settles O30: each previous state by its clause of R133 to R139, x by the thresholds and the run by its limit. -/
theorem stateSettledFromEach : Obligations.StateSettledFromEach := by
  refine ⟨fun p r x req valid hl => ⟨rfl, settle_free_some hl, fun h => ?_, fun h => ?_, fun h hr => ?_, fun h hr => ?_,
    fun h => ?_⟩,
    fun p r x o valid => ⟨settle_track_req o, fun h => ?_, fun h hr => ?_, fun h hr => ?_, fun h => ?_, fun h => ?_,
      fun prev hprev => ⟨?_, ?_, fun h => ?_, fun h => ?_⟩⟩⟩
  · rw [settle_acquire_none, if_neg (by omega)]
  · rw [settle_acquire_none, if_pos h]
  · rw [settle_acquire_some, settleAcquire_locking h hr]
  · rw [settle_acquire_some, settleAcquire_locked h hr]
  · rw [settle_acquire_some, settleAcquire_off (by omega)]
    rfl
  · rw [settle_track_some, if_pos ((within_iff _ _).mpr h)]
  · rw [settle_track_some, if_neg (by rw [within_iff]; omega), if_neg (by omega)]
  · rw [settle_track_some, if_neg (by rw [within_iff]; omega), if_pos (by omega)]
  · rw [settle_track_none, if_neg (by omega)]
  · rw [settle_track_none, if_pos h]
    split <;> rfl
  · rw [settle_holdover hprev]
    cases o <;> rfl
  · rw [settle_holdover hprev]
  · simp [settle_holdover hprev, within_iff, h]
  · rw [settle_holdover hprev]
    simp [within_iff, h]

theorem settleAcquire_cases (p : Params) (lock : Nat) (x : Int) :
    (settleAcquire p lock x).1 = .acquire ∨ (settleAcquire p lock x).1 = .track := by
  unfold settleAcquire
  split
  · split
    · exact .inr rfl
    · exact .inl rfl
  · exact .inl rfl

theorem settle_acquire_some_state :
    (settle p .acquire r (some x) req valid).1 = (settleAcquire p r.lock x).1 := by
  rw [settle_acquire_some]
  split
  next h => rw [h]
  next => rfl

/-- Settling alone never comes to LAPSED: the bound decides that (R140). -/
theorem settle_ne_lapsed (prev : DState) (o : Option Int) : (settle p prev r o req valid).1 ≠ .lapsed := by
  have acquiring (lock : Nat) (x : Int) : (settleAcquire p lock x).1 ≠ .lapsed := by
    obtain h | h := settleAcquire_cases p lock x <;> rw [h] <;> exact nofun
  match prev, o with
  | .free, none => exact nofun
  | .free, some x => exact acquiring 0 x
  | .acquire, none =>
    rw [settle_acquire_none]
    split <;> exact nofun
  | .acquire, some x => exact settle_acquire_some_state ▸ acquiring r.lock x
  | .track, o =>
    cases req with
    | true => rw [settle_track_req]; exact nofun
    | false =>
      cases o with
      | none =>
        rw [settle_track_none]
        split
        · split <;> exact nofun
        · exact nofun
      | some x =>
        rw [settle_track_some]
        split
        · exact nofun
        · split <;> exact nofun
  | .hold, o | .lapsed, o =>
    rw [settle_holdover (by simp)]
    repeat' split
    all_goals exact nofun

/-- Without x only TRACK stays TRACK (R133 to R139). -/
theorem settle_track_of_none {prev : DState} (h : (settle p prev r none req valid).1 = .track) : prev = .track := by
  match prev with
  | .track => rfl
  | .free => exact absurd h nofun
  | .acquire =>
    rw [settle_acquire_none] at h
    split at h <;> exact absurd h nofun
  | .hold | .lapsed => exact absurd h nofun

end

/-! ### The published status (R125 to R127) -/

theorem contributorBound_eq {cs : List Candidate} {u : Candidate} (hu : u ∈ cs) (hle : ∀ c ∈ cs, u.unc ≤ c.unc)
    (hmax : u.unc ≤ 65535) (x : Int) : contributorBound cs x = min 65535 (u.unc + (x.natAbs + 15) / 16) := by
  rw [contributorBound, foldl_min_eq hu hle hmax]
  rfl

theorem contributorRank_eq {cs : List Candidate} {r : Candidate} (hr : r ∈ cs) (hle : ∀ c ∈ cs, r.rank ≤ c.rank)
    (hmax : r.rank ≤ 13) : contributorRank cs = (1 + r.rank).toNat := by
  rw [contributorRank, foldl_min_eq hr hle (by omega)]

/-- One contributor of rank 13 at most keeps the station's rank at 14 at most (R125). -/
theorem contributorRank_le {cs : List Candidate} {c : Candidate} (hc : c ∈ cs) (hrank : c.rank ≤ 13) :
    contributorRank cs ≤ 14 := by
  have hmin : cs.foldl (fun m c => min m c.rank) 14 ≤ c.rank := (le_foldl_min_iff.mp le_rfl).2 c hc
  unfold contributorRank
  omega

theorem sourceList_length (cs : List Candidate) : (sourceList cs).length = 3 := by
  rw [sourceList, List.length_take, List.length_append]
  exact min_eq_left (Nat.le_add_left 3 _)

/-- Settles O34: each state by its clause of R125; the least uncertainty and rank are those the folds end with. -/
theorem statusPublishedWhole : Obligations.StatusPublishedWhole := by
  intro prev cs x o req bound rank ref
  refine ⟨rfl, rfl, by cases o <;> rfl, by cases o <;> rfl, rfl, ?_⟩
  intro u hu r hr humax hule _ hrmax hrle b
  have hbound : contributorBound cs x = b := contributorBound_eq hu hule humax x
  have hrank : contributorRank cs = (1 + r.rank).toNat := contributorRank_eq hr hrle hrmax
  rw [← hbound, ← hrank]
  refine ⟨rfl, ?_⟩
  simp only [publication, List.any_eq_true]
  rfl

/-- Every publication is one that R125 lets be, where the bound of holdover is within 16 bits, x comes of an admitted
contributor, and TRACK without x comes of TRACK. -/
theorem publication_sound {settled : DState} {prev : Published} {cs : List Candidate} {x : Option Int} (req : Bool)
    {bound : Nat} (rank : Nat) (hbound : bound ≤ 65535) (hprev : PublishedSound prev)
    (hcs : x.isSome → ∃ c ∈ cs, c.rank ≤ 13) (htrack : settled = .track → x = none → prev.state = .track) :
    PublishedSound (publication settled prev cs x req bound rank) := by
  have contributed (y : Int) : contributorBound cs y ≤ 65535 := Nat.min_le_left _ _
  match settled, x with
  | .free, none | .free, some _ => exact ⟨fun _ => ⟨rfl, rfl⟩, nofun, nofun, le_rfl, rfl⟩
  | .acquire, none => exact ⟨fun _ => ⟨rfl, rfl⟩, nofun, nofun, le_rfl, rfl⟩
  | .acquire, some y => exact ⟨fun _ => ⟨rfl, rfl⟩, nofun, nofun, contributed y, sourceList_length cs⟩
  | .hold, none | .hold, some _ => exact ⟨by rintro (h | h | h) <;> exact absurd h nofun, fun _ => rfl, nofun, hbound, rfl⟩
  | .lapsed, none | .lapsed, some _ => exact ⟨fun _ => ⟨rfl, rfl⟩, nofun, nofun, hbound, rfl⟩
  | .track, none =>
    exact ⟨by rintro (h | h | h) <;> exact absurd h nofun, nofun, fun _ => hprev.track (htrack rfl rfl), hprev.bound,
      hprev.sources⟩
  | .track, some y =>
    obtain ⟨c, hc, hrank⟩ := hcs rfl
    refine ⟨by rintro (h | h | h) <;> exact absurd h nofun, nofun, fun _ => ⟨?_, contributorRank_le hc hrank⟩, contributed y,
      sourceList_length cs⟩
    simp only [publication]
    split <;> exact nofun

end Sys2Proof.Machine
end

section
/-! SUPPORT. What a completion comes to (R107): outside holdover, and in it, where the entry data and the elapsed count decide the
bound, F and LAPSED (07, sections 7.2 to 7.4); and what a publication of the invariant keeps. -/

namespace Sys2Proof.Machine

theorem of_none_eq_some {α : Type} {a : α} {p : Prop} (h : none = some a) : p := absurd h (Option.some_ne_none a).symm

theorem DState.holdover_iff (x : DState) : x.holdover = true ↔ x = .hold ∨ x = .lapsed := by
  cases x <;> simp [DState.holdover]

@[simp] theorem publication_state (settled : DState) (prev : Published) (cs : List Candidate) (x : Option Int) (req : Bool)
    (bound rank : Nat) : (publication settled prev cs x req bound rank).state = settled := by
  cases settled <;> cases x <;> rfl

theorem publication_bound_of_holdover {settled : DState} (h : settled = .hold ∨ settled = .lapsed) (prev : Published)
    (cs : List Candidate) (x : Option Int) (req : Bool) (bound rank : Nat) :
    (publication settled prev cs x req bound rank).bound = bound := by
  obtain rfl | rfl := h <;> cases x <;> rfl

/-- Outside holdover the bound and the rank of holdover play no part. -/
theorem publication_of_not_holdover {settled : DState} (h : settled ≠ .hold) (h' : settled ≠ .lapsed) (prev : Published)
    (cs : List Candidate) (x : Option Int) (req : Bool) (bound rank : Nat) :
    publication settled prev cs x req bound rank = publication settled prev cs x req 0 0 := by
  match settled, x with
  | .free, none | .free, some _ | .acquire, none | .acquire, some _ | .track, none | .track, some _ => rfl
  | .hold, _ => exact absurd rfl h
  | .lapsed, _ => exact absurd rfl h'

/-- Outside holdover the hold frequency plays no part. -/
theorem steer_of_not_holdover {settled : DState} (h : settled ≠ .hold) (h' : settled ≠ .lapsed) (p : Params) (f fInt : Int)
    (x : Option Int) (hold : Int) : steer p settled f fInt x hold = steer p settled f fInt x 0 := by
  match settled, x with
  | .free, none | .free, some _ | .acquire, none | .acquire, some _ | .track, none | .track, some _ => rfl
  | .hold, _ => exact absurd rfl h
  | .lapsed, _ => exact absurd rfl h'

/-! ### What the history hands (R157, R158, R141) -/

section
variable {h : History}

theorem History.derive_of_long (hn : 32 ≤ h.ring.length) : h.derive =
    ⟨ringMean (newest h.ring 16),
      clampInt (-1000) 1000 (roundDiv (ringMean (newest h.ring 16) - ringMean (h.ring.take 16)) (h.ring.length - 16)), .ring⟩ := by
  rw [History.derive, if_pos hn]

theorem History.derive_of_short (hn : 8 ≤ h.ring.length) (hn' : h.ring.length < 32) :
    h.derive = ⟨ringMean (newest h.ring (min h.ring.length 16)), 0, .ring⟩ := by
  rw [History.derive, if_neg (by omega), if_pos hn]

theorem History.derive_of_seed {x : Seed} (hn : h.ring.length < 8) (hx : h.seed = some x) :
    h.derive = ⟨x.record.fNew, x.record.slope, .seed⟩ := by
  rw [History.derive, if_neg (by omega), if_neg (by omega), hx]

theorem History.derive_of_nothing (hn : h.ring.length < 8) (hx : h.seed = none) : h.derive = ⟨0, 0, .none⟩ := by
  rw [History.derive, if_neg (by omega), if_neg (by omega), hx]

/-- The newest 16 of a list, or all of it where it is shorter. -/
theorem newest_min (l : List Minute) : newest l (min l.length 16) = l.drop (l.length - 16) := by
  rw [newest]
  congr 1
  omega

end

/-! ### The completion's parts (R107) -/

/-- The state and runs settled by the combine of snapshot `n`. -/
def Discipline.settling (d : Discipline) (p : Params) (h : History) (n : Snapshot) : DState × Runs :=
  settle p n.prev.state ⟨d.lockRun, d.largeRun, d.noneRun⟩ (combinedOffset (n.contributors p.address p.m)) d.holdReq h.valid

/-- The entry data in use: those held, or in a holdover entered now those of this epoch (R141). -/
def Discipline.entryFor (d : Discipline) (h : History) (n : Snapshot) : HoldEntry :=
  if n.prev.state.holdover then d.hold.getD (holdEntry n.prev h n.epoch) else holdEntry n.prev h n.epoch

/-- The elapsed count of the combine, 0 at entry (R143). -/
def Discipline.elapsedFor (d : Discipline) (h : History) (n : Snapshot) : Nat :=
  if n.prev.state.holdover then (d.entryFor h n).elapsedAt n.epoch else 0

/-- The bound of the combine in holdover (R145). -/
def Discipline.boundFor (d : Discipline) (p : Params) (h : History) (n : Snapshot) : Nat :=
  (d.entryFor h n).boundAt p.hF p.hA (d.elapsedFor h n)

/-- The state settled, once the bound has decided between HOLD and LAPSED (R140). -/
def Discipline.settledFor (d : Discipline) (p : Params) (h : History) (n : Snapshot) : DState :=
  if (d.settling p h n).1.holdover && (decide (n.prev.state = .lapsed) || decide (p.budget < d.boundFor p h n)) then .lapsed
  else (d.settling p h n).1

/-- F_int as the steering finds it: F where holdover ends (R139). -/
def Discipline.fIntFor (d : Discipline) (p : Params) (h : History) (n : Snapshot) : Int :=
  if n.prev.state.holdover && !(d.settling p h n).1.holdover then d.f else d.fInt

section
variable {d : Discipline} {p : Params} {h : History} {n : Snapshot}

theorem Discipline.complete_pub : (d.complete p h n).du.pub =
    publication (d.settledFor p h n) n.prev (n.contributors p.address p.m) (combinedOffset (n.contributors p.address p.m))
      d.holdReq (d.boundFor p h n) (d.entryFor h n).rank := rfl

theorem Discipline.complete_steering :
    (⟨(d.complete p h n).du.f, (d.complete p h n).du.fInt, (d.complete p h n).step, (d.complete p h n).clamp⟩ : Steering) =
      steer p (d.settledFor p h n) d.f (d.fIntFor p h n) (combinedOffset (n.contributors p.address p.m))
        ((d.entryFor h n).frequencyAt (d.elapsedFor h n)) := rfl

theorem Discipline.complete_runs :
    (⟨(d.complete p h n).du.lockRun, (d.complete p h n).du.largeRun, (d.complete p h n).du.noneRun⟩ : Runs) =
      if d.settledFor p h n = .lapsed ∧ n.prev.state ≠ .lapsed then .zero else (d.settling p h n).2 := rfl

theorem Discipline.complete_hold : (d.complete p h n).du.hold =
    if (d.settling p h n).1.holdover then some (d.entryFor h n) else none := rfl

theorem Discipline.complete_elapsed : (d.complete p h n).du.elapsed =
    if (d.settling p h n).1.holdover then d.elapsedFor h n else 0 := rfl

theorem Discipline.complete_entered : (d.complete p h n).entered =
    ((d.settling p h n).1.holdover && !n.prev.state.holdover) := rfl

theorem Discipline.complete_state : (d.complete p h n).du.pub.state = d.settledFor p h n := by
  rw [Discipline.complete_pub, publication_state]

theorem Discipline.entryFor_entering (hprev : n.prev.state.holdover = false) : d.entryFor h n = holdEntry n.prev h n.epoch := by
  simp [Discipline.entryFor, hprev]

theorem Discipline.entryFor_held (hprev : n.prev.state.holdover = true) {e : HoldEntry} (he : d.hold = some e) :
    d.entryFor h n = e := by
  simp [Discipline.entryFor, hprev, he]

theorem Discipline.elapsedFor_entering (hprev : n.prev.state.holdover = false) : d.elapsedFor h n = 0 := by
  simp [Discipline.elapsedFor, hprev]

theorem Discipline.elapsedFor_held (hprev : n.prev.state.holdover = true) {e : HoldEntry} (he : d.hold = some e) :
    d.elapsedFor h n = e.elapsedAt n.epoch := by
  simp [Discipline.elapsedFor, hprev, Discipline.entryFor_held hprev he]

theorem HoldEntry.elapsedAt_eq (e : HoldEntry) (epoch : Nat) :
    (e.elapsedAt epoch : Int) = min 4294967295 (((epoch : Int) - e.time) % 281474976710656) := by
  unfold HoldEntry.elapsedAt
  omega

theorem HoldEntry.boundAt_eq (e : HoldEntry) (hF hA t : Nat) :
    e.boundAt hF hA t = min 65535 (e.bound + hF * t / 1000 + hA * t ^ 2 / 2000000) := by
  rw [sq]
  rfl

/-- A longer hold has no smaller bound (R145). -/
theorem HoldEntry.boundAt_mono (e : HoldEntry) (hF hA : Nat) {t u : Nat} (h : t ≤ u) : e.boundAt hF hA t ≤ e.boundAt hF hA u := by
  have linear : hF * t / 1000 ≤ hF * u / 1000 := Nat.div_le_div_right (Nat.mul_le_mul_left hF h)
  have square : hA * (t * t) / 2000000 ≤ hA * (u * u) / 2000000 :=
    Nat.div_le_div_right (Nat.mul_le_mul_left hA (Nat.mul_le_mul h h))
  exact min_le_min le_rfl (Nat.add_le_add (Nat.add_le_add_left linear _) square)

/-! ### In holdover, and outside it -/

theorem Discipline.settling_holdover : (d.settling p h n).1.holdover = true ↔ (d.settling p h n).1 = .hold := by
  rw [DState.holdover_iff]
  exact or_iff_left (settle_ne_lapsed _ _)

theorem Discipline.settledFor_of_not_hold (hg : (d.settling p h n).1 ≠ .hold) : d.settledFor p h n = (d.settling p h n).1 := by
  have : (d.settling p h n).1.holdover = false := by rwa [Bool.eq_false_iff, Ne, Discipline.settling_holdover]
  simp [Discipline.settledFor, this]

theorem Discipline.settledFor_of_hold (hg : (d.settling p h n).1 = .hold) : d.settledFor p h n =
    if n.prev.state = .lapsed ∨ p.budget < d.boundFor p h n then .lapsed else .hold := by
  simp [Discipline.settledFor, hg, DState.holdover]

theorem Discipline.settledFor_holdover (hg : (d.settling p h n).1 = .hold) :
    d.settledFor p h n = .hold ∨ d.settledFor p h n = .lapsed := by
  rw [Discipline.settledFor_of_hold hg]
  split
  · exact .inr rfl
  · exact .inl rfl

theorem Discipline.settledFor_eq_lapsed (hg : (d.settling p h n).1 = .hold) :
    d.settledFor p h n = .lapsed ↔ n.prev.state = .lapsed ∨ p.budget < d.boundFor p h n := by
  rw [Discipline.settledFor_of_hold hg]
  split
  next hl => exact iff_of_true rfl hl
  next hl => exact iff_of_false nofun hl

/-- A completion publishes holdover exactly where it settles it. -/
theorem Discipline.settled_hold_iff :
    (d.complete p h n).du.pub.state = .hold ∨ (d.complete p h n).du.pub.state = .lapsed ↔ (d.settling p h n).1 = .hold := by
  rw [Discipline.complete_state]
  refine ⟨fun hsettled => by_contra fun hg => ?_, Discipline.settledFor_holdover⟩
  rw [Discipline.settledFor_of_not_hold hg] at hsettled
  exact hsettled.elim hg (settle_ne_lapsed _ _)

theorem Discipline.complete_bound_of_hold (hg : (d.settling p h n).1 = .hold) :
    (d.complete p h n).du.pub.bound = d.boundFor p h n := by
  rw [Discipline.complete_pub, publication_bound_of_holdover (Discipline.settledFor_holdover hg)]

/-- In holdover F is the hold frequency, clamped, F_int stands, and no step is ordered (R144). -/
theorem Discipline.complete_steering_of_hold (hg : (d.settling p h n).1 = .hold) :
    (⟨(d.complete p h n).du.f, (d.complete p h n).du.fInt, (d.complete p h n).step, (d.complete p h n).clamp⟩ : Steering) =
      steer p .hold d.f d.fInt (combinedOffset (n.contributors p.address p.m))
        ((d.entryFor h n).frequencyAt (d.elapsedFor h n)) := by
  have hfInt : d.fIntFor p h n = d.fInt := by simp [Discipline.fIntFor, Discipline.settling_holdover.mpr hg]
  rw [Discipline.complete_steering, hfInt, steer_holdover (Discipline.settledFor_holdover hg), steer_holdover (.inl rfl)]

/-- Settles O32: the history by the length of its ring and its seed; a completion that settles holdover by whether the entry data
were held already. -/
theorem holdoverFollowsPrediction : Obligations.HoldoverFollowsPrediction := by
  refine ⟨fun h => ⟨h.valid_iff, fun hn => ⟨?_, ?_⟩, fun hn hn' => ⟨?_, ?_⟩, fun x hn hx => ⟨?_, h.derive_of_seed hn hx⟩,
    fun hn hx => ⟨?_, h.derive_of_nothing hn hx⟩⟩, ?holdover⟩
  · simp [History.leadMinutes, History.derive_of_long hn, hn]
  · exact h.derive_of_long hn
  · simp [History.leadMinutes, History.derive_of_short hn hn', hn']
  · rw [History.derive_of_short hn hn', newest_min]
    rfl
  · simp [History.leadMinutes, History.derive_of_seed hn hx]
  · simp [History.leadMinutes, History.derive_of_nothing hn hx]
  case holdover =>
    intro d p h n c hstate
    have hg : (d.settling p h n).1 = .hold := Discipline.settled_hold_iff.mp hstate
    have hhold := Discipline.settling_holdover.mpr hg
    have hsteer : (⟨c.du.f, c.du.fInt, c.step, c.clamp⟩ : Steering) = _ := Discipline.complete_steering_of_hold hg
    rw [steer_holdover (.inl rfl), Steering.mk.injEq] at hsteer
    obtain ⟨hf, hfInt, hstep, -⟩ := hsteer
    have hbound : c.du.pub.bound = _ := Discipline.complete_bound_of_hold hg
    rw [Discipline.boundFor, HoldEntry.boundAt_eq] at hbound
    refine ⟨d.entryFor h n, d.elapsedFor h n, ?_, ?_, fun hh hl => ?_, fun hprev old hold => ?_, hbound, hf, hfInt, hstep, ?_⟩
    · exact Discipline.complete_hold.trans (if_pos hhold)
    · exact Discipline.complete_elapsed.trans (if_pos hhold)
    · have hprev : n.prev.state.holdover = false := by simp [Bool.eq_false_iff, DState.holdover_iff, hh, hl]
      refine ⟨Discipline.elapsedFor_entering hprev, Discipline.entryFor_entering hprev, ?_⟩
      exact Discipline.complete_entered.trans (by rw [hhold, hprev]; rfl)
    · have hprev' := (DState.holdover_iff _).mpr hprev
      refine ⟨Discipline.entryFor_held hprev' hold, ?_, ?_⟩
      · exact Discipline.complete_entered.trans (by rw [hhold, hprev']; rfl)
      · rw [Discipline.elapsedFor_held hprev' hold, HoldEntry.elapsedAt_eq]
    · rw [← HoldEntry.boundAt_eq, ← Discipline.boundFor, ← Discipline.settledFor_eq_lapsed hg, ← Discipline.complete_state]

/-- Settles O33: the entry data stand while holdover lasts, and their bound grows with the elapsed count. -/
theorem holdoverBoundDoesNotDecrease : Obligations.HoldoverBoundDoesNotDecrease := by
  intro d p h n e c hprev hstate he hlast ht
  have hg : (d.settling p h n).1 = .hold := Discipline.settled_hold_iff.mp hstate
  have hprev' := (DState.holdover_iff _).mpr hprev
  have hbound : c.du.pub.bound = e.boundAt p.hF p.hA (e.elapsedAt n.epoch) := by
    rw [← Discipline.elapsedFor_held hprev' he, ← Discipline.entryFor_held (h := h) hprev' he]
    exact Discipline.complete_bound_of_hold hg
  rw [hlast, ← HoldEntry.boundAt_eq, hbound]
  refine e.boundAt_mono _ _ ?_
  rw [← HoldEntry.elapsedAt_eq] at ht
  exact_mod_cast ht

/-! ### The published status at every step (R112, R125, R130, R131) -/

/-- The state a completion publishes is one that R125 lets be. -/
theorem Discipline.complete_pub_sound (hprev : PublishedSound n.prev) : PublishedSound (d.complete p h n).du.pub := by
  rw [Discipline.complete_pub]
  refine publication_sound _ _ (Nat.min_le_left _ _) hprev (fun hx => ?_) (fun hsettled hx => ?_)
  · obtain ⟨c, hc⟩ := List.exists_mem_of_ne_nil (n.contributors p.address p.m) fun hnil => by simp [hnil, combinedOffset] at hx
    exact ⟨c, hc, Snapshot.rank_le (Snapshot.admitted_sublist.subset (Snapshot.contributors_subset hc))⟩
  · have hg : (d.settling p h n).1 ≠ .hold := fun hg => by
      obtain h | h := Discipline.settledFor_holdover hg <;> rw [h] at hsettled <;> exact absurd hsettled nofun
    rw [Discipline.settledFor_of_not_hold hg, Discipline.settling, hx] at hsettled
    exact settle_track_of_none hsettled

theorem Discipline.complete_contributors : (d.complete p h n).du.contributors ≤ 4 := by
  change (n.contributors p.address p.m).length ≤ 4
  rw [Snapshot.contributors_length]
  exact Nat.min_le_left _ _

end

/-- What the invariant reads of the discipline unit. -/
def Discipline.status (d : Discipline) : Published × Option Published × Option Snapshot × Nat :=
  (d.pub, d.unpublished, d.snapshot, d.contributors)

theorem published_free_sound : PublishedSound .free := ⟨fun _ => ⟨rfl, rfl⟩, nofun, nofun, le_rfl, rfl⟩

section
variable {s t : State}

theorem StatusSound.congr (hs : StatusSound s) (h : t.du.status = s.du.status) : StatusSound t := by
  simp only [Discipline.status, Prod.mk.injEq] at h
  obtain ⟨hpub, hunpublished, hsnapshot, hcount⟩ := h
  exact ⟨hpub ▸ hs.pub, hunpublished ▸ hs.unpublished, hsnapshot ▸ hs.prev, hcount ▸ hs.contributors⟩

theorem StatusSound.of_frame {bs : List Block} {ks : List Kind} (hs : StatusSound s) (h : Frame bs ks s t)
    (hb : bs.contains .du = false) : StatusSound t :=
  hs.congr (congrArg Discipline.status (h.du hb))

/-- The discipline unit with nothing published but FREE, nothing held back and no combine in flight. -/
theorem statusSound_of_free (hpub : t.du.pub = .free) (hunpublished : t.du.unpublished = none)
    (hsnapshot : t.du.snapshot = none) (hcount : t.du.contributors = 0) : StatusSound t :=
  ⟨hpub ▸ published_free_sound, by simp [hunpublished], by simp [hsnapshot], hcount ▸ Nat.zero_le 4⟩

theorem StatusSound.resetTo (hs : StatusSound s) (h : ResetTo s t) : StatusSound t := by
  obtain ⟨_, -, rfl⟩ | ⟨_, _, _, rfl⟩ | ⟨_, _, _, rfl⟩ := h
  · exact hs.congr rfl
  · exact statusSound_of_free rfl rfl rfl rfl
  · exact statusSound_of_free rfl rfl rfl rfl

theorem StatusSound.publish (hs : StatusSound s) : StatusSound s.publish := by
  refine ⟨?_, ?_, ?_, ?_⟩ <;> rw [State.publish_du]
  · dsimp only
    cases h : s.du.unpublished with
    | none => exact hs.pub
    | some p => exact hs.unpublished p h
  · simp
  · exact hs.prev
  · exact hs.contributors

theorem StatusSound.tick (hs : StatusSound s) (h : execTick s = .next t) : StatusSound t := by
  obtain ⟨-, rfl⟩ | ⟨-, rfl⟩ := State.event_cases h
  · exact hs
  · exact hs.publish.congr rfl

theorem StatusSound.takeSnapshot (hs : StatusSound s) (sec : Nat) : StatusSound (s.takeSnapshot sec) :=
  ⟨hs.pub, hs.unpublished, fun n hn => by cases hn; exact hs.pub, hs.contributors⟩

theorem StatusSound.epoch (hs : StatusSound s) (h : execEpoch s = .next t) : StatusSound t := by
  obtain ⟨-, rfl⟩ | ⟨-, rfl⟩ := State.event_cases h
  · exact hs
  · split
    next sec rest _ =>
      refine StatusSound.takeSnapshot ?_ sec
      have taken : StatusSound { s.publish with tb := { s.publish.tb with epochs := rest } } := hs.publish.congr rfl
      exact (taken.of_frame (State.applyPpsShadow_frame _ sec) rfl).of_frame (State.windowEpoch_frame _) rfl
    next => exact hs

theorem StatusSound.completeWith (hs : StatusSound s) {n : Snapshot} (hn : PublishedSound n.prev) (reports back late : Bool) :
    StatusSound (s.completeWith n reports back late) := by
  have settled : StatusSound (s.settleCompletion (s.du.complete s.mp.params s.hs n) n.epoch) :=
    ⟨Discipline.complete_pub_sound hn, fun _ h => of_none_eq_some h, fun _ h => of_none_eq_some h,
      Discipline.complete_contributors⟩
  obtain ⟨h, -⟩ | ⟨-, h⟩ := s.completeWith_settles n reports back late
  · exact settled.of_frame h rfl
  · have waiting : StatusSound ((s.settleCompletion (s.du.complete s.mp.params s.hs n) n.epoch).holdBack s.du.pub) :=
      ⟨hs.pub, fun p hp => by cases hp; exact settled.pub, settled.prev, settled.contributors⟩
    exact waiting.of_frame h rfl

theorem StatusSound.combineCompletion (hs : StatusSound s) (h : execCombineCompletion s = .next t) : StatusSound t := by
  obtain ⟨-, rfl⟩ | ⟨-, rfl⟩ := State.event_cases h
  · exact hs
  · split
    next n hn =>
      exact StatusSound.completeWith (s := { s with choices := s.choices + 3 }) (hs.congr rfl) (hs.prev n hn) _ _ _
    next => exact hs

theorem StatusSound.startScanComplete (hs : StatusSound s) (h : execStartScanComplete s = .next t) : StatusSound t := by
  obtain rfl | ⟨-, -, rfl⟩ := State.whenDue_cases h
  · exact hs
  · exact hs.congr rfl

theorem State.restart_du (s : State) : s.restart.du = s.publish.du.restart := by
  rw [State.restart, (State.published_only _ State.withdraw_only).blocks.du, State.judge_du]
  exact (State.restartPeers_frame _).du rfl

theorem StatusSound.exec {c : Instr} (hs : StatusSound s) (h : exec c s = .next t) : StatusSound t := by
  have host {early : Bool} {code : Byte} {len : Nat} {args : List Byte} {body : State → State × Reply}
      (hbody : ∀ u, u.mp.status ≠ .notLoaded → StatusSound u → StatusSound (body u).1)
      (h : s.command early code len args body = .next t) :
      StatusSound t := State.command_keeps (fun _ _ _ _ hu => hu.congr rfl) hbody hs h
  cases hr : isReset c with
  | true => exact hs.resetTo (exec_resetTo hr h)
  | false =>
    cases c with
    | tick => exact hs.tick h
    | epoch => exact hs.epoch h
    | combineCompletion => exact hs.combineCompletion h
    | startScanComplete => exact hs.startScanComplete h
    | forceHold => exact host (fun u _ hu => by unfold State.forceHold; split <;> exact hu.congr rfl) h
    | releaseHold => exact host (fun u _ hu => hu.congr rfl) h
    | restart =>
      refine host (fun u _ _ => ?_) h
      exact statusSound_of_free (by rw [State.restart_du]; rfl) (by rw [State.restart_du]; rfl) (by rw [State.restart_du]; rfl)
        (by rw [State.restart_du]; rfl)
    | powerOn | pinReset | powerLoss => exact absurd hr nofun
    | _ => exact hs.of_frame (exec_frame hr h) rfl

/-- Settles O36: a completion publishes what R125 lets be of a sound snapshot, and every other command publishes, takes or keeps
what stands. -/
theorem statusSoundAtEveryStep : Obligations.StatusSoundAtEveryStep :=
  fun _ _ hs h => step_keeps (fun _ _ hs => hs.congr rfl) (fun _ _ _ hs h => hs.exec h) hs h

end

end Sys2Proof.Machine
end

section
/-! SUPPORT. The permit sound at every step: every command that is no reset keeps it within its frame, and a reset leaves every
record clear and TXOK deasserted. -/

namespace Sys2Proof.Machine

section
variable {s t : State}

theorem PermitSound.congr (hs : PermitSound s) (h : t.permitView = s.permitView) : PermitSound t := by
  obtain ⟨hsound, hsafe⟩ := (permitSound_iff s).mp hs
  obtain ⟨hkept, hkeep⟩ := AlarmsKept.of_view h hsound
  exact (permitSound_iff t).mpr ⟨hkept, hkeep hsafe⟩

theorem PermitSound.of_frame {bs : List Block} {ks : List Kind} (hs : PermitSound s) (h : Frame bs ks s t) : PermitSound t := by
  obtain ⟨hsound, hsafe⟩ := (permitSound_iff s).mp hs
  obtain ⟨hkept, hkeep⟩ := h.alarms hsound
  exact (permitSound_iff t).mpr ⟨hkept, hkeep hsafe⟩

theorem permitSound_of_reset (h : t.permitView = State.reset.permitView) : PermitSound t := by
  refine PermitSound.congr ((permitSound_iff _).mpr ⟨⟨?_, ?_, ?_, rfl⟩, permitSafe_of_txok rfl⟩) h
  · intro k
    unfold AlarmRecord.SoundFor
    cases k <;> decide
  · exact fun k => by cases k <;> decide
  · exact Alarms.refresh_exact (.reset) _ _ (by decide) rfl

theorem PermitSound.resetTo (hs : PermitSound s) (h : ResetTo s t) : PermitSound t := by
  obtain ⟨_, -, rfl⟩ | ⟨_, _, _, rfl⟩ | ⟨_, _, _, rfl⟩ := h
  · exact hs.congr rfl
  · exact permitSound_of_reset rfl
  · exact permitSound_of_reset rfl

theorem PermitSound.exec {c : Instr} (hs : PermitSound s) (h : exec c s = .next t) : PermitSound t := by
  cases hr : isReset c with
  | true => exact hs.resetTo (exec_resetTo hr h)
  | false => exact hs.of_frame (exec_frame hr h)

/-- Settles O24: the frame of every command keeps the alarm side sound and the permit safe, and every step is a command. -/
theorem permitSoundAtEveryStep : Obligations.PermitSoundAtEveryStep :=
  fun _ _ hs h => step_keeps (fun _ _ hs => hs.congr rfl) (fun _ _ _ hs h => hs.exec h) hs h

end

end Sys2Proof.Machine
end

section
/-! SUPPORT. The peer table at every step: a pass, a delivery or a lockout keeps its entries distinct, foreign and bounded, and
every change of an entry's state or missed count is followed by the judgement of PEER_LINK and PEER_SUSPECT. -/

namespace Sys2Proof.Machine

/-! ### The table and the two conditions -/

/-- The entries alone: 24 slots, no two entries of one address, none of the address `own`, at most four samples in a ring. -/
structure SlotsSound (own : Nat) (t : PeerTable) : Prop where
  slots : t.slots.length = 24
  distinct : ∀ i j a b, t.at i = some a → t.at j = some b → a.addr = b.addr → i = j
  foreign : ∀ i e, t.at i = some e → 1 ≤ e.addr ∧ e.addr ≤ 250 ∧ e.addr ≠ own
  rings : ∀ i e, t.at i = some e → e.ring.length ≤ 4

/-- PEER_LINK and PEER_SUSPECT are as their owner judges them (R69, R83). -/
def PeersJudged (s : State) : Prop := s.conds.peerLink = s.linkPoor ∧ s.conds.peerSuspect = s.anySuspect

/-- Before the load there is no entry (R33). -/
def NoneUnloaded (s : State) : Prop := s.mp.status = .notLoaded → ∀ i, s.pt.at i = none

theorem PeerTable.any_iff (t : PeerTable) (p : Entry → Bool) :
    (t.slots.any fun o => o.any p) = true ↔ ∃ i e, t.at i = some e ∧ p e = true := by
  rw [List.any_eq_true]
  constructor
  · rintro ⟨o, ho, hp⟩
    obtain ⟨e, rfl, he⟩ := (Option.any_eq_true _ _).mp hp
    obtain ⟨i, hi, hget⟩ := List.getElem_of_mem ho
    exact ⟨i, e, by simp [PeerTable.at, List.getD_eq_getElem?_getD, hi, hget], he⟩
  · rintro ⟨i, e, hat, he⟩
    have hi := PeerTable.at_lt hat
    have hget : t.slots[i] = some e := by simpa [PeerTable.at, List.getD_eq_getElem?_getD, hi] using hat
    exact ⟨some e, hget ▸ List.getElem_mem hi, he⟩

theorem State.linkPoor_iff (s : State) : s.linkPoor = true ↔
    ∃ i e, s.pt.at i = some e ∧ (e.state = .valid ∨ e.state = .suspect) ∧ s.mp.params.tMiss ≤ e.missed := by
  rw [State.linkPoor, PeerTable.any_iff]
  simp [Entry.judged]

theorem State.anySuspect_iff (s : State) : s.anySuspect = true ↔ ∃ i e, s.pt.at i = some e ∧ e.state = .suspect := by
  rw [State.anySuspect, PeerTable.any_iff]
  simp

section
variable {s t : State}

theorem peersSound_iff :
    PeersSound s ↔ SlotsSound s.mp.params.address s.pt ∧ NoneUnloaded s ∧ PeersJudged s := by
  have hlink : s.conds.peerLink = s.linkPoor ↔ _ := Bool.eq_iff_iff.trans (iff_congr Iff.rfl s.linkPoor_iff)
  have hsuspect : s.conds.peerSuspect = s.anySuspect ↔ _ := Bool.eq_iff_iff.trans (iff_congr Iff.rfl s.anySuspect_iff)
  rw [PeersJudged, hlink, hsuspect]
  constructor
  · exact fun h => ⟨⟨h.slots, h.distinct, h.foreign, h.rings⟩, h.unloaded, h.link, h.suspect⟩
  · rintro ⟨⟨slots, distinct, foreign, rings⟩, unloaded, link, suspect⟩
    exact ⟨slots, distinct, foreign, rings, unloaded, link, suspect⟩

/-- What the invariant reads. -/
def State.peersView (s : State) : List (Option Entry) × Bool × Bool × Params × CfgStatus :=
  (s.pt.slots, s.conds.peerLink, s.conds.peerSuspect, s.mp.params, s.mp.status)

theorem PeersSound.congr (hs : PeersSound s) (h : t.peersView = s.peersView) : PeersSound t := by
  simp only [State.peersView, Prod.mk.injEq] at h
  obtain ⟨hslots, hlink, hsuspect, hparams, hstatus⟩ := h
  obtain ⟨slots, distinct, foreign, rings, unloaded, link, suspect⟩ := hs
  simp only [PeerTable.at, ← hslots, ← hlink, ← hsuspect, ← hparams, ← hstatus] at *
  exact ⟨slots, distinct, foreign, rings, unloaded, link, suspect⟩

theorem PeersSound.of_frame {bs : List Block} {ks : List Kind} (hs : PeersSound s) (h : Frame bs ks s t)
    (hb : (bs.contains .pt || bs.contains .setup) = false)
    (hk : (ks.contains .peerLink || ks.contains .peerSuspect) = false) : PeersSound t := by
  obtain ⟨hpt, hsetup⟩ := Bool.or_eq_false_iff.mp hb
  obtain ⟨hlink, hsuspect⟩ := Bool.or_eq_false_iff.mp hk
  obtain ⟨hparams, hstatus⟩ := Prod.mk.inj (h.setup hsetup)
  have hl : t.conds.peerLink = s.conds.peerLink := h.conds .peerLink hlink nofun
  have hp : t.conds.peerSuspect = s.conds.peerSuspect := h.conds .peerSuspect hsuspect nofun
  exact hs.congr (by rw [State.peersView, h.pt hpt, hl, hp, hparams, hstatus, State.peersView])

theorem PeersSound.of_lc (hs : PeersSound s) (l : Line) : PeersSound { s with lc := l } := hs.congr rfl

theorem PeersSound.of_tb (hs : PeersSound s) (b : TimeBase) : PeersSound { s with tb := b } := hs.congr rfl

/-! ### Judgements -/

theorem State.judgePeers_judged (s : State) : PeersJudged s.judgePeers := by
  have hlink : s.judgePeers.conds.get .peerLink = s.linkPoor :=
    ((State.judge_only _ .peerSuspect _).conds .peerLink (by decide) nofun).trans (s.judge_conds _ nofun)
  have hsuspect : s.judgePeers.conds.get .peerSuspect = (s.judge .peerLink s.linkPoor).anySuspect := State.judge_conds _ _ nofun
  have hblocks := s.judgePeers_only.blocks
  refine ⟨hlink.trans ?_, hsuspect.trans ?_⟩
  · rw [State.linkPoor, State.linkPoor, hblocks.pt, hblocks.mp]
  · rw [State.anySuspect, State.anySuspect, hblocks.pt, State.judge_pt]

theorem State.putSlot_judged (s : State) (i : Nat) (o : Option Entry) : PeersJudged (s.putSlot i o) :=
  State.judgePeers_judged _

theorem PeersJudged.pass {f : Entry → Option Entry} {is : List Nat} (hs : PeersJudged s) : PeersJudged (State.pass f s is) := by
  induction is generalizing s with
  | nil => exact hs
  | cons i is ih =>
    refine ih ?_
    split
    · exact s.putSlot_judged _ _
    · exact hs

/-- What the two conditions read of an entry (R69, R83). -/
def Entry.standing (e : Entry) : Bool × Nat × Bool := (e.judged, e.missed, decide (e.state = .suspect))

theorem any_standing (p : Bool × Nat × Bool → Bool) (l : List (Option Entry)) :
    (l.any fun o => o.any fun e => p e.standing) = (l.map (Option.map Entry.standing)).any fun o => o.any p := by
  rw [List.any_map]
  congr 1
  funext o
  cases o <;> rfl

theorem PeersJudged.congr (hs : PeersJudged s) (hlink : t.conds.peerLink = s.conds.peerLink)
    (hsuspect : t.conds.peerSuspect = s.conds.peerSuspect) (hparams : t.mp.params = s.mp.params)
    (hslots : t.pt.slots.map (Option.map Entry.standing) = s.pt.slots.map (Option.map Entry.standing)) : PeersJudged t := by
  have poor (u : State) : u.linkPoor = (u.pt.slots.map (Option.map Entry.standing)).any fun o => o.any fun x =>
      x.1 && decide (u.mp.params.tMiss ≤ x.2.1) :=
    any_standing (fun x => x.1 && decide (u.mp.params.tMiss ≤ x.2.1)) _
  have suspect (u : State) : u.anySuspect = (u.pt.slots.map (Option.map Entry.standing)).any fun o => o.any fun x => x.2.2 :=
    any_standing (fun x => x.2.2) _
  obtain ⟨hl, hp⟩ := hs
  refine ⟨hlink.trans (hl.trans ?_), hsuspect.trans (hp.trans ?_)⟩
  · rw [poor, poor, hslots, hparams]
  · rw [suspect, suspect, hslots]

/-! ### The entries -/

section
variable {own : Nat} {p q : PeerTable}

/-- A table whose every entry comes of one in the same slot, of the same address. -/
theorem SlotsSound.of_entries (hp : SlotsSound own p) (hlen : q.slots.length = p.slots.length)
    (hat : ∀ i e, q.at i = some e → ∃ e', p.at i = some e' ∧ e.addr = e'.addr ∧ e.ring.length ≤ 4) : SlotsSound own q := by
  refine ⟨hlen.trans hp.slots, fun i j a b ha hb hab => ?_, fun i e he => ?_, fun i e he => ?_⟩
  · obtain ⟨a', ha', haddr, -⟩ := hat i a ha
    obtain ⟨b', hb', hbddr, -⟩ := hat j b hb
    exact hp.distinct i j a' b' ha' hb' (by rw [← haddr, hab, hbddr])
  · obtain ⟨e', he', haddr, -⟩ := hat i e he
    rw [haddr]
    exact hp.foreign i e' he'
  · exact (hat i e he).choose_spec.2.2

/-- A table with one slot given to an entry whose address no other slot bears. -/
theorem SlotsSound.insert (hp : SlotsSound own p) {k : Nat} {x : Entry} (hlen : q.slots.length = p.slots.length)
    (hother : ∀ j, j ≠ k → q.at j = p.at j) (hk : q.at k = some x) (haddr : 1 ≤ x.addr ∧ x.addr ≤ 250 ∧ x.addr ≠ own)
    (hnew : ∀ j e, j ≠ k → p.at j = some e → e.addr ≠ x.addr) (hring : x.ring.length ≤ 4) : SlotsSound own q := by
  have at_k {j : Nat} {e : Entry} (hj : j = k) (he : q.at j = some e) : e = x :=
    Option.some.inj (he.symm.trans (hj ▸ hk))
  have at_other {j : Nat} {e : Entry} (hj : j ≠ k) (he : q.at j = some e) : p.at j = some e := hother j hj ▸ he
  refine ⟨hlen.trans hp.slots, fun i j a b ha hb hab => ?_, fun i e he => ?_, fun i e he => ?_⟩
  · by_cases hi : i = k <;> by_cases hj : j = k
    · rw [hi, hj]
    · exact absurd (by rw [← hab, at_k hi ha]) (hnew j b hj (at_other hj hb))
    · exact absurd (by rw [hab, at_k hj hb]) (hnew i a hi (at_other hi ha))
    · exact hp.distinct i j a b (at_other hi ha) (at_other hj hb) hab
  · by_cases hi : i = k
    · rw [at_k hi he]
      exact haddr
    · exact hp.foreign i e (at_other hi he)
  · by_cases hi : i = k
    · rw [at_k hi he]
      exact hring
    · exact hp.rings i e (at_other hi he)

theorem SlotsSound.slotOf_only (hp : SlotsSound own p) {a i : Nat} {e : Entry} (h : p.slotOf a = some i) (he : p.at i = some e) :
    e.addr = a ∧ ∀ j e', j ≠ i → p.at j = some e' → e'.addr ≠ a := by
  obtain ⟨-, e₀, he₀, ha⟩ := PeerTable.slotOf_some h
  obtain rfl : e = e₀ := Option.some.inj (he.symm.trans he₀)
  exact ⟨ha, fun j e' hj he' hae => hj (hp.distinct j i e' e he' he (hae.trans ha.symm))⟩

theorem slotsSound_of_empty (hlen : q.slots.length = 24) (hat : ∀ i, q.at i = none) : SlotsSound own q := by
  refine ⟨hlen, fun i _ _ _ h => ?_, fun i _ h => ?_, fun i _ h => ?_⟩ <;> rw [hat i] at h <;> exact absurd h nofun

end

/-! ### What the operations on an entry leave of its address and its ring -/

section
variable (e : Entry)

theorem Entry.cleared_addr (st : EntryState) : (e.cleared st).addr = e.addr := rfl

theorem Entry.update_addr (b : Beacon) (heard : SecNs) : (e.update b heard).addr = e.addr := rfl

theorem Entry.update_ring_length (b : Beacon) (heard : SecNs) : (e.update b heard).ring.length ≤ e.ring.length := by
  unfold Entry.update
  dsimp only
  split
  · exact le_rfl
  · exact Nat.zero_le _

theorem Entry.halve_addr : e.halve.addr = e.addr := by
  unfold Entry.halve
  split <;> rfl

theorem Entry.halve_ring : e.halve.ring = e.ring := by
  unfold Entry.halve
  split <;> rfl

theorem Entry.measure_addr (own dMax : Nat) (l : Line) (b : Beacon) (t4 : Option Stamp) :
    (e.measure own dMax l b t4).addr = e.addr := by
  obtain ⟨r, f, u, h | ⟨-, h⟩, -⟩ := e.measure_only own dMax l b t4 <;> rw [h]

theorem Entry.measure_ring_length (own dMax : Nat) (l : Line) (b : Beacon) (t4 : Option Stamp) (he : e.ring.length ≤ 4) :
    (e.measure own dMax l b t4).ring.length ≤ 4 := by
  obtain ⟨r, f, u, h, hr⟩ := e.measure_only own dMax l b t4
  have hring : (e.measure own dMax l b t4).ring = r := by obtain h | ⟨-, h⟩ := h <;> rw [h]
  obtain hr | ⟨x, hr⟩ := hr <;> rw [hring, hr]
  · exact he
  · rw [pushSample_length]
    exact Nat.min_le_left _ _

theorem Entry.age_addr_ring {e' : Entry} {limit k : Nat} (h : e.age limit k = some e') :
    e'.addr = e.addr ∧ e'.ring.length ≤ e.ring.length := by
  unfold Entry.age at h
  dsimp only at h
  split at h
  · split at h
    · exact absurd h nofun
    · obtain rfl := Option.some.inj h
      exact ⟨rfl, Nat.zero_le _⟩
  · split at h
    · exact absurd h nofun
    · obtain rfl := Option.some.inj h
      exact ⟨rfl, le_rfl⟩

theorem Entry.verdict_addr_ring (d : Bool) : (e.verdict d).addr = e.addr ∧ (e.verdict d).ring = e.ring := by
  unfold Entry.verdict
  split
  case h_1 => split <;> exact ⟨rfl, rfl⟩
  case h_3 => split <;> exact ⟨rfl, rfl⟩
  all_goals exact ⟨rfl, rfl⟩

theorem Entry.writeBack_addr_ring (ws : List WriteBack) : (e.writeBack ws).addr = e.addr ∧ (e.writeBack ws).ring = e.ring := by
  unfold Entry.writeBack
  split
  case h_1 =>
    dsimp only
    split
    · exact Entry.verdict_addr_ring _ _
    · exact ⟨rfl, rfl⟩
  case h_2 => exact ⟨rfl, rfl⟩

theorem Entry.snapshot_ring_length (epoch a : Nat) : (e.snapshot epoch a).ring.length ≤ e.ring.length :=
  List.length_filter_le _ _

end

/-! ### Every reading of a map over the slots -/

theorem PeerTable.at_map (p : PeerTable) (f : Entry → Entry) (i : Nat) :
    PeerTable.at { p with slots := p.slots.map (Option.map f) } i = (p.at i).map f := by
  simp only [PeerTable.at, List.getD_eq_getElem?_getD, List.getElem?_map]
  cases p.slots[i]? <;> rfl

/-- Every entry changed in nothing but its ring and its mark, its ring growing no longer (R77, R78). -/
theorem PeersSound.of_map (hs : PeersSound s) (f : Entry → Entry)
    (hf : ∀ e, ∃ ring marked, f e = { e with ring := ring, marked := marked } ∧ ring.length ≤ e.ring.length)
    (hslots : t.pt.slots = s.pt.slots.map (Option.map f))
    (hrest : t.peersView.2 = s.peersView.2) : PeersSound t := by
  simp only [State.peersView, Prod.mk.injEq] at hrest
  obtain ⟨hlink, hsuspect, hparams, hstatus⟩ := hrest
  obtain ⟨sound, unloaded, judged⟩ := peersSound_iff.mp hs
  have hat (i : Nat) : t.pt.at i = (s.pt.at i).map f := by
    rw [← PeerTable.at_map, PeerTable.at, hslots]
    rfl
  refine peersSound_iff.mpr ⟨?_, fun h i => ?_, ?_⟩
  · rw [hparams]
    refine sound.of_entries (by rw [hslots, List.length_map]) fun i e he => ?_
    rw [hat, Option.map_eq_some_iff] at he
    obtain ⟨e', he', rfl⟩ := he
    obtain ⟨ring, marked, heq, hlen⟩ := hf e'
    exact ⟨e', he', by rw [heq], by rw [heq]; exact hlen.trans (sound.rings i e' he')⟩
  · rw [hat, unloaded (hstatus ▸ h) i]
    rfl
  · refine judged.congr hlink hsuspect hparams ?_
    rw [hslots, List.map_map]
    refine List.map_congr_left fun o _ => ?_
    cases o with
    | none => rfl
    | some e =>
      obtain ⟨ring, marked, heq, -⟩ := hf e
      simp only [Function.comp_apply, Option.map_some, heq]
      rfl

/-! ### Passes over the slots -/

/-- A pass whose function keeps addresses and lengthens no ring. -/
theorem PeersSound.of_pass {f : Entry → Option Entry} (hs : PeersSound s) (ho : OnlySlots s t) (hj : PeersJudged t)
    (hat : ∀ i, t.pt.at i = (s.pt.at i).bind f)
    (hf : ∀ e e', f e = some e' → e'.addr = e.addr ∧ e'.ring.length ≤ e.ring.length) : PeersSound t := by
  obtain ⟨sound, unloaded, -⟩ := peersSound_iff.mp hs
  have hmp : t.mp = s.mp := ho.rest.blocks.mp
  refine peersSound_iff.mpr ⟨?_, fun h i => ?_, hj⟩
  · rw [hmp]
    refine sound.of_entries ho.length fun i e he => ?_
    rw [hat, Option.bind_eq_some_iff] at he
    obtain ⟨e', he', hfe⟩ := he
    obtain ⟨haddr, hring⟩ := hf e' e hfe
    exact ⟨e', he', haddr, hring.trans (sound.rings i e' he')⟩
  · rw [hat, unloaded (hmp ▸ h) i]
    rfl

theorem PeersSound.ageSlots (hs : PeersSound s) : PeersSound (s.ageSlots (List.range 24)) := by
  obtain ⟨ho, hat⟩ := s.ageSlots_spec hs.slots
  refine hs.of_pass ho ?_ hat fun e e' h => e.age_addr_ring h
  rw [State.ageSlots_eq _ s s rfl rfl]
  exact (peersSound_iff.mp hs).2.2.pass

theorem PeersSound.writeBackCompletion (hs : PeersSound s) (ws : List WriteBack) : PeersSound (s.writeBackCompletion ws) := by
  obtain ⟨ho, hat⟩ := s.writeBackCompletion_spec ws hs.slots
  refine hs.of_pass ho ?_ (f := fun e => some (e.writeBack ws)) (fun i => by rw [hat]; cases s.pt.at i <;> rfl) fun e e' h => ?_
  · rw [State.writeBackCompletion, State.writeBackSlots_eq]
    exact (peersSound_iff.mp hs).2.2.pass
  · obtain rfl := Option.some.inj h
    obtain ⟨haddr, hring⟩ := e.writeBack_addr_ring ws
    exact ⟨haddr, hring ▸ le_rfl⟩

theorem PeersSound.peerBoundary (hs : PeersSound s) : PeersSound s.peerBoundary := by
  have aged := hs.ageSlots
  unfold State.peerBoundary
  generalize s.ageSlots (List.range 24) = u at aged ⊢
  exact PeersSound.of_frame (s := { u with pt := { u.pt with refusalAge := min 16 (u.pt.refusalAge + 1) } }) (aged.congr rfl)
    (Frame.judge rfl : Frame [] [.tableFull] _ _) rfl rfl

/-! ### Deliveries (R61 to R63) -/

theorem PeersJudged.measureAt (hs : PeersJudged s) (i : Nat) (b : Beacon) (t4 : Option Stamp) (unreported : Bool) :
    PeersJudged (s.measureAt i b t4 unreported) := by
  unfold State.measureAt
  split
  · exact s.putSlot_judged _ _
  · exact hs

theorem PeersSound.refuse (hs : PeersSound s) : PeersSound s.refuse :=
  PeersSound.of_frame (s := { s with pt := { s.pt with refusals := satAdd 65535 s.pt.refusals 1, refusalAge := 0 } })
    (hs.congr rfl) (Frame.judge rfl : Frame [] [.tableFull] _ _) rfl rfl

/-- One slot given to an entry of a foreign address that no other slot bears. -/
theorem PeersSound.of_slot (hs : PeersSound s) (hload : s.mp.status ≠ .notLoaded) {u : State} {i : Nat} {x : Entry}
    (ho : OnlySlots u t) (hu : u.pt.slots = s.pt.slots) (hmp : u.mp = s.mp) (hj : PeersJudged t)
    (hother : ∀ j, j ≠ i → t.pt.at j = s.pt.at j) (hi : t.pt.at i = some x)
    (haddr : 1 ≤ x.addr ∧ x.addr ≤ 250 ∧ x.addr ≠ s.mp.params.address)
    (hnew : ∀ j e, j ≠ i → s.pt.at j = some e → e.addr ≠ x.addr) (hring : x.ring.length ≤ 4) : PeersSound t := by
  have hmp : t.mp = s.mp := ho.rest.blocks.mp.trans hmp
  refine peersSound_iff.mpr ⟨?_, fun h => absurd (hmp ▸ h) hload, hj⟩
  rw [hmp]
  exact (peersSound_iff.mp hs).1.insert (ho.length.trans (congrArg List.length hu)) hother hi haddr hnew hring

theorem PeersSound.deliver (hs : PeersSound s) (hload : s.mp.status ≠ .notLoaded) {b : Beacon}
    (hb : 1 ≤ b.sender ∧ b.sender ≤ 250 ∧ b.sender ≠ s.mp.params.address) (t4 : Option Stamp) (unreported : Bool) :
    PeersSound (s.deliver b t4 unreported) := by
  obtain ⟨sound, -, -⟩ := peersSound_iff.mp hs
  cases hslot : s.pt.slotOf b.sender with
  | some i =>
    obtain ⟨-, e, he, -⟩ := PeerTable.slotOf_some hslot
    obtain ⟨haddr, honly⟩ := sound.slotOf_only hslot he
    have hj : PeersJudged (s.deliver b t4 unreported) := by
      simp only [State.deliver, hslot, State.entryAt_eq, he]
      exact PeersJudged.measureAt (State.putSlot_judged _ _ _) _ _ _ _
    obtain ⟨ho, hother, n, hi⟩ := s.deliver_known b t4 unreported hslot he
    refine hs.of_slot hload ho rfl rfl hj hother hi ?_ ?_ ?_
    · rw [Entry.measure_addr, Entry.halve_addr, Entry.update_addr, haddr]
      exact hb
    · rw [Entry.measure_addr, Entry.halve_addr, Entry.update_addr, haddr]
      exact honly
    · refine Entry.measure_ring_length _ _ _ _ _ _ ?_
      rw [Entry.halve_ring]
      exact (e.update_ring_length _ _).trans (sound.rings i e he)
  | none =>
    cases hfree : s.pt.slotFor b.adv.bound with
    | none =>
      rw [s.deliver_refused b t4 unreported hslot hfree]
      exact hs.refuse
    | some i =>
      have hj : PeersJudged (s.deliver b t4 unreported) := by
        simp only [State.deliver, hslot, hfree]
        exact PeersJudged.measureAt (State.putSlot_judged _ _ _) _ _ _ _
      obtain ⟨ho, hother, n, hi⟩ := s.deliver_new b t4 unreported hslot hfree (PeerTable.slotFor_lt hfree)
      refine hs.of_slot hload ho rfl rfl hj hother hi ?_ ?_ ?_
      · rw [Entry.measure_addr]
        exact hb
      · rw [Entry.measure_addr]
        exact fun j e _ he => PeerTable.slotOf_none hslot he
      · exact Entry.measure_ring_length _ _ _ _ _ _ (Nat.zero_le 4)

theorem parseFrame_sender {bytes : List Byte} {whole : Bool} {b : Beacon} (h : parseFrame bytes whole = some b) :
    1 ≤ b.sender ∧ b.sender ≤ 250 := by
  unfold parseFrame at h
  dsimp only at h
  split at h
  case isTrue =>
    unfold parseBody at h
    dsimp only at h
    split at h
    case isTrue hc =>
      split at h
      · split at h
        · obtain rfl := Option.some.inj h
          simpa [validAddress] using hc.2.1
        · exact absurd h nofun
      · exact absurd h nofun
    case isFalse => exact absurd h nofun
  case isFalse => exact absurd h nofun

theorem State.loaded_iff (s : State) : s.loaded = true ↔ s.mp.status = .good ∨ s.mp.status = .adjusted := decide_eq_true_iff

theorem State.status_of_loaded (h : s.loaded = true) : s.mp.status ≠ .notLoaded := by
  obtain h | h := s.loaded_iff.mp h <;> simp [h]

theorem PeersSound.goodBeacon (hs : PeersSound s) (hload : s.mp.status ≠ .notLoaded) {b : Beacon}
    (hb : 1 ≤ b.sender ∧ b.sender ≤ 250 ∧ b.sender ≠ s.mp.params.address) : PeersSound (s.goodBeacon b) := by
  unfold State.goodBeacon
  split
  next stamp _ =>
    split
    · exact hs.deliver hload hb _ _
    · exact PeersSound.deliver (s := { s with lc := { s.lc with
        filling := (addReport s.lc.filling ⟨b.sender, b.seq, stamp⟩).1 } }) (hs.of_lc _) hload hb _ _
  · exact hs.deliver hload hb _ _

theorem PeersSound.receive (hs : PeersSound s) (bytes : List Byte) (whole : Bool) : PeersSound (s.receive bytes whole) := by
  unfold State.receive
  split
  next b hparse =>
    split
    next hloaded =>
      split
      next => exact hs.of_frame s.clashBeacon_frame rfl rfl
      next hown =>
        obtain ⟨hlo, hhi⟩ := parseFrame_sender hparse
        exact hs.goodBeacon (State.status_of_loaded hloaded) ⟨hlo, hhi, hown⟩
    next => exact hs
  next => exact hs.of_frame s.discard_frame rfl rfl

theorem PeersSound.carrierAbsent {bytes : List Byte} {whole : Bool} (hs : PeersSound s)
    (h : execCarrierAbsent bytes whole s = .next t) : PeersSound t := by
  obtain rfl | ⟨-, -, rfl⟩ := State.whenDue_cases h
  · exact hs
  · dsimp only
    split
    · exact (hs.of_lc _).receive _ _
    · exact hs.of_lc _

/-! ### The other commands that reach the table -/

/-- An empty table, with neither condition present. -/
theorem peersSound_of_empty (hlen : t.pt.slots.length = 24) (hat : ∀ i, t.pt.at i = none) (hj : PeersJudged t) : PeersSound t :=
  peersSound_iff.mpr ⟨slotsSound_of_empty hlen hat, fun _ => hat, hj⟩

theorem peersJudged_of_empty (hat : ∀ i, t.pt.at i = none) (hlink : t.conds.peerLink = false)
    (hsuspect : t.conds.peerSuspect = false) : PeersJudged t := by
  refine ⟨hlink.trans (Bool.eq_false_iff.mpr fun h => ?_).symm, hsuspect.trans (Bool.eq_false_iff.mpr fun h => ?_).symm⟩
  · obtain ⟨i, e, he, -⟩ := t.linkPoor_iff.mp h
    exact absurd ((hat i).symm.trans he) nofun
  · obtain ⟨i, e, he, -⟩ := t.anySuspect_iff.mp h
    exact absurd ((hat i).symm.trans he) nofun

theorem PeerTable.reset_at (i : Nat) : PeerTable.reset.at i = none := by
  rw [PeerTable.at, PeerTable.reset, List.getD_eq_getElem?_getD, List.getElem?_replicate]
  split <;> rfl

theorem peersSound_of_reset (hpt : t.pt = .reset) (hlink : t.conds.peerLink = false)
    (hsuspect : t.conds.peerSuspect = false) : PeersSound t := by
  have hat (i : Nat) : t.pt.at i = none := by rw [hpt]; exact PeerTable.reset_at i
  exact peersSound_of_empty (by rw [hpt]; rfl) hat (peersJudged_of_empty hat hlink hsuspect)

theorem PeersSound.resetTo (hs : PeersSound s) (h : ResetTo s t) : PeersSound t := by
  obtain ⟨_, -, rfl⟩ | ⟨_, _, _, rfl⟩ | ⟨_, _, _, rfl⟩ := h
  · exact hs.congr rfl
  · exact peersSound_of_reset rfl rfl rfl
  · exact peersSound_of_reset rfl rfl rfl

theorem PeersSound.takeSnapshot (hs : PeersSound s) (sec : Nat) : PeersSound (s.takeSnapshot sec) :=
  hs.of_map (fun e => e.snapshot sec s.mp.params.a) (fun e => ⟨_, _, rfl, e.snapshot_ring_length sec s.mp.params.a⟩) rfl rfl

theorem PeersSound.epoch (hs : PeersSound s) (h : execEpoch s = .next t) : PeersSound t := by
  obtain ⟨-, rfl⟩ | ⟨-, rfl⟩ := State.event_cases h
  · exact hs
  · split
    next sec rest _ =>
      have published : PeersSound s.publish := hs.of_frame s.publish_frame rfl rfl
      have taken := published.of_tb { s.publish.tb with epochs := rest }
      have shadowed := taken.of_frame (State.applyPpsShadow_frame _ sec) rfl rfl
      exact (shadowed.of_frame (State.windowEpoch_frame _) rfl rfl).takeSnapshot sec
    next => exact hs

theorem PeersSound.beaconIntervalBoundary (hs : PeersSound s) (h : execBeaconIntervalBoundary s = .next t) : PeersSound t := by
  obtain ⟨-, rfl⟩ | ⟨-, rfl⟩ := State.event_cases h
  · exact hs
  · split
    next b rest _ =>
      have taken := hs.of_tb { s.tb with intervals := rest }
      exact (taken.of_frame (State.lineBoundary_frame _ b) rfl rfl).peerBoundary
    next => exact hs

theorem PeersSound.step (hs : PeersSound s) (h : execStep s = .next t) : PeersSound t := by
  obtain ⟨-, rfl⟩ | ⟨-, rfl⟩ := State.event_cases h
  · exact hs
  · split
    · exact hs.of_map (fun e => { e with ring := [] }) (fun e => ⟨[], _, rfl, Nat.zero_le _⟩) rfl rfl
    · exact hs

theorem PeersSound.completeWith (hs : PeersSound s) (n : Snapshot) (reports back late : Bool) :
    PeersSound (s.completeWith n reports back late) := by
  unfold State.completeWith
  extract_lets c ws s1 s2 s3 s4 s5
  have tell {u : State} (hu : PeersSound u) : PeersSound (u.reportCompletion c) := hu.of_frame (u.reportCompletion_frame c) rfl rfl
  have settled : PeersSound s1 := hs.congr rfl
  have ite {b : Bool} {u v : State} (hu : PeersSound u) (hv : PeersSound v) : PeersSound (if b then u else v) := by
    split
    · exact hu
    · exact hv
  have waiting : PeersSound (s1.holdBack s.du.pub) := settled.congr rfl
  have wroteFirst : PeersSound s2 := ite (settled.writeBackCompletion ws) settled
  have toldFirst : PeersSound s3 := ite (tell wroteFirst) wroteFirst
  have published : PeersSound s4 := toldFirst.of_frame s3.published_judgePermit_frame rfl rfl
  have wrote : PeersSound s5 := ite published (published.writeBackCompletion ws)
  exact ite (tell (waiting.writeBackCompletion ws)) (ite wrote (tell wrote))

theorem PeersSound.combineCompletion (hs : PeersSound s) (h : execCombineCompletion s = .next t) : PeersSound t := by
  obtain ⟨-, rfl⟩ | ⟨-, rfl⟩ := State.event_cases h
  · exact hs
  · split
    · exact PeersSound.completeWith (s := { s with choices := s.choices + 3 }) (hs.congr rfl) _ _ _ _
    · exact hs

/-- The load finds the table empty, and leaves it so (R33). -/
theorem PeersSound.configLoadComplete {image : List Byte} (hs : PeersSound s)
    (h : execConfigLoadComplete image s = .next t) : PeersSound t := by
  have hframe := execConfigLoadComplete_frame h
  obtain rfl | ⟨-, hdue, -⟩ := State.whenDue_cases h
  · exact hs
  · have hempty : ∀ i, s.pt.at i = none := hs.unloaded (of_decide_eq_true hdue)
    have hat : ∀ i, t.pt.at i = none := by rw [hframe.pt rfl]; exact hempty
    have noEntry {p : Entry → Prop} : ¬∃ i e, s.pt.at i = some e ∧ p e := by
      rintro ⟨i, e, he, -⟩
      exact absurd ((hempty i).symm.trans he) nofun
    refine peersSound_of_empty (by rw [hframe.pt rfl]; exact hs.slots) hat (peersJudged_of_empty hat ?_ ?_)
    · exact (hframe.conds .peerLink rfl nofun).trans (Bool.eq_false_iff.mpr (mt hs.link.mp noEntry))
    · exact (hframe.conds .peerSuspect rfl nofun).trans (Bool.eq_false_iff.mpr (mt hs.suspect.mp noEntry))

theorem State.restartPeers_sound (hlen : s.pt.slots.length = 24) : PeersSound s.restartPeers := by
  have emptied : PeersSound (State.judgePeers
      { s with pt := { s.pt with slots := s.pt.slots.map fun _ => none, refusalAge := 16 } }) := by
    have hpt := (State.judgePeers_only
      { s with pt := { s.pt with slots := s.pt.slots.map fun _ => none, refusalAge := 16 } }).blocks.pt
    refine peersSound_of_empty (by rw [hpt]; simpa using hlen) (fun i => ?_) (State.judgePeers_judged _)
    rw [hpt, PeerTable.at, List.getD_eq_getElem?_getD, List.getElem?_map]
    cases s.pt.slots[i]? <;> rfl
  exact emptied.of_frame (Frame.judge rfl : Frame [] [.tableFull] _ _) rfl rfl

theorem PeersSound.restart (hs : PeersSound s) : PeersSound s.restart := by
  unfold State.restart
  extract_lets s1 _ s2
  have hlen : s2.pt.slots.length = 24 := (congrArg (fun p => p.slots.length) (s.publish_frame.pt rfl)).trans hs.slots
  have judged : PeersSound (s2.restartPeers.judge .holdBudget false) :=
    (State.restartPeers_sound hlen).of_frame (Frame.judge rfl : Frame [] [.holdBudget] _ _) rfl rfl
  exact judged.of_frame (State.published_withdraw_frame _) rfl rfl

theorem PeersSound.lockoutPeer (hs : PeersSound s) (hload : s.mp.status ≠ .notLoaded) (addr : Nat) :
    PeersSound (s.lockoutPeer addr).1 := by
  obtain ⟨sound, -, -⟩ := peersSound_iff.mp hs
  unfold State.lockoutPeer
  split
  next hvalid =>
    obtain ⟨haddr, hown⟩ := hvalid
    simp only [validAddress, decide_eq_true_eq] at haddr
    cases hslot : s.pt.slotOf addr with
    | some i =>
      obtain ⟨hlt, e, he, -⟩ := PeerTable.slotOf_some hslot
      obtain ⟨ha, honly⟩ := sound.slotOf_only hslot he
      simp only [State.lockout, hslot, State.entryAt_eq, he]
      split
      · exact hs
      · refine hs.of_slot (x := e.cleared .lockedOut) hload (s.putSlot_slots i _) rfl rfl (s.putSlot_judged i _)
          (fun j hj => ?_) (by rw [s.putSlot_at _ _ hlt, if_pos rfl]) ?_ ?_ (Nat.zero_le 4)
        · rw [s.putSlot_at _ _ hlt, if_neg hj]
        · exact sound.foreign i e he
        · exact ha ▸ honly
    | none =>
      simp only [State.lockout, hslot]
      cases hfree : s.pt.slots.findIdx? Option.isNone with
      | none => exact hs
      | some i =>
        have hlt := (List.findIdx?_eq_some_iff_getElem.mp hfree).1
        refine hs.of_slot (x := .fresh addr .lockedOut .free 0 ⟨0, 0⟩) hload (s.putSlot_slots i _) rfl rfl (s.putSlot_judged i _)
          (fun j hj => ?_) (by rw [s.putSlot_at _ _ hlt, if_pos rfl]) ⟨haddr.1, haddr.2, hown⟩
          (fun j e _ he => PeerTable.slotOf_none hslot he) (Nat.zero_le 4)
        rw [s.putSlot_at _ _ hlt, if_neg hj]
  next => exact hs

/-- A LOCKED_OUT entry and a NEW one bear on neither condition (R69, R83). -/
theorem Entry.released_standing {e : Entry} (h : e.state = .lockedOut) : e.released.standing = e.standing := by
  simp [Entry.standing, Entry.judged, Entry.released, h]

theorem PeersSound.releasePeer (hs : PeersSound s) (addr : Nat) : PeersSound (s.releasePeer addr).1 := by
  obtain ⟨sound, unloaded, judged⟩ := peersSound_iff.mp hs
  unfold State.releasePeer
  split
  next =>
    cases hslot : s.pt.slotOf addr with
    | none => exact hs
    | some i =>
      obtain ⟨hlt, e, he, -⟩ := PeerTable.slotOf_some hslot
      simp only [State.entryAt_eq, he]
      split
      next hlocked =>
        have hat (j : Nat) : (s.setSlot i (some e.released)).pt.at j = if j = i then some e.released else s.pt.at j :=
          PeerTable.at_set _ _ _ hlt
        refine peersSound_iff.mpr ⟨sound.of_entries List.length_set fun j e' hj => ?_, fun hn => ?_, judged.congr rfl rfl rfl ?_⟩
        · rw [hat] at hj
          split at hj
          next hji =>
            obtain rfl := Option.some.inj hj
            exact ⟨e, hji ▸ he, rfl, Nat.zero_le 4⟩
          next => exact ⟨e', hj, rfl, sound.rings j e' hj⟩
        · exact absurd ((unloaded hn i).symm.trans he) nofun
        · have hget : s.pt.slots[i] = some e := by simpa [PeerTable.at, List.getD_eq_getElem?_getD, hlt] using he
          simp only [State.setSlot, List.map_set, Option.map_some, Entry.released_standing hlocked]
          refine List.ext_getElem (by simp) fun j _ _ => ?_
          by_cases hji : i = j
          · subst hji
            simp [hget]
          · simp [hji]
      next => exact hs
  next => exact hs

/-! ### Every command and every step -/

theorem PeersSound.exec {c : Instr} (hs : PeersSound s) (h : exec c s = .next t) : PeersSound t := by
  have host {early : Bool} {code : Byte} {len : Nat} {args : List Byte} {body : State → State × Reply}
      (hbody : ∀ u, u.mp.status ≠ .notLoaded → PeersSound u → PeersSound (body u).1)
      (h : s.command early code len args body = .next t) : PeersSound t :=
    State.command_keeps (fun _ _ hparams hstatus hu => hu.congr (by simp only [State.peersView, hparams, hstatus])) hbody hs h
  cases hr : isReset c with
  | true => exact hs.resetTo (exec_resetTo hr h)
  | false =>
    cases c with
    | epoch => exact hs.epoch h
    | beaconIntervalBoundary => exact hs.beaconIntervalBoundary h
    | step => exact hs.step h
    | combineCompletion => exact hs.combineCompletion h
    | carrierAbsent => exact hs.carrierAbsent h
    | configLoadComplete => exact hs.configLoadComplete h
    | lockoutPeer => exact host (fun u hload hu => hu.lockoutPeer hload _) h
    | releasePeer => exact host (fun u _ hu => hu.releasePeer _) h
    | restart => exact host (fun u _ hu => hu.restart) h
    | powerOn | pinReset | powerLoss => exact absurd hr nofun
    | _ => exact hs.of_frame (exec_frame hr h) rfl rfl

/-- Settles O52: whatever puts an entry in a slot takes an address no other slot bears, and judges the two conditions afresh. -/
theorem peersSoundAtEveryStep : Obligations.PeersSoundAtEveryStep :=
  fun _ _ hs h => step_keeps (fun _ _ hs => hs.congr rfl) (fun _ _ _ hs h => hs.exec h) hs h

end

end Sys2Proof.Machine
end

section
/-! SUPPORT. The bounded stores: the planes, the transmit history and the minute ring in their bounds, the record area canonical,
the line controller silent before the load, and the conditions of the line as judged, at every step. -/

namespace Sys2Proof.Machine

/-! ### The history store: what placing a record leaves (R160, R161, R165) -/

/-- The history store but for the operation of the record area and the pending append. -/
def History.settled (h : History) : History := { h with op := .idle, waiting := none }

section
variable (s : State)

theorem State.placeRecord_settled (r : HistRecord) (retry : Bool) : (s.placeRecord r retry).hs.settled = s.hs.settled := by
  have hplaced : (s.hs.place r retry).1.settled = s.hs.settled := by
    obtain ⟨_, _, h⟩ | ⟨_, _, _, h⟩ | ⟨_, _, h⟩ := s.hs.place_cases r retry <;> rw [h] <;> rfl
  unfold State.placeRecord
  dsimp only
  split <;> exact hplaced

theorem State.startWaiting_settled : s.startWaiting.hs.settled = s.hs.settled := by
  unfold State.startWaiting
  split
  · exact State.placeRecord_settled _ _ _
  · rfl

theorem State.placeNext_settled (r : HistRecord) (retry : Bool) : (s.placeNext r retry).hs.settled = s.hs.settled :=
  (State.startWaiting_settled _).trans (s.placeRecord_settled r retry)

theorem State.appendRecord_settled (r : HistRecord) : (s.appendRecord r).hs.settled = s.hs.settled := by
  unfold State.appendRecord
  split
  · exact s.placeRecord_settled r false
  · rfl

end

@[simp] theorem Memory.bytes_length (m : Memory) (a n : Nat) : (m.bytes a n).length = n := by simp [Memory.bytes]

theorem programmed_length {old : List Byte} (h : old.length = 32) (r : HistRecord) (left : List Byte) :
    (programmed old r left).length = 32 := by
  rw [programmed_eq h]
  simp

@[simp] theorem erasedCells_length (old left : List Byte) (missing : Byte → Byte) :
    (erasedCells old left missing).length = old.length := List.length_mapIdx

/-- A slot lies in the area. -/
theorem slotBase_le (c : Fin 4) (k : Fin 32) : slotBase c k.val + 32 ≤ areaSize := by
  have hc := c.isLt
  have hk := k.isLt
  simp only [slotBase, areaSize]
  omega

/-- A sector lies in the area. -/
theorem sectorBase_le (c : Fin 4) : slotBase c 0 + 1024 ≤ areaSize := by
  have hc := c.isLt
  simp only [slotBase, areaSize]
  omega

/-! ### What the invariant asks of each block -/

/-- The stores of the history store in their bounds (R156). -/
def History.Bounded (h : History) : Prop := h.ring.length ≤ 64 ∧ h.area.wf = true

/-- The planes and the transmit history in their bounds (R49, R52). -/
structure LineSound (l : Line) : Prop where
  filling : planeSound l.filling
  sending : ∀ p, l.sending = some p → planeSound p
  history : l.history.length ≤ 8
  sent : l.SentSound

/-- The conditions of the line as judged (R35 to R37). -/
structure LineJudged (s : State) : Prop where
  errors : s.conds.lineErrors = decide (s.mp.params.tErr ≤ s.lc.discards)
  congestion : s.conds.lineCongestion = decide (3 ≤ s.lc.abandoned)
  clash : s.conds.addressClash = decide (s.lc.clashAge < 16)

/-- Silence before the load, and in MUTE where it has failed (R40, R58). -/
def SilentUnloaded (s : State) : Prop := (s.loaded = false → s.lc.Silent) ∧ (s.mp.status = .fault → s.lc.access = .mute)

section
variable {s t u : State}

theorem storesSound_iff : StoresSound s ↔ LineSound s.lc ∧ LineJudged s ∧ SilentUnloaded s ∧ s.hs.Bounded := by
  constructor
  · exact fun h => ⟨⟨h.filling, h.sending, h.history, h.sent⟩, ⟨h.errors, h.congestion, h.clash⟩, ⟨h.unloaded, h.fault⟩,
      h.ring, h.area⟩
  · rintro ⟨⟨filling, sending, history, sent⟩, ⟨errors, congestion, clash⟩, ⟨unloaded, fault⟩, ring, area⟩
    exact ⟨filling, sending, history, sent, ring, area, unloaded, fault, errors, congestion, clash⟩

theorem State.status_ne_fault (h : s.loaded = true) : s.mp.status ≠ .fault := by
  obtain h | h := s.loaded_iff.mp h <;> simp [h]

theorem silentUnloaded_of_loaded (h : s.loaded = true) : SilentUnloaded s :=
  ⟨fun hn => absurd (h.symm.trans hn) nofun, fun hf => absurd hf (State.status_ne_fault h)⟩

/-- A station whose access state transmits, or whose instant is held, has loaded. -/
theorem SilentUnloaded.loaded (h : SilentUnloaded s) (hbusy : ¬s.lc.Silent) : s.loaded = true := by
  rw [← Bool.not_eq_false]
  exact fun hn => hbusy (h.1 hn)

theorem Line.Silent.not_busy {l : Line} (h : l.Silent) :
    l.access ≠ .defer ∧ l.access ≠ .send ∧ l.access ≠ .jam ∧ l.access ≠ .backoff := by
  obtain ha | ha | ha | ha := h.access <;> simp [ha]

/-! ### What leaves the line's stores or its counts alone -/

/-- The stores of the line controller, with what bears on them. -/
def Line.stores (l : Line) : List Report × Option (List Report) × List Sent × Option TxRecord × Byte × After :=
  (l.filling, l.sending, l.history, l.record, l.seq, l.after)

/-- What the conditions of the line are judged on, and the conditions. -/
def State.lineCounts (s : State) : (Nat × List Nat × Nat × List Nat × Nat) × Nat × Bool × Bool × Bool :=
  ((s.lc.errNow, s.lc.errPast, s.lc.abNow, s.lc.abPast, s.lc.clashAge), s.mp.params.tErr, s.conds.lineErrors,
    s.conds.lineCongestion, s.conds.addressClash)

theorem LineSound.congr {l l' : Line} (h : LineSound l) (hl : l'.stores = l.stores) : LineSound l' := by
  simp only [Line.stores, Prod.mk.injEq] at hl
  obtain ⟨hfilling, hsending, hhistory, hrecord, hseq, hafter⟩ := hl
  obtain ⟨filling, sending, history, ⟨consecutive, distinct, current, preStep, restarted⟩⟩ := h
  simp only [← hfilling, ← hsending, ← hhistory, ← hrecord, ← hseq, ← hafter] at *
  exact ⟨filling, sending, history, ⟨consecutive, distinct, current, preStep, restarted⟩⟩

theorem LineJudged.congr (h : LineJudged s) (hc : t.lineCounts = s.lineCounts) : LineJudged t := by
  simp only [State.lineCounts, Prod.mk.injEq] at hc
  obtain ⟨⟨hen, hep, han, hap, hage⟩, htErr, herrors, hcongestion, hclash⟩ := hc
  obtain ⟨errors, congestion, clash⟩ := h
  refine ⟨?_, ?_, ?_⟩
  · rw [herrors, errors, Line.discards, Line.discards, htErr, hen, hep]
  · rw [hcongestion, congestion, Line.abandoned, Line.abandoned, han, hap]
  · rw [hclash, clash, hage]

/-- The line's stores stay in their bounds and its conditions as judged. -/
def LineKept (s t : State) : Prop := (LineSound s.lc → LineSound t.lc) ∧ (LineJudged s → LineJudged t)

theorem LineKept.refl (s : State) : LineKept s s := ⟨id, id⟩

theorem LineKept.trans (h : LineKept s t) (h' : LineKept t u) : LineKept s u := ⟨h'.1 ∘ h.1, h'.2 ∘ h.2⟩

theorem LineKept.ite {p : Prop} [Decidable p] (ht : LineKept s t) (hu : LineKept s u) : LineKept s (if p then t else u) := by
  split
  · exact ht
  · exact hu

theorem LineKept.of_eq (h : t.lc.stores = s.lc.stores) (hc : t.lineCounts = s.lineCounts) : LineKept s t :=
  ⟨fun hs => hs.congr h, fun hs => hs.congr hc⟩

theorem LineKept.of_line (hl : LineSound s.lc → LineSound t.lc) (hc : t.lineCounts = s.lineCounts) : LineKept s t :=
  ⟨hl, fun hs => hs.congr hc⟩

theorem LineKept.of_frame {bs : List Block} {ks : List Kind} (h : Frame bs ks s t)
    (hb : (bs.contains .lc || bs.contains .setup) = false)
    (hk : (ks.contains .lineErrors || ks.contains .lineCongestion || ks.contains .addressClash) = false) : LineKept s t := by
  obtain ⟨hlc, hsetup⟩ := Bool.or_eq_false_iff.mp hb
  obtain ⟨hk', hclash⟩ := Bool.or_eq_false_iff.mp hk
  obtain ⟨herrors, hcongestion⟩ := Bool.or_eq_false_iff.mp hk'
  have he : t.conds.lineErrors = s.conds.lineErrors := h.conds .lineErrors herrors nofun
  have hg : t.conds.lineCongestion = s.conds.lineCongestion := h.conds .lineCongestion hcongestion nofun
  have hc : t.conds.addressClash = s.conds.addressClash := h.conds .addressClash hclash nofun
  obtain ⟨hparams, -⟩ := Prod.mk.inj (h.setup hsetup)
  exact .of_eq (by rw [h.lc hlc]) (by rw [State.lineCounts, State.lineCounts, h.lc hlc, hparams, he, hg, hc])

/-! ### Judgements of the line's conditions -/

/-- Every condition but PERMIT_LOST after a judgement (R193). -/
theorem State.judge_get (s : State) {k j : Kind} (v : Bool) (hk : k ≠ .permitLost) (hj : j ≠ .permitLost) :
    (s.judge k v).conds.get j = if j = k then v else s.conds.get j := by
  split
  next h =>
    subst h
    exact s.judge_conds v hk
  next h => exact (s.judge_only k v).conds j (by simpa using h) hj

theorem lineJudged_judgeErrors (hcongestion : s.conds.lineCongestion = decide (3 ≤ s.lc.abandoned))
    (hclash : s.conds.addressClash = decide (s.lc.clashAge < 16)) : LineJudged s.judgeErrors := by
  have get {j : Kind} (hj : j ≠ .permitLost) := s.judge_get (k := .lineErrors) (decide (s.mp.params.tErr ≤ s.lc.discards)) nofun hj
  refine ⟨?_, ?_, ?_⟩ <;> simp only [State.judgeErrors, State.judge_lc, State.judge_mp]
  · exact get (j := .lineErrors) nofun
  · exact (get (j := .lineCongestion) nofun).trans hcongestion
  · exact (get (j := .addressClash) nofun).trans hclash

theorem lineJudged_judgeCongestion (herrors : s.conds.lineErrors = decide (s.mp.params.tErr ≤ s.lc.discards))
    (hclash : s.conds.addressClash = decide (s.lc.clashAge < 16)) : LineJudged s.judgeCongestion := by
  have get {j : Kind} (hj : j ≠ .permitLost) := s.judge_get (k := .lineCongestion) (decide (3 ≤ s.lc.abandoned)) nofun hj
  refine ⟨?_, ?_, ?_⟩ <;> simp only [State.judgeCongestion, State.judge_lc, State.judge_mp]
  · exact (get (j := .lineErrors) nofun).trans herrors
  · exact get (j := .lineCongestion) nofun
  · exact (get (j := .addressClash) nofun).trans hclash

theorem lineJudged_judgeClash {v : Bool} (herrors : s.conds.lineErrors = decide (s.mp.params.tErr ≤ s.lc.discards))
    (hcongestion : s.conds.lineCongestion = decide (3 ≤ s.lc.abandoned)) (hv : v = decide (s.lc.clashAge < 16)) :
    LineJudged (s.judge .addressClash v) := by
  have get {j : Kind} (hj : j ≠ .permitLost) := s.judge_get (k := .addressClash) v nofun hj
  refine ⟨?_, ?_, ?_⟩ <;> simp only [State.judge_lc, State.judge_mp]
  · exact (get (j := .lineErrors) nofun).trans herrors
  · exact (get (j := .lineCongestion) nofun).trans hcongestion
  · exact (get (j := .addressClash) nofun).trans hv

/-! ### Planes and the transmit history (R49, R52) -/

theorem planeSound_nil : planeSound [] := ⟨Nat.zero_le _, List.nodup_nil⟩

theorem addReport_sound {p : List Report} (hp : planeSound p) (r : Report) : planeSound (addReport p r).1 := by
  obtain ⟨hlen, hnodup⟩ := hp
  unfold addReport
  split
  case isTrue =>
    refine ⟨by simpa using hlen, ?_⟩
    rw [List.map_map]
    rw [List.map_congr_left (g := Report.addr) fun q _ => ?_]
    · exact hnodup
    · dsimp only [Function.comp_apply]
      split
      next h => exact h.symm
      next => rfl
  case isFalse hnew =>
    split
    · refine ⟨by rw [List.length_append, List.length_singleton]; omega, ?_⟩
      rw [List.map_append, List.map_singleton]
      refine List.nodup_append.mpr ⟨hnodup, List.nodup_singleton _, fun a ha b hb => ?_⟩
      obtain ⟨q, hq, rfl⟩ := List.mem_map.mp ha
      obtain rfl := List.mem_singleton.mp hb
      intro heq
      exact hnew (List.any_eq_true.mpr ⟨q, hq, by simpa using heq⟩)
    · exact ⟨hlen, hnodup⟩

theorem Line.reports_sound {l : Line} (hl : LineSound l) : planeSound l.reports := by
  unfold Line.reports
  cases h : l.sending with
  | none => exact planeSound_nil
  | some p => exact hl.sending p h

theorem planeSound_of_map {l : Line} (hl : LineSound l) (c : Prop) [Decidable c] (p : List Report)
    (h : (if c then l.sending.map fun _ => [] else l.sending) = some p) : planeSound p := by
  split at h
  · obtain ⟨q, -, rfl⟩ := Option.map_eq_some_iff.mp h
    exact planeSound_nil
  · exact hl.sending p h

theorem pushSent_length (h : List Sent) (x : Sent) : (pushSent h x).length = min 8 (h.length + 1) := by
  simp only [pushSent, List.length_drop, List.length_append, List.length_singleton]
  omega

/-- Consecutive sequence numbers up to the last transmission's (R49). -/
def Consecutive (seq : Byte) (h : List Sent) : Prop :=
  ∀ i x, h[i]? = some x → x.seq = seq - BitVec.ofNat 8 (h.length - i)

theorem Consecutive.nodup {seq : Byte} {h : List Sent} (hc : Consecutive seq h) (hlen : h.length ≤ 8) :
    (h.map Sent.seq).Nodup := by
  refine List.pairwise_iff_getElem.mpr fun i j hi hj hij => ?_
  rw [List.length_map] at hi hj
  simp only [List.getElem_map]
  rw [hc i _ (List.getElem?_eq_getElem hi), hc j _ (List.getElem?_eq_getElem hj)]
  intro heq
  have := congrArg BitVec.toNat heq
  simp only [BitVec.toNat_sub, BitVec.toNat_ofNat] at this
  have := seq.isLt
  omega

theorem Consecutive.pushSent {seq : Byte} {h : List Sent} (hc : Consecutive seq h) (hlen : h.length ≤ 8) (stamp : Stamp) :
    Consecutive (seq + 1) (pushSent h ⟨seq, stamp⟩) := by
  intro i x hx
  have one : BitVec.toNat (1 : Byte) = 1 := rfl
  rw [pushSent_length]
  unfold Machine.pushSent at hx
  rw [List.getElem?_drop] at hx
  obtain hlt | hge := Nat.lt_or_ge (h.length + 1 - 8 + i) h.length
  · rw [List.getElem?_append_left hlt] at hx
    rw [hc _ _ hx]
    apply BitVec.eq_of_toNat_eq
    simp only [BitVec.toNat_sub, BitVec.toNat_ofNat, BitVec.toNat_add]
    have := seq.isLt
    omega
  · rw [List.getElem?_append_right hge] at hx
    have hi : h.length + 1 - 8 + i = h.length := by
      have hbound := (List.getElem?_eq_some_iff.mp hx).1
      rw [List.length_singleton] at hbound
      omega
    rw [hi, Nat.sub_self] at hx
    obtain rfl := Option.some.inj hx
    apply BitVec.eq_of_toNat_eq
    simp only [BitVec.toNat_sub, BitVec.toNat_ofNat, BitVec.toNat_add]
    have := seq.isLt
    omega

theorem consecutive_nil (seq : Byte) : Consecutive seq [] := nofun

theorem lineSound_of_history {l : Line} (hfilling : planeSound l.filling) (hsending : ∀ p, l.sending = some p → planeSound p)
    (hlen : l.history.length ≤ 8) (hc : Consecutive l.seq l.history) (hcurrent : ∀ r, l.record = some r → r.seq = l.seq)
    (hpreStep : ∀ r, l.record = some r → r.steps ≠ [] → l.history = []) (hrestarted : l.after = .listen → l.history = []) :
    LineSound l :=
  ⟨hfilling, hsending, hlen, hc, hc.nodup hlen, hcurrent, hpreStep, hrestarted⟩

/-! ### The operations of the line (R24 to R59) -/

section
variable (s : State)

theorem State.startTx_kept : LineKept s s.startTx := by
  refine .of_line (fun hl => ?_) rfl
  refine lineSound_of_history ?_ (fun p hp => ?_) hl.history hl.sent.consecutive (fun r hr => ?_) (fun r hr hne => ?_)
    hl.sent.restarted
  · show planeSound (if s.lc.attempts = 0 then [] else s.lc.filling)
    split
    · exact planeSound_nil
    · exact hl.filling
  · obtain rfl := Option.some.inj hp
    split
    · exact hl.filling
    · exact Line.reports_sound hl
  · obtain rfl := Option.some.inj hr
    rfl
  · obtain rfl := Option.some.inj hr
    exact absurd rfl hne

/-- A beacon given up releases its sending plane and no more of the stores (R28, R55). -/
theorem LineSound.without_sending {l l' : Line} (hl : LineSound l) (h : l'.stores = { l with sending := none }.stores) :
    LineSound l' := by
  have without : LineSound { l with sending := none } := lineSound_of_history hl.filling (by simp) hl.history hl.sent.consecutive
    hl.sent.current hl.sent.preStep hl.sent.restarted
  exact without.congr h

theorem State.abandon_kept : LineKept s s.abandon := by
  refine ⟨fun hl => ?_, fun hj => lineJudged_judgeCongestion hj.errors hj.clash⟩
  rw [State.abandon, State.judgeCongestion, State.judge_lc]
  exact hl.without_sending rfl

/-- What is done on a state that differs in nothing the stores or the counts of the line bear. -/
theorem LineKept.after_eq {s t u : State} (h : LineKept t u) (hl : t.lc.stores = s.lc.stores) (hc : t.lineCounts = s.lineCounts) :
    LineKept s u := (LineKept.of_eq hl hc).trans h

theorem State.pendInJam_kept : LineKept s s.pendInJam :=
  .ite ((State.abandon_kept _).after_eq rfl rfl) (.of_eq rfl rfl)

theorem State.pend_kept : LineKept s s.pend :=
  .ite ((State.abandon_kept _).after_eq rfl rfl) (.ite ((State.startTx_kept _).after_eq rfl rfl) (.of_eq rfl rfl))

theorem State.instantReached_kept : LineKept s s.instantReached := by
  have taken : LineKept s { s with lc := { s.lc with nextInstant := none } } := .of_eq rfl rfl
  unfold State.instantReached
  dsimp only
  split
  case h_1 => exact taken.trans (State.pend_kept _)
  case h_2 => exact taken.trans ((State.abandon_kept _).trans (State.pend_kept _))
  case h_3 => exact taken.trans ((State.abandon_kept _).trans (State.pend_kept _))
  case h_4 => exact taken.trans ((LineKept.ite (State.abandon_kept _) (.refl _)).trans (State.pendInJam_kept _))
  case h_5 => exact .of_eq rfl rfl
  case h_6 => exact taken

theorem State.collide_kept : LineKept s s.collide := by
  unfold State.collide
  extract_lets l preStep s1
  have cut : LineKept s s1 := .of_line (fun hl => lineSound_of_history hl.filling (planeSound_of_map hl _) hl.history
    hl.sent.consecutive (by simp) (by simp) hl.sent.restarted) rfl
  have abandoned : LineKept s s1.abandon := cut.trans s1.abandon_kept
  split
  · exact .ite (abandoned.trans ((State.pendInJam_kept _).after_eq rfl rfl)) (.ite abandoned cut)
  · exact cut.trans (.of_line (fun hl => hl.without_sending rfl) rfl)

/-- A transmission of a stay in SEND or JAM that no RESTART has overtaken bears on the stores no more (R42). -/
theorem LineSound.after_normal {l l' : Line} (hl : LineSound l) (h : l'.stores = { l with after := .normal }.stores) :
    LineSound l' := by
  have normal : LineSound { l with after := .normal } := lineSound_of_history hl.filling hl.sending hl.history hl.sent.consecutive
    hl.sent.current hl.sent.preStep nofun
  exact normal.congr h

theorem State.endJam_kept : LineKept s s.endJam := by
  unfold State.endJam
  dsimp only
  split
  · exact .of_line (fun hl => hl.after_normal rfl) rfl
  · exact .of_line (fun hl => hl.after_normal rfl) rfl
  · exact .ite (.of_eq rfl rfl) (.ite (.of_eq rfl rfl) (.of_eq rfl rfl))

/-- A transmission driven to its end is logged under the sequence counter's number, or finds the history empty (R47, R49,
R50). -/
theorem State.complete_kept {r : TxRecord} (hr : s.lc.record = some r) (stamp : Stamp) : LineKept s (s.complete r stamp) := by
  have logged (hl : LineSound s.lc) {history : List Sent} (hh : history =
      if r.steps = [] ∧ s.lc.after ≠ .listen then pushSent s.lc.history ⟨r.seq, stamp⟩ else s.lc.history) :
      history.length ≤ 8 ∧ Consecutive (s.lc.seq + 1) history := by
    subst hh
    split
    next =>
      rw [hl.sent.current r hr]
      exact ⟨by rw [pushSent_length]; exact Nat.min_le_left _ _, Consecutive.pushSent hl.sent.consecutive hl.history stamp⟩
    next hc =>
      have hnil : s.lc.history = [] := by
        by_cases hsteps : r.steps = []
        · exact hl.sent.restarted (not_not.mp (not_and.mp hc hsteps))
        · exact hl.sent.preStep r hr hsteps
      rw [hnil]
      exact ⟨Nat.zero_le _, consecutive_nil _⟩
  have done {l : Line} (h : l.stores = (s.lc.filling, none, (if r.steps = [] ∧ s.lc.after ≠ .listen
      then pushSent s.lc.history ⟨r.seq, stamp⟩ else s.lc.history), none, s.lc.seq + 1, .normal)) (hl : LineSound s.lc) :
      LineSound l := by
    simp only [Line.stores, Prod.mk.injEq] at h
    obtain ⟨hfilling, hsending, hhistory, hrecord, hseq, hafter⟩ := h
    obtain ⟨hlen, hc⟩ := logged hl hhistory
    exact lineSound_of_history (hfilling ▸ hl.filling) (by simp [hsending]) hlen (hseq ▸ hc) (by simp [hrecord])
      (by simp [hrecord]) (by simp [hafter])
  unfold State.complete
  extract_lets l logged l1
  have ended : LineKept s { s with lc := { l1 with access := .wait } } := .of_line (done rfl) rfl
  split
  · exact .of_line (done rfl) rfl
  · exact .of_line (done rfl) rfl
  · exact .ite (ended.trans (State.pend_kept _)) ended

theorem State.discard_kept : LineKept s s.discard := by
  refine ⟨fun hl => ?_, fun hj => lineJudged_judgeErrors hj.congestion hj.clash⟩
  rw [State.discard, State.judgeErrors, State.judge_lc]
  exact hl.congr rfl

theorem State.goodBeacon_kept (b : Beacon) : LineKept s (s.goodBeacon b) := by
  have delivered (u : State) (t4 : Option Stamp) (d : Bool) : LineKept u (u.deliver b t4 d) :=
    .of_frame (u.deliver_frame b t4 d) rfl rfl
  have reported (r : Report) : LineKept s { s with lc := { s.lc with filling := (addReport s.lc.filling r).1 } } :=
    .of_line (fun hl => lineSound_of_history (addReport_sound hl.filling r) hl.sending hl.history hl.sent.consecutive
      hl.sent.current hl.sent.preStep hl.sent.restarted) rfl
  unfold State.goodBeacon
  split
  · exact .ite (delivered _ _ _) ((reported _).trans (delivered _ _ _))
  · exact delivered _ _ _

/-- A clash leaves every store but the sending plane, and overtakes no transmission that a RESTART has not (R38). -/
theorem Line.clashed_sound {l : Line} (hl : LineSound l) : LineSound l.clashed := by
  have overtaken {l' : Line} (hl' : LineSound l') (h : (l'.history, l'.after) = (l.history, l.after)) :
      LineSound { l' with after := if l.after = .listen then .listen else .clashHold } := by
    obtain ⟨hhistory, -⟩ := Prod.mk.inj h
    refine lineSound_of_history hl'.filling hl'.sending hl'.history hl'.sent.consecutive hl'.sent.current hl'.sent.preStep
      fun ha => ?_
    rw [hhistory]
    refine hl.sent.restarted ?_
    dsimp only at ha
    split at ha
    next hlisten => exact hlisten
    next => exact absurd ha nofun
  have given : LineSound l.giveUp := hl.without_sending rfl
  unfold Line.clashed
  split
  · exact hl.congr rfl
  · exact given.congr rfl
  · exact given.congr rfl
  · exact (overtaken hl rfl).congr rfl
  · exact (overtaken given rfl).congr rfl
  · exact hl.congr rfl

theorem State.clashBeacon_kept : LineKept s s.clashBeacon := by
  have hcounts : (s.lc.clashed.errNow, s.lc.clashed.errPast, s.lc.clashed.abNow, s.lc.clashed.abPast) =
      (s.lc.errNow, s.lc.errPast, s.lc.abNow, s.lc.abPast) := by
    unfold Line.clashed
    split <;> rfl
  simp only [Prod.mk.injEq] at hcounts
  obtain ⟨hen, hep, han, hap⟩ := hcounts
  unfold State.clashBeacon
  refine ⟨fun hl => ?_, fun hj => lineJudged_judgeClash ?_ ?_ rfl⟩
  · rw [State.judge_lc]
    exact (Line.clashed_sound hl).congr rfl
  · refine hj.errors.trans (decide_eq_decide.mpr ?_)
    simp only [Line.discards, State.drew, hen, hep]
  · refine hj.congestion.trans (decide_eq_decide.mpr ?_)
    simp only [Line.abandoned, State.drew, han, hap]

theorem State.lineBoundary_kept (b : Nat) : LineKept s (s.lineBoundary b) := by
  unfold State.lineBoundary
  extract_lets l l1 access ms s1
  have hcounts : s1.lc.stores = s.lc.stores ∧ (s1.lc.errNow, s1.lc.errPast, s1.mp.params.tErr, s1.conds.lineErrors) =
      (s.lc.errNow, s.lc.errPast, s.mp.params.tErr, s.conds.lineErrors) := by
    unfold s1
    split <;> exact ⟨rfl, rfl⟩
  obtain ⟨hstores, hcounts⟩ := hcounts
  simp only [Prod.mk.injEq] at hcounts
  obtain ⟨hen, hep, htErr, herrors⟩ := hcounts
  refine ⟨fun hl => ?_, fun hj => ?_⟩
  · simp only [State.judgeCongestion, State.judge_lc]
    exact hl.congr hstores
  · have get {j : Kind} (hj : j ≠ .permitLost) :=
      s1.judge_get (k := .lineCongestion) (decide (3 ≤ s1.lc.abandoned)) nofun hj
    refine lineJudged_judgeClash ((get (j := .lineErrors) nofun).trans ?_) ((get (j := .lineCongestion) nofun).trans ?_) ?_ <;>
      simp only [State.judgeCongestion, State.judge_lc, State.judge_mp]
    · show s1.conds.lineErrors = _
      rw [herrors, hj.errors, Line.discards, Line.discards, htErr, hen, hep]
    · rfl

theorem State.windowEpoch_kept : LineKept s s.windowEpoch := by
  refine ⟨fun hl => ?_, fun hj => lineJudged_judgeErrors hj.congestion hj.clash⟩
  rw [State.windowEpoch, State.judgeErrors, State.judge_lc]
  exact hl.congr rfl

theorem Line.stepNotice_sound {l : Line} (hl : LineSound l) (applied : Int) : LineSound (l.stepNotice applied) := by
  refine lineSound_of_history planeSound_nil (fun p hp => ?_) (Nat.zero_le _) (consecutive_nil _) (fun r hr => ?_)
    (fun _ _ _ => rfl) fun _ => rfl
  · refine planeSound_of_map hl (l.access ≠ .send) p ?_
    rw [ite_not]
    exact hp
  · obtain ⟨q, hq, rfl⟩ := Option.map_eq_some_iff.mp hr
    exact hl.sent.current q hq

theorem Line.restart_sound {l : Line} (hl : LineSound l) : LineSound l.restart := by
  have emptied : LineSound { l with listen := 3, nextInstant := none, due := false, history := [], filling := [] } :=
    lineSound_of_history planeSound_nil hl.sending (Nat.zero_le _) (consecutive_nil _) hl.sent.current (fun _ _ _ => rfl)
      fun _ => rfl
  have overtaken {l' : Line} (hl' : LineSound l') (h : l'.history = []) : LineSound { l' with after := .listen } :=
    lineSound_of_history hl'.filling hl'.sending hl'.history hl'.sent.consecutive hl'.sent.current hl'.sent.preStep fun _ => h
  unfold Line.restart
  dsimp only
  split
  · exact overtaken emptied rfl
  · exact overtaken (emptied.without_sending rfl) rfl
  · exact emptied
  · exact emptied.without_sending rfl

end

/-! ### The history store in its bounds (R156, R162, R164) -/

section
variable {h : History}

theorem History.Bounded.of_settled {h' : History} (hb : h.Bounded) (hs : h'.settled = h.settled) : h'.Bounded := by
  have hring : h'.settled.ring = h.settled.ring := congrArg _ hs
  have harea : h'.settled.area = h.settled.area := congrArg _ hs
  change h'.ring = h.ring at hring
  change h'.area = h.area at harea
  rw [History.Bounded, hring, harea]
  exact hb

theorem History.Bounded.written (hb : h.Bounded) {a : Nat} {bytes : List Byte} (ha : a + bytes.length ≤ areaSize) :
    (h.area.writeBytes a bytes).wf = true := Memory.writeBytes_wf hb.2 ha

theorem History.Bounded.programmed (hb : h.Bounded) (c : Fin 4) (k : Fin 32) {cells : List Byte} (hlen : cells.length = 32) :
    (h.area.writeBytes (slotBase c k.val) cells).wf = true := by
  refine hb.written ?_
  rw [hlen]
  exact slotBase_le c k

theorem History.Bounded.wiped (hb : h.Bounded) (c : Fin 4) {cells : List Byte} (hlen : cells.length = 1024) :
    (h.area.writeBytes (slotBase c 0) cells).wf = true := by
  refine hb.written ?_
  rw [hlen]
  exact sectorBase_le c

theorem History.slotBytes_length (h : History) (c : Fin 4) (k : Nat) : (h.slotBytes c k).length = 32 := Memory.bytes_length _ _ _

theorem History.Bounded.cutShort (hb : h.Bounded) (left : List Byte) : (h.cutShort left).wf = true := by
  unfold History.cutShort
  split
  · exact hb.2
  · exact hb.programmed _ _ (programCut_cases (h.slotBytes_length _ _) _ _).1
  · exact hb.wiped _ (by rw [erasedCells_length, Memory.bytes_length])

theorem pushMinute_length (ring : List Minute) (m : Minute) : (pushMinute ring m).length = min 64 (ring.length + 1) := by
  simp only [pushMinute, List.length_drop, List.length_append, List.length_singleton]
  omega

theorem State.recordMinute_bounded {s : State} (hb : s.hs.Bounded) (sec : Nat) : (s.recordMinute sec).hs.Bounded := by
  have pushed (m : Minute) : (pushMinute s.hs.ring m).length ≤ 64 := by
    rw [pushMinute_length]
    exact Nat.min_le_left _ _
  unfold State.recordMinute
  extract_lets h
  split
  · exact ⟨pushed _, hb.2⟩
  · split
    · exact ⟨pushed _, hb.2⟩
    · refine History.Bounded.of_settled ?_ (State.appendRecord_settled _ _)
      exact ⟨pushed _, hb.2⟩

theorem State.endProgram_bounded {s : State} (hb : s.hs.Bounded) (r : HistRecord) (retry : Bool) (c : Fin 4) (k : Fin 32)
    (left : List Byte) : (s.endProgram r retry c k left).hs.Bounded := by
  unfold State.endProgram
  have hlen := programmed_length (s.hs.slotBytes_length c k.val) r left
  generalize programmed (s.hs.slotBytes c k.val) r left = cells at hlen ⊢
  have hwf : (s.hs.area.writeBytes (slotBase c k.val) cells).wf = true := hb.programmed c k hlen
  extract_lets _ _ s1
  have written : s1.hs.Bounded := ⟨hb.1, hwf⟩
  split
  · exact written.of_settled s1.startWaiting_settled
  · split
    · exact written.of_settled (State.startWaiting_settled _)
    · exact written.of_settled (State.placeNext_settled _ _ _)

theorem State.endErase_bounded {s : State} (hb : s.hs.Bounded) (r : HistRecord) (retry : Bool) (c : Fin 4) (left : List Byte) :
    (s.endErase r retry c left).hs.Bounded := by
  unfold State.endErase
  have hlen : (erasedCells (s.hs.area.bytes (slotBase c 0) 1024) left fun _ => erased).length = 1024 := by
    rw [erasedCells_length, Memory.bytes_length]
  generalize (erasedCells (s.hs.area.bytes (slotBase c 0) 1024) left fun _ => erased) = cells at hlen ⊢
  have hwf : (s.hs.area.writeBytes (slotBase c 0) cells).wf = true := hb.wiped c hlen
  dsimp only
  split
  · refine History.Bounded.of_settled ?_ (State.placeNext_settled _ _ _)
    exact ⟨hb.1, hwf⟩
  · refine History.Bounded.of_settled ?_ (State.placeNext_settled _ _ _)
    exact ⟨hb.1, hwf⟩

end

/-! ### Every command and every step -/

/-- What the invariant reads beside the line controller and the conditions. -/
def State.storesRest (s : State) : List Minute × Memory × Params × CfgStatus :=
  (s.hs.ring, s.hs.area, s.mp.params, s.mp.status)

/-- What silence bears on (R40, R58). -/
def Line.quiet (l : Line) :
    Access × Option Instant × Bool × Bool × (List Report × Option (List Report) × List Sent × Option TxRecord) :=
  (l.access, l.nextInstant, l.due, l.beacon, l.filling, l.sending, l.history, l.record)

theorem Line.Silent.congr {l l' : Line} (h : l.Silent) (hq : l'.quiet = l.quiet) : l'.Silent := by
  simp only [Line.quiet, Prod.mk.injEq] at hq
  obtain ⟨ha, hn, hd, hb, hf, hs, hh, hr⟩ := hq
  obtain ⟨access, nextInstant, due, beacon, filling, sending, history, record⟩ := h
  rw [← ha] at access
  exact ⟨access, hn.trans nextInstant, hd.trans due, hb.trans beacon, hf.trans filling, hs.trans sending, hh.trans history,
    hr.trans record⟩

theorem Frame.storesRest {bs : List Block} {ks : List Kind} (h : Frame bs ks s t)
    (hb : (bs.contains .hs || bs.contains .setup) = false) : t.storesRest = s.storesRest := by
  obtain ⟨hhs, hsetup⟩ := Bool.or_eq_false_iff.mp hb
  obtain ⟨hparams, hstatus⟩ := Prod.mk.inj (h.setup hsetup)
  rw [State.storesRest, State.storesRest, h.hs hhs, hparams, hstatus]

/-- A line controller that keeps its stores and its judgements, and its silence where it must. -/
theorem StoresSound.of_kept (hs : StoresSound s) (hk : LineKept s t) (hr : t.storesRest = s.storesRest)
    (hsilent : s.loaded = false → s.lc.Silent → t.lc.Silent) (hmute : s.lc.access = .mute → t.lc.access = .mute) :
    StoresSound t := by
  simp only [State.storesRest, Prod.mk.injEq] at hr
  obtain ⟨hring, harea, -, hstatus⟩ := hr
  obtain ⟨line, judged, ⟨silent, mute⟩, ring, area⟩ := storesSound_iff.mp hs
  have hloaded : t.loaded = s.loaded := by rw [State.loaded, State.loaded, hstatus]
  refine storesSound_iff.mpr ⟨hk.1 line, hk.2 judged, ⟨fun h => ?_, fun h => ?_⟩, ?_, ?_⟩
  · rw [hloaded] at h
    exact hsilent h (silent h)
  · exact hmute (mute (hstatus ▸ h))
  · rw [hring]
    exact ring
  · rw [harea]
    exact area

/-- A line controller of a station that has loaded. -/
theorem StoresSound.of_loaded (hs : StoresSound s) (hl : s.loaded = true) (hk : LineKept s t)
    (hr : t.storesRest = s.storesRest) : StoresSound t := by
  have hstatus : t.mp.status = s.mp.status := congrArg (fun r => r.2.2.2) hr
  have hloaded : t.loaded = true := by rw [State.loaded, hstatus]; exact hl
  obtain ⟨line, judged, -, ring, area⟩ := storesSound_iff.mp hs
  have hring : t.hs.ring = s.hs.ring := congrArg Prod.fst hr
  have harea : t.hs.area = s.hs.area := congrArg (fun r => r.2.1) hr
  exact storesSound_iff.mpr ⟨hk.1 line, hk.2 judged, silentUnloaded_of_loaded hloaded, hring ▸ ring, harea ▸ area⟩

theorem StoresSound.congr (hs : StoresSound s) (hl : t.lc.stores = s.lc.stores) (hq : t.lc.quiet = s.lc.quiet)
    (hc : t.lineCounts = s.lineCounts) (hr : t.storesRest = s.storesRest) : StoresSound t :=
  have hq' : t.lc.access = s.lc.access := congrArg Prod.fst hq
  hs.of_kept (.of_eq hl hc) hr (fun _ h => h.congr hq) (fun h => hq'.trans h)

theorem StoresSound.of_frame {bs : List Block} {ks : List Kind} (hs : StoresSound s) (h : Frame bs ks s t)
    (hb : (bs.contains .lc || bs.contains .hs || bs.contains .setup) = false)
    (hk : (ks.contains .lineErrors || ks.contains .lineCongestion || ks.contains .addressClash) = false) : StoresSound t := by
  obtain ⟨hb', hsetup⟩ := Bool.or_eq_false_iff.mp hb
  obtain ⟨hlc, hhs⟩ := Bool.or_eq_false_iff.mp hb'
  have hline : t.lc = s.lc := h.lc hlc
  exact hs.of_kept (.of_frame h (by rw [hlc, hsetup]; rfl) hk) (h.storesRest (by rw [hhs, hsetup]; rfl))
    (fun _ hq => hline ▸ hq) (fun hm => hline ▸ hm)

/-- A history store in its bounds, and nothing else that the invariant reads. -/
theorem StoresSound.of_history {bs : List Block} {ks : List Kind} (hs : StoresSound s) (h : Frame bs ks s t)
    (hb : (bs.contains .lc || bs.contains .setup) = false)
    (hk : (ks.contains .lineErrors || ks.contains .lineCongestion || ks.contains .addressClash) = false)
    (hh : t.hs.Bounded) : StoresSound t := by
  obtain ⟨hlc, hsetup⟩ := Bool.or_eq_false_iff.mp hb
  have hstatus := congrArg Prod.snd (h.setup hsetup)
  have hkept : LineKept s t := .of_frame h hb hk
  obtain ⟨line, judged, ⟨silent, mute⟩, -⟩ := storesSound_iff.mp hs
  have hloaded : t.loaded = s.loaded := by
    have hstatus' : t.mp.status = s.mp.status := hstatus
    rw [State.loaded, State.loaded, hstatus']
  refine storesSound_iff.mpr ⟨hkept.1 line, hkept.2 judged, ⟨fun hn => ?_, fun hf => ?_⟩, hh⟩
  · rw [h.lc hlc]
    exact silent (hloaded ▸ hn)
  · rw [h.lc hlc]
    exact mute (hstatus.symm.trans hf)

/-- A station that has not loaded, or has loaded with FAULT, neither drives, nor waits to, nor holds an instant. -/
theorem StoresSound.loaded_of (hs : StoresSound s) (h : ¬s.lc.Silent) : s.loaded = true :=
  (storesSound_iff.mp hs).2.2.1.loaded h

theorem StoresSound.loaded_of_access (hs : StoresSound s) {a : Access} (h : s.lc.access = a)
    (ha : a = .defer ∨ a = .send ∨ a = .jam ∨ a = .backoff) : s.loaded = true := by
  refine hs.loaded_of fun hq => ?_
  obtain ⟨h1, h2, h3, h4⟩ := hq.not_busy
  rw [h] at h1 h2 h3 h4
  obtain ha | ha | ha | ha := ha
  · exact h1 ha
  · exact h2 ha
  · exact h3 ha
  · exact h4 ha

/-! #### Resets and the load -/

theorem storesSound_of_reset {seeding : Nat} {area : Memory} (hlc : t.lc = .reset seeding) (hhs : t.hs = .reset area)
    (harea : area.wf = true) (hconds : t.conds = .ofFn fun _ => false) (hparams : t.mp.params = .default)
    (hstatus : t.mp.status = .notLoaded) : StoresSound t := by
  refine storesSound_iff.mpr ⟨?_, ?_, ⟨fun _ => ?_, fun h => absurd (hstatus.symm.trans h) nofun⟩, ?_⟩
  · rw [hlc]
    exact lineSound_of_history planeSound_nil (fun _ h => of_none_eq_some h) (Nat.zero_le _) (consecutive_nil _)
      (fun _ h => of_none_eq_some h) (fun _ _ _ => rfl) fun _ => rfl
  · refine ⟨?_, ?_, ?_⟩ <;> rw [hlc, hconds] <;> try rw [hparams]
    all_goals rfl
  · rw [hlc]
    exact ⟨.inl rfl, rfl, rfl, rfl, rfl, rfl, rfl, rfl⟩
  · rw [hhs]
    exact ⟨Nat.zero_le _, harea⟩

theorem StoresSound.resetTo (hs : StoresSound s) (h : ResetTo s t) : StoresSound t := by
  have bounded : s.hs.Bounded := ⟨hs.ring, hs.area⟩
  obtain ⟨_, -, rfl⟩ | ⟨_, area, harea, rfl⟩ | ⟨_, _, left, rfl⟩ := h
  · exact hs.congr rfl rfl rfl rfl
  · refine storesSound_of_reset rfl rfl ?_ rfl rfl rfl
    obtain rfl | ⟨left, rfl⟩ := harea
    · exact hs.area
    · exact bounded.cutShort left
  · exact storesSound_of_reset rfl rfl (bounded.cutShort left) rfl rfl rfl

theorem Line.mute_sound (l : Line) : LineSound l.mute :=
  lineSound_of_history planeSound_nil (fun _ h => of_none_eq_some h) (Nat.zero_le _) (consecutive_nil _)
    (fun _ h => of_none_eq_some h) (fun _ _ _ => rfl) fun _ => rfl

theorem Line.mute_silent (l : Line) : l.mute.Silent := ⟨.inr (.inr (.inr rfl)), rfl, rfl, rfl, rfl, rfl, rfl, rfl⟩

theorem StoresSound.loadFault (hs : StoresSound s) (image : List Byte) : StoresSound (s.loadFault image) := by
  obtain ⟨-, judged, -, bounded⟩ := storesSound_iff.mp hs
  exact storesSound_iff.mpr ⟨Line.mute_sound _, judged.congr rfl, ⟨fun _ => Line.mute_silent _, fun _ => rfl⟩, bounded⟩

theorem StoresSound.loadGood (hs : StoresSound s) (image : List Byte) : StoresSound (s.loadGood image) := by
  obtain ⟨line, judged, -, bounded⟩ := storesSound_iff.mp hs
  unfold State.loadGood
  extract_lets p _ _ s1
  have hs1 := State.gatingReport_only s.au.gating { s with
    mp := { s.mp with image := image, params := p, status := if imageAdjusted image then .adjusted else .good }
    tb := { s.tb with interval := p.interval }
    ri := if p.receiver then .activate s.tb.counter.value else s.ri
    ou := .started p s.du.pub.state s.tb.counter.value
    au := s.au.load p s.now }
  have hlc : s1.lc = s.lc := hs1.blocks.lc
  have hstatus : s1.mp.status = if imageAdjusted image then .adjusted else .good := congrArg Port.status hs1.blocks.mp
  have hloaded : s1.loaded = true := by
    rw [State.loaded_iff, hstatus]
    cases imageAdjusted image <;> simp
  refine storesSound_iff.mpr ⟨?_, lineJudged_judgeErrors ?_ ?_, silentUnloaded_of_loaded ?_, ?_⟩
  · rw [State.judgeErrors, State.judge_lc, hlc]
    exact line
  · rw [hlc]
    exact (hs1.conds .lineCongestion (by simp) nofun).trans judged.congestion
  · rw [hlc]
    exact (hs1.conds .addressClash (by simp) nofun).trans judged.clash
  · rw [State.loaded, State.judgeErrors, State.judge_mp]
    exact hloaded
  · rw [State.judgeErrors, State.judge_hs, hs1.blocks.hs]
    exact bounded

theorem StoresSound.configLoadComplete {image : List Byte} (hs : StoresSound s)
    (h : execConfigLoadComplete image s = .next t) : StoresSound t := by
  obtain rfl | ⟨-, -, rfl⟩ := State.whenDue_cases h
  · exact hs
  · split
    · exact hs.loadFault image
    · exact hs.loadGood image

/-! #### The time base -/

theorem StoresSound.publish (hs : StoresSound s) : StoresSound s.publish := hs.of_frame s.publish_frame rfl rfl

theorem StoresSound.tick (hs : StoresSound s) (h : execTick s = .next t) : StoresSound t := by
  obtain ⟨-, rfl⟩ | ⟨-, rfl⟩ := State.event_cases h
  · exact hs
  · refine hs.publish.of_kept (.of_eq rfl rfl) rfl (fun _ hq => ?_) id
    exact ⟨hq.access, by simp [Line.tick, hq.nextInstant], hq.due, hq.beacon, hq.filling, hq.sending, hq.history, hq.record⟩

theorem StoresSound.windowEpoch (hs : StoresSound s) : StoresSound s.windowEpoch := by
  refine hs.of_kept s.windowEpoch_kept (s.windowEpoch_frame.storesRest rfl) (fun _ hq => ?_) fun hm => ?_ <;>
    rw [State.windowEpoch, State.judgeErrors, State.judge_lc]
  · exact hq.congr rfl
  · exact hm

theorem StoresSound.epoch (hs : StoresSound s) (h : execEpoch s = .next t) : StoresSound t := by
  obtain ⟨-, rfl⟩ | ⟨-, rfl⟩ := State.event_cases h
  · exact hs
  · split
    next sec rest _ =>
      have taken : StoresSound { s.publish with tb := { s.publish.tb with epochs := rest } } := hs.publish.congr rfl rfl rfl rfl
      have windowed := (taken.of_frame (State.applyPpsShadow_frame _ sec) rfl rfl).windowEpoch
      exact windowed.of_frame (State.takeSnapshot_frame _ sec) rfl rfl
    next => exact hs

theorem StoresSound.lineBoundary (hs : StoresSound s) (b : Nat) : StoresSound (s.lineBoundary b) := by
  refine hs.of_kept (s.lineBoundary_kept b) ((s.lineBoundary_frame b).storesRest rfl) (fun hn hq => ?_) fun hm => ?_ <;>
    simp only [State.lineBoundary, State.judgeCongestion, State.judge_lc]
  · rw [hn, Bool.and_false, if_neg Bool.false_ne_true]
    refine ⟨?_, rfl, hq.due, hq.beacon, hq.filling, hq.sending, hq.history, hq.record⟩
    obtain ha | ha | ha | ha := hq.access <;> simp only [Line.boundaryAccess, ha] <;> repeat' split
    all_goals simp
  · simp only [Line.boundaryAccess, hm, Access.draws, Bool.false_and, Bool.false_eq_true, if_false]

theorem StoresSound.beaconIntervalBoundary (hs : StoresSound s) (h : execBeaconIntervalBoundary s = .next t) : StoresSound t := by
  obtain ⟨-, rfl⟩ | ⟨-, rfl⟩ := State.event_cases h
  · exact hs
  · split
    next b rest _ =>
      have taken : StoresSound { s with tb := { s.tb with intervals := rest } } := hs.congr rfl rfl rfl rfl
      exact (taken.lineBoundary b).of_frame (State.peerBoundary_frame _) rfl rfl
    next => exact hs

theorem StoresSound.step (hs : StoresSound s) (h : execStep s = .next t) : StoresSound t := by
  obtain ⟨-, rfl⟩ | ⟨-, rfl⟩ := State.event_cases h
  · exact hs
  · split
    · refine hs.of_kept (.of_line (fun hl => Line.stepNotice_sound hl _) rfl) rfl (fun _ hq => ?_) id
      refine ⟨hq.access, hq.nextInstant, hq.due, hq.beacon, rfl, ?_, rfl, ?_⟩ <;>
        simp [State.applyStep, Line.stepNotice, hq.sending, hq.record]
    · exact hs

/-! #### The history store -/

theorem StoresSound.bounded (hs : StoresSound s) : s.hs.Bounded := ⟨hs.ring, hs.area⟩

theorem History.openMinute_bounded {h : History} (hb : h.Bounded) (waiting : List Nat) : (h.openMinute waiting).Bounded := hb

theorem StoresSound.minuteBoundary (hs : StoresSound s) (h : execMinuteBoundary s = .next t) : StoresSound t := by
  refine hs.of_history (execMinuteBoundary_frame h) rfl rfl ?_
  obtain ⟨-, rfl⟩ | ⟨-, rfl⟩ := State.event_cases h
  · exact hs.bounded
  · split
    · dsimp only
      refine History.openMinute_bounded ?_ _
      split
      · exact State.recordMinute_bounded (by exact hs.bounded) _
      · exact hs.bounded
    · exact hs.bounded

theorem StoresSound.programEnd {left : List Byte} (hs : StoresSound s) (h : execProgramEnd left s = .next t) : StoresSound t := by
  refine hs.of_history (execProgramEnd_frame h) rfl rfl ?_
  obtain ⟨-, rfl⟩ | ⟨-, rfl⟩ := State.event_cases h
  · exact hs.bounded
  · split
    · split
      · exact State.endProgram_bounded hs.bounded _ _ _ _ _
      · exact hs.bounded
    · exact hs.bounded

theorem StoresSound.eraseEnd {left : List Byte} (hs : StoresSound s) (h : execEraseEnd left s = .next t) : StoresSound t := by
  refine hs.of_history (execEraseEnd_frame h) rfl rfl ?_
  obtain ⟨-, rfl⟩ | ⟨-, rfl⟩ := State.event_cases h
  · exact hs.bounded
  · split
    · split
      · exact State.endErase_bounded hs.bounded _ _ _ _
      · exact hs.bounded
    · exact hs.bounded

theorem StoresSound.startScanComplete (hs : StoresSound s) (h : execStartScanComplete s = .next t) : StoresSound t := by
  refine hs.of_history (execStartScanComplete_frame h) rfl rfl ?_
  obtain rfl | ⟨-, -, rfl⟩ := State.whenDue_cases h
  · exact hs.bounded
  · show s.hs.scanned.Bounded
    unfold History.scanned
    dsimp only
    split <;> exact hs.bounded

/-- A completion handed on is added up or kept aside; the ring and the area stand (R155). -/
theorem History.hand_bounded {h : History} (hb : h.Bounded) (waiting : List Nat) (c : Handed) : (h.hand waiting c).Bounded := by
  unfold History.hand
  split <;> exact hb

theorem StoresSound.combineCompletion (hs : StoresSound s) (h : execCombineCompletion s = .next t) : StoresSound t := by
  refine hs.of_history (execCombineCompletion_frame h) rfl rfl ?_
  obtain ⟨-, rfl⟩ | ⟨-, rfl⟩ := State.event_cases h
  · exact hs.bounded
  · split
    next n _ =>
      obtain ⟨hf, -⟩ | ⟨-, hf⟩ := State.completeWith_settles { s with choices := s.choices + 3 } n (Config.reportsFirst s.choices)
        (Config.reportsFirst (s.choices + 1)) (Config.reportsFirst (s.choices + 2))
      · rw [hf.hs rfl]
        exact History.hand_bounded hs.bounded _ _
      · rw [hf.hs rfl]
        exact History.hand_bounded hs.bounded _ _
    next => exact hs.bounded

/-! #### The line -/

theorem StoresSound.discard (hs : StoresSound s) : StoresSound s.discard := by
  refine hs.of_kept s.discard_kept (s.discard_frame.storesRest rfl) (fun _ hq => ?_) fun hm => ?_ <;>
    rw [State.discard, State.judgeErrors, State.judge_lc]
  · exact hq.congr rfl
  · exact hm

theorem StoresSound.receive (hs : StoresSound s) (bytes : List Byte) (whole : Bool) : StoresSound (s.receive bytes whole) := by
  unfold State.receive
  split
  next b _ =>
    split
    next hl =>
      split
      next => exact hs.of_loaded hl s.clashBeacon_kept (s.clashBeacon_frame.storesRest rfl)
      next => exact hs.of_loaded hl (s.goodBeacon_kept b) ((s.goodBeacon_frame b).storesRest rfl)
    next => exact hs
  next =>
    exact hs.discard

theorem StoresSound.carrierAbsent {bytes : List Byte} {whole : Bool} (hs : StoresSound s)
    (h : execCarrierAbsent bytes whole s = .next t) : StoresSound t := by
  obtain rfl | ⟨-, -, rfl⟩ := State.whenDue_cases h
  · exact hs
  · have ended : StoresSound { s with lc := { s.lc with
      carrier := false, idle := false, gap := 0, stuck := 0, receiver := .off } } :=
      hs.congr rfl rfl rfl rfl
    dsimp only
    split
    · exact ended.receive bytes whole
    · exact ended

theorem StoresSound.receptionOverlong {bytes : List Byte} (hs : StoresSound s) (h : execReceptionOverlong s bytes = .next t) :
    StoresSound t := by
  obtain rfl | ⟨-, -, rfl⟩ := State.whenDue_cases h
  · exact hs
  · have ignored : StoresSound { s with lc := { s.lc with receiver := .ignoring } } := hs.congr rfl rfl rfl rfl
    exact ignored.discard

/-- An instant that a tick has reached is held by a station that has loaded. -/
theorem StoresSound.nextInstantReached (hs : StoresSound s) (h : execNextInstantReached s = .next t) : StoresSound t := by
  obtain rfl | ⟨-, hdue, rfl⟩ := State.whenDue_cases h
  · exact hs
  · refine hs.of_loaded (hs.loaded_of fun hq => ?_) s.instantReached_kept (s.instantReached_frame.storesRest rfl)
    simp [State.instantDue, hq.nextInstant] at hdue

theorem StoresSound.lineIdle (hs : StoresSound s) (h : execLineIdle s = .next t) : StoresSound t := by
  obtain rfl | ⟨-, -, rfl⟩ := State.whenDue_cases h
  · exact hs
  · have idle : StoresSound { s with lc := { s.lc with idle := true } } := hs.congr rfl rfl rfl rfl
    dsimp only
    split
    next hdefer =>
      exact idle.of_loaded (hs.loaded_of_access hdefer (.inl rfl)) (State.startTx_kept _) ((State.startTx_frame _).storesRest rfl)
    next => exact idle

theorem StoresSound.txCapture {q : BitVec 7} (hs : StoresSound s) (h : execTxCapture q s = .next t) : StoresSound t := by
  obtain rfl | ⟨-, -, rfl⟩ := State.whenDue_cases h
  · exact hs
  · refine hs.of_kept (.of_line (fun hl => lineSound_of_history hl.filling hl.sending hl.history hl.sent.consecutive
      (fun r hr => ?_) (fun r hr hne => ?_) hl.sent.restarted) rfl) rfl (fun _ hq => ?_) id
    · obtain ⟨r', hr', rfl⟩ := Option.map_eq_some_iff.mp hr
      exact hl.sent.current r' hr'
    · obtain ⟨r', hr', rfl⟩ := Option.map_eq_some_iff.mp hr
      exact hl.sent.preStep r' hr' hne
    · exact ⟨hq.access, hq.nextInstant, hq.due, hq.beacon, hq.filling, hq.sending, hq.history, by simp [hq.record]⟩

theorem StoresSound.collisionDetected (hs : StoresSound s) (h : execCollisionDetected s = .next t) : StoresSound t := by
  obtain rfl | ⟨-, hdue, rfl⟩ := State.whenDue_cases h
  · exact hs
  · obtain ⟨hsend, -⟩ := of_decide_eq_true hdue
    exact hs.of_loaded (hs.loaded_of_access hsend (.inr (.inl rfl))) s.collide_kept (s.collide_frame.storesRest rfl)

theorem StoresSound.jamEnd (hs : StoresSound s) (h : execJamEnd s = .next t) : StoresSound t := by
  obtain rfl | ⟨-, hdue, rfl⟩ := State.whenDue_cases h
  · exact hs
  · obtain ⟨hjam, -⟩ := of_decide_eq_true hdue
    exact hs.of_loaded (hs.loaded_of_access hjam (.inr (.inr (.inl rfl)))) s.endJam_kept (s.endJam_frame.storesRest rfl)

theorem StoresSound.backoffEnd (hs : StoresSound s) (h : execBackoffEnd s = .next t) : StoresSound t := by
  obtain rfl | ⟨-, hdue, rfl⟩ := State.whenDue_cases h
  · exact hs
  · obtain ⟨hbackoff, -⟩ := of_decide_eq_true hdue
    have hl := hs.loaded_of_access hbackoff (.inr (.inr (.inr rfl)))
    dsimp only
    split
    · exact hs.of_loaded hl s.startTx_kept (s.startTx_frame.storesRest rfl)
    · exact hs.of_loaded hl (.of_eq rfl rfl) rfl

theorem StoresSound.transmissionComplete (hs : StoresSound s) (h : execTransmissionComplete s = .next t) : StoresSound t := by
  obtain ⟨-, rfl⟩ | ⟨-, rfl⟩ := State.event_cases h
  · exact hs
  · split
    next r stamp hd =>
      obtain ⟨hrecord, hsend⟩ : s.lc.record = some r ∧ s.lc.access = .send := by
        unfold State.drivenOut at hd
        repeat' split at hd
        all_goals simp_all
      exact hs.of_loaded (hs.loaded_of_access hsend (.inr (.inl rfl))) (s.complete_kept hrecord stamp)
        ((s.complete_frame r stamp).storesRest rfl)
    next => exact hs

theorem StoresSound.stuckTimerExpiry (hs : StoresSound s) (h : execStuckTimerExpiry s = .next t) : StoresSound t := by
  obtain rfl | ⟨-, hdue, rfl⟩ := State.whenDue_cases h
  · exact hs
  · have hl : s.loaded = true := by
      obtain hdefer | hbackoff := of_decide_eq_true ((Bool.and_eq_true _ _).mp hdue).2
      · exact hs.loaded_of_access hdefer (.inl rfl)
      · exact hs.loaded_of_access hbackoff (.inr (.inr (.inr rfl)))
    have waits : StoresSound { s with lc := { s.lc with access := .wait, backoff := 0 } } := hs.of_loaded hl (.of_eq rfl rfl) rfl
    exact waits.of_loaded hl (State.abandon_kept _) ((State.abandon_frame _).storesRest rfl)

/-! #### RESTART -/

theorem Line.restart_silent {l : Line} (hq : l.Silent) : l.restart.Silent := by
  unfold Line.restart
  obtain ha | ha | ha | ha := hq.access <;> simp only [ha]
  · exact ⟨.inl rfl, rfl, rfl, rfl, rfl, rfl, rfl, hq.record⟩
  · exact ⟨.inl rfl, rfl, rfl, rfl, rfl, rfl, rfl, hq.record⟩
  · exact ⟨.inl rfl, rfl, rfl, rfl, rfl, rfl, rfl, hq.record⟩
  · exact ⟨.inr (.inr (.inr rfl)), rfl, rfl, hq.beacon, rfl, hq.sending, rfl, hq.record⟩

theorem StoresSound.restart (hs : StoresSound s) : StoresSound s.restart := by
  have hcounts (l : Line) : (l.restart.errNow, l.restart.errPast, l.restart.abNow, l.restart.abPast, l.restart.clashAge) =
      (l.errNow, l.errPast, l.abNow, l.abPast, l.clashAge) := by
    unfold Line.restart
    dsimp only
    split <;> rfl
  unfold State.restart
  extract_lets p _ s2
  have restarted : StoresSound s2 := by
    refine hs.publish.of_kept (.of_line Line.restart_sound ?_) rfl (fun _ hq => Line.restart_silent hq) fun hm => ?_
    · exact congrArg (·, _) (hcounts p.lc)
    · show p.lc.restart.access = .mute
      change p.lc.access = .mute at hm
      simp only [Line.restart, hm]
  have emptied := restarted.of_frame s2.restartPeers_frame rfl rfl
  have judged : StoresSound (s2.restartPeers.judge .holdBudget false) :=
    emptied.of_frame (Frame.judge rfl : Frame [] [.holdBudget] _ _) rfl rfl
  exact judged.of_frame (State.published_withdraw_frame _) rfl rfl

theorem StoresSound.exec {c : Instr} (hs : StoresSound s) (h : exec c s = .next t) : StoresSound t := by
  cases hr : isReset c with
  | true => exact hs.resetTo (exec_resetTo hr h)
  | false =>
    cases c with
    | tick => exact hs.tick h
    | epoch => exact hs.epoch h
    | minuteBoundary => exact hs.minuteBoundary h
    | beaconIntervalBoundary => exact hs.beaconIntervalBoundary h
    | step => exact hs.step h
    | combineCompletion => exact hs.combineCompletion h
    | carrierPresent | rxCapture =>
      simp only [Machine.exec, execCarrierPresent, execRxCapture] at h
      obtain rfl | ⟨-, -, rfl⟩ := State.whenDue_cases h
      · exact hs
      · exact hs.congr rfl rfl rfl rfl
    | carrierAbsent => exact hs.carrierAbsent h
    | receptionOverlong => exact hs.receptionOverlong h
    | nextInstantReached => exact hs.nextInstantReached h
    | lineIdle => exact hs.lineIdle h
    | txCapture => exact hs.txCapture h
    | collisionDetected => exact hs.collisionDetected h
    | jamEnd => exact hs.jamEnd h
    | backoffEnd => exact hs.backoffEnd h
    | transmissionComplete => exact hs.transmissionComplete h
    | stuckTimerExpiry => exact hs.stuckTimerExpiry h
    | configLoadComplete => exact hs.configLoadComplete h
    | startScanComplete => exact hs.startScanComplete h
    | programEnd => exact hs.programEnd h
    | eraseEnd => exact hs.eraseEnd h
    | restart =>
      refine State.command_keeps (fun _ _ hp hm hu => ?_) (fun _ _ hu => hu.restart) hs h
      exact hu.congr rfl rfl (by simp only [State.lineCounts, hp]) (by simp only [State.storesRest, hp, hm])
    | powerOn | pinReset | powerLoss => exact absurd hr nofun
    | _ => exact hs.of_frame (exec_frame hr h) rfl rfl

/-- Settles O48: each operation of the line keeps the stores in their bounds and judges its condition; a station that has not
loaded comes to none that drives or composes. -/
theorem storesSoundAtEveryStep : Obligations.StoresSoundAtEveryStep :=
  fun _ _ hs h => step_keeps (fun _ _ hs => hs.congr rfl rfl rfl rfl) (fun _ _ _ hs h => hs.exec h) hs h

/-! ### Every invariant at reset -/

/-- Settles O60: the state reset leaves is one that each invariant's reset lemma speaks of. -/
theorem resetIsSound : Obligations.ResetIsSound :=
  ⟨timeSound_of_reset rfl rfl, permitSound_of_reset rfl, statusSound_of_free rfl rfl rfl rfl, peersSound_of_reset rfl rfl rfl,
    storesSound_of_reset rfl rfl Memory.reset_wf rfl rfl rfl, fun h => absurd rfl h⟩

end

end Sys2Proof.Machine
end

section
/-! SUPPORT. Events: the step and its queue, that every command completes, what a held part does with an event, and the occasions
events wait for. -/

namespace Sys2Proof.Machine

/-- Settles O1: the two cases of the queue. -/
theorem frontCommandRuns : Obligations.FrontCommandRuns := ⟨fun _ _ _ h => step_of_front h, fun _ h => step_of_empty h⟩

/-! ### Every command completes -/

theorem exec_next (c : Instr) (s : State) : ∃ t, exec c s = .next t := by
  cases c with
  | foutEdge pin => exact ⟨_, rfl⟩
  | _ => exact ⟨_, rfl⟩

section
variable {s t : State}

theorem ResetTo.pending (h : ResetTo s t) : t.pending = s.pending := by
  obtain ⟨_, -, rfl⟩ | ⟨_, _, _, rfl⟩ | ⟨_, _, _, rfl⟩ := h <;> rfl

theorem exec_pending {c : Instr} (h : exec c s = .next t) : t.pending = s.pending := by
  cases hr : isReset c with
  | true => exact (exec_resetTo hr h).pending
  | false => exact (exec_frame hr h).pending

/-- Settles O2: a command is a reset or stays in its frame, and neither touches the queue. -/
theorem everyCommandCompletes : Obligations.EveryCommandCompletes := by
  intro c s
  obtain ⟨t, h⟩ := exec_next c s
  exact ⟨t, h, exec_pending h⟩

/-! ### A held part (R211, R213) -/

/-- A held part stands while any command but a reset reaches it. -/
theorem exec_held {c : Instr} (hc : isReset c = false) (hs : s.held ≠ .nothing) : exec c s = .next s := by
  cases c with
  | powerOn | pinReset | powerLoss => exact absurd hc nofun
  | _ => exact congrArg Host.Outcome.next (if_neg hs)

theorem State.pinRises_supplied (hs : s.held.supply = true) : s.pinRises = { s with held := ⟨true, false⟩ } := by
  unfold State.pinRises
  split
  · show s.releaseReset .pin ⟨s.held.supply, false⟩ = _
    rw [hs, State.releaseReset_still s .pin (by decide)]
  next hp =>
    have hheld : s.held = ⟨true, false⟩ := by
      cases hh : s.held with
      | mk supply pin => simp_all
    rw [← hheld]

/-- A part held already goes on standing at its reset values, whatever holds it (R211). -/
theorem State.AtResetWhileHeld.of_held (hs : s.AtResetWhileHeld) (hh : s.held ≠ .nothing) (held : HeldBy) :
    State.AtResetWhileHeld { s with held := held } := by
  intro _
  conv_lhs => rw [hs hh]

theorem atReset_of_running (h : t.held = .nothing) : t.AtResetWhileHeld := fun hn => absurd h hn

theorem State.AtResetWhileHeld.resetTo (hs : s.AtResetWhileHeld) (h : ResetTo s t) : t.AtResetWhileHeld := by
  obtain ⟨held, hheld, rfl⟩ | ⟨_, _, _, rfl⟩ | ⟨_, _, _, rfl⟩ := h
  · by_cases hn : held = .nothing
    · exact atReset_of_running hn
    · exact hs.of_held (hheld hn) held
  · exact atReset_of_running rfl
  · exact fun _ => rfl

theorem exec_keeps_held {c : Instr} (hc : isReset c = false) (h : exec c s = .next t) : t.held = s.held :=
  (exec_frame hc h).held (held_not_mem_commandBlocks c)

theorem State.AtResetWhileHeld.exec {c : Instr} (hs : s.AtResetWhileHeld) (h : exec c s = .next t) : t.AtResetWhileHeld := by
  cases hr : isReset c with
  | true => exact hs.resetTo (exec_resetTo hr h)
  | false =>
    by_cases hh : s.held = .nothing
    · exact atReset_of_running ((exec_keeps_held hr h).trans hh)
    · rw [exec_held hr hh] at h
      cases h
      exact hs

/-- The queue is as it is while the part is held (log 2). -/
theorem State.AtResetWhileHeld.queue (hs : s.AtResetWhileHeld) (l : List Instr) :
    State.AtResetWhileHeld { s with pending := l } := by
  intro hh
  conv_lhs => rw [hs hh]

/-- Settles O3: the event of a held part is the identity, and the commands of the supply and of the pin are the three shared
operations on what holds it. -/
theorem heldPartIgnoresEvents : Obligations.HeldPartIgnoresEvents := by
  refine ⟨fun c s hon hloss hpin => ?_, fun s left hs => ⟨?_, ?_, fun hp => ?_, fun hp => ⟨?_, ?_⟩⟩, fun s hp => ?_,
    fun s t hs h => ?_, fun s hs hh => ?_⟩
  · have hr : isReset c = false := by
      cases c with
      | powerOn => exact absurd rfl hon
      | powerLoss left => exact absurd rfl (hloss left)
      | pinReset pin => exact absurd rfl (hpin pin)
      | _ => rfl
    obtain ⟨t, h⟩ := exec_next c s
    refine ⟨t, h, exec_keeps_held hr h, fun hs => ?_⟩
    rw [exec_held hr hs] at h
    cases h
    rfl
  · exact congrArg Host.Outcome.next (State.assertReset_held hs _ _ _)
  · exact congrArg Host.Outcome.next (State.assertReset_held hs _ _ _)
  · refine congrArg Host.Outcome.next ?_
    show s.releaseReset .powerOn ⟨false, s.held.pin⟩ = _
    rw [hp, State.releaseReset_still s .powerOn (by decide)]
  · exact congrArg Host.Outcome.next (State.pinRises_supplied hp)
  · refine congrArg Host.Outcome.next ?_
    dsimp only
    rw [State.pinFalls, State.assertReset_held hs]
    exact State.pinRises_supplied (s := { s with held := ⟨s.held.supply, true⟩ }) hp
  · exact congrArg Host.Outcome.next (State.pinRises_high hp)
  · exact step_keeps (fun _ l hs => hs.queue l) (fun _ _ _ hs h => hs.exec h) hs h
  · have hdata : s.dataOut = none := if_neg hh
    have hlevels (levels : List SpiWires) : s.dataOutLevels levels = levels.map fun _ => none := if_neg hh
    have hstat0 : s.stat0 = false := by simp [State.stat0, hh]
    have hstat1 : s.stat1 = false := by simp [State.stat1, hh]
    have hrdy : s.rdy = false := Bool.eq_false_iff.mpr fun h => hh (s.rdy_iff.mp h).1
    have hou : s.ou = .reset := congrArg State.ou (hs hh)
    have hlc : s.lc.access = .listen := congrArg (fun u => u.lc.access) (hs hh)
    simp [hou, hlc, hdata, hlevels, hstat0, hstat1, hrdy, Outputs.reset, FoutGen.reset]

/-! ### Occasions -/

/-- An event that has nothing to do. -/
theorem next_of_eq {o : Host.Outcome State Fault Refusal} {a : State} (ho : o = .next (if s.held = .nothing then a else s))
    (h : a = s) : o = .next s := by
  rw [ho, h, ite_self]

/-- An event of an occasion that has not come. -/
theorem next_of_not_due {o : Host.Outcome State Fault Refusal} {a : State} {due : Bool}
    (ho : o = .next (if s.held = .nothing then (if due then a else s) else s)) (h : ¬due = true) : o = .next s :=
  next_of_eq ho (if_neg h)

/-- An event that reaches a running part. -/
theorem next_of_running {o : Host.Outcome State Fault Refusal} {a : State} (ho : o = .next (if s.held = .nothing then a else s))
    (hs : s.held = .nothing) : o = .next a := by
  rw [ho, if_pos hs]

/-- An event of an occasion that has come. -/
theorem next_of_due {o : Host.Outcome State Fault Refusal} {a : State} {due : Bool}
    (ho : o = .next (if s.held = .nothing then (if due then a else s) else s)) (hs : s.held = .nothing) (h : due = true) :
    o = .next a := by
  rw [next_of_running ho hs, if_pos h]

/-- A transmission driven to its end is one in SEND (R26). -/
theorem State.drivenOut_eq_none (h : s.lc.access ≠ .send) : s.drivenOut = none := by
  unfold State.drivenOut
  split
  · split
    · rw [if_neg fun hc => h hc.1]
    · rfl
  · rfl

theorem execRxCapture_of_not {found : Delimiter}
    (h : s.lc.carrier = false ∨ s.lc.receiver ≠ .searching ∨ afterDelimiter found.bits ≠ some []) :
    exec (.rxCapture found) s = .next s := by
  refine next_of_not_due rfl ?_
  simp only [delimiterFound, Bool.and_eq_true, decide_eq_true_eq]
  rintro ⟨⟨hc, hr⟩, hd⟩
  obtain h | h | h := h
  · exact absurd (h.symm.trans hc) nofun
  · exact h hr
  · exact h hd

/-- Settles O4: each event is guarded by its occasion, or has nothing to do without it. -/
theorem eventsWaitForOccasion : Obligations.EventsWaitForOccasion := by
  intro s
  refine ⟨fun h => ?epoch, fun h => ?minute, fun h => ?interval, fun h => ?step, fun h => ?combine, fun image h => ?load,
    fun h => ?scan, fun left h => ⟨?program, ?erase⟩, fun h => ?pps, fun h => ?frame, fun h => ?ready,
    fun h => ⟨?present, ?idle⟩, fun bytes whole bits q h => ⟨?absent, ?delimiter, ?stuck⟩, fun bits q h => ?bits,
    fun bytes whole h => ?driving, fun bytes h => ?overlong, fun h => ?instant, fun q h => ⟨?tx, ?collision, ?complete⟩,
    fun h => ?jam, fun h => ?backoff, fun bytes edge h => ⟨?message, ?timeout, ?stopBit, ?edge⟩, fun q h => ?late,
    fun h => ?expiry, fun h => ?giveUp, fun h => ?loss⟩
  case epoch => exact next_of_eq rfl (by simp only [h])
  case minute => exact next_of_eq rfl (by simp only [h])
  case interval => exact next_of_eq rfl (by simp only [h])
  case step => exact next_of_eq rfl (by simp only [h])
  case combine => exact next_of_eq rfl (by simp only [h])
  case load => exact next_of_not_due rfl (by simp [h])
  case scan => exact next_of_not_due rfl (by simp [h])
  case program => exact next_of_eq rfl (by simp only [h])
  case erase => exact next_of_eq rfl (by simp only [h])
  case pps => exact next_of_eq rfl (by simp only [h])
  case frame => exact next_of_eq rfl (by simp only [h])
  case ready => exact next_of_eq rfl (by simp only [h])
  case present => exact next_of_not_due rfl (by simp [h])
  case idle => exact next_of_not_due rfl (by simp [h])
  case absent => exact next_of_not_due rfl (by simp [h])
  case delimiter => exact execRxCapture_of_not (.inl h)
  case stuck => exact next_of_not_due rfl (by simp [h])
  case bits => exact execRxCapture_of_not (.inr h)
  case driving => exact next_of_not_due rfl (by simp [Line.driving, h])
  case overlong => exact next_of_not_due rfl (by simpa [imp_iff_not_or] using h)
  case instant =>
    refine next_of_not_due rfl fun hd => ?_
    obtain ⟨-, hd⟩ := (Bool.and_eq_true _ _).mp hd
    obtain ⟨i, hi, hr⟩ := (Option.any_eq_true _ _).mp hd
    exact absurd ((h i hi).symm.trans hr) nofun
  case tx => exact next_of_not_due rfl (by simp [h])
  case collision => exact next_of_not_due rfl (by simp [h])
  case complete => exact next_of_eq rfl (by simp only [State.drivenOut_eq_none h])
  case jam => exact next_of_not_due rfl (by simp [h])
  case backoff => exact next_of_not_due rfl (by simp [h])
  case message => exact next_of_not_due rfl (by simp [h])
  case timeout => exact next_of_not_due rfl (by simp [h])
  case stopBit => exact next_of_not_due rfl (by simp [h])
  case edge => exact next_of_not_due rfl (by simp [h])
  case late =>
    refine next_of_eq rfl ?_
    simp only [TimeBase.refCapture, TimeBase.captureBefore, h, Option.map_none, if_true, ite_self]
  case expiry => exact next_of_not_due rfl (by simp [h])
  case giveUp => exact next_of_not_due rfl (by simp [State.giveUpDue, h])
  case loss => exact next_of_not_due rfl (by simp [State.lossDue, h])

/-- Settles O5: the state at reset, evaluated field by field. -/
theorem resetLeavesEachBlock : Obligations.ResetLeavesEachBlock := by
  refine ⟨?_, ?_, ?_, ?_, ?_, ?_, ?_, fun k => ?_, ?_, ?_⟩
  case refine_8 => cases k <;> decide
  all_goals decide

/-! ### Three commands that touch little -/

/-- Settles O38: the three events of the receiver, whose occasion has come. -/
theorem carrierAndDelimiterSeen : Obligations.CarrierAndDelimiterSeen := by
  intro s bits q bytes whole hs
  refine ⟨fun hc => ?present, fun hc hsend hjam hr => ?absent, fun hc hr hd => ?capture⟩
  case present =>
    refine (next_of_due rfl hs (by simp [hc])).trans ?_
    simp only [Line.driving, decide_eq_true_eq]
  case absent =>
    refine (next_of_due rfl hs (by simp [hc, Line.driving, hsend, hjam])).trans ?_
    simp only [hr, if_false]
  case capture => exact next_of_due rfl hs (by simp [hc, hr, delimiterFound, hd])

/-- Settles O23: the expiry acts on the one record, from which the pins are formed afresh. -/
theorem escalationMakesUrgent : Obligations.EscalationMakesUrgent := by
  intro s k hs hclass hactive hstanding hnonzero htimer
  have hdue : s.escalationDue k = true := by
    simp [State.escalationDue, AlarmRecord.timing, State.classOf, hclass, hactive, hstanding, hnonzero, minuteTicks, htimer]
  refine ⟨_, next_of_due rfl hs hdue, rfl, ?_, fun j hj => State.onRecord_other s hj _, s.onRecord_exact k _⟩
  rw [State.onRecord_get, AlarmRecord.escalate, AlarmRecord.touched, if_neg (by simp [hstanding])]
  rfl

/-- The length and the bytes of an answer that gives an offset and its shadow (R220). -/
theorem offsetReply_frame (offset v : Int) :
    (offsetReply offset (some v)).frame 9 = [1, 9, 9] ++ beInt 4 offset ++ [1] ++ beInt 4 v := by
  simp [offsetReply, Reply.frame, Reply.ok, beInt, be, flagByte]

/-- Settles O18: SET_OFFSET is carried out, and its work splits on the selector and on the range of the value. -/
theorem setOffsetWritesShadow : Obligations.SetOffsetWritesShadow := by
  intro s sel bytes hs hloaded hlen
  extract_lets v
  have harg : arg (sel :: bytes) 0 = sel.toNat := rfl
  have run := State.command_carried_out (code := 9) (len := 5) (args := sel :: bytes) hs hloaded (by simp [hlen])
    fun u => u.setOffset sel.toNat v
  have hlength : 1 + (sel :: bytes).length = 6 := by simp [hlen]
  rw [hlength] at run
  have carried : exec (.setOffset false (sel :: bytes)) s = _ := run
  rw [carried]
  refine ⟨fun ⟨hsel, hv⟩ => ?_, fun ⟨hsel, hv⟩ => ?_, fun h => ?_⟩
  · subst hsel
    have hwork : (s.sentNothing 6).setOffset 0 v =
        ({ s.sentNothing 6 with ou := { s.ou with ppsShadow := some v } }, offsetReply s.ou.pps.offset (some v)) := if_pos hv
    rw [show (0 : Byte).toNat = 0 from rfl, hwork, State.answer, offsetReply_frame]
    rfl
  · subst hsel
    have hwork : (s.sentNothing 6).setOffset 1 v =
        ({ s.sentNothing 6 with ou := { s.ou with frameShadow := some v } }, offsetReply s.ou.frame.offset (some v)) :=
      if_pos ⟨hv.1, Int.le_sub_one_of_lt hv.2⟩
    rw [show (1 : Byte).toNat = 1 from rfl, hwork, State.answer, offsetReply_frame]
    rfl
  · have hwork : (s.sentNothing 6).setOffset sel.toNat v = (s.sentNothing 6, .badArgument) := by
      obtain ⟨rfl, hv⟩ | ⟨rfl, hv⟩ | hsel := h
      · exact if_neg hv
      · exact if_neg fun hc => hv ⟨hc.1, Int.lt_of_le_sub_one hc.2⟩
      · obtain ⟨n, hn⟩ : ∃ n, sel.toNat = n + 2 := ⟨sel.toNat - 2, by omega⟩
        rw [hn]
        rfl
    rw [hwork]
    rfl

end

end Sys2Proof.Machine
end

section
/-! SUPPORT. Bytes most significant first, and the configuration image: each field read at its place and clamped, and when an image
counts as adjusted. -/

namespace Sys2Proof.Machine

/-! ### Bytes, most significant first -/

theorem ofBE_foldl (bytes : List Byte) (acc : Nat) :
    bytes.foldl (fun a b => a * 256 + b.toNat) acc = acc * 256 ^ bytes.length + ofBE bytes := by
  induction bytes generalizing acc with
  | nil => simp [ofBE]
  | cons b bytes ih =>
    have hfold : ofBE (b :: bytes) = b.toNat * 256 ^ bytes.length + ofBE bytes := by
      rw [ofBE, List.foldl_cons, ih, Nat.zero_mul, Nat.zero_add]
    rw [List.foldl_cons, ih, hfold, List.length_cons, Nat.pow_succ]
    ring

theorem ofBE_cons (b : Byte) (bytes : List Byte) : ofBE (b :: bytes) = b.toNat * 256 ^ bytes.length + ofBE bytes := by
  rw [ofBE, List.foldl_cons, ofBE_foldl]
  ring

theorem ofBE_append (l l' : List Byte) : ofBE (l ++ l') = ofBE l * 256 ^ l'.length + ofBE l' := by
  rw [ofBE, List.foldl_append, ofBE_foldl, ← ofBE]

theorem ofBE_lt (bytes : List Byte) : ofBE bytes < 256 ^ bytes.length := by
  induction bytes with
  | nil => simp [ofBE]
  | cons b bytes ih =>
    have hb : b.toNat ≤ 255 := Nat.le_of_lt_succ b.isLt
    rw [ofBE_cons, List.length_cons, Nat.pow_succ]
    have := Nat.mul_le_mul_right (256 ^ bytes.length) hb
    omega

@[simp] theorem be_length (k v : Nat) : (be k v).length = k := by
  induction k with
  | zero => rfl
  | succ k ih => simp [be, ih]

@[simp] theorem beInt_length (k : Nat) (v : Int) : (beInt k v).length = k := be_length _ _

theorem be_mod (k m v : Nat) (h : k ≤ m) : be k (v % 256 ^ m) = be k v := by
  induction k with
  | zero => rfl
  | succ k ih =>
    rw [be, be, ih (Nat.le_of_succ_le h)]
    congr 1
    apply BitVec.eq_of_toNat_eq
    rw [BitVec.toNat_ofNat, BitVec.toNat_ofNat]
    obtain ⟨d, rfl⟩ := Nat.exists_eq_add_of_le h
    rw [show k + 1 + d = k + (1 + d) by ring, Nat.pow_add 256 k, Nat.mod_mul_right_div_self, Nat.pow_add, Nat.pow_one]
    exact Nat.mod_mul_right_mod _ _ _

/-- The bytes of a number that fits read back as it. -/
theorem ofBE_be {k v : Nat} (h : v < 256 ^ k) : ofBE (be k v) = v := by
  induction k generalizing v with
  | zero =>
    have hv : v = 0 := by simpa using h
    rw [hv]
    rfl
  | succ k ih =>
    have hpos : 0 < 256 ^ k := Nat.pow_pos (by decide)
    have hhigh : v / 256 ^ k < 256 := Nat.div_lt_of_lt_mul (by rwa [Nat.pow_succ] at h)
    rw [be, ofBE_cons, be_length, BitVec.toNat_ofNat, Nat.mod_eq_of_lt hhigh, ← be_mod k k v le_rfl, ih (Nat.mod_lt _ hpos)]
    rw [Nat.mul_comm]
    exact Nat.div_add_mod v _

/-- Bytes are those of the number they read as. -/
theorem be_ofBE (bytes : List Byte) : be bytes.length (ofBE bytes) = bytes := by
  induction bytes with
  | nil => rfl
  | cons b bytes ih =>
    have hlt := ofBE_lt bytes
    have hpos : 0 < 256 ^ bytes.length := Nat.pow_pos (by decide)
    rw [List.length_cons, be, ofBE_cons]
    have hhigh : (b.toNat * 256 ^ bytes.length + ofBE bytes) / 256 ^ bytes.length = b.toNat := by
      rw [Nat.mul_comm, Nat.mul_add_div hpos, Nat.div_eq_of_lt hlt, Nat.add_zero]
    rw [hhigh, ← be_mod bytes.length bytes.length _ le_rfl, Nat.mul_comm, Nat.mul_add_mod, Nat.mod_eq_of_lt hlt, ih,
      BitVec.ofNat_toNat, BitVec.setWidth_eq]

theorem ofBE_singleton (b : Byte) : ofBE [b] = b.toNat := by simp [ofBE]

/-! ### The fields of an image (R208, R209) -/

theorem imageBytes_eq {image : List Byte} {off n : Nat} (h : off + n ≤ image.length) :
    imageBytes image off n = (image.drop off).take n := by
  refine List.ext_getElem ?_ fun j hj hj' => ?_
  · simp only [imageBytes, List.length_map, List.length_range, List.length_take, List.length_drop]
    omega
  · have hj : j < n := by simpa [imageBytes] using hj
    have hlt : off + j < image.length := by omega
    simp [imageBytes, imageByte, List.getD_eq_getElem?_getD, hlt]

/-- An unsigned field of the table, as a number. -/
theorem imageNat_of_field {image : List Byte} {off n : Nat} (lo hi : Nat)
    (hf : (imageTable.find? fun f => f.off == off) = some ⟨off, n, false, lo, hi⟩) (h : off + n ≤ image.length) :
    imageNat image off = max lo (min hi (ofBE ((image.drop off).take n))) := by
  rw [imageNat, imageValue, hf]
  simp only [Field.value, Field.raw, clampInt, imageBytes_eq h, Bool.false_eq_true, if_false]
  omega

/-- A signed field of the table. -/
theorem imageValue_of_field {image : List Byte} {off n : Nat} (lo hi : Int)
    (hf : (imageTable.find? fun f => f.off == off) = some ⟨off, n, true, lo, hi⟩) (h : off + n ≤ image.length) :
    imageValue image off = max lo (min hi (ofBESigned ((image.drop off).take n))) := by
  rw [imageValue, hf]
  simp only [Field.value, Field.raw, clampInt, imageBytes_eq h, if_true]

theorem Interval.ofCode_ms (c : Nat) : (Interval.ofCode c).ms = [125, 250, 500].getD (min 2 c) 0 := by
  match c with
  | 0 | 1 => rfl
  | c + 2 =>
    rw [Nat.min_eq_left (Nat.le_add_left 2 c)]
    rfl

theorem FrameLen.ofCode_ns (c : Nat) : (FrameLen.ofCode c).ns = [1000000, 5000000, 10000000].getD (min 2 c) 0 := by
  match c with
  | 0 | 1 => rfl
  | c + 2 =>
    rw [Nat.min_eq_left (Nat.le_add_left 2 c)]
    rfl

theorem Policy.ofCode_eq (c : Nat) : Policy.ofCode c = [Policy.always, .notFree, .permit].getD (min 2 c) .always := by
  match c with
  | 0 | 1 => rfl
  | c + 2 =>
    rw [Nat.min_eq_left (Nat.le_add_left 2 c)]
    rfl

theorem Source.ofCode_eq (c : Nat) : Source.ofCode c = [Source.stateTrack, .stateHold, .txok, .attn, .anyPeerUrgent,
    .allPeersTraceable, .twoContributors, .refValid].getD (min 7 c) .stateTrack := by
  match c with
  | 0 | 1 | 2 | 3 | 4 | 5 | 6 => rfl
  | c + 7 =>
    rw [Nat.min_eq_left (Nat.le_add_left 7 c)]
    rfl

theorem bitAt_iff (v i : Nat) : bitAt v i = true ↔ v / 2 ^ i % 2 = 1 := beq_iff_eq

/-- The kinds never permit-gating are the notice kinds and PERMIT_LOST (R194). -/
theorem neverGating_iff (k : Kind) : neverGating k = true ↔ Params.defaultClass k = .notice ∨ k = .permitLost := by
  cases k <;> decide

/-! ### When an image counts as adjusted (R209) -/

/-- A field is clamped exactly where it lies outside its range. -/
theorem Field.raw_ne_value_iff {image : List Byte} {f : Field} (h : f.lo ≤ f.hi) :
    f.raw image ≠ f.value image ↔ f.raw image < f.lo ∨ f.hi < f.raw image := by
  rw [Field.value, clampInt]
  omega

theorem imageTable_ordered : ∀ f ∈ imageTable, f.lo ≤ f.hi := by decide

/-- The unsigned fields that can be out of range: offset, size, and limits. -/
def unsignedFields : List (Nat × Nat × Nat × Nat) :=
  [(1, 1, 0, 2), (2, 1, 2, 15), (3, 1, 1, 20), (4, 2, 1, 1000), (6, 2, 0, 1000), (8, 2, 0, 32000),
    (10, 2, 0, 32000), (12, 1, 0, 6), (13, 1, 4, 14), (14, 4, 100, 100000), (18, 2, 10, 1000), (20, 1, 2, 60),
    (21, 1, 1, 10), (22, 2, 100, 60000), (24, 4, 0, 100000), (28, 2, 0, 10000), (30, 1, 0, 1),
    (35, 2, 0, 1000), (37, 4, 100, 10000), (41, 2, 50, 5000), (43, 1, 1, 255), (44, 1, 4, 64),
    (49, 4, 1000, 200000000), (53, 1, 0, 2), (58, 4, 1000, 500000), (62, 4, 4, 500000000),
    (66, 4, 4, 500000000), (72, 1, 1, 60), (73, 1, 0, 7), (74, 1, 0, 7)]

/-- The table's field of an unsigned one. -/
def unsignedField (f : Nat × Nat × Nat × Nat) : Field := ⟨f.1, f.2.1, false, f.2.2.1, f.2.2.2⟩

/-- The table is the unsigned fields, the two signed ones, and the escalation time, which no byte lies beyond. -/
theorem imageTable_perm : imageTable.Perm
    (⟨31, 4, true, -100000, 100000⟩ :: ⟨45, 4, true, -500000000, 499999999⟩ :: ⟨79, 1, false, 0, 255⟩ ::
      unsignedFields.map unsignedField) := by decide

theorem unsignedFields_in_image : ∀ f ∈ unsignedFields, f.1 + f.2.1 ≤ 84 := by decide

theorem exists_clamped_iff {image : List Byte} (h : image.length = 84) :
    (imageTable.any fun f => decide (f.raw image ≠ f.value image)) = true ↔
      (∃ f ∈ unsignedFields, ofBE ((image.drop f.1).take f.2.1) < f.2.2.1 ∨ f.2.2.2 < ofBE ((image.drop f.1).take f.2.1)) ∨
      ofBESigned ((image.drop 31).take 4) < -100000 ∨ 100000 < ofBESigned ((image.drop 31).take 4) ∨
      ofBESigned ((image.drop 45).take 4) < -500000000 ∨ 499999999 < ofBESigned ((image.drop 45).take 4) := by
  have signed {off : Nat} (lo hi : Int) (hle : lo ≤ hi) (hin : off + 4 ≤ 84) :
      (⟨off, 4, true, lo, hi⟩ : Field).raw image ≠ (⟨off, 4, true, lo, hi⟩ : Field).value image ↔
        ofBESigned ((image.drop off).take 4) < lo ∨ hi < ofBESigned ((image.drop off).take 4) := by
    rw [Field.raw_ne_value_iff hle, ← imageBytes_eq (h ▸ hin)]
    rfl
  have escalation : ¬(⟨79, 1, false, 0, 255⟩ : Field).raw image ≠ (⟨79, 1, false, 0, 255⟩ : Field).value image := by
    rw [Field.raw_ne_value_iff (by decide)]
    have hlt := ofBE_lt (imageBytes image 79 1)
    simp only [Field.raw, Bool.false_eq_true, if_false]
    have hlen : (imageBytes image 79 1).length = 1 := by simp [imageBytes]
    rw [hlen] at hlt
    omega
  have unsigned (f : Nat × Nat × Nat × Nat) (hf : f ∈ unsignedFields) :
      (unsignedField f).raw image ≠ (unsignedField f).value image ↔
        ofBE ((image.drop f.1).take f.2.1) < f.2.2.1 ∨ f.2.2.2 < ofBE ((image.drop f.1).take f.2.1) := by
    have hmem : unsignedField f ∈ imageTable := imageTable_perm.mem_iff.mpr (by simp [List.mem_map_of_mem hf])
    rw [Field.raw_ne_value_iff (imageTable_ordered _ hmem), ← imageBytes_eq (h ▸ unsignedFields_in_image f hf)]
    simp only [Field.raw, unsignedField, Bool.false_eq_true, if_false, Nat.cast_lt]
  rw [imageTable_perm.any_eq]
  simp only [List.any_cons, List.any_map, Bool.or_eq_true, List.any_eq_true, decide_eq_true_eq, Function.comp_apply, escalation,
    false_or]
  rw [signed _ _ (by decide) (by decide), signed _ _ (by decide) (by decide)]
  have hexists : (∃ f ∈ unsignedFields, (unsignedField f).raw image ≠ (unsignedField f).value image) ↔
      ∃ f ∈ unsignedFields, ofBE ((image.drop f.1).take f.2.1) < f.2.2.1 ∨ f.2.2.2 < ofBE ((image.drop f.1).take f.2.1) :=
    exists_congr fun f => and_congr_right (unsigned f)
  rw [hexists]
  rw [← or_assoc, or_comm, or_assoc]

theorem imageParams_address {image : List Byte} (h : image.length = 84) :
    (imageParams image).address = ofBE ((image.drop 0).take 1) := by
  have hb : imageBytes image 0 1 = [imageByte image 0] := rfl
  rw [← imageBytes_eq (by omega), hb, ofBE_singleton]
  rfl

theorem policyCode_eq {image : List Byte} (h : image.length = 84) (j : Nat) :
    policyCode image j = ofBE ((image.drop 70).take 2) / 4 ^ j % 4 := by
  rw [policyCode, imageBytes_eq (by omega)]

/-- Settles O8: each field is the table's, clamped; the table's fields, the frame offset, the five policies and the gating bits are
what can be adjusted. -/
theorem imageFieldsClamped : Obligations.ImageFieldsClamped := by
  intro image h p u i between policy source
  have nat {off n : Nat} (lo hi : Nat) (hf : (imageTable.find? fun f => f.off == off) = some ⟨off, n, false, lo, hi⟩)
      (hin : off + n ≤ 84) : imageNat image off = between lo hi (u off n) := imageNat_of_field lo hi hf (h ▸ hin)
  have upTo {off n : Nat} (hi : Nat) (hf : (imageTable.find? fun f => f.off == off) = some ⟨off, n, false, (0 : Nat), hi⟩)
      (hin : off + n ≤ 84) : imageNat image off = min hi (u off n) := (nat 0 hi hf hin).trans (Nat.zero_max _)
  have int {off n : Nat} (lo hi : Int) (hf : (imageTable.find? fun f => f.off == off) = some ⟨off, n, true, lo, hi⟩)
      (hin : off + n ≤ 84) : imageValue image off = max lo (min hi (i off n)) := imageValue_of_field lo hi hf (h ▸ hin)
  have pol (j : Nat) : Policy.ofCode (policyCode image j) = policy (u 70 2 / 4 ^ j) := by
    rw [Policy.ofCode_eq, policyCode_eq h]
  have gate (k : Kind) : bitAt (ofBE (imageBytes image 77 2)) (kindCode k) = true ↔ u 77 2 / 2 ^ kindCode k % 2 = 1 := by
    rw [imageBytes_eq (by omega), bitAt_iff]
  have offset : rawFrameOffset image = u 54 4 := by rw [rawFrameOffset, imageBytes_eq (by omega)]
  refine ⟨⟨imageParams_address h, ?_, nat 2 15 rfl (by decide), nat 1 20 rfl (by decide), nat 1 1000 rfl (by decide),
      upTo 1000 rfl (by decide), upTo 32000 rfl (by decide), upTo 32000 rfl (by decide), upTo 6 rfl (by decide),
      nat 4 14 rfl (by decide)⟩,
    ⟨nat 100 100000 rfl (by decide), nat 10 1000 rfl (by decide), nat 2 60 rfl (by decide), nat 1 10 rfl (by decide),
      nat 100 60000 rfl (by decide), upTo 100000 rfl (by decide), upTo 10000 rfl (by decide), ?_⟩,
    ⟨int (off := 31) (n := 4) (-100000) 100000 rfl (by decide), upTo 1000 rfl (by decide),
      nat 100 10000 rfl (by decide), nat 50 5000 rfl (by decide),
      nat 1 255 rfl (by decide), nat 4 64 rfl (by decide),
      int (off := 45) (n := 4) (-500000000) 499999999 rfl (by decide),
      nat 1000 200000000 rfl (by decide)⟩,
    ⟨?_, ?_, nat 1000 500000 rfl (by decide), nat 4 500000000 rfl (by decide), nat 4 500000000 rfl (by decide),
      nat 1 60 rfl (by decide), ?_⟩,
    ⟨?_, pol 1, pol 2, pol 3, pol 4, ?_, ?_⟩, fun k => ⟨fun hk => ?_, fun hk => ?_, ?_⟩, ?_⟩
  · rw [show p.interval = .ofCode (imageNat image 1) from rfl, Interval.ofCode_ms, upTo 2 rfl (by decide),
      ← Nat.min_assoc, Nat.min_self]
  · rw [show p.receiver = (imageNat image 30 == 1) from rfl, beq_iff_eq, upTo 1 rfl (by decide)]
    omega
  · rw [show p.frameLen = .ofCode (imageNat image 53) from rfl, FrameLen.ofCode_ns, upTo 2 rfl (by decide),
      ← Nat.min_assoc, Nat.min_self]
  · rw [← offset]
    rfl
  · have hlt := ofBE_lt ((image.drop 79).take 1)
    rw [List.length_take, List.length_drop, h] at hlt
    exact (upTo 255 rfl (by decide)).trans (Nat.min_eq_right (Nat.le_of_lt_succ hlt))
  · exact (pol 0).trans (by rw [Nat.pow_zero, Nat.div_one])
  · rw [show p.stat0 = .ofCode (imageNat image 73) from rfl, Source.ofCode_eq, upTo 7 rfl (by decide),
      ← Nat.min_assoc, Nat.min_self]
  · rw [show p.stat1 = .ofCode (imageNat image 74) from rfl, Source.ofCode_eq, upTo 7 rfl (by decide),
      ← Nat.min_assoc, Nat.min_self]
  · rw [show p.classes.get k = _ from PerKind.get_ofFn _ k, imageBytes_eq (by omega)]
    simp only [bitAt_iff]
    generalize Params.defaultClass k = c at hk
    cases c with
    | notice => exact absurd rfl hk
    | _ => rfl
  · rw [show p.classes.get k = _ from PerKind.get_ofFn _ k]
    simp only [hk]
  · rw [show p.gatingSet.get k = _ from PerKind.get_ofFn _ k, Bool.and_eq_true, gate, Bool.not_eq_true', ← Bool.not_eq_true,
      neverGating_iff, not_or]
  · rw [imageAdjusted, Bool.or_eq_true, Bool.or_eq_true, Bool.or_eq_true, exists_clamped_iff h, decide_eq_true_eq, offset]
    have hframe : (u 54 4 ≠ (imageParams image).frameOffset) ↔ p.frameLen.ns - 1 < u 54 4 := by
      rw [show (imageParams image).frameOffset = min (p.frameLen.ns - 1) (rawFrameOffset image) from rfl, offset]
      omega
    have hpolicy : ((List.range 5).any fun j => policyCode image j == 3) = true ↔ ∃ j, j < 5 ∧ u 70 2 / 4 ^ j % 4 = 3 := by
      simp only [List.any_eq_true, List.mem_range, beq_iff_eq, policyCode_eq h, u]
    have hgate : (kinds.any fun k => bitAt (ofBE (imageBytes image 77 2)) (kindCode k) && neverGating k) = true ↔
        ∃ k, u 77 2 / 2 ^ kindCode k % 2 = 1 ∧ (Params.defaultClass k = .notice ∨ k = .permitLost) := by
      simp only [List.any_eq_true, Bool.and_eq_true, gate, neverGating_iff, mem_kinds, true_and]
    rw [hframe, hpolicy, hgate]
    simp only [or_assoc]
    rfl

end Sys2Proof.Machine
end

section
/-! SUPPORT. The schedules of the output unit reckoned anew, the load of an image block by block, and the resets. -/

namespace Sys2Proof.Machine

/-! ### Schedules reckoned anew (R173 to R175, R179) -/

theorem secU_dvd_scaleU : secU ∣ scaleU := ⟨281474976710656, Nat.mul_comm _ _⟩

theorem FrameLen.span_dvd_scaleU (lf : FrameLen) : lf.ns * nsU ∣ scaleU := by
  cases lf with
  | ms1 => exact ⟨1000 * 281474976710656, by decide⟩
  | ms5 => exact ⟨200 * 281474976710656, by decide⟩
  | ms10 => exact ⟨100 * 281474976710656, by decide⟩

theorem FrameLen.span_pos (lf : FrameLen) : 0 < lf.ns * nsU := by cases lf <;> decide

theorem FrameLen.span_lt (lf : FrameLen) : lf.ns * nsU < scaleU := by cases lf <;> decide

theorem ppsAfter_first (offset : Int) (v : Nat) : FirstAfter secU (offset * nsU) v (ppsAfter offset v) :=
  nextAfter_first (by decide) secU_dvd_scaleU (by decide)

theorem frameAfter_first (lf : FrameLen) (offset v : Nat) :
    FirstAfter (lf.ns * nsU) ((offset : Int) * nsU) v (frameAfter lf offset v) :=
  nextAfter_first lf.span_pos lf.span_dvd_scaleU lf.span_lt

theorem frameNumber_eq (lf : FrameLen) (offset b : Nat) :
    (frameNumber lf offset b : Int) = ((b : Int) - (offset : Int) * nsU) % scaleU / (lf.ns * nsU : Nat) % 1024 :=
  Int.toNat_of_nonneg (Int.emod_nonneg _ (by decide))

theorem foutRising_iff (h t : Nat) : foutRising h t = true ↔ t / (h * nsU) % 2 = 0 := beq_iff_eq

section
variable {g : PpsGen} {f : FrameGen} {o : FoutGen} {lf : FrameLen} {h v : Nat}

theorem PpsGen.reckoned (hg : g.next = some (ppsAfter g.offset v)) : g.ReckonedAfter v := ⟨_, hg, ppsAfter_first _ _⟩

theorem FrameGen.reckoned (hf : f.next = some (frameAfter lf f.offset v))
    (hnumber : f.number = frameNumber lf f.offset (frameAfter lf f.offset v)) : f.ReckonedAfter lf v :=
  ⟨_, hf, frameAfter_first _ _ _, hnumber ▸ frameNumber_eq _ _ _⟩

theorem FoutGen.reckoned (hh : 0 < h) (ho : o.next = some (foutAfter h v)) (hrising : o.rising = foutRising h (foutAfter h v)) :
    o.ReckonedAfter h v := ⟨_, ho, foutAfter_first _ hh, hrising ▸ foutRising_iff _ _⟩

end

section
variable {o : Outputs}

theorem Outputs.reschedule_pps (p : Params) (v : Nat) (h : o.pps.next ≠ none) : (o.reschedule p v).pps.ReckonedAfter v := by
  obtain ⟨m, hm⟩ := Option.ne_none_iff_exists'.mp h
  refine PpsGen.reckoned ?_
  simp only [Outputs.reschedule, hm, Option.map_some]

theorem Outputs.reschedule_frame (p : Params) (v : Nat) (h : o.frame.next ≠ none) :
    (o.reschedule p v).frame.ReckonedAfter p.frameLen v := by
  obtain ⟨m, hm⟩ := Option.ne_none_iff_exists'.mp h
  refine FrameGen.reckoned ?_ ?_ <;> simp only [Outputs.reschedule, hm, Option.map_some, Option.isSome_some, if_true]

theorem Outputs.reschedule_fout0 {p : Params} (hp : 0 < p.h0) (v : Nat) (h : o.fout0.next ≠ none) :
    (o.reschedule p v).fout0.ReckonedAfter p.h0 v := by
  obtain ⟨m, hm⟩ := Option.ne_none_iff_exists'.mp h
  refine FoutGen.reckoned hp ?_ ?_ <;> simp only [Outputs.reschedule, hm, Option.map_some, Option.isSome_some, if_true]

theorem Outputs.reschedule_fout1 {p : Params} (hp : 0 < p.h1) (v : Nat) (h : o.fout1.next ≠ none) :
    (o.reschedule p v).fout1.ReckonedAfter p.h1 v := by
  obtain ⟨m, hm⟩ := Option.ne_none_iff_exists'.mp h
  refine FoutGen.reckoned hp ?_ ?_ <;> simp only [Outputs.reschedule, hm, Option.map_some, Option.isSome_some, if_true]

end

/-! ### The load of an image (R209) -/

section
variable {s : State}

/-- Where TXOK is deasserted and the hold-off not begun, the permit's withdrawal does nothing. -/
theorem State.withdraw_of_low (ht : s.ou.txok = false) (hh : s.ou.holdoff = 0) : s.withdraw = s := by
  rw [State.withdraw, State.setTxok, if_pos ht, ← hh]

theorem State.gatingReport_of_low (ht : s.ou.txok = false) (hh : s.ou.holdoff = 0) (before : Bool) :
    s.gatingReport before = s := by
  rw [State.gatingReport, State.withdraw_of_low ht hh, ite_self]

/-- A judgement that comes while there is no permit: the condition and its record alone. -/
theorem State.judge_of_low (ht : s.ou.txok = false) (hh : s.ou.holdoff = 0) (k : Kind) (v : Bool) :
    s.judge k v = if s.conds.get k = v then s else State.reportRecord { s with conds := s.conds.set k v } k v := by
  rw [State.judge, State.report,
    State.gatingReport_of_low (s := State.reportRecord { s with conds := s.conds.set k v } k v) ht hh]

/-- The part as a load with GOOD or ADJUSTED has handed its values, LINE_ERRORS not yet judged. -/
def State.loadedWith (s : State) (image : List Byte) : State :=
  { s with
    mp := { s.mp with
      image := image, params := imageParams image, status := if imageAdjusted image then .adjusted else .good }
    tb := { s.tb with interval := (imageParams image).interval }
    ri := if (imageParams image).receiver then .activate s.tb.counter.value else s.ri
    ou := .started (imageParams image) s.du.pub.state s.tb.counter.value
    au := s.au.load (imageParams image) s.now }

theorem State.loadGood_eq (s : State) (image : List Byte) : s.loadGood image =
    if s.conds.lineErrors = decide ((imageParams image).tErr ≤ s.lc.discards) then s.loadedWith image
    else State.reportRecord { s.loadedWith image with
      conds := { s.conds with lineErrors := decide ((imageParams image).tErr ≤ s.lc.discards) } }
      .lineErrors (decide ((imageParams image).tErr ≤ s.lc.discards)) := by
  have hreport := State.gatingReport_of_low (s := s.loadedWith image) rfl rfl s.au.gating
  have hjudge := State.judge_of_low (s := s.loadedWith image) rfl rfl .lineErrors
    (decide ((imageParams image).tErr ≤ s.lc.discards))
  exact (congrArg State.judgeErrors hreport).trans hjudge

/-- The load's judgement of LINE_ERRORS touches the alarm unit and the condition alone. -/
theorem State.loadGood_blocks (s : State) (image : List Byte) : s.loadGood image = { s.loadedWith image with
    au := (s.loadGood image).au
    conds := { s.conds with lineErrors := decide ((imageParams image).tErr ≤ s.lc.discards) } } := by
  rw [State.loadGood_eq]
  split
  next h =>
    rw [← h]
    rfl
  next => rfl

theorem State.loadGood_pins (s : State) (image : List Byte) : PinsExact (s.loadGood image) := by
  rw [State.loadGood_eq]
  split
  · exact Alarms.refresh_exact _ _ _ rfl rfl
  · exact State.onRecord_exact _ _ _

/-- What the load leaves of a record: its class and timer, and the report of LINE_ERRORS where it changes. -/
theorem State.loadGood_record (s : State) (image : List Byte) (k : Kind) :
    (s.loadGood image).au.records.get k =
      if k = .lineErrors ∧ decide ((imageParams image).tErr ≤ s.lc.discards) ≠ s.conds.lineErrors then
        ((s.au.records.get k).load ((imageParams image).classes.get k) s.now).taking ((imageParams image).classes.get k) s.now
          [decide ((imageParams image).tErr ≤ s.lc.discards)]
      else (s.au.records.get k).load ((imageParams image).classes.get k) s.now := by
  have hloaded : (s.loadedWith image).au.records.get k = (s.au.records.get k).load ((imageParams image).classes.get k) s.now :=
    PerKind.get_ofFn _ k
  rw [State.loadGood_eq]
  split
  next h => rw [hloaded, if_neg fun hc => hc.2 h.symm]
  next h =>
    by_cases hk : k = .lineErrors
    · subst hk
      rw [if_pos ⟨rfl, Ne.symm h⟩, ← hloaded, State.reportRecord, State.onRecord_get]
      generalize decide ((imageParams image).tErr ≤ s.lc.discards) = v
      cases v <;> rfl
    · rw [if_neg fun hc => hk hc.1, ← hloaded]
      exact State.onRecord_other _ hk _

/-- An image is unusable exactly where its CRC or its address is (R209). -/
theorem imageFaulty_iff {image : List Byte} (h : image.length = 84) : imageFaulty image = true ↔
    crc32 (image.take 80) ≠ ofBE (image.drop 80) ∨ (image.getD 0 0).toNat = 0 ∨ 250 < (image.getD 0 0).toNat := by
  have hcrc : imageBytes image 80 4 = image.drop 80 := by
    rw [imageBytes_eq (by omega), List.take_of_length_le (by simp [h])]
  have hbody : imageBytes image 0 80 = image.take 80 := by
    rw [imageBytes_eq (by omega), List.drop_zero]
  have haddress : imageByte image 0 = image.getD 0 0 := by
    cases image with
    | nil => exact absurd h (by decide)
    | cons b bytes => rfl
  rw [imageFaulty, hcrc, hbody, haddress, Bool.or_eq_true, decide_eq_true_eq, Bool.not_eq_true', validAddress,
    decide_eq_false_iff_not]
  omega

end

/-- Settles O7: FAULT and its complement are the two branches of the load; with no permit yet, the judgement of LINE_ERRORS is its
report alone. -/
theorem imageLoadHandsValues : Obligations.ImageLoadHandsValues := by
  refine ⟨fun image s hs hn hlen hbad => ?fault, ?good⟩
  case fault =>
    refine (next_of_due rfl hs (by simp [hn])).trans ?_
    exact congrArg Host.Outcome.next (if_pos ((imageFaulty_iff hlen).mpr hbad))
  case good =>
    intro image s hs hn hlen hcrc hlo hhi p start
    have hfaulty : ¬imageFaulty image = true := by
      rw [imageFaulty_iff hlen]
      omega
    refine ⟨s.loadGood image, (next_of_due rfl hs (by simp [hn])).trans (congrArg Host.Outcome.next (if_neg hfaulty)), ?_⟩
    have hh0 : 0 < p.h0 := by
      rw [show p.h0 = _ from imageNat_of_field 4 500000000 rfl (by omega)]
      omega
    have hh1 : 0 < p.h1 := by
      rw [show p.h1 = _ from imageNat_of_field 4 500000000 rfl (by omega)]
      omega
    have hstart (o : Policy) : startSquelch s.du.pub.state o = start o := by cases o <;> rfl
    have hpins := s.loadGood_pins image
    have hrecord := s.loadGood_record image
    rw [s.loadGood_blocks image] at hpins hrecord ⊢
    refine ⟨rfl, rfl, rfl, rfl, rfl, rfl, hs, rfl, rfl, rfl, rfl, rfl, rfl, rfl, rfl, rfl, rfl,
      Outputs.reschedule_pps _ _ (Option.some_ne_none _),
      Outputs.reschedule_frame _ _ (Option.some_ne_none _), Outputs.reschedule_fout0 hh0 _ (Option.some_ne_none _),
      Outputs.reschedule_fout1 hh1 _ (Option.some_ne_none _), ?_, hpins, fun k => ?_⟩
    · simp only [← hstart]
      rfl
    · rw [hrecord, AlarmRecord.load_eq]
      rfl

/-! ### Resets (R211, R166) -/

theorem getD_default {l : List Byte} {i : Nat} (h : i < l.length) (a b : Byte) : l.getD i a = l.getD i b := by
  rw [List.getD_eq_getElem _ _ h, List.getD_eq_getElem _ _ h]

theorem getD_take {l : List Byte} {i n : Nat} (h : i < n) (b : Byte) : (l.take n).getD i b = l.getD i b := by
  rw [List.getD_eq_getElem?_getD, List.getElem?_take_of_lt h, ← List.getD_eq_getElem?_getD]

theorem Memory.bytes_getD (m : Memory) (a : Nat) {i n : Nat} (h : i < n) (b : Byte) : (m.bytes a n).getD i b = m.read (a + i) := by
  rw [List.getD_eq_getElem _ _ (by rwa [Memory.bytes_length])]
  simp [Memory.bytes]

section
variable {h : History} {r : HistRecord} {retry : Bool} {c : Fin 4} {n : Nat}

theorem History.slotBytes_getD (h : History) (c : Fin 4) (k : Nat) {i : Nat} (hi : i < 32) :
    (h.slotBytes c k).getD i 0 = h.area.read (slotBase c k + i) := Memory.bytes_getD _ _ hi _

theorem History.cutShort_idle (hop : h.op = .idle) (left : List Byte) : h.cutShort left = h.area := by
  rw [History.cutShort, hop]

/-- A program cut short leaves every byte outside its slot. -/
theorem History.cutShort_program {k : Fin 32} (hwf : h.area.wf = true) (hop : h.op = .program r retry c k n) (left : List Byte)
    (a : Nat) : (h.cutShort left).read a = if slotBase c k.val ≤ a ∧ a < slotBase c k.val + 32
      then (programCut (h.slotBytes c k.val) r left).getD (a - slotBase c k.val) erased else h.area.read a := by
  have hlen : (programCut (h.slotBytes c k.val) r left).length = 32 := (programCut_cases (h.slotBytes_length _ _) r left).1
  rw [History.cutShort, hop, Memory.read_writeBytes hwf (by rw [hlen]; exact slotBase_le c k), hlen]

theorem History.cutShort_slot {k : Fin 32} (hwf : h.area.wf = true) (hop : h.op = .program r retry c k n) (left : List Byte)
    {i : Nat} (hi : i < 32) :
    (h.cutShort left).read (slotBase c k.val + i) = (programCut (h.slotBytes c k.val) r left).getD i 0 := by
  have hlen : (programCut (h.slotBytes c k.val) r left).length = 32 := (programCut_cases (h.slotBytes_length _ _) r left).1
  rw [History.cutShort_program hwf hop, if_pos (by omega), Nat.add_sub_cancel_left]
  exact getD_default (by rw [hlen]; exact hi) _ _

theorem erasedCells_getD {old : List Byte} {i : Nat} (hi : i < old.length) (left : List Byte) (missing : Byte → Byte) (b : Byte) :
    (erasedCells old left missing).getD i b = old.getD i b ||| left.getD i (missing (old.getD i b)) := by
  rw [List.getD_eq_getElem _ _ (by simpa using hi), List.getD_eq_getElem _ _ hi]
  exact List.getElem_mapIdx ..

/-- An erase cut short leaves every byte outside its sector, and sets bits only. -/
theorem History.cutShort_erase (hwf : h.area.wf = true) (hop : h.op = .erase r retry c n) (left : List Byte) (a : Nat) :
    (h.cutShort left).read a = if slotBase c 0 ≤ a ∧ a < slotBase c 0 + 1024
      then h.area.read a ||| left.getD (a - slotBase c 0) (h.area.read a) else h.area.read a := by
  have hold : (h.area.bytes (slotBase c 0) 1024).length = 1024 := Memory.bytes_length _ _ _
  have hcells : (erasedCells (h.area.bytes (slotBase c 0) 1024) left id).length = 1024 := by rw [erasedCells_length, hold]
  have hfits := sectorBase_le c
  rw [History.cutShort, hop]
  dsimp only
  rw [Memory.read_writeBytes hwf (by rw [hcells]; exact hfits), hcells]
  split
  next ha =>
    have hi : a - slotBase c 0 < 1024 := by omega
    have hread : (h.area.bytes (slotBase c 0) 1024).getD (a - slotBase c 0) erased = h.area.read a := by
      rw [Memory.bytes_getD _ _ hi, Nat.add_sub_cancel' ha.1]
    rw [erasedCells_getD (by rw [hold]; exact hi), hread, id]
  next => rfl

end

/-- Settles O6: each reset is one of the two shared operations; what it leaves of the record area is the operation in flight cut
short. -/
theorem resetsStartAfresh : Obligations.ResetsStartAfresh := by
  unfold Obligations.ResetsStartAfresh
  intro begun stopped
  refine ⟨fun s hp => ?powerOn, fun left s hh => ⟨?rises, ?heldPulse⟩, fun left s hs hwf => ?running⟩
  case powerOn =>
    have hlast : (⟨false, s.held.pin⟩ : HeldBy) = .nothing := congrArg (HeldBy.mk false) hp
    refine congrArg Host.Outcome.next ?_
    show s.releaseReset .powerOn ⟨false, s.held.pin⟩ = _
    rw [hlast, State.releaseReset_last]
    rfl
  case rises => exact congrArg Host.Outcome.next (State.pinRises_last hh)
  case heldPulse =>
    have hn : s.held ≠ .nothing := by rw [hh]; decide
    refine congrArg Host.Outcome.next ?_
    dsimp only
    rw [State.pinFalls, State.assertReset_held hn, hh]
    exact State.pinRises_last (s := { s with held := ⟨false, true⟩ }) rfl
  case running =>
    refine ⟨s.hs.cutShort left, congrArg Host.Outcome.next (State.pulse_running hs left), ?_, ?_,
      fun hop => History.cutShort_idle hop left, fun r retry c k n hop a => ⟨fun ha => ?_, ?_⟩,
      fun r retry c k n hop => ⟨fun i hi => ?_, fun hmarker i hi => ?_⟩, fun r retry c n hop a => ⟨fun ha => ?_, ?_⟩⟩
    · refine congrArg Host.Outcome.next ?_
      dsimp only
      rw [State.pinFalls, State.assertReset_running hs, hs]
      rfl
    · refine congrArg Host.Outcome.next ?_
      rw [State.assertReset_running hs, hs]
      rfl
    · rw [History.cutShort_program hwf hop, if_neg (by omega)]
    · obtain ⟨-, hcell, -⟩ := programCut_cases (s.hs.slotBytes_length c k.val) r left
      by_cases ha : slotBase c k.val ≤ a ∧ a < slotBase c k.val + 32
      · obtain ⟨i, rfl⟩ := Nat.exists_eq_add_of_le ha.1
        have hi : i < 32 := by omega
        rw [History.cutShort_slot hwf hop left hi, ← History.slotBytes_getD _ _ _ hi]
        exact (hcell i hi).1
      · rw [History.cutShort_program hwf hop, if_neg ha, BitVec.and_self]
    · obtain ⟨-, hcell, -⟩ := programCut_cases (s.hs.slotBytes_length c k.val) r left
      rw [History.cutShort_slot hwf hop left hi, ← History.slotBytes_getD _ _ _ hi]
      exact (hcell i hi).2
    · obtain ⟨hlen, -, hfields⟩ := programCut_cases (s.hs.slotBytes_length c k.val) r left
      rw [History.cutShort_slot hwf hop left (by decide), ← History.slotBytes_getD _ _ _ (by decide)] at hmarker
      have htake := hfields hmarker
      rw [History.cutShort_slot hwf hop left (by omega), ← getD_take hi, htake, ← r.slot_take, getD_take hi]
    · rw [History.cutShort_erase hwf hop, if_neg (by omega)]
    · rw [History.cutShort_erase hwf hop]
      split
      · rw [BitVec.or_comm, ← BitVec.or_assoc, BitVec.or_self]
      · exact BitVec.or_self

end Sys2Proof.Machine
end

section
/-! SUPPORT. Host commands that change state: lockout and release, the acknowledges, and RESTART. -/

namespace Sys2Proof.Machine

section
variable {s t : State} {ks : List Kind}

/-- An answer put in preparation stands apart from the alarm side. -/
theorem OnlyAlarms.answer (h : OnlyAlarms ks s t) (code : Byte) (r : Reply) :
    OnlyAlarms ks (s.answer code r) (t.answer code r) := by
  obtain ⟨⟨hheld, htb, hlc, hpt, hri, hdu, hhs, hmp, hchoices, hpending⟩, houtputs, hconds, hrecords⟩ := h
  have hport : (t.answer code r).mp = (s.answer code r).mp :=
    congrArg (fun m : Port => { m with buffer := .preparing (r.frame code) }) hmp
  exact ⟨⟨hheld, htb, hlc, hpt, hri, hdu, hhs, hport, hchoices, hpending⟩, houtputs, hconds, hrecords⟩

/-! ### Lockout and release (R84, R85) -/

theorem PeerTable.slotOf_none_iff (p : PeerTable) (addr : Nat) :
    p.slotOf addr = none ↔ ∀ i e, p.at i = some e → e.addr ≠ addr := by
  refine ⟨fun h i e he => PeerTable.slotOf_none h he, fun h => ?_⟩
  cases hs : p.slotOf addr with
  | none => rfl
  | some i =>
    obtain ⟨-, e, he, ha⟩ := PeerTable.slotOf_some hs
    exact absurd ha (h i e he)

theorem PeerTable.bears_iff (p : PeerTable) (addr : Nat) {j : Nat} (hj : j < p.slots.length) :
    (p.slots[j].any fun e => e.addr == addr) = true ↔ ∃ e, p.at j = some e ∧ e.addr = addr := by
  have hat : p.at j = p.slots[j] := List.getD_eq_getElem _ _ hj
  rw [Option.any_eq_true, hat]
  simp only [beq_iff_eq]

theorem PeerTable.slotOf_some_iff (p : PeerTable) (addr i : Nat) : p.slotOf addr = some i ↔
    (∃ e, p.at i = some e ∧ e.addr = addr) ∧ ∀ j e, j < i → p.at j = some e → e.addr ≠ addr := by
  rw [PeerTable.slotOf, List.findIdx?_eq_some_iff_getElem]
  constructor
  · rintro ⟨hi, hbears, hbefore⟩
    refine ⟨(p.bears_iff addr hi).mp hbears, fun j e hj he ha => ?_⟩
    exact absurd ((p.bears_iff addr (PeerTable.at_lt he)).mpr ⟨e, he, ha⟩) (by simpa using hbefore j hj)
  · rintro ⟨⟨e, he, ha⟩, hbefore⟩
    refine ⟨PeerTable.at_lt he, (p.bears_iff addr _).mpr ⟨e, he, ha⟩, fun j hj hb => ?_⟩
    obtain ⟨e', he', ha'⟩ := (p.bears_iff addr _).mp hb
    exact hbefore j e' hj he' ha'

section
variable {addr i : Nat} {e : Entry}

theorem validAddress_iff (n : Nat) : validAddress n = true ↔ 1 ≤ n ∧ n ≤ 250 := decide_eq_true_iff

theorem State.lockoutPeer_of_bad (h : addr = 0 ∨ 250 < addr ∨ addr = s.mp.params.address) :
    s.lockoutPeer addr = (s, .badArgument) := by
  refine if_neg ?_
  rw [validAddress_iff]
  omega

/-- The address is one LOCKOUT_PEER takes (R84). -/
def State.Foreign (s : State) (addr : Nat) : Prop := 1 ≤ addr ∧ addr ≤ 250 ∧ addr ≠ s.mp.params.address

theorem State.lockoutPeer_of_foreign (h : s.Foreign addr) : s.lockoutPeer addr =
    match s.lockout addr with
    | some s1 => (s1, .ok [])
    | none => (s, .refused) := by
  obtain ⟨hlo, hhi, hown⟩ := h
  exact if_pos ⟨(validAddress_iff addr).mpr ⟨hlo, hhi⟩, hown⟩

theorem State.lockoutPeer_known (h : s.Foreign addr) (hslot : s.pt.slotOf addr = some i) (he : s.pt.at i = some e) :
    s.lockoutPeer addr = (if e.state = .lockedOut then s else s.putSlot i (some (e.cleared .lockedOut)), .ok []) := by
  simp only [State.lockoutPeer_of_foreign h, State.lockout, hslot, State.entryAt_eq, he]

theorem State.lockoutPeer_new (h : s.Foreign addr) (hslot : s.pt.slotOf addr = none)
    (hfree : s.pt.slots.findIdx? Option.isNone = some i) :
    s.lockoutPeer addr = (s.putSlot i (some (.fresh addr .lockedOut .free 0 ⟨0, 0⟩)), .ok []) := by
  simp only [State.lockoutPeer_of_foreign h, State.lockout, hslot, hfree]

theorem State.lockoutPeer_full (h : s.Foreign addr) (hslot : s.pt.slotOf addr = none)
    (hfree : s.pt.slots.findIdx? Option.isNone = none) : s.lockoutPeer addr = (s, .refused) := by
  simp only [State.lockoutPeer_of_foreign h, State.lockout, hslot, hfree]

theorem State.releasePeer_of_bad (h : addr = 0 ∨ 250 < addr) : s.releasePeer addr = (s, .badArgument) := by
  refine if_neg ?_
  rw [validAddress_iff]
  omega

theorem State.releasePeer_unknown (hlo : 1 ≤ addr) (hhi : addr ≤ 250) (hslot : s.pt.slotOf addr = none) :
    s.releasePeer addr = (s, .notFound) := by
  simp only [State.releasePeer, (validAddress_iff addr).mpr ⟨hlo, hhi⟩, if_true, hslot]

theorem State.releasePeer_known (hlo : 1 ≤ addr) (hhi : addr ≤ 250) (hslot : s.pt.slotOf addr = some i)
    (he : s.pt.at i = some e) :
    s.releasePeer addr = if e.state = .lockedOut then (s.setSlot i (some e.released), .ok []) else (s, .refused) := by
  simp only [State.releasePeer, (validAddress_iff addr).mpr ⟨hlo, hhi⟩, if_true, hslot, State.entryAt_eq, he]

end

/-- Settles O20: both commands are carried out, and each answer is one equation of their work. -/
theorem lockoutAndRelease : Obligations.LockoutAndRelease := by
  refine ⟨fun p addr => ⟨p.slotOf_none_iff addr, p.slotOf_some_iff addr⟩, fun s a hs hloaded _ => ?_⟩
  have lock : exec (.lockoutPeer false [a]) s = .next (((s.sentNothing 2).lockoutPeer a.toNat).1.answer 5
      ((s.sentNothing 2).lockoutPeer a.toNat).2) :=
    State.command_carried_out (code := 5) (len := 1) (args := [a]) hs hloaded rfl fun u => u.lockoutPeer a.toNat
  have release : exec (.releasePeer false [a]) s = .next (((s.sentNothing 2).releasePeer a.toNat).1.answer 6
      ((s.sentNothing 2).releasePeer a.toNat).2) :=
    State.command_carried_out (code := 6) (len := 1) (args := [a]) hs hloaded rfl fun u => u.releasePeer a.toNat
  refine ⟨fun hbad => ?_, fun i e hlo hhi hown hslot he => ⟨_, lock, ?_⟩, fun i hlo hhi hown hslot hfree => ⟨_, lock, ?_⟩,
    fun hlo hhi hown hslot hfree => ?_, fun hbad => ?_, fun hlo hhi hslot => ?_, fun i e hlo hhi hslot he => ?_⟩
  · rw [lock, State.lockoutPeer_of_bad (s := s.sentNothing 2) hbad]
    rfl
  · rw [State.lockoutPeer_known (s := s.sentNothing 2) ⟨hlo, hhi, hown⟩ hslot he]
    split
    · exact .refl _ _
    · exact ((s.sentNothing 2).putSlot_only i (some (e.cleared .lockedOut))).answer 5 (.ok [])
  · rw [State.lockoutPeer_new (s := s.sentNothing 2) ⟨hlo, hhi, hown⟩ hslot hfree]
    exact ((s.sentNothing 2).putSlot_only i (some (.fresh a.toNat .lockedOut .free 0 ⟨0, 0⟩))).answer 5 (.ok [])
  · rw [lock, State.lockoutPeer_full (s := s.sentNothing 2) ⟨hlo, hhi, hown⟩ hslot hfree]
    rfl
  · rw [release, State.releasePeer_of_bad hbad]
    rfl
  · rw [release, State.releasePeer_unknown (s := s.sentNothing 2) hlo hhi hslot]
    rfl
  · rw [release, State.releasePeer_known (s := s.sentNothing 2) hlo hhi hslot he]
    split <;> rfl

/-! ### Acknowledges (R198, R199) -/

theorem kindOfCode_kindCode (k : Kind) : kindOfCode (BitVec.ofNat 8 (kindCode k)).toNat = some k := by cases k <;> rfl

theorem kindOfCode_none {n : Nat} (h : 15 ≤ n) : kindOfCode n = none := List.getElem?_eq_none h

theorem kinds_nodup : kinds.Nodup := by decide

theorem State.ackOne_self (s : State) (k : Kind) :
    (s.ackOne k).au.records.get k = (s.au.records.get k).ack (s.mp.params.classes.get k) s.now := State.onRecord_get ..

theorem State.ackOne_other (s : State) {k j : Kind} (h : j ≠ k) : (s.ackOne k).au.records.get j = s.au.records.get j :=
  State.onRecord_other _ h _

/-- Acknowledges act on the alarm unit alone. -/
theorem State.ackKinds_rest (ks : List Kind) (s : State) : s.ackKinds ks = { s with au := (s.ackKinds ks).au } := by
  induction ks generalizing s with
  | nil => rfl
  | cons k ks ih =>
    rw [State.ackKinds, ih (s.ackOne k)]
    rfl

theorem State.ackKinds_get (ks : List Kind) (hks : ks.Nodup) (s : State) (k : Kind) :
    (s.ackKinds ks).au.records.get k =
      if k ∈ ks then (s.au.records.get k).ack (s.mp.params.classes.get k) s.now else s.au.records.get k := by
  induction ks generalizing s with
  | nil => rfl
  | cons j ks ih =>
    obtain ⟨hj, hks⟩ := List.nodup_cons.mp hks
    rw [State.ackKinds, ih hks (s.ackOne j)]
    by_cases hk : k = j
    · subst hk
      rw [if_neg hj, if_pos List.mem_cons_self, State.ackOne_self]
    · rw [State.ackOne_other s hk]
      exact if_congr (by simp [hk]) rfl rfl

theorem State.ackEvery_get (s : State) (k : Kind) :
    s.ackEvery.1.au.records.get k = (s.au.records.get k).ack (s.mp.params.classes.get k) s.now := by
  rw [State.ackEvery, State.ackKinds_get kinds kinds_nodup, if_pos (mem_kinds k)]

/-- An acknowledge changes the state of exactly the records that call (R198). -/
theorem AlarmRecord.ack_state_ne_iff (r : AlarmRecord) (cls : Class) (now : SecNs) :
    (r.ack cls now).state ≠ r.state ↔ r.state = .active ∨ r.state = .clearedUnacked := by
  cases h : r.state with
  | clear | acked => rw [AlarmRecord.ack_of_settled (by simp [h])]; simp [h]
  | active =>
    rw [AlarmRecord.ack_of_active h]
    cases cls <;> simp
  | clearedUnacked =>
    rw [AlarmRecord.ack_of_clearedUnacked h]
    simp

theorem State.ackEvery_reply (s : State) : s.ackEvery.2 = .ok [BitVec.ofNat 8 (kinds.filter fun k =>
    (s.au.records.get k).state = .active ∨ (s.au.records.get k).state = .clearedUnacked).length] := by
  have hget (k : Kind) := s.ackEvery_get k
  rw [State.ackEvery] at hget ⊢
  simp only [hget, AlarmRecord.ack_state_ne_iff]

/-- What a command that acts on the alarm unit alone leaves of the rest and of the port. -/
theorem State.answer_of_alarms {u : State} {n : Nat} (hu : u = { s.sentNothing n with au := u.au }) (code : Byte) (r : Reply) :
    u.answer code r = { s with au := (u.answer code r).au, mp := (u.answer code r).mp } ∧
      (u.answer code r).mp = { s.mp with buffer := (u.answer code r).mp.buffer, spiOut := List.replicate n 0xFF } := by
  generalize u.au = a at hu
  subst hu
  exact ⟨rfl, rfl⟩

theorem Reply.ok_frame (data : List Byte) (code : Byte) :
    (Reply.ok data).frame code = [1, code, BitVec.ofNat 8 data.length] ++ data := rfl

/-- Settles O22: the work of each acknowledge, with the answer it gives. -/
theorem acknowledgeActsOnRecords : Obligations.AcknowledgeActsOnRecords := by
  intro s hs hloaded
  have ack (code : Byte) : exec (.ackAlarm false [code]) s = .next (((s.sentNothing 2).ackAlarm code.toNat).1.answer 4
      ((s.sentNothing 2).ackAlarm code.toNat).2) :=
    State.command_carried_out (code := 4) (len := 1) (args := [code]) hs hloaded rfl fun u => u.ackAlarm code.toNat
  have all : exec (.ackAll false) s = .next ((s.sentNothing 2).ackEvery.1.answer 4 (s.sentNothing 2).ackEvery.2) :=
    State.command_carried_out (code := 4) (len := 1) (args := [0xFF]) hs hloaded rfl State.ackEvery
  have named : exec (.ackAlarm false [0xFF]) s = .next ((s.sentNothing 2).ackEvery.1.answer 4 (s.sentNothing 2).ackEvery.2) := by
    have hwork : (s.sentNothing 2).ackAlarm (0xFF : Byte).toNat = (s.sentNothing 2).ackEvery := if_pos rfl
    rw [ack, hwork]
  refine ⟨fun k => ⟨_, ack _, ?_⟩, ⟨_, named, all, ?_⟩, fun code hcode hall => ?_⟩
  · have hne : (BitVec.ofNat 8 (kindCode k)).toNat ≠ 0xFF := by cases k <;> decide
    have hwork : (s.sentNothing 2).ackAlarm (BitVec.ofNat 8 (kindCode k)).toNat =
        ((s.sentNothing 2).ackOne k, .ok (((s.sentNothing 2).ackOne k).alarmRecordBytes k)) := by
      simp only [State.ackAlarm, if_neg hne, kindOfCode_kindCode]
    rw [hwork]
    obtain ⟨hrest, hport⟩ := State.answer_of_alarms (s := s) (u := (s.sentNothing 2).ackOne k) rfl 4
      (.ok (((s.sentNothing 2).ackOne k).alarmRecordBytes k))
    exact ⟨hrest, hport, State.ackOne_self _ k, fun j hj => State.ackOne_other _ hj,
      congrArg Buffer.preparing (Reply.ok_frame _ _)⟩
  · have hrest : (s.sentNothing 2).ackEvery.1 = { s.sentNothing 2 with au := (s.sentNothing 2).ackEvery.1.au } :=
      State.ackKinds_rest kinds _
    obtain ⟨hstate, hport⟩ := State.answer_of_alarms hrest 4 (s.sentNothing 2).ackEvery.2
    refine ⟨hstate, hport, fun k => (s.sentNothing 2).ackEvery_get k, ?_⟩
    rw [State.ackEvery_reply]
    exact congrArg Buffer.preparing (Reply.ok_frame _ _)
  · have hwork : (s.sentNothing 2).ackAlarm code.toNat = (s.sentNothing 2, .badArgument) := by
      have hne : code.toNat ≠ 0xFF := fun h => hall (BitVec.eq_of_toNat_eq h)
      simp only [State.ackAlarm, if_neg hne, kindOfCode_none hcode]
    rw [ack, hwork]
    rfl

/-! ### The squelches follow the policies, and the permit withdrawn (R180 to R185) -/

theorem Squelch.evaluate_follows (mayRun inProgress : Bool) (q : Squelch) :
    (mayRun = true → q.evaluate mayRun inProgress = .running ∨ q.evaluate mayRun inProgress = .resuming) ∧
      (mayRun = false → q.evaluate mayRun inProgress = .stopping ∨ q.evaluate mayRun inProgress = .squelched) := by
  cases mayRun with
  | true => exact ⟨fun _ => by cases q <;> cases inProgress <;> decide, nofun⟩
  | false => exact ⟨nofun, fun _ => by cases q <;> cases inProgress <;> decide⟩

theorem State.evalSquelch_follows (s : State) : s.evalSquelch.GatesFollowPolicy := by
  intro g hg
  have hrun : s.evalSquelch.mayRun = s.mayRun := by
    funext o
    cases o <;> rfl
  rw [hrun]
  simp only [State.gates, List.mem_cons, List.not_mem_nil, or_false] at hg
  obtain rfl | rfl | rfl | rfl | rfl := hg <;> exact Squelch.evaluate_follows _ _ _

theorem State.GatesFollowPolicy.congr (h : s.GatesFollowPolicy) (hgates : t.gates = s.gates) (hrun : t.mayRun = s.mayRun) :
    t.GatesFollowPolicy := by
  rw [State.GatesFollowPolicy, hgates, hrun]
  exact h

theorem State.GatesFollowPolicy.judgePermitLost (h : s.GatesFollowPolicy) : s.judgePermitLost.GatesFollowPolicy := by
  unfold State.judgePermitLost
  dsimp only
  split
  · exact h
  · exact h.congr rfl (by funext o; cases o <;> rfl)

theorem State.GatesFollowPolicy.setTxok (h : s.GatesFollowPolicy) (v : Bool) : (s.setTxok v).GatesFollowPolicy := by
  unfold State.setTxok
  split
  · exact h
  · exact (State.evalSquelch_follows _).judgePermitLost

theorem State.GatesFollowPolicy.withdraw (h : s.GatesFollowPolicy) : s.withdraw.GatesFollowPolicy := by
  have begun : State.GatesFollowPolicy { s with ou := { s.ou with holdoff := 0 } } :=
    h.congr rfl (by funext o; cases o <;> rfl)
  exact begun.setTxok false

theorem State.published_withdraw_follows (s : State) : (s.published State.withdraw).GatesFollowPolicy :=
  (State.GatesFollowPolicy.withdraw s.evalSquelch_follows).judgePermitLost

theorem State.setTxok_holdoff (s : State) (v : Bool) : (s.setTxok v).ou.holdoff = s.ou.holdoff := by
  unfold State.setTxok
  split
  · rfl
  · rw [State.judgePermitLost_ou]
    rfl

theorem State.withdraw_holdoff (s : State) : s.withdraw.ou.holdoff = 0 := State.setTxok_holdoff _ _

theorem State.published_withdraw_ou (s : State) : (s.published State.withdraw).ou = s.evalSquelch.withdraw.ou :=
  State.judgePermitLost_ou _

/-- PERMIT_LOST as judged: TXOK deasserted outside FREE (R185). -/
theorem State.judgePermitLost_conds (s : State) :
    s.judgePermitLost.conds.permitLost = (!s.ou.txok && decide (s.du.pub.state ≠ .free)) := by
  unfold State.judgePermitLost
  dsimp only
  split
  next h => exact h
  next => rfl

/-! ### RESTART (R212) -/

/-- The part as RESTART has begun its blocks, with the peer table and the output unit still to follow. -/
def State.restarted (s : State) : State :=
  { s with
    mp := { s.mp with restarts := satAdd 255 s.mp.restarts 1 }
    lc := s.lc.restart
    du := s.du.restart
    ri := if s.ri.active then s.ri.reopen else s.ri }

theorem State.restart_eq (h : s.du.unpublished = none) :
    s.restart = (s.restarted.restartPeers.judge .holdBudget false).published State.withdraw := by
  rw [State.restart, State.publish_none h]
  rfl

theorem State.restart_publish {p : Published} (h : s.du.unpublished = some p) : s.restart = (s.withPublished p).restart := by
  have hnone : (s.withPublished p).du.unpublished = none := by
    rw [(s.withPublished_only p).blocks.du]
  rw [State.restart, State.publish_some h, State.restart, State.publish_none hnone]

/-- The peer table RESTART empties: no entry, and no refusal in the last 16 boundaries (R88). -/
theorem State.restartPeers_pt (s : State) :
    s.restartPeers.pt = { s.pt with slots := s.pt.slots.map fun _ => none, refusalAge := 16 } := by
  rw [State.restartPeers, State.judge_pt, (State.judgePeers_only _).blocks.pt]

theorem State.restartPeers_only (s : State) : OnlyAlarms [.tableFull, .peerLink, .peerSuspect]
    { s with pt := { s.pt with slots := s.pt.slots.map fun _ => none, refusalAge := 16 } } s.restartPeers :=
  ((State.judgePeers_only _).mono (by simp)).trans ((State.judge_only _ .tableFull false).mono (by simp))

/-- No condition of the peer table is present once it is empty (R88). -/
theorem State.restartPeers_conds (s : State) : s.restartPeers.conds.peerLink = false ∧
    s.restartPeers.conds.peerSuspect = false ∧ s.restartPeers.conds.tableFull = false := by
  have hempty (i : Nat) : s.restartPeers.pt.at i = none := by
    rw [State.restartPeers_pt, PeerTable.at, List.getD_eq_getElem?_getD, List.getElem?_map]
    cases s.pt.slots[i]? <;> rfl
  have judged : PeersJudged s.restartPeers := by
    have emptied := State.judgePeers_judged { s with pt := { s.pt with slots := s.pt.slots.map fun _ => none, refusalAge := 16 } }
    refine emptied.congr ?_ ?_ (by rw [State.restartPeers, State.judge_mp]) (by rw [State.restartPeers, State.judge_pt])
    · exact (State.judge_only _ .tableFull false).conds .peerLink (by decide) (by decide)
    · exact (State.judge_only _ .tableFull false).conds .peerSuspect (by decide) (by decide)
  obtain ⟨hlink, hsuspect⟩ := judged
  refine ⟨hlink.trans ?_, hsuspect.trans ?_, State.judge_conds (k := .tableFull) _ false (by decide)⟩
  · rw [Bool.eq_false_iff, Ne, State.linkPoor_iff]
    rintro ⟨i, e, he, -⟩
    exact Option.some_ne_none e (he.symm.trans (hempty i))
  · rw [Bool.eq_false_iff, Ne, State.anySuspect_iff]
    rintro ⟨i, e, he, -⟩
    exact Option.some_ne_none e (he.symm.trans (hempty i))

/-- Settles O19: the status held back is published first; then each block begins as `State.restarted` says, the table empties, and
the output unit publishes FREE without a permit. -/
theorem restartStartsMeasurementAfresh : Obligations.RestartStartsMeasurementAfresh := by
  have run (s : State) (hs : s.held = .nothing) (hloaded : s.mp.status = .good ∨ s.mp.status = .adjusted) :
      exec (.restart false []) s = .next ((s.sentNothing 1).restart.answer 10 (.ok [])) :=
    State.command_carried_out (code := 10) (len := 0) (args := []) hs hloaded rfl fun u => (u.restart, .ok [])
  refine ⟨fun s p hs hloaded hp => ⟨?_, (s.withPublished_reports p).only⟩, fun s hs hloaded hp => ?_⟩
  · have blocks := (s.withPublished_only p).blocks
    rw [run s hs hloaded, run (s.withPublished p) (blocks.held.trans hs) (by rw [blocks.mp]; exact hloaded),
      State.restart_publish (s := s.sentNothing 1) hp, State.withPublished_sentNothing]
  · refine ⟨_, run s hs hloaded, ?_⟩
    rw [State.restart_eq (s := s.sentNothing 1) hp]
    generalize hbegun : (s.sentNothing 1).restarted = b
    have hpeers := b.restartPeers_frame
    have hbudget : Frame [] [.holdBudget] b.restartPeers (b.restartPeers.judge .holdBudget false) := Frame.judge rfl
    have hpub := State.published_withdraw_frame (b.restartPeers.judge .holdBudget false)
    have hall : Frame [.pt] [.peerLink, .peerSuspect, .tableFull, .holdBudget] b
        ((b.restartPeers.judge .holdBudget false).published State.withdraw) :=
      (hpeers.mono rfl).trans ((hbudget.mono rfl).trans (hpub.mono rfl))
    have honly : OnlyAlarms [.tableFull, .peerLink, .peerSuspect, .holdBudget]
        { b with pt := { b.pt with slots := b.pt.slots.map fun _ => none, refusalAge := 16 } }
        ((b.restartPeers.judge .holdBudget false).published State.withdraw) :=
      (b.restartPeers_only.mono (by simp)).trans (((State.judge_only _ .holdBudget false).mono (by simp)).trans
        ((State.published_only _ State.withdraw_only).mono (by simp)))
    have hpt := b.restartPeers_pt
    obtain ⟨hlink, hsuspect, hfull⟩ := b.restartPeers_conds
    have conds {k : Kind} (hk : k ≠ .permitLost) :
        ((b.restartPeers.judge .holdBudget false).published State.withdraw).conds.get k =
          if k = .holdBudget then false else b.restartPeers.conds.get k :=
      (hpub.conds k rfl hk).trans (State.judge_get _ false (by decide) hk)
    have hlost : ((b.restartPeers.judge .holdBudget false).published State.withdraw).conds.permitLost = false := by
      have hfree : ((b.restartPeers.judge .holdBudget false).evalSquelch.withdraw).du.pub.state = .free := by
        rw [(State.withdraw_only _).blocks.du]
        show (b.restartPeers.judge .holdBudget false).du.pub.state = _
        rw [State.judge_du, hpeers.du rfl, ← hbegun]
        rfl
      rw [State.published, State.judgePermitLost_conds, hfree]
      simp
    refine ⟨?mp, (hall.tb rfl).trans ?_, (hall.hs rfl).trans ?_, (hall.du rfl).trans ?_, ?pt, (hall.ri rfl).trans ?_,
      (hall.lc rfl).trans ?lc, ?ou, ?txok, ?holdoff, ?gates, ⟨conds (k := .tableFull) (by decide) |>.trans hfull,
      conds (k := .peerLink) (by decide) |>.trans hlink, conds (k := .peerSuspect) (by decide) |>.trans hsuspect,
      conds (k := .holdBudget) (by decide), hlost⟩, fun k h1 h2 h3 h4 h5 => ?others⟩
    case mp =>
      refine (congrArg (fun m : Port => { m with buffer := .preparing (Reply.frame (.ok []) 10) }) (hall.mp rfl)).trans ?_
      rw [← hbegun]
      rfl
    case pt =>
      refine (hpub.pt rfl).trans ((State.judge_pt _ _ _).trans (hpt.trans ?_))
      rw [← hbegun]
      rfl
    case lc =>
      rw [← hbegun]
      show s.lc.restart = _
      cases s.lc with
      | mk access => cases access <;> rfl
    case ou =>
      have hou : b.ou = s.ou := by rw [← hbegun]; rfl
      rw [← hou]
      exact hall.ou rfl
    case txok => exact (congrArg Outputs.txok (State.published_withdraw_ou _)).trans (State.withdraw_txok _)
    case holdoff => exact (congrArg Outputs.holdoff (State.published_withdraw_ou _)).trans (State.withdraw_holdoff _)
    case gates => exact (State.published_withdraw_follows _).congr rfl (by funext o; cases o <;> rfl)
    case others =>
      have hau : b.au = s.au := by rw [← hbegun]; rfl
      have hconds : b.conds = s.conds := by rw [← hbegun]; rfl
      rw [← hau, ← hconds]
      exact ⟨honly.conds k (by simp [h1, h2, h3, h4]) h5, honly.records k (by simp [h1, h2, h3, h4]) h5⟩
    all_goals
      rw [← hbegun]
      rfl

end

end Sys2Proof.Machine
end

section
/-! SUPPORT. The time base: a tick with all it counts, a step with all it reckons anew, and an epoch. -/

namespace Sys2Proof.Machine

section
variable {s : State}

/-! ### A tick (R2, R5 to R7) -/

/-- The part as a tick leaves it, every status published. -/
def State.ticked (s : State) : State :=
  { s with
    tb := s.tb.tick
    lc := s.lc.tick s.tb.tick.counter.value
    ri := s.ri.tick
    hs := { s.hs with op := s.hs.op.tick }
    ou := s.ou.tick
    au := s.au.tick s.mp.params }

theorem exec_tick (hs : s.held = .nothing) : exec .tick s = .next s.publish.ticked := next_of_running rfl hs

/-- Settles O9: the time base alone, by the laws of the counter and of the boundaries crossed. -/
theorem tickAdvancesAndMarks : Obligations.TickAdvancesAndMarks := by
  intro s hs hcounter _ hinc
  have htb : s.publish.ticked.tb = s.tb.tick := congrArg TimeBase.tick s.publish_tb
  obtain ⟨hrange, hvalue⟩ := Counter.tick_spec hcounter hinc
  have hsec := Counter.tick_sec (inc := s.tb.increment) hcounter
  have hcarry := Counter.carries_iff (inc := s.tb.increment) hcounter
  obtain ⟨hcross, hquiet⟩ := crossed_spec s.tb.interval s.tb.counter.value s.tb.increment hinc
  refine ⟨_, exec_tick hs, ?_⟩
  rw [htb]
  refine ⟨hrange, hvalue, rfl, ?_, fun n hlo hhi => ?_, fun h => ?_⟩
  · simp only [TimeBase.tick]
    split
    next hc =>
      rw [hcarry.mpr hc] at hsec ⊢
      exact ⟨hsec, rfl, if_congr (by simp) rfl rfl⟩
    next hc =>
      have hno : s.tb.counter.carries s.tb.increment = false := Bool.eq_false_iff.mpr (mt hcarry.mp hc)
      rw [hno] at hsec ⊢
      exact ⟨hsec, rfl, rfl⟩
  · simp only [TimeBase.tick, hcross n hlo hhi, Option.toList_some]
  · simp only [TimeBase.tick, hquiet h, Option.toList_none, List.append_nil]

/-- The escalation timer at a tick (R200). -/
theorem AlarmRecord.tick_timer (r : AlarmRecord) (cls : Class) (e : Nat) : (r.tick cls e).timer =
    if cls = .standing ∧ r.state = .active ∧ r.effective = .standing then min (e * 7500000000) (r.timer + 1) else r.timer := by
  simp only [AlarmRecord.tick, AlarmRecord.timing, decide_eq_true_eq]
  split <;> rfl

/-- Settles O10: what a tick does to each block, once every status is published. -/
theorem tickCountsElapsedTime : Obligations.TickCountsElapsedTime := by
  refine ⟨fun s p hp hs => ?_, fun s hs hp => ⟨s.ticked, by rw [exec_tick hs, State.publish_none hp], ?_⟩⟩
  · have blocks := (s.withPublished_only p).blocks
    have hnone : (s.withPublished p).du.unpublished = none := by rw [blocks.du]
    rw [exec_tick hs, exec_tick (blocks.held.trans hs), State.publish_some hp, State.publish_none hnone]
  · refine ⟨?_, ?_, rfl, fun h => ?_, fun r retry c k n h => ?_, fun r retry c n h => ?_, rfl, fun k => ?_, rfl, rfl, rfl, rfl,
      rfl, rfl, rfl⟩
    · simp only [State.ticked, Line.tick, Bool.or_eq_true, gapTicks, stuckTicks]
      rfl
    · simp only [State.ticked, RefInput.tick, List.isEmpty_iff]
    · exact congrArg Operation.tick h
    · exact congrArg Operation.tick h
    · exact congrArg Operation.tick h
    · have hget : s.ticked.au.records.get k =
          (s.au.records.get k).tick (s.mp.params.classes.get k) s.mp.params.escalation := PerKind.get_ofFn _ k
      rw [hget, AlarmRecord.tick_eq, AlarmRecord.tick_timer]

/-! ### A step (R11 to R14) -/

section
variable {o : Outputs} {p : Params} {v : Nat}

/-- A generator without a next edge stays without (R189). -/
theorem Outputs.reschedule_pps_none (h : o.pps.next = none) : (o.reschedule p v).pps = o.pps := by
  simp only [Outputs.reschedule, h, Option.map_none]
  rw [← h]

theorem Outputs.reschedule_frame_none (h : o.frame.next = none) : (o.reschedule p v).frame = o.frame := by
  simp only [Outputs.reschedule, h, Option.map_none, Option.isSome_none, Bool.false_eq_true, if_false]
  rw [← h]

theorem Outputs.reschedule_fout0_none (h : o.fout0.next = none) : (o.reschedule p v).fout0 = o.fout0 := by
  simp only [Outputs.reschedule, h, Option.map_none, Option.isSome_none, Bool.false_eq_true, if_false]
  rw [← h]

theorem Outputs.reschedule_fout1_none (h : o.fout1.next = none) : (o.reschedule p v).fout1 = o.fout1 := by
  simp only [Outputs.reschedule, h, Option.map_none, Option.isSome_none, Bool.false_eq_true, if_false]
  rw [← h]

end

/-- Settles O12: the step's counter by `Counter.step_spec`; each generator is reckoned anew or stays without a next edge. -/
theorem stepMovesCounterAndNotifies : Obligations.StepMovesCounterAndNotifies := by
  intro s x rest hs horders hcounter hh0 hh1
  obtain ⟨hrange, hvalue⟩ := Counter.step_spec s.tb.counter x
  refine ⟨State.applyStep { s with tb := { s.tb with orders := rest } } x,
    (next_of_running rfl hs).trans (by simp only [horders]), hrange, hvalue, rfl, ⟨rfl, rfl⟩, rfl, rfl, ?pps, ?frame,
    ?fout0, ?fout1, rfl, rfl, rfl, rfl, rfl, rfl⟩
  case pps =>
    split
    next h => exact Outputs.reschedule_pps_none h
    next h => exact Outputs.reschedule_pps _ _ h
  case frame =>
    split
    next h => exact Outputs.reschedule_frame_none h
    next h => exact Outputs.reschedule_frame _ _ h
  case fout0 =>
    split
    next h => exact Outputs.reschedule_fout0_none h
    next h => exact Outputs.reschedule_fout0 hh0 _ h
  case fout1 =>
    split
    next h => exact Outputs.reschedule_fout1_none h
    next h => exact Outputs.reschedule_fout1 hh1 _ h

end

end Sys2Proof.Machine
end

section
/-! SUPPORT. The timing outputs: edges driven when their time has come, and pulses that end. -/

namespace Sys2Proof.Machine

/-! ### The place of an edge in its tick (R172; log 27) -/

theorem TimeBase.edgePos_eq {b : TimeBase} {e : Nat} {d : Int} (hlo : -(scaleU / 2 : Nat) ≤ d) (hhi : d < (scaleU / 2 : Nat))
    (h : ((e : Int) - ((b.counter.value : Int) - b.lastInc) - d) % scaleU = 0) :
    b.edgePos e = (clampInt 0 127 (128 * d / b.lastInc)).toNat := by
  have hmod : (d - ((e : Int) - b.valueBefore)) % scaleU = 0 :=
    Int.emod_eq_zero_of_dvd ((dvd_sub_comm).mp (Int.dvd_of_emod_eq_zero h))
  rw [TimeBase.edgePos, wrapSigned_eq hmod hlo hhi]

theorem clampInt_of_le {lo hi v : Int} (h : v ≤ lo) : clampInt lo hi v = lo := by
  rw [clampInt]
  omega

/-! ### Edges (R173 to R175, R181, R182) -/

/-- A pulse width in ticks, for a width of nanoseconds (R173). -/
theorem widthTicks_eq (ns : Nat) : widthTicks ns = (ns + 4) / 8 := by
  rw [widthTicks, roundDiv_of_nonneg 8 (Int.natCast_nonneg ns)]
  omega

theorem drivePulse_eq (release : Bool) (q : Squelch) (old : Option Pulse) (new : Pulse) : drivePulse release q old new =
    (if q = .resuming ∧ release = true then .running else q,
      if q = .running ∨ q = .resuming ∧ release = true then some new else old) := by
  cases q <;> cases release <;> rfl

section
variable {s : State}

theorem State.edgeDue_iff (s : State) (e : Nat) : s.edgeDue (some e) = true ↔ Past s.tb.counter.value e := decide_eq_true_iff

/-- A PPS pulse time that has come is driven (R173, R181, R182). -/
def State.ppsDriven (s : State) : State :=
  match s.ou.pps.next with
  | some t => if s.edgeDue (some t) then s.drivePps t else s
  | none => s

theorem State.ppsDriven_due {e : Nat} (h : s.ou.pps.next = some e) (hdue : Past s.tb.counter.value e) :
    s.ppsDriven = s.drivePps e := by
  simp only [State.ppsDriven, h, (s.edgeDue_iff e).mpr hdue, if_true]

theorem State.ppsDriven_early (h : ∀ e : Nat, s.ou.pps.next = some e → ¬Past s.tb.counter.value e) : s.ppsDriven = s := by
  unfold State.ppsDriven
  split
  next e he => exact if_neg (mt (s.edgeDue_iff e).mp (h e he))
  next => rfl

theorem State.drivePps_eq (s : State) (e : Nat) : s.drivePps e = { s with ou := { s.ou with pps := { s.ou.pps with
    next := some ((e + secU) % scaleU)
    squelch := if s.ou.pps.squelch = .resuming then .running else s.ou.pps.squelch
    pulse := if s.ou.pps.squelch = .running ∨ s.ou.pps.squelch = .resuming then
        some ⟨(s.mp.params.ppsWidth + 4) / 8, s.tb.edgePos e⟩
      else s.ou.pps.pulse } } } := by
  rw [State.drivePps, drivePulse_eq, widthTicks_eq]
  simp only [and_true]

/-- The frame generator with a boundary at `e` driven: pulses and squelches (R174, R181, R182). -/
def FrameGen.driven (g : FrameGen) (p : Pulse) : FrameGen :=
  { g with
    squelch := if g.squelch = .resuming ∧ g.number = 0 then .running else g.squelch
    pulse := if g.squelch = .running ∨ g.squelch = .resuming ∧ g.number = 0 then some p else g.pulse
    squelch0 := if g.squelch0 = .resuming ∧ g.number = 0 then .running else g.squelch0
    pulse0 := if g.number = 0 ∧ (g.squelch0 = .running ∨ g.squelch0 = .resuming) then some p else g.pulse0 }

theorem FrameGen.driven_eq (g : FrameGen) (p : Pulse) :
    let d := drivePulse (decide (g.number = 0)) g.squelch g.pulse p
    let d0 := if g.number = 0 then drivePulse true g.squelch0 g.pulse0 p else (g.squelch0, g.pulse0)
    { g with squelch := d.1, pulse := d.2, squelch0 := d0.1, pulse0 := d0.2 } = g.driven p := by
  simp only [drivePulse_eq, decide_eq_true_eq, and_true]
  by_cases h : g.number = 0 <;> simp [FrameGen.driven, h]

theorem State.driveFrame_plain (e : Nat) (h : s.ou.frameShadow = none ∨ s.ou.frame.number ≠ 0) :
    s.driveFrame e = { s with ou := { s.ou with
      frame := { s.ou.frame.driven ⟨(s.mp.params.frameWidth + 4) / 8, s.tb.edgePos e⟩ with
        next := some ((e + s.mp.params.frameLen.ns * nsU) % scaleU), number := (s.ou.frame.number + 1) % 1024 } } } := by
  have hshadow : (if s.ou.frame.number = 0 then s.ou.frameShadow else none) = none := by
    obtain h | h := h
    · rw [h, ite_self]
    · rw [if_neg h]
  rw [State.driveFrame]
  simp only [hshadow, ← FrameGen.driven_eq, widthTicks_eq]

theorem State.driveFrame_shadow (e : Nat) {v : Int} (hshadow : s.ou.frameShadow = some v) (h : s.ou.frame.number = 0) :
    s.driveFrame e = { s with ou := { s.ou with
      frameShadow := none
      frame := { s.ou.frame.driven ⟨(s.mp.params.frameWidth + 4) / 8, s.tb.edgePos e⟩ with
        offset := v.toNat
        next := some (frameAfter s.mp.params.frameLen v.toNat e)
        number := frameNumber s.mp.params.frameLen v.toNat (frameAfter s.mp.params.frameLen v.toNat e) } } } := by
  rw [State.driveFrame]
  simp only [hshadow, h, if_true, ← FrameGen.driven_eq, widthTicks_eq]

theorem Outputs.fout_setFout (o : Outputs) (pin : FoutPin) (g : FoutGen) : (o.setFout pin g).fout pin = g := by
  cases pin <;> rfl

/-- The edge drives the level of a frequency output (R181, R182). -/
abbrev FoutGen.Drives (g : FoutGen) : Prop :=
  g.squelch = .running ∨ g.squelch = .stopping ∧ g.rising = false ∨ g.squelch = .resuming ∧ g.rising = true

theorem FoutGen.edge_eq (g : FoutGen) (h t pos : Nat) : g.edge h t pos =
    { next := some (if scaleU ≤ t + h * nsU then 0 else t + h * nsU)
      rising := foutRising h (if scaleU ≤ t + h * nsU then 0 else t + h * nsU)
      level := if g.Drives then g.rising else g.level
      pos := if g.Drives then pos else g.pos
      squelch := if g.squelch = .resuming ∧ g.rising = true then .running
        else if g.squelch = .stopping ∧ g.rising = false then .squelched else g.squelch } := by
  obtain ⟨next, rising, level, place, squelch⟩ := g
  cases squelch <;> cases rising <;> rfl

theorem fallPulse_out (q : Squelch) {p : Pulse} (h : p.left = 0) :
    fallPulse q (some p) = (if q = .stopping then .squelched else q, none) := if_pos h

theorem fallPulse_stands (q : Squelch) {p : Option Pulse} (h : ∀ x, p = some x → 0 < x.left) : fallPulse q p = (q, p) := by
  cases p with
  | none => rfl
  | some x => exact if_neg (Nat.pos_iff_ne_zero.mp (h x rfl))

end

/-- Settles O58: the place of an edge, then each event at its time. -/
theorem edgesDrivenWhenDue : Obligations.EdgesDrivenWhenDue := by
  refine ⟨fun b e d hinc hlo hhi h => ?place, fun s hs => ⟨fun e he hdue => ?pps, fun e he hdue => ?frame,
    fun pin e he hdue => ?fout, fun p hp hleft => ?endPps, fun p hp hleft => ?endFrame, fun p hp hleft => ?endFrame0,
    fun pin h => ?early⟩⟩
  case place =>
    rw [TimeBase.edgePos_eq hlo hhi h]
    have hpos : (0 : Int) < b.lastInc := by omega
    refine ⟨fun hd => ?_, fun hd hin => ?_, fun hd => ?_⟩
    · rw [clampInt_of_le (Int.ediv_nonpos_of_nonpos_of_neg (by omega) hpos)]
      rfl
    · have hn : 0 ≤ 128 * d / b.lastInc := Int.ediv_nonneg (by omega) hpos.le
      rw [clampInt]
      omega
    · have hn : 128 ≤ 128 * d / b.lastInc := (Int.le_ediv_iff_mul_le hpos).mpr (by omega)
      rw [clampInt]
      omega
  case pps =>
    refine (next_of_running rfl hs).trans (congrArg Host.Outcome.next ?_)
    exact (State.ppsDriven_due he hdue).trans (s.drivePps_eq e)
  case frame =>
    have run : exec .frameBoundary s = .next (s.driveFrame e) := by
      refine (next_of_running rfl hs).trans (congrArg Host.Outcome.next ?_)
      simp only [he, (s.edgeDue_iff e).mpr hdue, if_true]
    intro g p driven
    refine ⟨fun h => ?_, fun v hv hzero => ⟨_, run, ?_⟩⟩
    · rw [run, State.driveFrame_plain e h]
      rfl
    · rw [State.driveFrame_shadow e hv hzero]
      exact ⟨rfl, rfl, FrameGen.reckoned rfl rfl⟩
  case fout =>
    intro g n drives
    have run : exec (.foutEdge pin) s = .next { s with
        ou := s.ou.setFout pin (g.edge (s.mp.params.half pin) e (s.tb.edgePos e)) } := by
      refine (next_of_running rfl hs).trans (congrArg Host.Outcome.next ?_)
      simp only [he, (s.edgeDue_iff e).mpr hdue, if_true, g]
    refine ⟨_, run, ?_⟩
    rw [Outputs.fout_setFout, FoutGen.edge_eq]
    exact ⟨rfl, rfl, foutRising_iff _ _, fun h => ⟨if_pos h, if_pos h⟩, fun h => ⟨if_neg h, if_neg h⟩, rfl⟩
  case endPps =>
    refine (next_of_running rfl hs).trans (congrArg Host.Outcome.next ?_)
    simp only [hp, fallPulse_out _ hleft]
  case endFrame =>
    refine (next_of_running rfl hs).trans (congrArg Host.Outcome.next ?_)
    simp only [hp, fallPulse_out _ hleft]
  case endFrame0 =>
    refine (next_of_running rfl hs).trans (congrArg Host.Outcome.next ?_)
    simp only [hp, fallPulse_out _ hleft]
  case early =>
    refine (next_of_running rfl hs).trans (congrArg Host.Outcome.next ?_)
    have stands (q : Squelch) {p : Option Pulse} (hp : p = none ∨ ∃ x, p = some x ∧ 0 < x.left) : fallPulse q p = (q, p) := by
      refine fallPulse_stands q fun x hx => ?_
      obtain hn | ⟨y, hy, hleft⟩ := hp
      · exact absurd (hn.symm.trans hx) (Option.some_ne_none x).symm
      · rwa [← Option.some.inj (hy.symm.trans hx)]
    have low {p : Option Pulse} (hp : p.isSome = false) : p = none := by simpa using hp
    cases pin with
    | pps =>
      have hp : s.ou.pps.pulse = none ∨ ∃ x, s.ou.pps.pulse = some x ∧ 0 < x.left :=
        h.imp low fun ⟨x, hleft, hx⟩ => ⟨x, by simpa using hx, hleft⟩
      simp only [stands _ hp]
    | frame =>
      have hp : s.ou.frame.pulse = none ∨ ∃ x, s.ou.frame.pulse = some x ∧ 0 < x.left :=
        h.imp low fun ⟨x, hleft, hx⟩ => ⟨x, by simpa using hx, hleft⟩
      simp only [stands _ hp]
    | frame0 =>
      have hp : s.ou.frame.pulse0 = none ∨ ∃ x, s.ou.frame.pulse0 = some x ∧ 0 < x.left :=
        h.imp low fun ⟨x, hleft, hx⟩ => ⟨x, by simpa using hx, hleft⟩
      simp only [stands _ hp]

end Sys2Proof.Machine
end

section
/-! SUPPORT. The output unit at a publication: the permit, the five squelches, and the status lines. -/

namespace Sys2Proof.Machine

section
variable {s t : State}

/-! ### The squelches evaluated (R180, R181) -/

/-- One output evaluated: its policy and what is in progress stand. -/
def evaluateGate (mayRun : Policy → Bool) (g : Policy × Squelch × Bool) : Policy × Squelch × Bool :=
  (g.1, g.2.1.evaluate (mayRun g.1) g.2.2, g.2.2)

theorem State.evalSquelch_gates (s : State) : s.evalSquelch.gates = s.gates.map (evaluateGate s.mayRun) := rfl

theorem State.judgePermitLost_gates (s : State) : s.judgePermitLost.gates = s.gates := by
  rw [State.gates, State.judgePermitLost_ou, (State.judgePermitLost_only s).blocks.mp]
  rfl

theorem State.judgePermitLost_mayRun (s : State) : s.judgePermitLost.mayRun = s.mayRun := by
  have blocks := (State.judgePermitLost_only s).blocks
  funext o
  cases o <;> simp only [State.mayRun, State.loaded, State.judgePermitLost_ou, blocks.mp, blocks.du]

theorem State.mayRun_congr (hstatus : t.mp.status = s.mp.status) (hpub : t.du.pub = s.du.pub) (htxok : t.ou.txok = s.ou.txok) :
    t.mayRun = s.mayRun := by
  funext o
  cases o <;> simp only [State.mayRun, State.loaded, hstatus, hpub, htxok]

theorem State.mayRun_of_ne_permit (hstatus : t.mp.status = s.mp.status) (hpub : t.du.pub = s.du.pub) {o : Policy}
    (ho : o ≠ .permit) : t.mayRun o = s.mayRun o := by
  cases o with
  | permit => exact absurd rfl ho
  | always => simp only [State.mayRun, State.loaded, hstatus]
  | notFree => simp only [State.mayRun, State.loaded, hstatus, hpub]

/-- TXOK set to a level: either it stood so, or every output is evaluated anew (R184). -/
theorem State.setTxok_gates (s : State) (v : Bool) :
    (s.setTxok v).ou.txok = s.ou.txok ∧ (s.setTxok v).gates = s.gates ∨
    (s.setTxok v).ou.txok ≠ s.ou.txok ∧ (s.setTxok v).gates = s.gates.map (evaluateGate (s.setTxok v).mayRun) := by
  by_cases h : s.ou.txok = v
  · rw [State.setTxok, if_pos h]
    exact .inl ⟨rfl, rfl⟩
  · refine .inr ⟨by rw [State.setTxok_txok]; exact Ne.symm h, ?_⟩
    rw [State.setTxok, if_neg h, State.judgePermitLost_gates, State.judgePermitLost_mayRun, State.evalSquelch_gates]
    rfl

theorem State.judgePermit_gates (s : State) :
    s.judgePermit.ou.txok = s.ou.txok ∧ s.judgePermit.gates = s.gates ∨
    s.judgePermit.ou.txok ≠ s.ou.txok ∧ s.judgePermit.gates = s.gates.map (evaluateGate s.judgePermit.mayRun) := by
  unfold State.judgePermit
  dsimp only
  split
  · split
    · exact State.setTxok_gates { s with ou := { s.ou with holdoff := min s.mp.params.hP (s.ou.holdoff + 1) } } true
    · exact .inl ⟨rfl, rfl⟩
  · exact State.setTxok_gates { s with ou := { s.ou with holdoff := 0 } } false

theorem Squelch.evaluate_twice (m p : Bool) (q : Squelch) : (q.evaluate m p).evaluate m p = q.evaluate m p := by
  cases m <;> cases p <;> cases q <;> rfl

/-- An output that stands as its policy has it is left by an evaluation as it is. -/
theorem Squelch.evaluate_of_follows {m : Bool} {q : Squelch} (p : Bool) (hrun : m = true → q = .running ∨ q = .resuming)
    (hstop : m = false → q = .stopping ∨ q = .squelched) : q.evaluate m p = q := by
  cases m with
  | true => obtain rfl | rfl := hrun rfl <;> rfl
  | false => obtain rfl | rfl := hstop rfl <;> rfl

theorem Squelch.evaluate_true (p : Bool) (q : Squelch) :
    q.evaluate true p = if q = .running ∨ q = .stopping then .running else .resuming := by cases q <;> rfl

theorem Squelch.evaluate_false (p : Bool) (q : Squelch) :
    q.evaluate false p = if q = .stopping ∨ q = .running ∧ p = true then .stopping else .squelched := by
  cases q <;> cases p <;> rfl

/-- A publication evaluates each output as its policy stands afterwards, once in effect: where TXOK changes, an output of policy
PERMIT that stood as the old level has it is moved by the second evaluation alone. -/
theorem State.published_gate {g g' : Policy × Squelch × Bool} (h : (g, g') ∈ s.gates.zip (s.published State.judgePermit).gates) :
    g'.1 = g.1 ∧ g'.2.2 = g.2.2 ∧
      ((g.1 = .permit → (s.published State.judgePermit).ou.txok ≠ s.ou.txok →
          (s.mayRun .permit = true → g.2.1 = .running ∨ g.2.1 = .resuming) ∧
          (s.mayRun .permit = false → g.2.1 = .stopping ∨ g.2.1 = .squelched)) →
        g'.2.1 = g.2.1.evaluate ((s.published State.judgePermit).mayRun g.1) g.2.2) := by
  have blocks := (State.published_only s State.judgePermit_only).blocks
  have hstatus : (s.published State.judgePermit).mp.status = s.mp.status := by rw [blocks.mp]
  have hpub : (s.published State.judgePermit).du.pub = s.du.pub := by rw [blocks.du]
  have hgates : (s.published State.judgePermit).gates = s.evalSquelch.judgePermit.gates := State.judgePermitLost_gates _
  have hrun : (s.published State.judgePermit).mayRun = s.evalSquelch.judgePermit.mayRun := State.judgePermitLost_mayRun _
  have htxok : (s.published State.judgePermit).ou.txok = s.evalSquelch.judgePermit.ou.txok :=
    congrArg Outputs.txok (State.judgePermitLost_ou _)
  obtain ⟨hsame, hstand⟩ | ⟨hmoved, hagain⟩ := s.evalSquelch.judgePermit_gates
  · rw [hgates, hstand, State.evalSquelch_gates, ← List.map_prod_left_eq_zip] at h
    obtain ⟨g₀, -, heq⟩ := List.mem_map.mp h
    obtain ⟨rfl, rfl⟩ := Prod.mk.inj heq
    refine ⟨rfl, rfl, fun _ => ?_⟩
    rw [State.mayRun_congr hstatus hpub (htxok.trans hsame)]
    rfl
  · rw [hgates, hagain, State.evalSquelch_gates, List.map_map, ← List.map_prod_left_eq_zip, ← hrun] at h
    obtain ⟨g₀, -, heq⟩ := List.mem_map.mp h
    obtain ⟨rfl, rfl⟩ := Prod.mk.inj heq
    refine ⟨rfl, rfl, fun hstood => ?_⟩
    show (g₀.2.1.evaluate (s.mayRun g₀.1) g₀.2.2).evaluate ((s.published State.judgePermit).mayRun g₀.1) g₀.2.2 = _
    by_cases hp : g₀.1 = .permit
    · obtain ⟨hon, hoff⟩ := hstood hp (by rw [htxok]; exact hmoved)
      rw [hp, Squelch.evaluate_of_follows (m := s.mayRun .permit) g₀.2.2 hon hoff]
    · rw [State.mayRun_of_ne_permit hstatus hpub hp, Squelch.evaluate_twice]

/-! ### The permit (R183, R185) -/

theorem State.GatesFollowPolicy.judgePermit (h : s.GatesFollowPolicy) : s.judgePermit.GatesFollowPolicy := by
  have counted : State.GatesFollowPolicy { s with ou := { s.ou with holdoff := min s.mp.params.hP (s.ou.holdoff + 1) } } :=
    h.congr rfl (State.mayRun_congr rfl rfl rfl)
  unfold State.judgePermit
  dsimp only
  split
  · split
    · exact counted.setTxok true
    · exact counted
  · exact h.withdraw

theorem State.published_judgePermit_follows (s : State) : (s.published State.judgePermit).GatesFollowPolicy :=
  (State.GatesFollowPolicy.judgePermit s.evalSquelch_follows).judgePermitLost

theorem State.judgePermit_of_permitted (h : s.permitCondition = true) :
    s.judgePermit.ou.holdoff = min s.mp.params.hP (s.ou.holdoff + 1) ∧
      (s.judgePermit.ou.txok = true ↔ s.ou.txok = true ∨ s.mp.params.hP ≤ s.ou.holdoff + 1) := by
  rw [State.judgePermit, if_pos h]
  dsimp only
  split
  next hn =>
    have hle : s.mp.params.hP ≤ s.ou.holdoff + 1 := by omega
    exact ⟨State.setTxok_holdoff _ _, by simp [hle]⟩
  next hn =>
    have hlt : ¬s.mp.params.hP ≤ s.ou.holdoff + 1 := by omega
    exact ⟨rfl, by simp [hlt]⟩

theorem State.judgePermit_of_not_permitted (h : ¬s.permitCondition = true) :
    s.judgePermit.ou.holdoff = 0 ∧ s.judgePermit.ou.txok = false := by
  rw [State.judgePermit, if_neg h]
  exact ⟨s.withdraw_holdoff, s.withdraw_txok⟩

/-! ### The status lines (R186 to R188) -/

theorem PeerTable.all_iff (p : PeerTable) (f : Entry → Bool) :
    (p.slots.all fun o => o.all f) = true ↔ ∀ i e, p.at i = some e → f e = true := by
  have hnot : (p.slots.all fun o => o.all f) = !(p.slots.any fun o => o.any fun e => !f e) := by
    rw [List.all_eq_not_any_not]
    congr 2
    funext o
    cases o <;> simp
  rw [hnot, Bool.not_eq_true', ← Bool.not_eq_true, p.any_iff]
  simp

/-- What a status-line source shows (R187). -/
def State.Shows (s : State) : Source → Prop
  | .stateTrack => s.du.pub.state = .track
  | .stateHold => s.du.pub.state = .hold ∨ s.du.pub.state = .lapsed
  | .txok => s.ou.txok = true
  | .attn => s.au.attn = true
  | .anyPeerUrgent => ∃ i e, s.pt.at i = some e ∧ (e.state = .valid ∨ e.state = .suspect) ∧ e.adv.urgent = true
  | .allPeersTraceable => (∃ i e, s.pt.at i = some e ∧ e.state = .valid) ∧
      ∀ i e, s.pt.at i = some e → e.state = .valid → e.adv.trac = .traceable
  | .twoContributors => 2 ≤ s.du.contributors
  | .refValid => s.ri.valid = true

theorem State.sourceTrue_iff (s : State) (src : Source) : s.sourceTrue src = true ↔ s.Shows src := by
  cases src with
  | stateTrack | stateHold | twoContributors => exact decide_eq_true_iff
  | txok | attn | refValid => exact Iff.rfl
  | anyPeerUrgent =>
    rw [State.sourceTrue, PeerTable.anyUrgent, PeerTable.any_iff]
    simp [State.Shows, Entry.judged]
  | allPeersTraceable =>
    rw [State.sourceTrue, PeerTable.allTraceable, Bool.and_eq_true, PeerTable.any_iff, PeerTable.all_iff]
    simp only [decide_eq_true_eq]
    exact Iff.rfl

theorem State.stat0_iff (s : State) : s.stat0 = true ↔
    s.held = .nothing ∧ (s.mp.status = .good ∨ s.mp.status = .adjusted) ∧ s.Shows s.mp.params.stat0 := by
  rw [State.stat0, Bool.and_eq_true, Bool.and_eq_true, decide_eq_true_eq, s.loaded_iff, s.sourceTrue_iff, and_assoc]

theorem State.stat1_iff (s : State) : s.stat1 = true ↔
    s.held = .nothing ∧ (s.mp.status = .good ∨ s.mp.status = .adjusted) ∧ s.Shows s.mp.params.stat1 := by
  rw [State.stat1, Bool.and_eq_true, Bool.and_eq_true, decide_eq_true_eq, s.loaded_iff, s.sourceTrue_iff, and_assoc]

/-- Settles O59: the publication evaluates the squelches, judges the permit, which may evaluate them once more, and judges
PERMIT_LOST. -/
theorem permitJudgedAtPublication : Obligations.PermitJudgedAtPublication := by
  intro s t loaded ok
  have hok : s.evalSquelch.permitCondition = true ↔ ok := by
    rw [State.permitCondition_iff, State.loaded_iff]
    exact Iff.rfl
  have hou : t.ou = s.evalSquelch.judgePermit.ou := State.judgePermitLost_ou _
  refine ⟨State.published_only s State.judgePermit_only, fun h => ?permitted, fun h => ?refused, ?lost, s.loaded_iff, ?notFree,
    ?permit, s.published_judgePermit_follows, fun g g' h => ?gate, ?lines⟩
  case permitted =>
    rw [hou]
    exact State.judgePermit_of_permitted (hok.mpr h)
  case refused =>
    rw [hou]
    exact State.judgePermit_of_not_permitted (mt hok.mp h)
  case lost =>
    have hjudged : t.conds.permitLost = _ := State.judgePermitLost_conds _
    rw [hjudged, hou, (State.judgePermit_only _).blocks.du, Bool.and_eq_true, Bool.not_eq_true', decide_eq_true_eq]
    exact Iff.rfl
  case notFree => simp [State.mayRun, State.loaded_iff, loaded]
  case permit => simp [State.mayRun, State.loaded_iff, loaded]
  case gate =>
    obtain ⟨hpolicy, hprogress, hsquelch⟩ := State.published_gate h
    refine ⟨hpolicy, hprogress, fun hstood => ⟨fun hm => ?_, fun hm => ?_⟩⟩
    · rw [hsquelch hstood, show State.mayRun _ g.1 = true from hm, Squelch.evaluate_true]
    · rw [hsquelch hstood, show State.mayRun _ g.1 = false from hm, Squelch.evaluate_false]
  case lines =>
    intro shows
    have hshows (src : Source) : s.Shows src ↔ shows src := by cases src <;> exact Iff.rfl
    exact ⟨by rw [s.stat0_iff, hshows], by rw [s.stat1_iff, hshows]⟩

end

end Sys2Proof.Machine
end

section
/-! SUPPORT. An epoch: the PPS shadow, the error window, and the snapshot; with the permit a report may withdraw. -/

namespace Sys2Proof.Machine

section
variable {s u : State}

/-! ### The permit-gating indication (R203, R184) -/

theorem PinsExact.gating_congr {t : State} (hs : PinsExact s) (ht : PinsExact t) (hparams : t.mp.params = s.mp.params)
    (h : ∀ k, s.mp.params.gatingSet.get k = true → t.au.records.get k = s.au.records.get k) : t.au.gating = s.au.gating := by
  rw [Bool.eq_iff_iff, ht.2.2.2, hs.2.2.2, hparams]
  exact exists_congr fun k => and_congr_right fun hk => by rw [h k hk]

theorem PinsExact.congr {t : State} (hs : PinsExact s) (hau : t.au = s.au) (hparams : t.mp.params = s.mp.params) : PinsExact t := by
  simp only [PinsExact, hau, hparams]
  exact hs

theorem PinsExact.judgePermitLost (hs : PinsExact s) : PinsExact s.judgePermitLost := by
  unfold State.judgePermitLost
  dsimp only
  split
  · exact hs
  · exact State.onRecord_exact _ _ _

theorem PinsExact.setTxok (hs : PinsExact s) (v : Bool) : PinsExact (s.setTxok v) := by
  unfold State.setTxok
  split
  · exact hs
  · have switched : PinsExact (State.evalSquelch { s with ou := { s.ou with txok := v } }) := hs.congr rfl rfl
    exact switched.judgePermitLost

theorem PinsExact.withdraw (hs : PinsExact s) : PinsExact s.withdraw := by
  have begun : PinsExact { s with ou := { s.ou with holdoff := 0 } } := hs.congr rfl rfl
  exact begun.setTxok false

/-- A withdrawal of the permit raises no permit-gating condition: PERMIT_LOST is none (R194). -/
theorem State.withdraw_gating (hs : PinsExact s) (hnever : s.mp.params.gatingSet.get .permitLost = false) :
    s.withdraw.au.gating = s.au.gating := by
  refine hs.gating_congr hs.withdraw (by rw [s.withdraw_only.blocks.mp]) fun k hk => ?_
  refine s.withdraw_only.records k (by simp) ?_
  rintro rfl
  rw [hnever] at hk
  exact Bool.false_ne_true hk

/-- The output unit after a judgement: untouched where the indication does not rise, without a permit where it does. -/
theorem State.judge_permit (s : State) (k : Kind) (v : Bool) (hnever : s.mp.params.gatingSet.get .permitLost = false) :
    (s.au.gating = true ∨ (s.judge k v).au.gating = false → (s.judge k v).ou = s.ou) ∧
      (s.au.gating = false → (s.judge k v).au.gating = true →
        (s.judge k v).ou.txok = false ∧ (s.judge k v).ou.holdoff = 0) := by
  unfold State.judge
  split
  · exact ⟨fun _ => rfl, fun hoff hon => absurd (hoff.symm.trans hon) Bool.false_ne_true⟩
  · unfold State.report
    generalize hr : State.reportRecord { s with conds := s.conds.set k v } k v = r
    have hpins : PinsExact r := hr ▸ State.onRecord_exact _ _ _
    have hparams : r.mp.params = s.mp.params := by rw [← hr]; rfl
    have hou : r.ou = s.ou := by rw [← hr]; rfl
    unfold State.gatingReport
    split
    next hrise =>
      obtain ⟨hoff, hon⟩ := (Bool.and_eq_true _ _).mp hrise
      have hoff : s.au.gating = false := by simpa using hoff
      rw [State.withdraw_gating hpins (by rw [hparams]; exact hnever), hon, hoff]
      exact ⟨by simp, fun _ _ => ⟨r.withdraw_txok, r.withdraw_holdoff⟩⟩
    next hquiet =>
      refine ⟨fun _ => hou, fun hoff hon => absurd ?_ hquiet⟩
      rw [Bool.and_eq_true, Bool.not_eq_true']
      exact ⟨hoff, hon⟩

/-! ### The PPS shadow at an epoch (R177) -/

/-- The next pulse time after an offset's change at the epoch of second `sec`. -/
def ppsFrom (offset : Int) (sec : Nat) : Nat := nextAfter secU (nsSpan offset) ((sec * secU + scaleU - 1) % scaleU)

/-- It is the first of the new series at or after the second crossed. -/
theorem ppsFrom_first (offset : Int) (sec : Nat) : ppsFrom offset sec < scaleU ∧
    ((ppsFrom offset sec : Int) - offset * nsU) % secU = 0 ∧
    ((ppsFrom offset sec : Int) - (sec * secU : Nat)) % scaleU < secU := by
  obtain ⟨hlt, hphase, hpos, hle⟩ : FirstAfter secU (offset * nsU) ((sec * secU + scaleU - 1) % scaleU) (ppsFrom offset sec) :=
    nextAfter_first (by decide) secU_dvd_scaleU (by decide)
  refine ⟨hlt, hphase, ?_⟩
  generalize ppsFrom offset sec = m at *
  generalize sec * secU = e at *
  simp only [scaleU, secU, nsU] at hpos hle ⊢
  omega

theorem State.ppsDriven_stands (s : State) : s.ppsDriven = { s with ou := { s.ou with pps := { s.ou.pps with
    next := s.ppsDriven.ou.pps.next, squelch := s.ppsDriven.ou.pps.squelch, pulse := s.ppsDriven.ou.pps.pulse } } } := by
  unfold State.ppsDriven
  split
  · split <;> rfl
  · rfl

theorem State.applyPpsShadow_none (sec : Nat) (h : s.ou.ppsShadow = none) : s.applyPpsShadow sec = s := by
  simp only [State.applyPpsShadow, h]

theorem State.applyPpsShadow_some (sec : Nat) {v : Int} (h : s.ou.ppsShadow = some v) :
    s.applyPpsShadow sec = { s with ou := { s.ou with ppsShadow := none, pps := { s.ou.pps with
      offset := v, next := some (ppsFrom v sec), squelch := s.ppsDriven.ou.pps.squelch
      pulse := s.ppsDriven.ou.pps.pulse } } } := by
  have happly : s.applyPpsShadow sec = { s.ppsDriven with ou := { s.ppsDriven.ou with
      ppsShadow := none, pps := { s.ppsDriven.ou.pps with offset := v, next := some (ppsFrom v sec) } } } := by
    simp only [State.applyPpsShadow, h]
    rfl
  rw [happly]
  conv_lhs => rw [s.ppsDriven_stands]

theorem State.ppsDriven_released {e : Nat} (hnext : s.ou.pps.next = some e) (hdue : Past s.tb.counter.value e)
    (h : s.ou.pps.squelch = .running ∨ s.ou.pps.squelch = .resuming) : s.ppsDriven.ou.pps.squelch = .running ∧
      s.ppsDriven.ou.pps.pulse = some ⟨(s.mp.params.ppsWidth + 4) / 8, s.tb.edgePos e⟩ := by
  rw [State.ppsDriven_due hnext hdue, State.drivePps_eq]
  refine ⟨?_, if_pos h⟩
  obtain h | h := h <;> simp [h]

theorem State.ppsDriven_quiet (h : (∀ e : Nat, s.ou.pps.next = some e → ¬Past s.tb.counter.value e) ∨
      s.ou.pps.squelch = .stopping ∨ s.ou.pps.squelch = .squelched) :
    s.ppsDriven.ou.pps.squelch = s.ou.pps.squelch ∧ s.ppsDriven.ou.pps.pulse = s.ou.pps.pulse := by
  by_cases hearly : ∀ e : Nat, s.ou.pps.next = some e → ¬Past s.tb.counter.value e
  · rw [State.ppsDriven_early hearly]
    exact ⟨rfl, rfl⟩
  · obtain ⟨e, he⟩ := not_forall.mp hearly
    obtain ⟨hnext, hdue⟩ := Classical.not_imp.mp he
    have hstopped := h.resolve_left hearly
    rw [State.ppsDriven_due hnext (not_not.mp hdue), State.drivePps_eq]
    obtain h | h := hstopped <;> simp [h]

/-! ### The epoch (R104, R34, R101) -/

theorem PeerTable.snapshot_estimates (t : PeerTable) (epoch a : Nat) : (t.snapshot epoch a).2 =
    t.slots.filterMap fun o => o.bind fun e => (e.snapshot epoch a).estimate a := by
  have hfun : ((fun o : Option Entry => o.bind fun e => e.estimate a) ∘ fun o : Option Entry => o.map fun e => e.snapshot epoch a) =
      fun o => o.bind fun e => (e.snapshot epoch a).estimate a := by
    funext o
    cases o <;> rfl
  rw [← hfun, ← List.filterMap_map]
  rfl

/-- The part at the epoch of second `sec` with the shadow applied and the error window moved on, LINE_ERRORS not yet judged. -/
def State.atEpoch (s : State) (sec : Nat) (rest : List Nat) : State :=
  { s with
    tb := { s.tb with epochs := rest }
    lc := { s.lc with errNow := 0, errPast := s.lc.errNow :: s.lc.errPast.take 8 }
    ou := (State.applyPpsShadow { s with tb := { s.tb with epochs := rest } } sec).ou }

theorem State.applyPpsShadow_rest (s : State) (sec : Nat) : s.applyPpsShadow sec = { s with ou := (s.applyPpsShadow sec).ou } := by
  cases h : s.ou.ppsShadow with
  | none => rw [State.applyPpsShadow_none sec h]
  | some v => rw [State.applyPpsShadow_some sec h]

theorem exec_epoch {sec : Nat} {rest : List Nat} (hs : s.held = .nothing) (he : s.tb.epochs = sec :: rest) :
    exec .epoch s = .next ((s.publish.atEpoch sec rest).judgeErrors.takeSnapshot sec) := by
  have hrest := State.applyPpsShadow_rest { s.publish with tb := { s.publish.tb with epochs := rest } } sec
  refine (next_of_running rfl hs).trans (congrArg Host.Outcome.next ?_)
  simp only [he]
  rw [hrest]
  rfl

/-- Settles O13: the PPS shadow acts on the output unit, the window on the line and LINE_ERRORS, the snapshot on what it takes. -/
theorem epochTakesSnapshot : Obligations.EpochTakesSnapshot := by
  refine ⟨fun s sec rest p hs he hp => ?late, fun s sec rest hs he hp hnever => ?taken⟩
  case late =>
    have blocks := (s.withPublished_only p).blocks
    have hnone : (s.withPublished p).du.unpublished = none := by rw [blocks.du]
    rw [exec_epoch hs he, exec_epoch (blocks.held.trans hs) (by rw [blocks.tb]; exact he), State.publish_some hp,
      State.publish_none hnone]
  case taken =>
    refine ⟨_, exec_epoch hs he, ?_⟩
    rw [State.publish_none hp]
    have hjudge := (s.atEpoch sec rest).judge_only .lineErrors
      (decide ((s.atEpoch sec rest).mp.params.tErr ≤ (s.atEpoch sec rest).lc.discards))
    have blocks := hjudge.blocks
    obtain ⟨hstand, hwithdraw⟩ := (s.atEpoch sec rest).judge_permit .lineErrors
      (decide ((s.atEpoch sec rest).mp.params.tErr ≤ (s.atEpoch sec rest).lc.discards)) hnever
    have herrors := (s.atEpoch sec rest).judge_conds (k := .lineErrors)
      (decide ((s.atEpoch sec rest).mp.params.tErr ≤ (s.atEpoch sec rest).lc.discards)) (by decide)
    rw [State.judgeErrors]
    generalize State.judge (s.atEpoch sec rest) .lineErrors
      (decide ((s.atEpoch sec rest).mp.params.tErr ≤ (s.atEpoch sec rest).lc.discards)) = j at *
    have hmp : j.mp = s.mp := blocks.mp
    have hpt : j.pt = s.pt := blocks.pt
    have hri : j.ri = s.ri := blocks.ri
    have hdu : j.du = s.du := blocks.du
    refine ⟨blocks.tb, blocks.lc, ?errors, ?pt, ?ri, ?du, blocks.hs, hmp, blocks.held, blocks.choices,
      fun k hk hl => hjudge.conds k (by simpa using hk) hl, (s.atEpoch sec rest).ou, hjudge.outputs, hstand, hwithdraw,
      fun h => ?none, fun v hv => ⟨ppsFrom v sec, (ppsFrom_first v sec).1, (ppsFrom_first v sec).2.1, (ppsFrom_first v sec).2.2,
      ?shadow, fun e hnext hdue hreleased => ?released, fun h => ?quiet⟩⟩
    case errors =>
      refine herrors.trans (decide_eq_decide.mpr ?_)
      show _ ↔ s.mp.params.tErr ≤ j.lc.errNow + j.lc.errPast.sum
      rw [blocks.lc]
      exact Iff.rfl
    case pt =>
      show (j.pt.snapshot sec j.mp.params.a).1 = _
      rw [hpt, hmp]
      rfl
    case ri =>
      show ({ j.ri with sample := none } : RefInput) = _
      rw [hri]
    case du =>
      show ({ j.du with
        snapshot := some ⟨(j.pt.snapshot sec j.mp.params.a).2, j.ri.hand sec, j.du.pub, sec⟩ } : Discipline) = _
      rw [hpt, hmp, hri, hdu, PeerTable.snapshot_estimates]
      rfl
    case none =>
      have happly := congrArg State.ou
        (State.applyPpsShadow_none (s := { s with tb := { s.tb with epochs := rest } }) sec h)
      exact happly
    case shadow =>
      have happly := congrArg State.ou
        (State.applyPpsShadow_some (s := { s with tb := { s.tb with epochs := rest } }) sec hv)
      rw [State.atEpoch, happly]
    case released =>
      have happly := congrArg State.ou
        (State.applyPpsShadow_some (s := { s with tb := { s.tb with epochs := rest } }) sec hv)
      rw [State.atEpoch, happly]
      exact State.ppsDriven_released (s := { s with tb := { s.tb with epochs := rest } }) hnext hdue hreleased
    case quiet =>
      have happly := congrArg State.ou
        (State.applyPpsShadow_some (s := { s with tb := { s.tb with epochs := rest } }) sec hv)
      rw [State.atEpoch, happly]
      exact State.ppsDriven_quiet (s := { s with tb := { s.tb with epochs := rest } }) h

end

end Sys2Proof.Machine
end

section
/-! SUPPORT. The completion of a combine: what it comes to, and how its reports and its write-back stand to the publication,
whichever comes first. -/

namespace Sys2Proof.Machine

section
variable {s t : State} {ks : List Kind} {k : Kind}

/-! ### What a completion comes to (R107) -/

theorem completion_parts (d : Discipline) (p : Params) (h : History) (n : Snapshot) :
    let c := d.complete p h n
    let cs := n.contributors p.address p.m
    let x := combinedOffset cs
    let g := settle p n.prev.state ⟨d.lockRun, d.largeRun, d.noneRun⟩ x d.holdReq h.valid
    let wasHolding := n.prev.state = .hold ∨ n.prev.state = .lapsed
    (g.1 ≠ .hold →
      (wasHolding → steer p g.1 d.f d.f x 0 = ⟨c.du.f, c.du.fInt, c.step, c.clamp⟩) ∧
      (¬wasHolding → steer p g.1 d.f d.fInt x 0 = ⟨c.du.f, c.du.fInt, c.step, c.clamp⟩) ∧
      c.du.pub = publication g.1 n.prev cs x d.holdReq 0 0 ∧
      (⟨c.du.lockRun, c.du.largeRun, c.du.noneRun⟩ : Runs) = g.2 ∧
      c.du.hold = none ∧ c.du.elapsed = 0 ∧ c.entered = false) ∧
    (g.1 = .hold →
      (c.du.pub.state = .hold ∨ c.du.pub.state = .lapsed) ∧ (c.entered = true ↔ ¬wasHolding) ∧
      ((⟨c.du.lockRun, c.du.largeRun, c.du.noneRun⟩ : Runs) =
        if c.du.pub.state = .lapsed ∧ n.prev.state ≠ .lapsed then .zero else g.2) ∧
      ∃ e, c.du.hold = some e ∧
        c.du.pub = publication c.du.pub.state n.prev cs x d.holdReq c.du.pub.bound e.rank ∧
        steer p .hold d.f d.fInt x (e.fNew + e.slope * ((c.du.elapsed / 60 : Nat) + e.c)) =
          ⟨c.du.f, c.du.fInt, c.step, c.clamp⟩) := by
  intro c cs x g wasHolding
  have hwas : n.prev.state.holdover = true ↔ wasHolding := DState.holdover_iff _
  refine ⟨fun hg => ?_, fun hg => ?_⟩
  · have hsettled := Discipline.settledFor_of_not_hold (d := d) (p := p) (h := h) (n := n) hg
    have hlapsed : g.1 ≠ .lapsed := settle_ne_lapsed _ _
    have hhold : (d.settling p h n).1.holdover = false := by
      rw [Bool.eq_false_iff, Ne, Discipline.settling_holdover]
      exact hg
    have hsteer := Discipline.complete_steering (d := d) (p := p) (h := h) (n := n)
    rw [hsettled, show (d.settling p h n).1 = g.1 from rfl, steer_of_not_holdover hg hlapsed] at hsteer
    refine ⟨fun hw => ?_, fun hw => ?_, ?_, ?_, ?_, ?_, ?_⟩
    · have hint : d.fIntFor p h n = d.f := by simp [Discipline.fIntFor, hhold, hwas.mpr hw]
      rw [hint] at hsteer
      exact hsteer.symm
    · have hint : d.fIntFor p h n = d.fInt := by simp [Discipline.fIntFor, Bool.eq_false_iff.mpr (mt hwas.mp hw)]
      rw [hint] at hsteer
      exact hsteer.symm
    · exact Discipline.complete_pub.trans (by rw [hsettled]; exact publication_of_not_holdover hg hlapsed _ _ _ _ _ _)
    · exact Discipline.complete_runs.trans (if_neg fun hl => hlapsed (hsettled.symm.trans hl.1))
    · exact Discipline.complete_hold.trans (by rw [hhold]; rfl)
    · exact Discipline.complete_elapsed.trans (by rw [hhold]; rfl)
    · exact Discipline.complete_entered.trans (by rw [hhold]; rfl)
  · have hhold := Discipline.settling_holdover.mpr hg
    refine ⟨Discipline.settled_hold_iff.mpr hg, ?_, ?_, d.entryFor h n, ?_, ?_, ?_⟩
    · rw [show c.entered = _ from Discipline.complete_entered, hhold, ← hwas]
      simp
    · rw [show c.du.pub.state = _ from Discipline.complete_state]
      exact Discipline.complete_runs
    · exact Discipline.complete_hold.trans (by rw [hhold]; rfl)
    · rw [show c.du.pub.state = _ from Discipline.complete_state, show c.du.pub.bound = _ from Discipline.complete_bound_of_hold hg]
      exact Discipline.complete_pub
    · rw [show c.du.elapsed = _ from Discipline.complete_elapsed.trans (if_pos hhold)]
      exact (Discipline.complete_steering_of_hold hg).symm

/-! ### Reports before and after a publication (R107, log 8) -/

/-- What the reports and the write-back of a completion come to: conditions of the kinds listed judged, notices, and slots
replaced, in whatever order. -/
inductive Reported (ks : List Kind) : State → State → Prop where
  | refl (s : State) : Reported ks s s
  | slots {s t : State} (h : Reported ks s t) (p : PeerTable) : Reported ks s { t with pt := p }
  | judge {s t : State} (h : Reported ks s t) {k : Kind} (hk : k ∈ ks) (v : Bool) : Reported ks s (t.judge k v)
  | notice {s t : State} (h : Reported ks s t) {k : Kind} (hk : Params.defaultClass k = .notice) : Reported ks s (t.notice k)

theorem Reported.trans {u : State} (h : Reported ks s t) (h' : Reported ks t u) : Reported ks s u := by
  induction h' with
  | refl => exact h
  | slots _ p ih => exact ih.slots p
  | judge _ hk v ih => exact ih.judge hk v
  | notice _ hk ih => exact ih.notice hk

theorem Reported.ite {u : State} {p : Prop} [Decidable p] (ht : Reported ks s t) (hu : Reported ks s u) :
    Reported ks s (if p then t else u) := by
  split
  · exact ht
  · exact hu

/-- What every report and every change of slots keeps, the whole keeps. -/
theorem Reported.keeps {P : State → Prop} (h : Reported ks s t) (hs : P s) (slots : ∀ (u : State) p, P u → P { u with pt := p })
    (judge : ∀ (u : State) k v, k ∈ ks → P u → P (u.judge k v))
    (notice : ∀ (u : State) k, Params.defaultClass k = .notice → P u → P (u.notice k)) : P t := by
  induction h with
  | refl => exact hs
  | slots _ p ih => exact slots _ p ih
  | judge _ hk v ih => exact judge _ _ v hk ih
  | notice _ hk ih => exact notice _ _ hk ih

/-- The kinds whose conditions a completion judges (R120, R140, R151, R69, R83). -/
def completionConditions : List Kind := [.noContributor, .holdBudget, .freqClamp, .peerSuspect, .peerLink]

theorem State.reportCompletion_reported (s : State) (c : Completion) : Reported completionConditions s (s.reportCompletion c) := by
  unfold State.reportCompletion
  extract_lets s1 s2 s3 s4
  have budget : Reported completionConditions s s2 := ((Reported.refl s).judge (by decide) _).judge (by decide) _
  have clamp : Reported completionConditions s s3 := by
    unfold s3
    split
    · exact budget.judge (by decide) _
    · exact budget
  have step : Reported completionConditions s s4 := by
    unfold s4
    split
    · exact clamp.notice rfl
    · exact clamp
  split
  · exact step.notice rfl
  · exact step

theorem State.pass_reported (f : Entry → Option Entry) (is : List Nat) (s : State) :
    Reported completionConditions s (State.pass f s is) := by
  induction is generalizing s with
  | nil => exact .refl s
  | cons i is ih =>
    refine Reported.trans ?_ (ih _)
    split
    · exact (((Reported.refl s).slots _).judge (by decide) _).judge (by decide) _
    · exact .refl s

theorem State.writeBackCompletion_reported (s : State) (ws : List WriteBack) :
    Reported completionConditions s (s.writeBackCompletion ws) := by
  rw [State.writeBackCompletion, State.writeBackSlots_eq]
  exact State.pass_reported _ _ _

/-- A completion settles, and then publishes among its reports; or it holds the status back and reports (log 8, log 47). -/
theorem State.completeWith_reported (s : State) (n : Snapshot) (reports back late : Bool) :
    (∃ u, Reported completionConditions (s.settleCompletion (s.du.complete s.mp.params s.hs n) n.epoch) u ∧
      Reported completionConditions (u.published State.judgePermit) (s.completeWith n reports back late)) ∨
    (s.du.complete s.mp.params s.hs n).step.isSome ∧
      Reported completionConditions ((s.settleCompletion (s.du.complete s.mp.params s.hs n) n.epoch).holdBack s.du.pub)
        (s.completeWith n reports back late) := by
  have write := fun (ws : List WriteBack) (u : State) => u.writeBackCompletion_reported ws
  have tell := fun (c : Completion) (u : State) => u.reportCompletion_reported c
  unfold State.completeWith
  extract_lets c ws s1 s2 s3 s4 s5
  split
  next hlate =>
    exact .inr ⟨((Bool.and_eq_true _ _).mp hlate).2,
      (write ws (s1.holdBack s.du.pub)).trans (tell c ((s1.holdBack s.du.pub).writeBackCompletion ws))⟩
  next =>
    have wroteFirst : Reported completionConditions s1 s2 := .ite (write ws s1) (.refl s1)
    have wrote : Reported completionConditions s4 s5 := .ite (.refl s4) (write ws s4)
    exact .inl ⟨s3, .ite (wroteFirst.trans (tell c s2)) wroteFirst, .ite wrote (wrote.trans (tell c s5))⟩

/-! ### What the reports leave of the publication -/

/-- A judgement by what it does: nothing, the record alone, or the record and a withdrawal of the permit. -/
theorem State.judge_cases (s : State) (k : Kind) (v : Bool) :
    let r := State.reportRecord { s with conds := s.conds.set k v } k v
    s.judge k v = s ∨ s.judge k v = r ∧ (s.au.gating = true ∨ r.au.gating = false) ∨
      s.judge k v = r.withdraw ∧ s.au.gating = false ∧ r.au.gating = true := by
  intro r
  unfold State.judge
  split
  · exact .inl rfl
  · right
    show State.gatingReport s.au.gating r = r ∧ _ ∨ State.gatingReport s.au.gating r = _ ∧ _
    unfold State.gatingReport
    cases s.au.gating <;> cases r.au.gating <;> simp

/-- The five outputs as their policies have them, and PERMIT_LOST as the permit stands (R180, R185). -/
structure State.PermitFollowed (s : State) : Prop where
  gates : s.GatesFollowPolicy
  lost : s.conds.permitLost = (!s.ou.txok && decide (s.du.pub.state ≠ .free))

theorem State.PermitFollowed.congr (hs : s.PermitFollowed) (hou : t.ou = s.ou) (hmp : t.mp = s.mp) (hdu : t.du = s.du)
    (hlost : t.conds.permitLost = s.conds.permitLost) : t.PermitFollowed := by
  refine ⟨hs.gates.congr ?_ ?_, ?_⟩
  · simp only [State.gates, hou, hmp]
  · exact State.mayRun_congr (by rw [hmp]) (by rw [hdu]) (by rw [hou])
  · rw [hlost, hs.lost, hou, hdu]

theorem State.setTxok_lost (v : Bool) (hs : s.conds.permitLost = (!s.ou.txok && decide (s.du.pub.state ≠ .free))) :
    (s.setTxok v).conds.permitLost = (!(s.setTxok v).ou.txok && decide ((s.setTxok v).du.pub.state ≠ .free)) := by
  have hdu := (s.setTxok_only v).blocks.du
  by_cases h : s.ou.txok = v
  · rw [State.setTxok, if_pos h]
    exact hs
  · rw [State.setTxok_txok, hdu, State.setTxok, if_neg h, State.judgePermitLost_conds]
    rfl

theorem State.PermitFollowed.withdraw (hs : s.PermitFollowed) : s.withdraw.PermitFollowed :=
  ⟨hs.gates.withdraw, State.setTxok_lost (s := { s with ou := { s.ou with holdoff := 0 } }) false hs.lost⟩

theorem State.PermitFollowed.judge (hs : s.PermitFollowed) {v : Bool} (hk : k ≠ .permitLost) : (s.judge k v).PermitFollowed := by
  have told : State.PermitFollowed (State.reportRecord { s with conds := s.conds.set k v } k v) :=
    hs.congr rfl rfl rfl (PerKind.get_set_ne (j := .permitLost) _ _ (Ne.symm hk))
  obtain h | ⟨h, -⟩ | ⟨h, -⟩ := s.judge_cases k v
  · rw [h]; exact hs
  · rw [h]; exact told
  · rw [h]; exact told.withdraw

theorem State.published_followed (s : State) : (s.published State.judgePermit).PermitFollowed := by
  refine ⟨s.published_judgePermit_follows, ?_⟩
  have judged : (s.published State.judgePermit).conds.permitLost = _ := State.judgePermitLost_conds s.evalSquelch.judgePermit
  rw [judged, State.published, State.judgePermitLost_ou, (State.judgePermitLost_only _).blocks.du]

theorem ne_permitLost_of_mem (hk : k ∈ completionConditions) : k ≠ .permitLost := by
  rintro rfl
  exact absurd hk (by decide)

theorem State.PermitFollowed.reported (hs : s.PermitFollowed) (h : Reported completionConditions s t) : t.PermitFollowed :=
  h.keeps hs (fun _ _ hu => hu.congr rfl rfl rfl rfl) (fun _ _ _ hk hu => hu.judge (ne_permitLost_of_mem hk))
    (fun _ _ _ hu => hu.congr rfl rfl rfl rfl)

/-- The permit withdrawn, its hold-off count at 0 (R184). -/
def State.Refused (s : State) : Prop := s.ou.txok = false ∧ s.ou.holdoff = 0

theorem State.Refused.judge (hs : s.Refused) (k : Kind) (v : Bool) : (s.judge k v).Refused := by
  obtain h | ⟨h, -⟩ | ⟨h, -⟩ := s.judge_cases k v
  · rw [h]; exact hs
  · rw [h]; exact hs
  · rw [h]; exact ⟨State.withdraw_txok _, State.withdraw_holdoff _⟩

theorem State.Refused.reported (hs : s.Refused) (h : Reported ks s t) : t.Refused :=
  h.keeps (P := State.Refused) hs (fun _ _ hu => hu) (fun _ k v _ hu => hu.judge k v) (fun _ _ _ hu => hu)

theorem State.published_refused (h : ¬s.permitCondition = true) : (s.published State.judgePermit).Refused := by
  obtain ⟨hholdoff, htxok⟩ := State.judgePermit_of_not_permitted (s := s.evalSquelch) h
  exact ⟨(congrArg Outputs.txok (State.judgePermitLost_ou _)).trans htxok,
    (congrArg Outputs.holdoff (State.judgePermitLost_ou _)).trans hholdoff⟩

/-! ### A permit-gating condition of a kind no report touches -/

/-- The record of `k` raises the permit-gating indication (R203). -/
def State.GatedBy (s : State) (k : Kind) : Prop :=
  s.au.gating = true ∧ s.mp.params.gatingSet.get k = true ∧ (s.au.records.get k).condition = true

theorem State.GatedBy.onRecord (hs : s.GatedBy k) {u : State} {j : Kind} {f : AlarmRecord → AlarmRecord} (hau : u.au = s.au)
    (hmp : u.mp = s.mp) (hf : j = k → ∀ r, (f r).condition = r.condition) : (u.onRecord j f).GatedBy k := by
  obtain ⟨-, hset, hpresent⟩ := hs
  have hrecord : ((u.onRecord j f).au.records.get k).condition = true := by
    by_cases hj : k = j
    · subst hj
      rw [State.onRecord_get, hf rfl, hau]
      exact hpresent
    · rw [State.onRecord_other _ hj, hau]
      exact hpresent
  have hset' : (u.onRecord j f).mp.params.gatingSet.get k = true := by
    show u.mp.params.gatingSet.get k = true
    rw [hmp]
    exact hset
  exact ⟨(State.onRecord_exact u j f).2.2.2.mpr ⟨k, hset', hrecord⟩, hset', hrecord⟩

theorem State.GatedBy.reported (hs : s.GatedBy k) (hk : k ∉ ks) (h : Reported ks s t) : t.GatedBy k := by
  refine h.keeps (P := fun u => u.GatedBy k) hs (fun _ _ hu => hu) (fun u j v hj hu => ?_) (fun u j _ hu => ?_)
  · have told : State.GatedBy (State.reportRecord { u with conds := u.conds.set j v } j v) k :=
      hu.onRecord rfl rfl fun hjk => absurd (hjk ▸ hj) hk
    obtain h | ⟨h, -⟩ | ⟨-, h, -⟩ := u.judge_cases j v
    · rw [h]; exact hu
    · rw [h]; exact told
    · exact absurd (hu.1.symm.trans h) (by decide)
  · exact hu.onRecord rfl rfl fun _ r => by rw [AlarmRecord.notice_eq]

theorem State.GatedBy.refuses (hs : s.GatedBy k) : (s.published State.judgePermit).Refused :=
  State.published_refused fun hc => by
    obtain ⟨-, -, -, hgating⟩ := s.permitCondition_iff.mp hc
    exact absurd (hgating.symm.trans hs.1) (by decide)

/-! ### No permit-gating condition, and none a report can raise -/

/-- The indication is low, and stays so whatever the kinds listed and PERMIT_LOST report. -/
def State.Ungated (ks : List Kind) (s : State) : Prop :=
  s.au.gating = false ∧ ∀ k, s.mp.params.gatingSet.get k = true →
    k ∉ ks ∧ k ≠ .permitLost ∧ (s.au.records.get k).condition = false

theorem State.Ungated.congr (hs : s.Ungated ks) (hau : t.au = s.au) (hmp : t.mp = s.mp) : t.Ungated ks := by
  rw [State.Ungated, hau, hmp]
  exact hs

theorem State.Ungated.onRecord (hs : s.Ungated ks) {u : State} {j : Kind} {f : AlarmRecord → AlarmRecord} (hau : u.au = s.au)
    (hmp : u.mp = s.mp) (hf : j ∈ ks ∨ j = .permitLost ∨ ∀ r, (f r).condition = r.condition) : (u.onRecord j f).Ungated ks := by
  have hall (k : Kind) (hset : (u.onRecord j f).mp.params.gatingSet.get k = true) :
      k ∉ ks ∧ k ≠ .permitLost ∧ ((u.onRecord j f).au.records.get k).condition = false := by
    obtain ⟨hk, hlost, habsent⟩ := hs.2 k (by rw [← hmp]; exact hset)
    refine ⟨hk, hlost, ?_⟩
    by_cases hj : k = j
    · subst hj
      rw [State.onRecord_get, (hf.resolve_left hk).resolve_left hlost, hau]
      exact habsent
    · rw [State.onRecord_other _ hj, hau]
      exact habsent
  refine ⟨?_, hall⟩
  rw [Bool.eq_false_iff, Ne, (State.onRecord_exact u j f).2.2.2]
  rintro ⟨k, hset, hpresent⟩
  exact absurd ((hall k hset).2.2.symm.trans hpresent) (by decide)

theorem State.Ungated.judge (hs : s.Ungated ks) (hk : k ∈ ks) (v : Bool) :
    (s.judge k v).Ungated ks ∧ (s.judge k v).ou = s.ou := by
  have told : State.Ungated ks (State.reportRecord { s with conds := s.conds.set k v } k v) :=
    hs.onRecord rfl rfl (.inl hk)
  obtain h | ⟨h, -⟩ | ⟨-, -, h⟩ := s.judge_cases k v
  · rw [h]; exact ⟨hs, rfl⟩
  · rw [h]; exact ⟨told, rfl⟩
  · exact absurd (told.1.symm.trans h) (by decide)

theorem State.Ungated.reported (hs : s.Ungated ks) (h : Reported ks s t) : t.Ungated ks ∧ t.ou = s.ou := by
  refine h.keeps (P := fun u => u.Ungated ks ∧ u.ou = s.ou) ⟨hs, rfl⟩ (fun _ _ hu => hu) (fun u j v hj hu => ?_)
    (fun u j _ hu => ⟨hu.1.onRecord rfl rfl (.inr (.inr fun r => by rw [AlarmRecord.notice_eq])), hu.2⟩)
  obtain ⟨hgate, hou⟩ := hu.1.judge hj v
  exact ⟨hgate, hou.trans hu.2⟩

theorem State.Ungated.judgePermitLost (hs : s.Ungated ks) : s.judgePermitLost.Ungated ks := by
  unfold State.judgePermitLost
  dsimp only
  split
  · exact hs
  · exact hs.onRecord rfl rfl (.inr (.inl rfl))

theorem State.Ungated.setTxok (hs : s.Ungated ks) (v : Bool) : (s.setTxok v).Ungated ks := by
  unfold State.setTxok
  split
  · exact hs
  · have switched : State.Ungated ks (State.evalSquelch { s with ou := { s.ou with txok := v } }) := hs.congr rfl rfl
    exact switched.judgePermitLost

theorem State.Ungated.published (hs : s.Ungated ks) : (s.published State.judgePermit).Ungated ks := by
  have evaluated : s.evalSquelch.Ungated ks := hs.congr rfl rfl
  refine State.Ungated.judgePermitLost ?_
  generalize s.evalSquelch = u at evaluated
  have counted (n : Nat) : State.Ungated ks { u with ou := { u.ou with holdoff := n } } := evaluated.congr rfl rfl
  unfold State.judgePermit
  dsimp only
  split
  · split
    · exact (counted _).setTxok true
    · exact counted _
  · exact (counted 0).setTxok false

/-! ### What a completion writes and reports, whatever comes between -/

theorem State.published_slots (s : State) : OnlySlots s (s.published State.judgePermit) := by
  have only := s.published_only State.judgePermit_only
  have hpt := only.blocks.pt
  refine ⟨?_, by rw [hpt], by rw [hpt]⟩
  rw [hpt]
  exact only.mono (by simp)

theorem State.writeBackCompletion_slots (s : State) (ws : List WriteBack) : OnlySlots s (s.writeBackCompletion ws) := by
  rw [State.writeBackCompletion, State.writeBackSlots_eq]
  exact State.pass_slots _ _ _

theorem OnlySlots.ite {u : State} {p : Prop} [Decidable p] (ht : OnlySlots s t) (hu : OnlySlots s u) :
    OnlySlots s (if p then t else u) := by
  split
  · exact ht
  · exact hu

/-- The state a completion works on once its results are settled. -/
def State.settledBy (s : State) (n : Snapshot) (late : Bool) : State :=
  let c := s.du.complete s.mp.params s.hs n
  if late && c.step.isSome then (s.settleCompletion c n.epoch).holdBack s.du.pub else s.settleCompletion c n.epoch

/-- The reports are made once; before them and after them there are only the publication and the write-back. -/
theorem State.completeWith_tells (s : State) (n : Snapshot) (reports back late : Bool) :
    ∃ u, OnlySlots (s.settledBy n late) u ∧
      OnlySlots (u.reportCompletion (s.du.complete s.mp.params s.hs n)) (s.completeWith n reports back late) := by
  unfold State.completeWith State.settledBy
  extract_lets c ws s1 s2 s3 s4 s5
  split
  next => exact ⟨_, State.writeBackCompletion_slots _ _, .refl _⟩
  next =>
    have wroteFirst : OnlySlots s1 s2 := .ite (s1.writeBackCompletion_slots ws) (.refl s1)
    have published : OnlySlots s3 s4 := s3.published_slots
    have wrote : OnlySlots s4 s5 := .ite (.refl s4) (s4.writeBackCompletion_slots ws)
    cases reports with
    | true => exact ⟨s2, wroteFirst, published.trans wrote⟩
    | false => exact ⟨s5, (wroteFirst.trans published).trans wrote, .refl _⟩

/-- The write-back is made once; nothing else touches the peer table. -/
theorem State.completeWith_writes (s : State) (n : Snapshot) (reports back late : Bool) :
    let c := s.du.complete s.mp.params s.hs n
    ∃ u : State, u.pt = s.pt ∧ (s.completeWith n reports back late).pt =
      (u.writeBackCompletion (n.writeBack s.mp.params.d c.cs c.x)).pt := by
  have tell (u : State) (c : Completion) : (u.reportCompletion c).pt = u.pt := (u.reportCompletion_only c).blocks.pt
  unfold State.completeWith
  extract_lets c ws s1 s2 s3 s4 s5
  split
  next =>
    exact ⟨s1.holdBack s.du.pub, rfl, tell ((s1.holdBack s.du.pub).writeBackCompletion ws) c⟩
  next =>
    have told : s3.pt = s2.pt := by
      unfold s3
      split
      · exact tell s2 c
      · rfl
    have published : s4.pt = s3.pt := (s3.published_only State.judgePermit_only).blocks.pt
    have last : (if reports = true then s5 else s5.reportCompletion c).pt = s5.pt := by
      split
      · rfl
      · exact tell s5 c
    rw [last]
    cases back with
    | true =>
      have wrote : s2 = s1.writeBackCompletion ws := if_pos rfl
      exact ⟨s1, rfl, (published.trans told).trans (congrArg State.pt wrote)⟩
    | false =>
      have first : s2 = s1 := if_neg Bool.false_ne_true
      have wrote : s5 = s4.writeBackCompletion ws := if_neg Bool.false_ne_true
      exact ⟨s4, (published.trans told).trans (congrArg State.pt first : s2.pt = s1.pt), congrArg State.pt wrote⟩

end

end Sys2Proof.Machine
end

section
/-! SUPPORT. The completion of a combine taken whole by every block. -/

namespace Sys2Proof.Machine

section
variable {s t : State} {k : Kind}

/-! ### The reports of a completion (R120, R123, R140, R142, R151) -/

theorem State.reportCompletion_conds (s : State) (c : Completion) :
    (s.reportCompletion c).conds.noContributor = decide (c.du.contributors = 0) ∧
      (s.reportCompletion c).conds.holdBudget = decide (c.du.pub.state = .lapsed) ∧
      (∀ v, c.clamp = some v → (s.reportCompletion c).conds.freqClamp = v) ∧
      (c.clamp = none → (s.reportCompletion c).conds.freqClamp = s.conds.freqClamp) := by
  unfold State.reportCompletion
  extract_lets s1 s2 s3 s4
  have hnotices : (if c.entered then s4.notice .holdEntered else s4).conds = s3.conds := by
    unfold s4
    cases c.entered <;> cases c.step.isSome <;> rfl
  rw [hnotices]
  have hnone : s2.conds.noContributor = decide (c.du.contributors = 0) :=
    ((s1.judge_only .holdBudget _).conds .noContributor (by decide) (by decide)).trans (s.judge_conds _ (by decide))
  have hbudget : s2.conds.holdBudget = decide (c.du.pub.state = .lapsed) := s1.judge_conds (k := .holdBudget) _ (by decide)
  have hclamp : s2.conds.freqClamp = s.conds.freqClamp :=
    ((s1.judge_only .holdBudget _).conds .freqClamp (by decide) (by decide)).trans
      ((s.judge_only .noContributor _).conds .freqClamp (by decide) (by decide))
  have hunclamped (h : c.clamp = none) : s3 = s2 := by unfold s3; rw [h]
  have hclamped (v : Bool) (h : c.clamp = some v) : s3 = s2.judge .freqClamp v := by unfold s3; rw [h]
  have hother (j : Kind) (hj : j ≠ .freqClamp) (hl : j ≠ .permitLost) : s3.conds.get j = s2.conds.get j := by
    cases hc : c.clamp with
    | none => rw [hunclamped hc]
    | some v =>
      rw [hclamped v hc]
      exact (s2.judge_only .freqClamp v).conds j (by simpa using hj) hl
  refine ⟨(hother .noContributor (by decide) (by decide)).trans hnone, (hother .holdBudget (by decide) (by decide)).trans hbudget,
    fun v hv => ?_, fun hn => ?_⟩
  · rw [hclamped v hv]
    exact s2.judge_conds (k := .freqClamp) v (by decide)
  · rw [hunclamped hn]
    exact hclamp

theorem State.notice_ite (s : State) (p : Bool) (k j : Kind) :
    (if p then s.notice k else s).au.records.get j =
      if p = true ∧ j = k then (s.au.records.get j).notice s.now else s.au.records.get j := by
  cases p with
  | false => simp
  | true =>
    by_cases hj : j = k
    · subst hj
      simp [State.notice, State.onRecord_get]
    · simp [State.notice, State.onRecord_other s hj, hj]

/-- Of the records of notice kinds the reports touch the two they name. -/
theorem State.reportCompletion_notices (s : State) (c : Completion) :
    (s.reportCompletion c).au.records.phaseStep =
        (if c.step.isSome then s.au.records.phaseStep.notice s.now else s.au.records.phaseStep) ∧
      (s.reportCompletion c).au.records.holdEntered =
        (if c.entered then s.au.records.holdEntered.notice s.now else s.au.records.holdEntered) := by
  unfold State.reportCompletion
  extract_lets s1 s2 s3 s4
  have only : OnlyAlarms [.noContributor, .holdBudget, .freqClamp] s s3 := by
    have budget : OnlyAlarms [.noContributor, .holdBudget, .freqClamp] s s2 :=
      ((s.judge_only .noContributor _).mono (by simp)).trans ((s1.judge_only .holdBudget _).mono (by simp))
    unfold s3
    split
    · exact budget.trans ((s2.judge_only .freqClamp _).mono (by simp))
    · exact budget
  have hnow : s3.now = s.now := by rw [State.now, only.blocks.tb]; rfl
  have hnow4 : s4.now = s3.now := by unfold s4; cases c.step.isSome <;> rfl
  have hstep : s3.au.records.get .phaseStep = s.au.records.get .phaseStep := only.records _ (by decide) (by decide)
  have hentered : s3.au.records.get .holdEntered = s.au.records.get .holdEntered := only.records _ (by decide) (by decide)
  refine ⟨(s4.notice_ite c.entered .holdEntered .phaseStep).trans ?_, (s4.notice_ite c.entered .holdEntered .holdEntered).trans ?_⟩
  · rw [if_neg (by simp)]
    refine (s3.notice_ite c.step.isSome .phaseStep .phaseStep).trans ?_
    rw [hnow, hstep]
    simp only [and_true]
    rfl
  · rw [hnow4, hnow]
    have h4 : s4.au.records.get .holdEntered = s.au.records.get .holdEntered :=
      (s3.notice_ite c.step.isSome .phaseStep .holdEntered).trans ((if_neg (by simp)).trans hentered)
    rw [h4]
    simp only [and_true]
    rfl

theorem Reported.du (h : Reported completionConditions s t) : t.du = s.du :=
  h.keeps (P := fun u => u.du = s.du) rfl (fun _ _ hu => hu) (fun u k v _ hu => (u.judge_du k v).trans hu) (fun _ _ _ hu => hu)

theorem Reported.conds (h : Reported completionConditions s t) {j : Kind} (hj : j ∉ completionConditions) (hl : j ≠ .permitLost) :
    t.conds.get j = s.conds.get j :=
  h.keeps (P := fun u => u.conds.get j = s.conds.get j) rfl (fun _ _ hu => hu)
    (fun u k v hk hu => ((u.judge_only k v).conds j (fun hm => hj (List.mem_singleton.mp hm ▸ hk)) hl).trans hu)
    (fun _ _ _ hu => hu)

theorem Reported.mp (h : Reported completionConditions s t) : t.mp = s.mp :=
  h.keeps (P := fun u => u.mp = s.mp) rfl (fun _ _ hu => hu) (fun u k v _ hu => (u.judge_mp k v).trans hu) (fun _ _ _ hu => hu)

theorem exec_combineCompletion {n : Snapshot} (hs : s.held = .nothing) (hn : s.du.snapshot = some n) :
    exec .combineCompletion s = .next (State.completeWith { s with choices := s.choices + 3 } n (Config.reportsFirst s.choices)
      (Config.reportsFirst (s.choices + 1)) (Config.reportsFirst (s.choices + 2))) := by
  refine (next_of_running rfl hs).trans (congrArg Host.Outcome.next ?_)
  simp only [hn]

/-! ### The completion taken whole -/

section
variable {n : Snapshot} {reports back late : Bool}

/-- What the settling and all that follows leave of the blocks (R121 to R123). -/
theorem State.completeWith_blocks (s : State) (n : Snapshot) (reports back late : Bool) :
    let c := s.du.complete s.mp.params s.hs n
    let t := s.completeWith n reports back late
    t.tb = { s.tb with increment := incrementOf c.du.f, orders := s.tb.orders ++ c.step.toList } ∧
      t.hs = s.hs.hand s.tb.minutes ⟨c.du.f, decide (c.du.pub.state = .track), n.epoch⟩ := by
  intro c t
  obtain ⟨h, -⟩ | ⟨-, h⟩ := s.completeWith_settles n reports back late
  · exact ⟨h.tb rfl, h.hs rfl⟩
  · exact ⟨h.tb rfl, h.hs rfl⟩

/-- The permit of a completion whose status is published (R180, R183 to R185). -/
theorem State.completeWith_permit {u : State} {c : Completion}
    (hsettled : Reported completionConditions (s.settleCompletion c n.epoch) u)
    (htold : Reported completionConditions (u.published State.judgePermit) t) :
    let sound := s.loaded = true ∧ (c.du.pub.state = .track ∨ c.du.pub.state = .hold) ∧ c.du.pub.bound ≤ s.mp.params.budget
    t.PermitFollowed ∧ t.du = c.du ∧ (¬sound → t.Refused) ∧
      ((∃ k, k ∉ completionConditions ∧ s.GatedBy k) → t.Refused) ∧
      (sound → s.Ungated completionConditions → t.ou.holdoff = min s.mp.params.hP (s.ou.holdoff + 1) ∧
        (t.ou.txok = true ↔ s.ou.txok = true ∨ s.mp.params.hP ≤ s.ou.holdoff + 1)) := by
  intro sound
  have hdu : u.du = c.du := hsettled.du
  have hmp : u.mp = s.mp := hsettled.mp
  have hcondition : u.evalSquelch.permitCondition = true ↔ sound ∧ u.au.gating = false := by
    rw [State.permitCondition_iff]
    show u.loaded = true ∧ (u.du.pub.state = .track ∨ u.du.pub.state = .hold) ∧ u.du.pub.bound ≤ u.mp.params.budget ∧ _ ↔ _
    rw [State.loaded, hdu, hmp]
    simp only [sound, and_assoc]
    exact Iff.rfl
  refine ⟨u.published_followed.reported htold, ?_, fun hn => ?_, ?_, fun hsound hclear => ?_⟩
  · rw [htold.du, (u.published_only State.judgePermit_only).blocks.du, hdu]
  · exact (State.published_refused (s := u) fun h => hn (hcondition.mp h).1).reported htold
  · rintro ⟨k, hk, hgate⟩
    have settled : (s.settleCompletion c n.epoch).GatedBy k := hgate
    exact (settled.reported hk hsettled).refuses.reported htold
  · have settled : (s.settleCompletion c n.epoch).Ungated completionConditions := hclear
    obtain ⟨hquiet, hou⟩ := settled.reported hsettled
    obtain ⟨hholdoff, htxok⟩ := State.judgePermit_of_permitted (hcondition.mpr ⟨hsound, hquiet.1⟩)
    have hpublished : (u.published State.judgePermit).ou = u.evalSquelch.judgePermit.ou := State.judgePermitLost_ou _
    have hou' : u.ou = s.ou := hou
    rw [(hquiet.published.reported htold).2, hpublished, hholdoff, htxok]
    show min u.mp.params.hP (u.ou.holdoff + 1) = _ ∧ (u.ou.txok = true ∨ u.mp.params.hP ≤ u.ou.holdoff + 1 ↔ _)
    rw [hmp, hou']
    exact ⟨rfl, Iff.rfl⟩

/-- What a completion leaves of conditions and records (R116, R81, R120, R123, R140, R142, R151). -/
theorem State.completeWith_alarms (s : State) (n : Snapshot) (reports back late : Bool) :
    let c := s.du.complete s.mp.params s.hs n
    let t := s.completeWith n reports back late
    (t.conds.noContributor = decide (c.du.contributors = 0) ∧ t.conds.holdBudget = decide (c.du.pub.state = .lapsed) ∧
      (∀ v, c.clamp = some v → t.conds.freqClamp = v) ∧ (c.clamp = none → t.conds.freqClamp = s.conds.freqClamp)) ∧
    (t.au.records.phaseStep = (if c.step.isSome then s.au.records.phaseStep.notice s.now else s.au.records.phaseStep) ∧
      t.au.records.holdEntered = (if c.entered then s.au.records.holdEntered.notice s.now else s.au.records.holdEntered)) ∧
    ∀ k, k ∉ completionConditions → k ≠ .permitLost → k ≠ .phaseStep → k ≠ .holdEntered →
      t.au.records.get k = s.au.records.get k := by
  intro c t
  obtain ⟨u, hbefore, hafter⟩ := s.completeWith_tells n reports back late
  have hsettled : (s.settledBy n late).conds = s.conds ∧ (s.settledBy n late).au = s.au ∧ (s.settledBy n late).now = s.now := by
    unfold State.settledBy
    dsimp only
    split <;> exact ⟨rfl, rfl, rfl⟩
  obtain ⟨hconds, hau, hnow⟩ := hsettled
  have hunow : u.now = s.now := by rw [← hnow, State.now, hbefore.rest.blocks.tb]; rfl
  have only := u.reportCompletion_only c
  have condsAfter (j : Kind) (hj : j ∉ [Kind.peerLink, .peerSuspect]) (hl : j ≠ .permitLost) :
      t.conds.get j = (u.reportCompletion c).conds.get j := hafter.rest.conds j hj hl
  have condsBefore (j : Kind) (hj : j ∉ [Kind.peerLink, .peerSuspect]) (hl : j ≠ .permitLost) :
      u.conds.get j = s.conds.get j := (hbefore.rest.conds j hj hl).trans (congrArg (PerKind.get · j) hconds)
  have recordsAfter (j : Kind) (hj : j ∉ [Kind.peerLink, .peerSuspect]) (hl : j ≠ .permitLost) :
      t.au.records.get j = (u.reportCompletion c).au.records.get j := hafter.rest.records j hj hl
  have recordsBefore (j : Kind) (hj : j ∉ [Kind.peerLink, .peerSuspect]) (hl : j ≠ .permitLost) :
      u.au.records.get j = s.au.records.get j :=
    (hbefore.rest.records j hj hl).trans (congrArg (fun a : Alarms => a.records.get j) hau)
  obtain ⟨hnone, hbudget, hclamp, hunclamped⟩ := u.reportCompletion_conds c
  obtain ⟨hstep, hentered⟩ := u.reportCompletion_notices c
  refine ⟨⟨(condsAfter .noContributor (by decide) (by decide)).trans hnone,
    (condsAfter .holdBudget (by decide) (by decide)).trans hbudget,
    fun v hv => (condsAfter .freqClamp (by decide) (by decide)).trans (hclamp v hv),
    fun hn => (condsAfter .freqClamp (by decide) (by decide)).trans
      ((hunclamped hn).trans (condsBefore .freqClamp (by decide) (by decide)))⟩, ⟨?_, ?_⟩, fun k hk hl hp hh => ?_⟩
  · have before : u.au.records.phaseStep = s.au.records.phaseStep := recordsBefore .phaseStep (by decide) (by decide)
    rw [← before, ← hunow]
    exact (recordsAfter .phaseStep (by decide) (by decide)).trans hstep
  · have before : u.au.records.holdEntered = s.au.records.holdEntered := recordsBefore .holdEntered (by decide) (by decide)
    rw [← before, ← hunow]
    exact (recordsAfter .holdEntered (by decide) (by decide)).trans hentered
  · simp only [completionConditions, List.mem_cons, List.not_mem_nil, or_false, not_or] at hk
    obtain ⟨hn, hb, hf, hs, hp'⟩ := hk
    have hpeers : k ∉ [Kind.peerLink, .peerSuspect] := by simp [hs, hp']
    exact (recordsAfter k hpeers hl).trans ((only.records k (by simp [hn, hb, hf, hp, hh]) hl).trans (recordsBefore k hpeers hl))

/-- A completion leaves the conditions of every other kind. -/
theorem State.completeWith_conds (s : State) (n : Snapshot) (reports back late : Bool) {j : Kind}
    (hj : j ∉ completionConditions) (hl : j ≠ .permitLost) :
    (s.completeWith n reports back late).conds.get j = s.conds.get j := by
  obtain ⟨u, hbefore, hafter⟩ | ⟨-, hreported⟩ := s.completeWith_reported n reports back late
  · exact (hafter.conds hj hl).trans (((u.published_only State.judgePermit_only).conds j (by simp) hl).trans (hbefore.conds hj hl))
  · exact hreported.conds hj hl

end

/-- Settles O35: the parts of the completion by the state settled; each block by what settles, writes, publishes and reports. -/
theorem completionTakesEffectWhole : Obligations.CompletionTakesEffectWhole := by
  refine ⟨fun d p h n => ⟨rfl, rfl, rfl, rfl, rfl, rfl, completion_parts d p h n⟩, ?whole⟩
  intro s n hs hn c now reported gate sound clear
  have hreported (k : Kind) (hk : k ∉ reported) : k ∉ completionConditions ∧ k ≠ .permitLost := by
    simp only [reported, completionConditions, List.mem_cons, List.not_mem_nil, or_false, not_or] at hk ⊢
    tauto
  have hclear (h : clear) : State.Ungated completionConditions { s with choices := s.choices + 3 } := by
    obtain ⟨hgating, hall, hnever⟩ := h
    refine ⟨hgating, fun k hset => ?_⟩
    have hk : k ∉ reported := fun hk => absurd ((hnever k hk).symm.trans hset) (by decide)
    refine ⟨(hreported k hk).1, (hreported k hk).2, Bool.eq_false_iff.mpr fun hc => hall k ⟨hset, hc⟩⟩
  refine ⟨_, exec_combineCompletion hs hn, ?_⟩
  generalize Config.reportsFirst s.choices = reports
  generalize Config.reportsFirst (s.choices + 1) = back
  generalize Config.reportsFirst (s.choices + 2) = late
  have frame := State.completeWith_frame (s := { s with choices := s.choices + 3 }) n reports back late
  have blocks := State.completeWith_blocks { s with choices := s.choices + 3 } n reports back late
  have alarms := State.completeWith_alarms { s with choices := s.choices + 3 } n reports back late
  have writes := State.completeWith_writes { s with choices := s.choices + 3 } n reports back late
  have conds := fun k => State.completeWith_conds { s with choices := s.choices + 3 } n reports back late (j := k)
  have cases := State.completeWith_reported { s with choices := s.choices + 3 } n reports back late
  generalize State.completeWith { s with choices := s.choices + 3 } n reports back late = t at *
  obtain ⟨htb, hhs⟩ := blocks
  obtain ⟨⟨hnone, hbudget, hclamp, hunclamped⟩, ⟨hstep, hentered⟩, hrecords⟩ := alarms
  obtain ⟨u, hupt, htpt⟩ := writes
  have hslots := u.writeBackCompletion_slots (n.writeBack s.mp.params.d c.cs c.x)
  refine ⟨?du, htb, fun hm => ?here, fun hm => ?aside, hnone, hbudget, hclamp, hunclamped, ?counts, fun hl => ?wrote,
    frame.lc rfl, frame.ri rfl, frame.mp rfl, frame.held rfl, frame.choices rfl,
    fun k hk => conds k (hreported k hk).1 (hreported k hk).2, hstep, hentered,
    fun k hk => hrecords k (hreported k hk).1 (hreported k hk).2, frame.ou rfl, ?published, ?heldBack⟩
  case here =>
    have hwait : s.tb.minutes.contains (n.epoch - n.epoch % 60) = false := by simpa using hm
    rw [hhs]
    exact (congrArg (fun b => if b = true then _ else _) hwait).trans (if_neg Bool.false_ne_true)
  case aside =>
    have hwait : s.tb.minutes.contains (n.epoch - n.epoch % 60) = true := by simpa using hm
    rw [hhs]
    exact (congrArg (fun b => if b = true then _ else _) hwait).trans (if_pos rfl)
  case counts => rw [htpt, hslots.counts, hupt]
  case wrote =>
    intro i
    have hlength : u.pt.slots.length = 24 := by rw [hupt]; exact hl
    rw [htpt, (u.writeBackCompletion_spec _ hlength).2 i, hupt]
    rfl
  case du =>
    obtain ⟨v, hbefore, hafter⟩ | ⟨hsome, hheld⟩ := cases
    · exact .inl (State.completeWith_permit hbefore hafter).2.1
    · exact .inr ⟨hsome, hheld.du⟩
  case published =>
    intro hp
    obtain ⟨v, hbefore, hafter⟩ | ⟨-, hheld⟩ := cases
    · obtain ⟨⟨hgates, hlost⟩, hdu, hunsound, hgated, hsound⟩ := State.completeWith_permit hbefore hafter
      have hloaded : State.loaded { s with choices := s.choices + 3 } = true ↔ s.mp.status = .good ∨ s.mp.status = .adjusted :=
        State.loaded_iff _
      simp only [hloaded] at hunsound hsound
      refine ⟨hgates, ?_, hunsound, fun hon ⟨k, hk, hset, hpresent⟩ => hgated ⟨k, (hreported k hk).1, hon, hset, hpresent⟩,
        fun h hc => hsound h (hclear hc)⟩
      rw [hlost, hdu, Bool.and_eq_true, Bool.not_eq_true', decide_eq_true_eq]
    · rw [hheld.du] at hp
      exact absurd hp (Option.some_ne_none _)
  case heldBack =>
    intro hp hc
    obtain ⟨v, hbefore, hafter⟩ | ⟨-, hheld⟩ := cases
    · rw [(State.completeWith_permit hbefore hafter).2.1] at hp
      exact absurd rfl hp
    · have waiting : State.Ungated completionConditions
          ((State.settleCompletion { s with choices := s.choices + 3 } c n.epoch).holdBack s.du.pub) := hclear hc
      exact (waiting.reported hheld).2

end

end Sys2Proof.Machine
end

section
/-! SUPPORT. The line controller: an abandonment and what it judges, a new beacon pending, a reception discarded, and a beacon of
the station's own address. -/

namespace Sys2Proof.Machine

section
variable {s t : State} {ks : List Kind}

/-! ### What touches the alarm side alone, whatever the line controller holds -/

theorem OnlyAlarms.withLine (h : OnlyAlarms ks s t) (l : Line) : OnlyAlarms ks { s with lc := l } { t with lc := l } := by
  obtain ⟨⟨h1, h2, -, h4, h5, h6, h7, h8, h9, h10⟩, hou, hconds, hrecords⟩ := h
  exact ⟨⟨h1, h2, rfl, h4, h5, h6, h7, h8, h9, h10⟩, hou, hconds, hrecords⟩

/-- LINE_CONGESTION as the abandonment record has it (R36). -/
def State.CongestionJudged (s : State) : Prop := s.conds.lineCongestion = decide (3 ≤ s.lc.abNow + s.lc.abPast.sum)

/-- The line after an abandonment (R28, R36). -/
def Line.abandoning (l : Line) : Line := { l.giveUp with abNow := min 2 (l.abNow + 1) }

theorem State.abandon_judged (s : State) : s.abandon.CongestionJudged := by
  have hconds := State.judge_conds (k := .lineCongestion) { s with lc := s.lc.abandoning }
    (decide (3 ≤ s.lc.abandoning.abandoned)) (by decide)
  have hlc : s.abandon.lc = s.lc.abandoning := State.judge_lc _ _ _
  rw [State.CongestionJudged, hlc]
  exact hconds

theorem State.abandon_only (s : State) : OnlyAlarms [.lineCongestion] { s with lc := s.lc.abandoning } s.abandon :=
  State.judge_only _ _ _

/-- What comes before an abandonment, and the abandonment. -/
theorem OnlyAlarms.abandon {l : Line} (h : OnlyAlarms [.lineCongestion] { s with lc := l } t) :
    OnlyAlarms [.lineCongestion] { s with lc := l.abandoning } t.abandon := by
  have hlc : t.lc = l := h.blocks.lc
  have only := t.abandon_only
  rw [hlc] at only
  exact (h.withLine l.abandoning).trans only

@[simp] theorem State.abandon_lc (s : State) : s.abandon.lc = s.lc.abandoning := State.judge_lc _ _ _

/-! ### A new beacon pending (R24) -/

/-- The line with a new beacon pending as from WAIT. -/
def Line.pending (l : Line) : Line := { l with attempts := 0, beacon := true, access := .wait, backoff := 0 }

theorem State.pend_stuck (h : 625000 ≤ s.lc.stuck) : s.pend = State.abandon { s with lc := s.lc.pending } :=
  if_pos (decide_eq_true h)

theorem Line.stuckFull_false {l : Line} (h : ¬625000 ≤ l.stuck) : ¬l.stuckFull = true := fun hs => h (of_decide_eq_true hs)

theorem State.pend_idle (h : ¬625000 ≤ s.lc.stuck) (hidle : s.lc.idle = true) :
    s.pend = State.startTx { s with lc := s.lc.pending } :=
  (if_neg (Line.stuckFull_false h)).trans (if_pos hidle)

theorem State.pend_busy (h : ¬625000 ≤ s.lc.stuck) (hidle : s.lc.idle = false) :
    s.pend = { s with lc := { s.lc.pending with access := .defer } } :=
  (if_neg (Line.stuckFull_false h)).trans (if_neg (by simp [hidle]))

theorem State.pendInJam_stuck (h : 625000 ≤ s.lc.stuck) :
    s.pendInJam = State.abandon { s with lc := { s.lc with attempts := 0, beacon := true } } :=
  if_pos (decide_eq_true h)

theorem State.pendInJam_free (h : ¬625000 ≤ s.lc.stuck) :
    s.pendInJam = { s with lc := { s.lc with attempts := 0, beacon := true } } :=
  if_neg (Line.stuckFull_false h)

/-- The same beacon pending once an abandonment has gone before. -/
theorem min_two_twice (n : Nat) : min 2 (min 2 (n + 1) + 1) = min 2 (n + 2) := by omega

/-! ### Reception discarded, and the clash beacon (R34, R35, R37, R38) -/

theorem State.discard_spec (s : State) :
    OnlyAlarms [.lineErrors] { s with lc := { s.lc with errNow := min 255 (s.lc.errNow + 1) } } s.discard ∧
      s.discard.conds.lineErrors = decide (s.mp.params.tErr ≤ min 255 (s.lc.errNow + 1) + s.lc.errPast.sum) :=
  ⟨State.judge_only _ _ _, State.judge_conds (k := .lineErrors) { s with lc := { s.lc with errNow := satAdd 255 s.lc.errNow 1 } } _
    (by decide)⟩

/-- The line with carrier gone and the receiver off (R19, R31; log 13). -/
def Line.carrierGone (l : Line) : Line := { l with carrier := false, idle := false, gap := 0, stuck := 0, receiver := .off }

theorem exec_carrierAbsent_collecting (bytes : List Byte) (whole : Bool) (hs : s.held = .nothing) (hc : s.lc.carrier = true)
    (hsend : s.lc.access ≠ .send) (hjam : s.lc.access ≠ .jam) (hr : s.lc.receiver = .collecting) :
    exec (.carrierAbsent bytes whole) s = .next (State.receive { s with lc := s.lc.carrierGone } bytes whole) := by
  refine (next_of_due rfl hs (by simp [hc, Line.driving, hsend, hjam])).trans (congrArg Host.Outcome.next ?_)
  exact if_pos hr

theorem State.receive_bad {bytes : List Byte} {whole : Bool} (h : parseFrame bytes whole = none) :
    s.receive bytes whole = s.discard := by
  rw [State.receive, h]

theorem State.receive_unloaded {bytes : List Byte} {whole : Bool} {b : Beacon} (h : parseFrame bytes whole = some b)
    (hloaded : s.loaded = false) : s.receive bytes whole = s := by
  rw [State.receive, h]
  exact if_neg (by simp [hloaded])

theorem State.receive_own {bytes : List Byte} {whole : Bool} {b : Beacon} (h : parseFrame bytes whole = some b)
    (hloaded : s.loaded = true) (hown : b.sender = s.mp.params.address) : s.receive bytes whole = s.clashBeacon := by
  rw [State.receive, h]
  exact (if_pos hloaded).trans (if_pos hown)

theorem State.receive_other {bytes : List Byte} {whole : Bool} {b : Beacon} (h : parseFrame bytes whole = some b)
    (hloaded : s.loaded = true) (hother : b.sender ≠ s.mp.params.address) : s.receive bytes whole = s.goodBeacon b := by
  rw [State.receive, h]
  exact (if_pos hloaded).trans (if_neg hother)

theorem State.draw_bounds (s : State) (lo hi : Nat) (h : lo ≤ hi) : lo ≤ s.draw lo hi ∧ s.draw lo hi ≤ hi := by
  have := Nat.mod_lt (Config.noise s.lc.seeding s.mp.params.address s.lc.drawn) (y := hi - lo + 1) (by omega)
  unfold State.draw
  omega

/-- Settles O39: the end of carrier checks the bytes, the overlong collection needs no check, and a discard judges LINE_ERRORS. -/
theorem badReceptionCounted : Obligations.BadReceptionCounted := by
  intro s bytes whole hs hr l
  refine ⟨fun hc hsend hjam hparse => ?absent, fun hlong => ?overlong⟩
  case absent =>
    refine ⟨_, exec_carrierAbsent_collecting bytes whole hs hc hsend hjam hr, ?_⟩
    rw [State.receive_bad hparse]
    exact State.discard_spec { s with lc := s.lc.carrierGone }
  case overlong =>
    exact ⟨_, next_of_due rfl hs (by simp [hr, hlong]), State.discard_spec { s with lc := { s.lc with receiver := .ignoring } }⟩

/-- Settles O41: a clash beacon acts on the line by its access state, draws the back-off, and judges ADDRESS_CLASH present. -/
theorem ownAddressHeard : Obligations.OwnAddressHeard := by
  intro s bytes b hs hc hsend hjam hr hparse hstatus hown
  have hloaded : State.loaded { s with lc := s.lc.carrierGone } = true := (State.loaded_iff _).mpr hstatus
  obtain ⟨hlo, hhi⟩ := State.draw_bounds { s with lc := s.lc.carrierGone } 8 15 (by decide)
  refine ⟨_, State.draw { s with lc := s.lc.carrierGone } 8 15,
    exec_carrierAbsent_collecting bytes true hs hc hsend hjam hr, hlo, hhi, ?_⟩
  rw [State.receive_own hparse hloaded hown]
  generalize hn : State.draw { s with lc := s.lc.carrierGone } 8 15 = n
  have hline : (State.drew { s with lc := { s.lc.carrierGone.clashed with clash := n, clashAge := 0 } }) =
      { s with lc := { s.lc.carrierGone.clashed with
        clash := n, clashAge := 0, drawn := s.lc.carrierGone.clashed.drawn + 1 } } := rfl
  have hclash : State.clashBeacon { s with lc := s.lc.carrierGone } = State.judge { s with lc := { s.lc.carrierGone.clashed with
      clash := n, clashAge := 0, drawn := s.lc.carrierGone.clashed.drawn + 1 } } .addressClash true := by
    rw [← hline, ← hn]
    rfl
  rw [hclash]
  refine ⟨State.judge_conds (k := .addressClash) _ true (by decide), ?_⟩
  have only := State.judge_only { s with lc := { s.lc.carrierGone.clashed with
      clash := n, clashAge := 0, drawn := s.lc.carrierGone.clashed.drawn + 1 } } .addressClash true
  have haccess : s.lc.carrierGone.access = s.lc.access := rfl
  cases h : s.lc.access with
  | send => exact absurd h hsend
  | jam => exact absurd h hjam
  | listen | clashHold | mute | wait | defer | backoff =>
    simp only [Line.clashed, haccess, h] at only ⊢
    exact only

end

end Sys2Proof.Machine
end

section
/-! SUPPORT. The instants, transmissions and collisions of the line controller, state by state. -/

namespace Sys2Proof.Machine

section
variable {s : State}

/-! ### The next instant reached (R24) -/

/-- The line once the instant is taken. -/
def Line.taken (l : Line) : Line := { l with nextInstant := none }

theorem exec_nextInstantReached {i : Instant} (hs : s.held = .nothing) (hi : s.lc.nextInstant = some i) (hr : i.reached = true)
    (ha : s.lc.access.draws = true) : exec .nextInstantReached s = .next s.instantReached :=
  next_of_due rfl hs (by simp [State.instantDue, ha, hi, hr])

theorem State.instantReached_wait (h : s.lc.access = .wait) : s.instantReached = State.pend { s with lc := s.lc.taken } := by
  simp only [State.instantReached, h]
  rfl

theorem State.instantReached_waiting (h : s.lc.access = .defer ∨ s.lc.access = .backoff) :
    s.instantReached = (State.abandon { s with lc := s.lc.taken }).pend := by
  obtain h | h := h <;> simp only [State.instantReached, Line.taken, h]

theorem State.instantReached_jam (h : s.lc.access = .jam) (hafter : s.lc.after = .normal) : s.instantReached =
    (if s.lc.beacon then State.abandon { s with lc := s.lc.taken } else { s with lc := s.lc.taken }).pendInJam := by
  simp only [State.instantReached, Line.taken, h, hafter]

theorem State.instantReached_send (h : s.lc.access = .send) (hafter : s.lc.after = .normal) :
    s.instantReached = { s with lc := { s.lc.taken with due := true } } := by
  simp only [State.instantReached, Line.taken, h, hafter]

theorem State.instantReached_overtaken (h : s.lc.access = .send ∨ s.lc.access = .jam) (hafter : s.lc.after ≠ .normal) :
    s.instantReached = { s with lc := s.lc.taken } := by
  unfold State.instantReached
  obtain h | h := h <;> cases ha : s.lc.after with
  | normal => exact absurd ha hafter
  | clashHold | listen => simp only [Line.taken, h, ha]

/-- Settles O43: by the access state, the stuck timer and the gap; what is abandoned before the new beacon is counted first. -/
theorem instantReachedByState : Obligations.InstantReachedByState := by
  intro s i hs hi hr stuck gone count start congested leads
  have run (ha : s.lc.access.draws = true) := exec_nextInstantReached hs hi hr ha
  refine ⟨fun ha => ?wait, fun ha => ?waiting, fun ha hafter => ?jam, fun ha hafter => ?send, fun ha hafter => ?overtaken⟩
  case wait =>
    have run := (run (by rw [ha]; rfl)).trans (congrArg Host.Outcome.next (State.instantReached_wait ha))
    refine ⟨fun hstuck => ⟨_, run, ?_⟩, fun hstuck hidle => ?_, fun hstuck hidle => ?_⟩
    · rw [State.pend_stuck (s := { s with lc := s.lc.taken }) hstuck]
      refine ⟨?_, State.abandon_judged _⟩
      have line : s.lc.taken.pending.abandoning = { gone with backoff := 0, abNow := count 1 } := by
        simp only [Line.taken, Line.pending, Line.abandoning, Line.giveUp, gone, count, ha]
      rw [← line]
      exact State.abandon_only { s with lc := s.lc.taken.pending }
    · rw [run, State.pend_idle (s := { s with lc := s.lc.taken }) hstuck hidle]
      rfl
    · rw [run, State.pend_busy (s := { s with lc := s.lc.taken }) hstuck hidle]
      rfl
  case waiting =>
    have hdraws : s.lc.access.draws = true := by obtain h | h := ha <;> rw [h] <;> rfl
    have run := (run hdraws).trans (congrArg Host.Outcome.next (State.instantReached_waiting ha))
    have only := State.abandon_only { s with lc := s.lc.taken }
    have judged := State.abandon_judged { s with lc := s.lc.taken }
    have hlc := State.abandon_lc { s with lc := s.lc.taken }
    generalize State.abandon { s with lc := s.lc.taken } = u at *
    have hstuckline : u.lc.stuck = s.lc.stuck := by rw [hlc]; rfl
    have hidleline : u.lc.idle = s.lc.idle := by rw [hlc]; rfl
    have pending := only.withLine u.lc.pending
    have line : u.lc.pending =
        { gone with beacon := true, access := .wait, backoff := 0, abNow := count 1 } := by rw [hlc]; rfl
    refine ⟨fun hstuck => ⟨_, run, ?_⟩, fun hstuck hidle => ⟨_, run, ?_⟩, fun hstuck hidle => ⟨_, run, ?_⟩⟩
    · rw [State.pend_stuck (s := u) (by rw [hstuckline]; exact hstuck)]
      refine ⟨?_, State.abandon_judged _⟩
      have twice := pending.abandon
      rw [line] at twice
      simp only [Line.abandoning, Line.giveUp, count, min_two_twice] at twice
      rw [line]
      exact twice
    · rw [State.pend_idle (s := u) (by rw [hstuckline]; exact hstuck) (by rw [hidleline]; exact hidle)]
      have started : State.startTx { u with lc := u.lc.pending } =
          { u with lc := start (State.startTx { u with lc := u.lc.pending }) { gone with abNow := count 1 } } := by
        rw [line]
        show ({ u with lc := _ } : State) = { u with lc := _ }
        congr 1
        have hmp : u.mp = s.mp := only.blocks.mp
        simp only [start, State.header, hmp]
        rfl
      refine ⟨?_, judged⟩
      generalize start (State.startTx { u with lc := u.lc.pending }) { gone with abNow := count 1 } = l at started ⊢
      rw [started]
      exact only.withLine l
    · rw [State.pend_busy (s := u) (by rw [hstuckline]; exact hstuck) (by rw [hidleline]; exact hidle), line]
      rw [State.CongestionJudged, hlc] at judged
      exact ⟨only.withLine _, judged⟩
  case jam =>
    have run := (run (by rw [ha]; rfl)).trans (congrArg Host.Outcome.next (State.instantReached_jam ha hafter))
    refine ⟨fun hb hstuck => ⟨_, run, ?_⟩, fun hb hstuck => ⟨_, run, ?_⟩, fun hb hstuck => ⟨_, run, ?_⟩, fun hb hstuck => ?_⟩
    · rw [if_pos hb, State.pendInJam_stuck (by rw [State.abandon_lc]; exact hstuck)]
      refine ⟨?_, State.abandon_judged _⟩
      have twice := ((State.abandon_only { s with lc := s.lc.taken }).withLine
        { (State.abandon { s with lc := s.lc.taken }).lc with attempts := 0, beacon := true }).abandon
      rw [State.abandon_lc] at twice ⊢
      simp only [Line.abandoning, Line.giveUp, Line.taken, min_two_twice] at twice
      exact twice
    · rw [if_pos hb, State.pendInJam_free (by rw [State.abandon_lc]; exact hstuck)]
      have only := State.abandon_only { s with lc := s.lc.taken }
      have judged := State.abandon_judged { s with lc := s.lc.taken }
      rw [State.abandon_lc]
      rw [State.CongestionJudged, State.abandon_lc] at judged
      exact ⟨only.withLine _, judged⟩
    · rw [if_neg (by simp [hb]), State.pendInJam_stuck (s := { s with lc := s.lc.taken }) hstuck]
      exact ⟨State.abandon_only { s with lc := { s.lc.taken with attempts := 0, beacon := true } }, State.abandon_judged _⟩
    · rw [run, if_neg (by simp [hb]), State.pendInJam_free (s := { s with lc := s.lc.taken }) hstuck]
      rfl
  case send =>
    rw [run (by rw [ha]; rfl), State.instantReached_send ha hafter]
    rfl
  case overtaken =>
    have hdraws : s.lc.access.draws = true := by obtain h | h := ha <;> rw [h] <;> rfl
    rw [run hdraws, State.instantReached_overtaken ha hafter]
    rfl

/-! ### Transmissions (R25, R45, R46) -/

theorem TimeBase.capture_stamp (t : TimeBase) (q : BitVec 7) : (t.capture q.toNat).stamp =
    Stamp.of16 (((t.counter.value + t.lastInc * q.toNat / 128) % scaleU / 268435456 : Nat) : Int) := rfl

/-- Settles O44: the stamps by their arithmetic; a start from DEFER or BACKOFF is the one shared operation. -/
theorem transmissionStartsAndIsStamped : Obligations.TransmissionStartsAndIsStamped := by
  refine ⟨Stamp.of16_spec, fun t => rfl, ?starts, ?stamp⟩
  case starts =>
    intro s hs l
    refine ⟨rfl, fun hc hi hg ha => ?start, fun hc hi hg ha => ?idle, fun ha hb hi => ?retry, fun ha hb hi => ?wait⟩
    case start =>
      refine (next_of_due rfl hs (by simp only [hc, hi, gapTicks, usTicks]; simp [hg])).trans (congrArg Host.Outcome.next ?_)
      refine (if_pos ha).trans ?_
      simp only [State.startTx]
      rfl
    case idle =>
      refine (next_of_due rfl hs (by simp only [hc, hi, gapTicks, usTicks]; simp [hg])).trans (congrArg Host.Outcome.next ?_)
      exact if_neg ha
    case retry =>
      refine (next_of_due rfl hs (by simp [ha, hb])).trans (congrArg Host.Outcome.next ?_)
      exact if_pos hi
    case wait =>
      refine (next_of_due rfl hs (by simp [ha, hb])).trans (congrArg Host.Outcome.next ?_)
      exact if_neg (by simp [hi])
  case stamp =>
    intro s q r hs ha hsent hrecord hstamp cap
    refine (next_of_due rfl hs (by simp [ha, delimiterTicks, hsent, hrecord, hstamp])).trans (congrArg Host.Outcome.next ?_)
    have corrected : r.correct (s.tb.capture q.toNat) s.mp.params.lTx = Stamp.of16 (cap.value16 + s.mp.params.lTx -
        if s.tb.stepCtr = r.adv.stepCtr then 0 else r.steps.sum) := by
      show Stamp.of16 ((if s.tb.stepCtr = r.adv.stepCtr then (cap.value16 : Int) else cap.value16 - r.steps.sum) +
        s.mp.params.lTx) = _
      congr 1
      split <;> omega
    simp only [hrecord, Option.map_some, corrected]
    rfl

/-! ### Collision, jam and backoff (R26 to R28) -/

theorem State.collide_overtaken (h : s.lc.after ≠ .normal) : s.collide = { s with lc := { s.lc with
    access := .jam, jam := 0, record := none, beacon := false, sending := none, due := false
    attempts := s.lc.attempts + 1 } } := by
  unfold State.collide
  cases ha : s.lc.after with
  | normal => exact absurd ha h
  | clashHold | listen => simp only [Line.giveUp, ha]

/-- The line as a collision cuts its frame. -/
def Line.cut (l : Line) : Line := { l with
  access := .jam, jam := 0, attempts := l.attempts + 1, record := none
  sending := if l.record.any fun r => r.steps ≠ [] then l.sending.map fun _ => [] else l.sending }

theorem State.collide_normal (h : s.lc.after = .normal) : s.collide =
    if s.lc.due then
      State.pendInJam { State.abandon { s with lc := s.lc.cut } with
        lc := { (State.abandon { s with lc := s.lc.cut }).lc with due := false } }
    else if 4 ≤ s.lc.attempts + 1 then State.abandon { s with lc := s.lc.cut } else { s with lc := s.lc.cut } := by
  simp only [State.collide, Line.cut, h]

theorem State.endJam_normal (h : s.lc.after = .normal) : s.endJam =
    if !s.lc.beacon then { s with lc := { s.lc.stopDriving with access := .wait } }
    else if s.lc.attempts = 0 then { s with lc := { s.lc.stopDriving with access := .defer } }
    else State.drew { s with lc := { s.lc.stopDriving with
      access := .backoff, backoff := usTicks 100 * s.draw 0 (2 ^ s.lc.attempts - 1) } } := by
  have h' : s.lc.stopDriving.after = .normal := h
  simp only [State.endJam, h']
  rfl

/-- Settles O45: the collision by what it has overtaken, the beacon due and the stuck timer; the jam's end by what follows it. -/
theorem collisionJamBackoff : Obligations.CollisionJamBackoff := by
  intro s hs hit leads
  refine ⟨fun ha hwindow hframe => ?collision, ?jam⟩
  case collision =>
    have run : exec .collisionDetected s = .next s.collide :=
      next_of_due rfl hs (by simp [ha, windowTicks, usTicks, hwindow, hframe])
    have only := State.abandon_only { s with lc := s.lc.cut }
    have judged := State.abandon_judged { s with lc := s.lc.cut }
    have hlc := State.abandon_lc { s with lc := s.lc.cut }
    refine ⟨fun hafter hdue hfew => ?_, fun hafter hdue hmany => ⟨_, run, ?_⟩, fun hafter hdue hstuck => ⟨_, run, ?_⟩,
      fun hafter hdue hstuck => ⟨_, run, ?_⟩, fun hafter => ?_⟩
    · rw [run, State.collide_normal hafter, if_neg (by simp [hdue]), if_neg (by omega)]
      rfl
    · rw [State.collide_normal hafter, if_neg (by simp [hdue]), if_pos hmany]
      refine ⟨?_, judged⟩
      have line : s.lc.cut.abandoning = { hit with abNow := min 2 (s.lc.abNow + 1) } := by
        simp only [Line.cut, Line.abandoning, Line.giveUp, hit, hdue]
      rw [← line]
      exact only
    · rw [State.collide_normal hafter, if_pos hdue]
      generalize State.abandon { s with lc := s.lc.cut } = u at *
      have hstuck' : ¬625000 ≤ ({ u with lc := { u.lc with due := false } } : State).lc.stuck := by
        rw [hlc]
        exact Nat.not_le.mpr hstuck
      rw [State.pendInJam_free hstuck', hlc]
      rw [State.CongestionJudged, hlc] at judged
      exact ⟨only.withLine _, judged⟩
    · rw [State.collide_normal hafter, if_pos hdue]
      generalize State.abandon { s with lc := s.lc.cut } = u at *
      have hstuck' : 625000 ≤ ({ u with lc := { u.lc with due := false } } : State).lc.stuck := by
        rw [hlc]
        exact hstuck
      rw [State.pendInJam_stuck hstuck']
      refine ⟨?_, State.abandon_judged _⟩
      have twice := (only.withLine { u.lc with due := false, attempts := 0, beacon := true }).abandon
      rw [hlc] at twice ⊢
      simp only [Line.abandoning, Line.giveUp, Line.cut, min_two_twice] at twice
      exact twice
    · rw [run, State.collide_overtaken hafter]
  case jam =>
    intro ha hjam l
    have run : exec .jamEnd s = .next s.endJam := next_of_due rfl hs (by simp [ha, jamTicks, usTicks, hjam])
    rw [run]
    refine ⟨fun hafter hb => ?_, fun hafter hb hn => ?_, fun hafter hb hn => ⟨s.draw 0 (2 ^ s.lc.attempts - 1), ?_, ?_⟩,
      fun hafter => ?_, fun hafter => ?_⟩
    · rw [State.endJam_normal hafter, if_pos (by simp [hb])]
      rfl
    · rw [State.endJam_normal hafter, if_neg (by simp [hb]), if_pos hn]
      rfl
    · have := (s.draw_bounds 0 (2 ^ s.lc.attempts - 1) (Nat.zero_le _)).2
      have := Nat.two_pow_pos s.lc.attempts
      omega
    · rw [State.endJam_normal hafter, if_neg (by simp [hb]), if_neg (by omega), usTicks, Nat.mul_comm]
      rfl
    · have hafter' : s.lc.stopDriving.after = .clashHold := hafter
      simp only [State.endJam, hafter']
      rfl
    · have hafter' : s.lc.stopDriving.after = .listen := hafter
      simp only [State.endJam, hafter']
      rfl

/-! ### A transmission driven to its end, and the stuck line (R26, R29) -/

/-- The line as a transmission driven to its end leaves it, but for its access state. -/
def Line.sentWhole (l : Line) (r : TxRecord) (t : Stamp) : Line := Line.stopDriving { l with
  driven := (r.beacon t l.reports).lineBits
  seq := l.seq + 1
  history := if r.steps = [] ∧ l.after ≠ .listen then pushSent l.history ⟨r.seq, t⟩ else l.history
  sending := none
  attempts := 0
  record := none
  beacon := false
  due := false
  after := .normal }

theorem State.complete_normal (h : s.lc.after = .normal) (r : TxRecord) (t : Stamp) : s.complete r t =
    if s.lc.due then State.pend { s with lc := { s.lc.sentWhole r t with access := .wait } }
    else { s with lc := { s.lc.sentWhole r t with access := .wait } } := by
  simp only [State.complete, Line.sentWhole, h]

theorem State.complete_clashHold (h : s.lc.after = .clashHold) (r : TxRecord) (t : Stamp) :
    s.complete r t = { s with lc := { s.lc.sentWhole r t with access := .clashHold } } := by
  simp only [State.complete, Line.sentWhole, h]

theorem State.complete_listen (h : s.lc.after = .listen) (r : TxRecord) (t : Stamp) :
    s.complete r t = { s with lc := { s.lc.sentWhole r t with access := .listen } } := by
  simp only [State.complete, Line.sentWhole, h]

/-- Settles O46: the end of the frame by what it is followed by, and with a beacon due as a beacon pending from WAIT. -/
theorem transmissionCompletesOrSticks : Obligations.TransmissionCompletesOrSticks := by
  intro s hs leads
  refine ⟨?complete, fun hc hstuck ha => ?stuck⟩
  case complete =>
    intro r t ha hr ht hframe l
    have run : exec .transmissionComplete s = .next (s.complete r t) := by
      refine (next_of_running rfl hs).trans (congrArg Host.Outcome.next ?_)
      simp only [State.drivenOut, hr, ht, ha, hframe, and_self, if_true]
    have line : s.lc.sentWhole r t = { l with access := s.lc.access } := rfl
    refine ⟨fun hafter hdue => ?_, fun hafter hdue hstuck hidle => ?_, fun hafter hdue hstuck => ⟨_, run, ?_⟩,
      fun hafter => ?_, fun hafter => ?_⟩
    · rw [run, State.complete_normal hafter, if_neg (by simp [hdue]), line]
    · rw [run, State.complete_normal hafter, if_pos hdue,
        State.pend_busy (s := { s with lc := { s.lc.sentWhole r t with access := .wait } }) (Nat.not_le.mpr hstuck) hidle, line]
      rfl
    · rw [State.complete_normal hafter, if_pos hdue,
        State.pend_stuck (s := { s with lc := { s.lc.sentWhole r t with access := .wait } }) hstuck, line]
      exact ⟨State.abandon_only { s with lc := { l with access := .wait, attempts := 0, beacon := true, backoff := 0 } },
        State.abandon_judged _⟩
    · rw [run, State.complete_clashHold hafter, line]
    · rw [run, State.complete_listen hafter, line]
  case stuck =>
    refine ⟨_, next_of_due rfl hs ?_, State.abandon_only { s with lc := { s.lc with access := .wait, backoff := 0 } },
      State.abandon_judged _⟩
    simp [hc, Line.stuckFull, stuckTicks, usTicks, hstuck, ha]

end

end Sys2Proof.Machine
end

section
/-! SUPPORT. A good beacon of another station delivered to plane and table, and the beacon-interval boundary. -/

namespace Sys2Proof.Machine

section
variable {s : State}

/-! ### The report to the filling plane (R33, R48, R52) -/

theorem State.receiveStamp_eq (s : State) : s.receiveStamp = s.tb.rx.bind fun c =>
    if c.tag = s.tb.stepCtr then some (Stamp.of16 (c.stamp.value16 - s.mp.params.lRx)) else none := by
  unfold State.receiveStamp
  cases s.tb.rx <;> rfl

/-- A plane holds a report of the station. -/
def bearsReport (plane : List Report) (addr : Nat) : Bool := plane.any fun p => p.addr == addr

theorem addReport_known {plane : List Report} {r : Report} (h : bearsReport plane r.addr = true) :
    addReport plane r = (plane.map fun p => if p.addr = r.addr then r else p, false) := if_pos h

theorem addReport_new {plane : List Report} {r : Report} (h : bearsReport plane r.addr = false) (hlen : plane.length < 12) :
    addReport plane r = (plane ++ [r], false) := (if_neg (by simpa [bearsReport] using h)).trans (if_pos hlen)

theorem addReport_full {plane : List Report} {r : Report} (h : bearsReport plane r.addr = false) (hlen : ¬plane.length < 12) :
    addReport plane r = (plane, true) := (if_neg (by simpa [bearsReport] using h)).trans (if_neg hlen)

/-- The report of a good beacon is dropped: the plane is full and holds none of its sender (R52). -/
def State.dropsReport (s : State) (b : Beacon) : Bool :=
  s.receiveStamp.isSome && !s.lc.stepWait && !bearsReport s.lc.filling b.sender && decide (12 ≤ s.lc.filling.length)

/-- A good beacon is its report to the plane and its delivery to the table. -/
theorem State.goodBeacon_eq (s : State) (b : Beacon) : ∃ plane,
    s.goodBeacon b = State.deliver { s with lc := { s.lc with filling := plane } } b s.receiveStamp (s.dropsReport b) ∧
    (s.receiveStamp = none ∨ s.lc.stepWait = true ∨ s.dropsReport b = true → plane = s.lc.filling) ∧
    (∀ t, s.receiveStamp = some t → s.lc.stepWait = false → bearsReport s.lc.filling b.sender = true →
      plane = s.lc.filling.map fun p => if p.addr = b.sender then ⟨b.sender, b.seq, t⟩ else p) ∧
    (∀ t, s.receiveStamp = some t → s.lc.stepWait = false → bearsReport s.lc.filling b.sender = false →
      s.lc.filling.length < 12 → plane = s.lc.filling ++ [⟨b.sender, b.seq, t⟩]) := by
  have good : s.goodBeacon b = match s.receiveStamp with
    | some t => if s.lc.stepWait then s.deliver b (some t) false
      else State.deliver { s with lc := { s.lc with filling := (addReport s.lc.filling ⟨b.sender, b.seq, t⟩).1 } } b (some t)
        (addReport s.lc.filling ⟨b.sender, b.seq, t⟩).2
    | none => s.deliver b none false := by
    unfold State.goodBeacon
    cases s.receiveStamp <;> rfl
  rw [good, State.dropsReport]
  cases ht : s.receiveStamp with
  | none => exact ⟨s.lc.filling, rfl, by simp, by simp, by simp⟩
  | some t =>
    cases hw : s.lc.stepWait with
    | true => exact ⟨s.lc.filling, rfl, by simp, by simp, by simp⟩
    | false =>
      cases hk : bearsReport s.lc.filling b.sender with
      | true =>
        have hadd := addReport_known (r := ⟨b.sender, b.seq, t⟩) hk
        refine ⟨_, by simp only [hadd]; rfl, by simp, fun t' h _ _ => ?_, by simp⟩
        cases h
        rfl
      | false =>
        by_cases hlen : s.lc.filling.length < 12
        · have hadd := addReport_new (r := ⟨b.sender, b.seq, t⟩) hk hlen
          refine ⟨_, by simp only [hadd, Nat.not_le.mpr hlen]; rfl, by simp [hlen], by simp, fun t' h _ _ _ => ?_⟩
          cases h
          rfl
        · have hadd := addReport_full (r := ⟨b.sender, b.seq, t⟩) hk hlen
          exact ⟨_, by simp only [hadd, Nat.not_lt.mp hlen]; rfl, fun _ => rfl, by simp, fun _ _ _ _ h => absurd h hlen⟩

/-! ### The delivery to the peer table (R61 to R63) -/

/-- An entry as a delivered beacon measures it, and its drop counted. -/
def State.measuring (s : State) (b : Beacon) (t4 : Option Stamp) (dropped : Bool) (e : Entry) : Entry :=
  { e.measure s.mp.params.address s.mp.params.dMax s.lc b t4 with
    drops := if dropped then min 65535 ((e.measure s.mp.params.address s.mp.params.dMax s.lc b t4).drops + 1)
      else (e.measure s.mp.params.address s.mp.params.dMax s.lc b t4).drops }

theorem State.measureAt_pt {i : Nat} {e : Entry} (he : s.pt.at i = some e) (b : Beacon) (t4 : Option Stamp) (dropped : Bool) :
    (s.measureAt i b t4 dropped).pt = { s.pt with slots := s.pt.slots.set i (some (s.measuring b t4 dropped e)) } := by
  have he' : s.entryAt i = some e := he
  unfold State.measureAt
  simp only [he', State.putSlot_pt]
  cases dropped <;> rfl

theorem PeerTable.at_set_self (t : PeerTable) {i : Nat} (o : Option Entry) (h : i < t.slots.length) :
    PeerTable.at { t with slots := t.slots.set i o } i = o := by rw [t.at_set o i h, if_pos rfl]

theorem State.measuring_congr {u : State} (hmp : u.mp = s.mp) (hlc : u.lc = s.lc) : u.measuring = s.measuring := by
  funext b t4 dropped e
  rw [State.measuring, State.measuring, hmp, hlc]

theorem State.deliver_known_pt {i : Nat} {e : Entry} {b : Beacon} (h : s.pt.slotOf b.sender = some i) (he : s.pt.at i = some e)
    (t4 : Option Stamp) (dropped : Bool) : (s.deliver b t4 dropped).pt = { s.pt with
      slots := s.pt.slots.set i (some (s.measuring b t4 dropped (e.update b (heardTime t4 s.now)).halve)) } := by
  have he' : s.entryAt i = some e := he
  have hd : s.deliver b t4 dropped = (s.acceptAt i e b t4).measureAt i b t4 dropped := by
    simp only [State.deliver, h, he']
  obtain ⟨slots, hat⟩ := s.acceptAt_spec e b t4 (PeerTable.at_lt he)
  have hpt : (s.acceptAt i e b t4).pt = { s.pt with
      slots := s.pt.slots.set i (some (e.update b (heardTime t4 s.now)).halve) } := by
    rw [State.acceptAt, State.putSlot_pt, State.putSlot_pt]
    simp only [List.set_set]
  rw [hd, State.measureAt_pt (by rw [hat, if_pos rfl]), hpt, State.measuring_congr slots.rest.blocks.mp slots.rest.blocks.lc]
  simp only [List.set_set]
  rfl

theorem State.deliver_new_pt {i : Nat} {b : Beacon} (h : s.pt.slotOf b.sender = none) (hfor : s.pt.slotFor b.adv.bound = some i)
    (t4 : Option Stamp) (dropped : Bool) : (s.deliver b t4 dropped).pt = { s.pt with
      slots := s.pt.slots.set i (some (s.measuring b t4 dropped (.fresh b.sender .new b.adv b.seq (heardTime t4 s.now))))
      admissions := min 65535 (s.pt.admissions + 1) } := by
  have hd : s.deliver b t4 dropped = (s.admitAt i b t4).measureAt i b t4 dropped := by
    simp only [State.deliver, h, hfor]
  have hpt : (s.admitAt i b t4).pt = { s.pt with
      slots := s.pt.slots.set i (some (.fresh b.sender .new b.adv b.seq (heardTime t4 s.now)))
      admissions := min 65535 (s.pt.admissions + 1) } := by
    rw [State.admitAt, State.putSlot_pt, State.putSlot_pt]
    simp only [List.set_set]
    rfl
  have frame : Frame [.pt] [.peerLink, .peerSuspect] s (s.admitAt i b t4) := s.admitAt_frame i b t4
  have hat : (s.admitAt i b t4).pt.at i = some (.fresh b.sender .new b.adv b.seq (heardTime t4 s.now)) := by
    rw [hpt]
    exact PeerTable.at_set_self _ _ (PeerTable.slotFor_lt hfor)
  rw [hd, State.measureAt_pt hat, hpt, State.measuring_congr (frame.mp rfl) (frame.lc rfl)]
  simp only [List.set_set]

theorem State.refuse_pt (s : State) :
    s.refuse.pt = { s.pt with refusals := min 65535 (s.pt.refusals + 1), refusalAge := 0 } ∧ s.refuse.conds.tableFull = true :=
  ⟨State.judge_pt _ _ _, State.judge_conds (k := .tableFull) _ true (by decide)⟩

/-- Settles O40: the report to the plane, then the delivery to the table, by whether the sender is known. -/
theorem goodBeaconDelivered : Obligations.GoodBeaconDelivered := by
  refine ⟨fun s bytes b hs hc hsend hjam hr hparse hstatus => ?unloaded, ?loaded⟩
  case unloaded =>
    rw [exec_carrierAbsent_collecting bytes true hs hc hsend hjam hr, State.receive_unloaded hparse]
    · rfl
    · rw [Bool.eq_false_iff, Ne, State.loaded_iff]
      obtain h | h := hstatus <;> simp [h]
  case loaded =>
    intro s bytes b hs hc hsend hjam hr hparse hstatus hother hlength t4 heard known dropped measured
    have hloaded : State.loaded { s with lc := s.lc.carrierGone } = true := (State.loaded_iff _).mpr hstatus
    obtain ⟨plane, hgood, hkeep, hreplace, hadd⟩ := State.goodBeacon_eq { s with lc := s.lc.carrierGone } b
    have ht4 : State.receiveStamp { s with lc := s.lc.carrierGone } = t4 := State.receiveStamp_eq _
    have hdropped : State.dropsReport { s with lc := s.lc.carrierGone } b = dropped := by
      rw [State.dropsReport, ht4]
      rfl
    have hheard : heardTime t4 s.now = heard := by
      unfold heard
      cases t4 <;> rfl
    rw [ht4] at hgood hkeep hreplace hadd
    rw [hdropped] at hgood hkeep
    refine ⟨_, exec_carrierAbsent_collecting bytes true hs hc hsend hjam hr, ?_⟩
    rw [State.receive_other hparse hloaded hother, hgood]
    generalize hu : ({ s with lc := { s.lc.carrierGone with filling := plane } } : State) = u
    have frame := u.deliver_frame b t4 dropped
    have hmeasured : u.measuring b t4 dropped = measured := by rw [← hu]; rfl
    have hpt : u.pt = s.pt := by rw [← hu]
    have hnow : u.now = s.now := by rw [← hu]; rfl
    have hlc : (u.deliver b t4 dropped).lc = { s.lc.carrierGone with filling := plane } := by rw [frame.lc rfl, ← hu]
    have hplane : (u.deliver b t4 dropped).lc.filling = plane := by rw [hlc]
    rw [hplane]
    refine ⟨hlc, hkeep, hreplace, hadd, ?_, ?_, ?_, ?_, ?_, ?_, fun k hk => ?_, fun i e hi he => ?_, fun i hi hfor => ?_,
      fun hi hfor => ?_⟩
    · rw [frame.tb rfl, ← hu]
    · rw [frame.ri rfl, ← hu]
    · rw [frame.du rfl, ← hu]
    · rw [frame.hs rfl, ← hu]
    · rw [frame.mp rfl, ← hu]
    · have hou := frame.ou rfl
      rw [← hu] at hou ⊢
      exact hou
    · have hkeep := frame.conds k (by simp_all) (by simp_all)
      rw [hkeep, ← hu]
    · rw [State.deliver_known_pt (by rw [hpt]; exact hi) (by rw [hpt]; exact he), hpt, hmeasured, hnow, hheard]
    · rw [State.deliver_new_pt (by rw [hpt]; exact hi) (by rw [hpt]; exact hfor), hpt, hmeasured, hnow, hheard]
    · rw [State.deliver_refused u b t4 dropped (by rw [hpt]; exact hi) (by rw [hpt]; exact hfor), ← hpt]
      exact u.refuse_pt

/-! ### The beacon-interval boundary (R22, R36, R37, R63, R70, R72) -/

/-- The line with the boundary counted (R36, R37, R39). -/
def Line.counted (l : Line) : Line := { l with
  listen := l.listen - 1
  clash := l.clash - 1
  clashAge := min 16 (l.clashAge + 1)
  abNow := 0
  abPast := l.abNow :: l.abPast.take 6 }

/-- The instant drawn `n` microseconds after the boundary `b`, the draw used up. -/
def Line.drawing (l : Line) (b n : Nat) : Line := { l.counted with
  access := l.counted.boundaryAccess, nextInstant := some ⟨b + n * usU, false⟩, drawn := l.drawn + 1 }

/-- The line after the boundary of time `b`. -/
def State.boundaryLine (s : State) (b : Nat) : Line :=
  if s.lc.counted.boundaryAccess.draws && s.loaded then
    s.lc.drawing b (s.draw (s.tb.interval.ms * 100) (s.tb.interval.ms * 900))
  else { s.lc.counted with access := s.lc.counted.boundaryAccess, nextInstant := none }

/-- The two line conditions a boundary judges (R36, R37). -/
def State.judgeClashAge (s : State) : State := s.judgeCongestion.judge .addressClash (decide (s.lc.clashAge < 16))

theorem State.lineBoundary_eq (s : State) (b : Nat) : s.lineBoundary b =
    State.judgeClashAge { s with lc := s.boundaryLine b } := by
  have folded : s.lineBoundary b = State.judgeClashAge (if s.lc.counted.boundaryAccess.draws && s.loaded then
      { s with lc := s.lc.drawing b (s.draw (s.tb.interval.ms * 100) (s.tb.interval.ms * 900)) }
    else { s with lc := { s.lc.counted with access := s.lc.counted.boundaryAccess, nextInstant := none } }) := rfl
  rw [folded, State.boundaryLine]
  split <;> rfl

theorem Access.draws_iff (a : Access) : a.draws = true ↔ a ≠ .listen ∧ a ≠ .clashHold ∧ a ≠ .mute := by
  cases a <;> decide

theorem State.boundaryLine_stands (s : State) (b : Nat) : s.boundaryLine b = { s.lc.counted with
    access := s.lc.counted.boundaryAccess, nextInstant := (s.boundaryLine b).nextInstant, drawn := (s.boundaryLine b).drawn } := by
  unfold State.boundaryLine
  split <;> rfl

theorem State.boundaryLine_quiet {b : Nat} (h : (s.lc.counted.boundaryAccess.draws && s.loaded) = false) :
    s.boundaryLine b = { s.lc.counted with access := s.lc.counted.boundaryAccess, nextInstant := none } :=
  if_neg (by simp [h])

theorem State.boundaryLine_drawn {b : Nat} (h : (s.lc.counted.boundaryAccess.draws && s.loaded) = true) :
    s.boundaryLine b = s.lc.drawing b (s.draw (s.tb.interval.ms * 100) (s.tb.interval.ms * 900)) := if_pos h

theorem Line.counted_access (l : Line) : l.counted.boundaryAccess = match l.access with
    | .listen => if 1 < l.listen then .listen else if 1 < l.clash then .clashHold else .wait
    | .clashHold => if 1 < l.clash then .clashHold else if 1 < l.listen then .listen else .wait
    | other => other := by
  have hlisten : 0 < l.listen - 1 ↔ 1 < l.listen := by omega
  have hclash : 0 < l.clash - 1 ↔ 1 < l.clash := by omega
  have haccess : l.counted.access = l.access := rfl
  unfold Line.boundaryAccess
  rw [haccess]
  cases l.access <;> simp only [Line.counted, hlisten, hclash]

/-- The table after a boundary (R63, R70, R72). -/
theorem State.peerBoundary_spec (s : State) : s.peerBoundary.pt.refusalAge = min 16 (s.pt.refusalAge + 1) ∧
    s.peerBoundary.conds.tableFull = decide (s.peerBoundary.pt.refusalAge < 16) ∧
    (s.pt.slots.length = 24 → ∀ i, s.peerBoundary.pt.at i =
      (s.pt.at i).bind fun e => e.age (60000 / s.tb.interval.ms) s.mp.params.k) := by
  have hslots : OnlySlots s (s.ageSlots (List.range 24)) := by
    rw [State.ageSlots_eq _ s s rfl rfl]
    exact State.pass_slots _ _ _
  have hat := s.ageSlots_spec
  unfold State.peerBoundary
  generalize s.ageSlots (List.range 24) = a at *
  have hage : a.pt.refusalAge = s.pt.refusalAge := by rw [hslots.counts]
  dsimp only
  rw [State.judge_pt, hage]
  exact ⟨rfl, State.judge_conds (k := .tableFull) { a with pt := { a.pt with refusalAge := min 16 (s.pt.refusalAge + 1) } } _
    (by decide), fun hl => (hat hl).2⟩

theorem State.judgeClashAge_spec (s : State) : OnlyAlarms [.lineCongestion, .addressClash] s s.judgeClashAge ∧
    s.judgeClashAge.conds.lineCongestion = decide (3 ≤ s.lc.abNow + s.lc.abPast.sum) ∧
    s.judgeClashAge.conds.addressClash = decide (s.lc.clashAge < 16) := by
  have clash := s.judgeCongestion.judge_only .addressClash (decide (s.lc.clashAge < 16))
  refine ⟨((s.judge_only .lineCongestion _).mono (by simp)).trans (clash.mono (by simp)), ?_, ?_⟩
  · exact (clash.conds .lineCongestion (by decide) (by decide)).trans (s.judge_conds (k := .lineCongestion) _ (by decide))
  · exact s.judgeCongestion.judge_conds (k := .addressClash) _ (by decide)

/-- Settles O42: the line controller's boundary, and then the peer table's, which touches the table and its conditions alone. -/
theorem intervalBoundaryCounts : Obligations.IntervalBoundaryCounts := by
  intro s b rest hs hb
  have run : exec .beaconIntervalBoundary s =
      .next (State.lineBoundary { s with tb := { s.tb with intervals := rest } } b).peerBoundary := by
    refine (next_of_running rfl hs).trans (congrArg Host.Outcome.next ?_)
    simp only [hb]
  refine ⟨_, run, ?_⟩
  have hline : State.boundaryLine { s with tb := { s.tb with intervals := rest } } b = s.boundaryLine b := rfl
  rw [State.lineBoundary_eq, hline]
  obtain ⟨only, hcongestion, hclash⟩ := State.judgeClashAge_spec
    { s with tb := { s.tb with intervals := rest }, lc := s.boundaryLine b }
  generalize State.judgeClashAge { s with tb := { s.tb with intervals := rest }, lc := s.boundaryLine b } = u at *
  have frame := u.peerBoundary_frame
  obtain ⟨hage, hfull, hat⟩ := u.peerBoundary_spec
  generalize u.peerBoundary = t at *
  have blocks := only.blocks
  have hpt : u.pt = s.pt := blocks.pt
  have htb : u.tb = { s.tb with intervals := rest } := blocks.tb
  have hmp : u.mp = s.mp := blocks.mp
  have hlc : t.lc = s.boundaryLine b := (frame.lc rfl).trans blocks.lc
  have haccess : t.lc.access = s.lc.counted.boundaryAccess := by rw [hlc, s.boundaryLine_stands b]
  rw [hpt] at hage hat
  rw [htb, hmp] at hat
  refine ⟨(frame.tb rfl).trans htb, ?_, haccess.trans s.lc.counted_access, fun h => ?quiet, fun hl hc hm hg => ?drawn, ?_, ?_, hage,
    hfull, hat, (frame.ri rfl).trans blocks.ri, (frame.du rfl).trans blocks.du, (frame.hs rfl).trans blocks.hs,
    (frame.mp rfl).trans hmp, Outputs.sameSchedules_trans only.outputs (frame.ou rfl)⟩
  case quiet =>
    have hquiet : (s.lc.counted.boundaryAccess.draws && s.loaded) = false := by
      rw [Bool.eq_false_iff, Ne, Bool.and_eq_true, Access.draws_iff, State.loaded_iff, ← haccess]
      rintro ⟨⟨hl, hc, hm⟩, hg⟩
      obtain h | h | h | h | h := h
      · exact hl h
      · exact hc h
      · exact hm h
      · simp [h] at hg
      · simp [h] at hg
    rw [hlc, State.boundaryLine_quiet hquiet]
    exact ⟨rfl, rfl⟩
  case drawn =>
    have hdraws : (s.lc.counted.boundaryAccess.draws && s.loaded) = true := by
      rw [Bool.and_eq_true, Access.draws_iff, State.loaded_iff, ← haccess]
      exact ⟨⟨hl, hc, hm⟩, hg⟩
    obtain ⟨hlo, hhi⟩ := s.draw_bounds (s.tb.interval.ms * 100) (s.tb.interval.ms * 900) (by omega)
    refine ⟨s.draw (s.tb.interval.ms * 100) (s.tb.interval.ms * 900), hlo, hhi, ?_⟩
    rw [hlc, State.boundaryLine_drawn hdraws]
    rfl
  · have stands := s.boundaryLine_stands b
    rw [hlc] at haccess ⊢
    rw [← haccess] at stands
    exact stands
  · rw [hlc]
    exact (frame.conds .addressClash rfl (by decide)).trans hclash
  · rw [hlc]
    exact (frame.conds .lineCongestion rfl (by decide)).trans hcongestion

end

end Sys2Proof.Machine
end

section
/-! SUPPORT. Beacons on the line: what the reception check reads from bytes, and that it and the frame are one another's inverse. -/

namespace Sys2Proof.Machine

/-! ### Stamps and reports (R20, R32) -/

@[simp] theorem stampBytes_length (t : Stamp) : (stampBytes t).length = 11 := by simp [stampBytes]

@[simp] theorem reportBytes_length (r : Report) : (reportBytes r).length = 13 := by simp [reportBytes]

theorem parseStamp_stampBytes {t : Stamp} (h : t.wf) (rest : List Byte) : parseStamp (stampBytes t ++ rest) = some t := by
  obtain ⟨hsec, hsub⟩ := h
  have hfirst : (stampBytes t ++ rest).take 6 = be 6 t.sec := rfl
  have hlast : ((stampBytes t ++ rest).drop 6).take 5 = be 5 t.sub := rfl
  unfold parseStamp
  rw [hfirst, hlast, ofBE_be (show t.sec < 256 ^ 6 from hsec), ofBE_be (show t.sub < 256 ^ 5 by omega)]
  exact if_pos (by omega)

theorem be_ofBE_of_length {bytes : List Byte} {k : Nat} (h : bytes.length = k) : be k (ofBE bytes) = bytes := by
  rw [← h, be_ofBE]

theorem parseStamp_some {bytes : List Byte} {t : Stamp} (h : parseStamp bytes = some t) (hlen : 11 ≤ bytes.length) :
    t.wf ∧ bytes.take 11 = stampBytes t := by
  unfold parseStamp at h
  dsimp only at h
  split at h
  next hsub =>
    cases h
    have hfirst : (bytes.take 6).length = 6 := by simp; omega
    have hlast : ((bytes.drop 6).take 5).length = 5 := by simp; omega
    have hlt := ofBE_lt (bytes.take 6)
    rw [hfirst] at hlt
    refine ⟨⟨hlt, Nat.lt_succ_of_le hsub⟩, ?_⟩
    rw [stampBytes, be_ofBE_of_length hfirst, be_ofBE_of_length hlast]
    exact List.take_add (i := 6) (j := 5)
  next => exact of_none_eq_some h

/-- The fields of a report fit their places. -/
def Report.Wf (r : Report) : Prop := (1 ≤ r.addr ∧ r.addr ≤ 250) ∧ r.time.wf

theorem byte_toNat_ofNat {n : Nat} (h : n < 256) : (BitVec.ofNat 8 n).toNat = n := by
  rw [BitVec.toNat_ofNat, Nat.mod_eq_of_lt h]

theorem byte_ofNat_toNat (x : Byte) : BitVec.ofNat 8 x.toNat = x := by rw [BitVec.ofNat_toNat, BitVec.setWidth_eq]

theorem parseReports_succ (n : Nat) (bytes : List Byte) : parseReports (n + 1) bytes =
    if validAddress (bytes.getD 0 0).toNat then
      (parseStamp (bytes.drop 2)).bind fun t =>
        (parseReports n (bytes.drop 13)).map fun rest => ⟨(bytes.getD 0 0).toNat, bytes.getD 1 0, t⟩ :: rest
    else none := by
  rw [parseReports]
  cases parseStamp (bytes.drop 2) <;> cases parseReports n (bytes.drop 13) <;> rfl

theorem parseReports_reportBytes {rs : List Report} (h : ∀ r ∈ rs, r.Wf) :
    parseReports rs.length (rs.flatMap reportBytes) = some rs := by
  induction rs with
  | nil => rfl
  | cons r rs ih =>
    obtain ⟨⟨hlo, hhi⟩, htime⟩ := h r (by simp)
    have haddr : (BitVec.ofNat 8 r.addr).toNat = r.addr := byte_toNat_ofNat (by omega)
    have hbytes : (r :: rs).flatMap reportBytes =
        BitVec.ofNat 8 r.addr :: r.seq :: (stampBytes r.time ++ rs.flatMap reportBytes) := rfl
    have hdrop : ((r :: rs).flatMap reportBytes).drop 13 = rs.flatMap reportBytes := by
      rw [List.flatMap_cons, List.drop_left' (reportBytes_length r)]
    rw [List.length_cons, parseReports_succ, hdrop, hbytes, ih fun r hr => h r (by simp [hr])]
    simp only [List.getD_cons_zero, List.getD_cons_succ, List.drop_succ_cons, List.drop_zero, parseStamp_stampBytes htime, haddr,
      (validAddress_iff r.addr).mpr ⟨hlo, hhi⟩, if_true]
    rfl

theorem parseReports_some {n : Nat} {bytes : List Byte} {rs : List Report} (h : parseReports n bytes = some rs)
    (hlen : bytes.length = 13 * n) : rs.length = n ∧ (∀ r ∈ rs, r.Wf) ∧ rs.flatMap reportBytes = bytes := by
  induction n generalizing bytes rs with
  | zero =>
    cases h
    simp [List.length_eq_zero_iff.mp hlen]
  | succ n ih =>
    rw [parseReports_succ] at h
    split at h
    next hvalid =>
      obtain ⟨t, ht, h⟩ := Option.bind_eq_some_iff.mp h
      obtain ⟨rest, hrest, rfl⟩ := Option.map_eq_some_iff.mp h
      obtain ⟨hcount, hall, hbytes⟩ := ih hrest (by simp; omega)
      obtain ⟨htime, hstamp⟩ := parseStamp_some ht (by simp; omega)
      have hr : Report.Wf ⟨(bytes.getD 0 0).toNat, bytes.getD 1 0, t⟩ := ⟨(validAddress_iff _).mp hvalid, htime⟩
      refine ⟨by simp [hcount], fun r hr' => ?_, ?_⟩
      · obtain rfl | hr' := List.mem_cons.mp hr'
        · exact hr
        · exact hall r hr'
      · match bytes, hlen with
        | x :: y :: more, _ =>
          rw [List.flatMap_cons, hbytes]
          simp only [reportBytes, List.getD_cons_zero, List.getD_cons_succ, byte_ofNat_toNat, ← hstamp, List.drop_succ_cons,
            List.drop_zero, List.cons_append]
          rw [show (more.drop 11) = more.drop 11 from rfl, List.take_append_drop]
    next => exact of_none_eq_some h

/-! ### The fields of a body (R32) -/

/-- The checks of R32 on a body, and the beacon read from it. -/
structure ReadsAs (body : List Byte) (b : Beacon) : Prop where
  version : (body.getD 0 0).toNat / 16 = 1
  sender : b.sender = (body.getD 1 0).toNat ∧ 1 ≤ b.sender ∧ b.sender ≤ 250
  seq : b.seq = body.getD 2 0
  state : DState.ofCode (body.getD 3 0).toNat = some b.adv.state
  trac : Trac.ofCode ((body.getD 4 0).toNat % 16) = some b.adv.trac
  rank : b.adv.rank = (body.getD 4 0).toNat / 16
  bound : b.adv.bound = ofBE ((body.drop 5).take 2)
  summary : (body.getD 7 0).toNat ≤ 3
  urgent : b.adv.urgent = ((body.getD 7 0).toNat % 2 == 1)
  standing : b.adv.standing = ((body.getD 7 0).toNat / 2 == 1)
  sources : b.adv.sources = [(body.getD 8 0).toNat, (body.getD 9 0).toNat, (body.getD 10 0).toNat] ∧ ∀ a ∈ b.adv.sources, a ≤ 250
  localRef : b.adv.localRef = ((body.getD 0 0).toNat / 8 % 2 == 1)
  holdReq : b.adv.holdReq = ((body.getD 0 0).toNat / 4 % 2 == 1)
  stepCtr : b.adv.stepCtr = (body.getD 0 0).toNat % 4
  stamp : parseStamp (body.drop 11) = some b.stamp
  count : (body.getD 22 0).toNat ≤ 12
  length : body.length = 23 + 13 * (body.getD 22 0).toNat
  reports : parseReports (body.getD 22 0).toNat (body.drop 23) = some b.reports
  distinct : (b.reports.map Report.addr).Nodup

theorem readsAs_of_parseBody {body : List Byte} {b : Beacon} (h : parseBody body = some b) : ReadsAs body b := by
  unfold parseBody at h
  dsimp only at h
  split at h
  next hc =>
    obtain ⟨hversion, hsender, hsummary, hsources, hcount, hlength⟩ := hc
    split at h
    next st tr stamp reports hst htr hstamp hreports =>
      split at h
      next hdistinct =>
        cases h
        exact ⟨hversion, ⟨rfl, (validAddress_iff _).mp hsender⟩, rfl, hst, htr, rfl, rfl, hsummary, rfl, rfl,
          ⟨rfl, by simpa using hsources⟩, rfl, rfl, rfl, hstamp, hcount, hlength, hreports, hdistinct⟩
      next => exact of_none_eq_some h
    next => exact of_none_eq_some h
  next => exact of_none_eq_some h

theorem ReadsAs.parseBody {body : List Byte} {b : Beacon} (h : ReadsAs body b) : parseBody body = some b := by
  have hvalid : validAddress (body.getD 1 0).toNat = true := by
    rw [← h.sender.1]
    exact (validAddress_iff _).mpr h.sender.2
  have hsources : [(body.getD 8 0).toNat, (body.getD 9 0).toNat, (body.getD 10 0).toNat].all
      (fun a => decide (a ≤ 250)) = true := by
    rw [← h.sources.1]
    simpa using h.sources.2
  unfold Machine.parseBody
  dsimp only
  rw [if_pos ⟨h.version, hvalid, h.summary, hsources, h.count, h.length⟩]
  simp only [h.state, h.trac, h.stamp, h.reports, if_pos h.distinct, ← h.sender.1, ← h.seq, ← h.rank, ← h.bound, ← h.urgent,
    ← h.standing, ← h.sources.1, ← h.localRef, ← h.holdReq, ← h.stepCtr]

end Sys2Proof.Machine
end

section
/-! SUPPORT. The frame as it is laid out, read back from every body the check takes, and the receiver on the line. -/

namespace Sys2Proof.Machine

/-! ### Bytes of one field each -/

theorem DState.ofCode_some {n : Nat} {x : DState} (h : DState.ofCode n = some x) : x.code = n := by
  match n, h with
  | 0, h | 1, h | 2, h | 3, h | 4, h => cases h; rfl
  | n + 5, h => exact of_none_eq_some h

theorem DState.ofCode_code (x : DState) : DState.ofCode x.code = some x := by cases x <;> rfl

theorem Trac.ofCode_some {n : Nat} {x : Trac} (h : Trac.ofCode n = some x) : x.code = n := by
  match n, h with
  | 0, h | 1, h | 2, h => cases h; rfl
  | n + 3, h => exact of_none_eq_some h

theorem Trac.ofCode_code (x : Trac) : Trac.ofCode x.code = some x := by cases x <;> rfl

theorem Trac.code_lt (x : Trac) : x.code < 16 := by cases x <;> decide

theorem DState.code_lt (x : DState) : x.code < 256 := by cases x <;> decide

theorem flagBits_lt (a : Advertised) : flagBits a < 16 := by
  unfold flagBits
  split <;> split <;> omega

theorem byte_eq_ofNat {x : Byte} {n : Nat} (h : x.toNat = n) : BitVec.ofNat 8 n = x := by rw [← h, byte_ofNat_toNat]

theorem flagBits_read {a : Advertised} {x : Nat} (hx : x / 16 = 1) (hl : a.localRef = (x / 8 % 2 == 1))
    (hh : a.holdReq = (x / 4 % 2 == 1)) (hc : a.stepCtr = x % 4) : 16 + flagBits a = x := by
  simp only [flagBits, hl, hh, hc, beq_iff_eq]
  split <;> split <;> omega

theorem flagBits_written (a : Advertised) (hc : a.stepCtr < 4) : (16 + flagBits a) / 16 = 1 ∧
    a.localRef = ((16 + flagBits a) / 8 % 2 == 1) ∧ a.holdReq = ((16 + flagBits a) / 4 % 2 == 1) ∧
    a.stepCtr = (16 + flagBits a) % 4 := by
  have hbits : flagBits a = 8 * a.localRef.toNat + 4 * a.holdReq.toNat + a.stepCtr := by
    rw [flagBits, Nat.mod_eq_of_lt hc]
    cases a.localRef <;> cases a.holdReq <;> rfl
  have hl := a.localRef.toNat_le
  have hh := a.holdReq.toNat_le
  have hbit (x : Bool) : x = (x.toNat == 1) := by cases x <;> rfl
  refine ⟨by omega, ?_, ?_, by omega⟩
  · rw [show (16 + flagBits a) / 8 % 2 = a.localRef.toNat by omega]
    exact hbit _
  · rw [show (16 + flagBits a) / 4 % 2 = a.holdReq.toNat by omega]
    exact hbit _

theorem summaryByte_toNat (u v : Bool) : (summaryByte u v).toNat = (if u then 1 else 0) + if v then 2 else 0 := by
  cases u <;> cases v <;> rfl

theorem summaryByte_read {u v : Bool} {x : Byte} (hx : x.toNat ≤ 3) (hu : u = (x.toNat % 2 == 1)) (hv : v = (x.toNat / 2 == 1)) :
    summaryByte u v = x := by
  refine byte_eq_ofNat ?_
  simp only [hu, hv, beq_iff_eq]
  split <;> split <;> omega

/-! ### The body read back, both ways (R20, R32, R44) -/

/-- A body of at least 23 bytes, by the fields of the body table. -/
theorem body_split {body : List Byte} (h : 23 ≤ body.length) : body =
    [body.getD 0 0, body.getD 1 0, body.getD 2 0, body.getD 3 0, body.getD 4 0] ++ (body.drop 5).take 2 ++ [body.getD 7 0] ++
      [body.getD 8 0, body.getD 9 0, body.getD 10 0] ++ (body.drop 11).take 11 ++ [body.getD 22 0] ++ body.drop 23 := by
  have byte (i : Nat) (hi : i < 23) : body.drop i = body.getD i 0 :: body.drop (i + 1) := by
    rw [List.drop_eq_getElem_cons (by omega), List.getD_eq_getElem _ _ (by omega)]
  have head : body = [body.getD 0 0, body.getD 1 0, body.getD 2 0, body.getD 3 0, body.getD 4 0] ++ body.drop 5 := by
    conv_lhs => rw [← List.drop_zero (l := body), byte 0 (by decide), byte 1 (by decide), byte 2 (by decide), byte 3 (by decide),
      byte 4 (by decide)]
    rfl
  have bound : body.drop 5 = (body.drop 5).take 2 ++ body.drop 7 := by
    conv_lhs => rw [← List.take_append_drop 2 (body.drop 5), List.drop_drop]
  have flags : body.drop 7 = [body.getD 7 0, body.getD 8 0, body.getD 9 0, body.getD 10 0] ++ body.drop 11 := by
    rw [byte 7 (by decide), byte 8 (by decide), byte 9 (by decide), byte 10 (by decide)]
    rfl
  have stamp : body.drop 11 = (body.drop 11).take 11 ++ body.drop 22 := by
    conv_lhs => rw [← List.take_append_drop 11 (body.drop 11), List.drop_drop]
  conv_lhs => rw [head, bound, flags, stamp, byte 22 (by decide)]
  simp only [List.append_assoc, List.cons_append, List.nil_append]

theorem ReadsAs.wf {body : List Byte} {b : Beacon} (h : ReadsAs body b) : b.Wf ∧ body = b.body := by
  have hlen : 23 ≤ body.length := by rw [h.length]; omega
  obtain ⟨hstamp, hstampBytes⟩ := parseStamp_some h.stamp (by simp; omega)
  obtain ⟨hcount, hreports, hreportBytes⟩ := parseReports_some h.reports (by simp [h.length])
  have hbound : ((body.drop 5).take 2).length = 2 := by simp; omega
  have hboundlt := ofBE_lt ((body.drop 5).take 2)
  rw [hbound, ← h.bound] at hboundlt
  refine ⟨⟨h.sender.2, ?_, Nat.le_of_lt_succ hboundlt, ⟨by rw [h.sources.1]; rfl, h.sources.2⟩, ?_, hstamp,
    by rw [hcount]; exact h.count, hreports, h.distinct⟩, ?_⟩
  · rw [h.rank]
    have := (body.getD 4 0).isLt
    omega
  · rw [h.stepCtr]
    omega
  · have htrac := Trac.ofCode_some h.trac
    have hfirst : BitVec.ofNat 8 (16 + flagBits b.adv) = body.getD 0 0 :=
      byte_eq_ofNat (flagBits_read h.version h.localRef h.holdReq h.stepCtr).symm
    have hrank : tracRankByte b.adv.trac b.adv.rank = body.getD 4 0 := by
      refine byte_eq_ofNat ?_
      rw [h.rank, htrac]
      omega
    rw [Beacon.body, hfirst, byte_eq_ofNat h.sender.1.symm, h.seq, byte_eq_ofNat (DState.ofCode_some h.state).symm, hrank, h.bound,
      be_ofBE_of_length hbound, summaryByte_read h.summary h.urgent h.standing, h.sources.1, ← hstampBytes, hcount,
      byte_ofNat_toNat, hreportBytes]
    simp only [List.map_cons, List.map_nil, byte_ofNat_toNat]
    exact body_split hlen

theorem Beacon.body_eq {b : Beacon} {x y z : Nat} (h : b.adv.sources = [x, y, z]) : b.body =
    [BitVec.ofNat 8 (16 + flagBits b.adv), BitVec.ofNat 8 b.sender, b.seq, BitVec.ofNat 8 b.adv.state.code,
      tracRankByte b.adv.trac b.adv.rank] ++ (be 2 b.adv.bound ++ ([summaryByte b.adv.urgent b.adv.standing, BitVec.ofNat 8 x,
      BitVec.ofNat 8 y, BitVec.ofNat 8 z] ++ (stampBytes b.stamp ++ (BitVec.ofNat 8 b.reports.length ::
        b.reports.flatMap reportBytes)))) := by
  simp only [Beacon.body, h, List.append_assoc, List.map_cons, List.map_nil, List.cons_append, List.nil_append]

theorem Beacon.Wf.sources_eq {b : Beacon} (h : b.Wf) : ∃ x y z, b.adv.sources = [x, y, z] ∧ x ≤ 250 ∧ y ≤ 250 ∧ z ≤ 250 := by
  obtain ⟨hlen, hall⟩ := h.sources
  match hs : b.adv.sources, hlen with
  | [x, y, z], _ => exact ⟨x, y, z, rfl, hall x (by simp [hs]), hall y (by simp [hs]), hall z (by simp [hs])⟩

theorem Beacon.Wf.readsAs {b : Beacon} (h : b.Wf) : ReadsAs b.body b := by
  obtain ⟨x, y, z, hsources, hx, hy, hz⟩ := h.sources_eq
  have hbody := Beacon.body_eq hsources
  obtain ⟨hversion, hlocal, hhold, hstep⟩ := flagBits_written b.adv h.stepCtr
  have hflag : (b.body.getD 0 0).toNat = 16 + flagBits b.adv := by
    rw [hbody]
    have := flagBits_lt b.adv
    exact byte_toNat_ofNat (by omega)
  have hsender : (b.body.getD 1 0).toNat = b.sender := by
    rw [hbody]
    have := h.sender
    exact byte_toNat_ofNat (by omega)
  have hstate : (b.body.getD 3 0).toNat = b.adv.state.code := by
    rw [hbody]
    exact byte_toNat_ofNat b.adv.state.code_lt
  have hrank : (b.body.getD 4 0).toNat = b.adv.rank * 16 + b.adv.trac.code := by
    rw [hbody]
    have := h.rank
    have := b.adv.trac.code_lt
    exact byte_toNat_ofNat (by omega)
  have hsummary : (b.body.getD 7 0).toNat = (if b.adv.urgent then 1 else 0) + if b.adv.standing then 2 else 0 := by
    rw [hbody]
    exact summaryByte_toNat _ _
  have hx' : (b.body.getD 8 0).toNat = x := by rw [hbody]; exact byte_toNat_ofNat (by omega)
  have hy' : (b.body.getD 9 0).toNat = y := by rw [hbody]; exact byte_toNat_ofNat (by omega)
  have hz' : (b.body.getD 10 0).toNat = z := by rw [hbody]; exact byte_toNat_ofNat (by omega)
  have hcount : (b.body.getD 22 0).toNat = b.reports.length := by
    rw [hbody]
    have := h.count
    exact byte_toNat_ofNat (by omega)
  have htrac := b.adv.trac.code_lt
  refine ⟨?_, ⟨hsender.symm, h.sender⟩, ?_, ?_, ?_, ?_, ?_, ?_, ?_, ?_, ⟨?_, h.sources.2⟩, ?_, ?_, ?_, ?_, ?_, ?_, ?_, h.distinct⟩
  · rw [hflag, hversion]
  · rw [hbody]; rfl
  · rw [hstate, DState.ofCode_code]
  · rw [hrank, show (b.adv.rank * 16 + b.adv.trac.code) % 16 = b.adv.trac.code by omega, Trac.ofCode_code]
  · rw [hrank]; omega
  · rw [hbody]
    exact (ofBE_be (k := 2) (Nat.lt_succ_of_le h.bound)).symm
  · rw [hsummary]; split <;> split <;> decide
  · rw [hsummary]; cases b.adv.urgent <;> cases b.adv.standing <;> rfl
  · rw [hsummary]; cases b.adv.urgent <;> cases b.adv.standing <;> rfl
  · rw [hsources, hx', hy', hz']
  · rw [hflag, ← hlocal]
  · rw [hflag, ← hhold]
  · rw [hflag, ← hstep]
  · rw [hbody]
    exact parseStamp_stampBytes h.stamp _
  · rw [hcount]; exact h.count
  · rw [hcount, hbody]
    have hflat : (b.reports.flatMap reportBytes).length = 13 * b.reports.length := by
      simp [List.length_flatMap, Nat.mul_comm]
    simp only [List.length_append, List.length_cons, List.length_nil, be_length, stampBytes_length, hflat]
    omega
  · rw [hcount, hbody]
    exact parseReports_reportBytes h.reports

theorem parseBody_iff {body : List Byte} {b : Beacon} : parseBody body = some b ↔ b.Wf ∧ body = b.body := by
  constructor
  · exact fun h => (readsAs_of_parseBody h).wf
  · rintro ⟨hwf, rfl⟩
    exact hwf.readsAs.parseBody

theorem crc32_lt (bytes : List Byte) : crc32 bytes < 256 ^ 4 := BitVec.isLt _

theorem Beacon.frame_length (b : Beacon) : b.frame.length = b.body.length + 4 := by simp [Beacon.frame]

theorem Beacon.Wf.body_length {b : Beacon} (h : b.Wf) : b.body.length = 23 + 13 * b.reports.length := by
  have hr := h.readsAs
  obtain ⟨hcount, -⟩ := parseReports_some hr.reports (by simp [hr.length])
  rw [hcount]
  exact hr.length

/-- The reception check takes exactly the frames of beacons that fit the body table. -/
theorem parseFrame_iff {bytes : List Byte} {whole : Bool} {b : Beacon} :
    parseFrame bytes whole = some b ↔ whole = true ∧ b.Wf ∧ bytes = b.frame := by
  constructor
  · intro h
    unfold parseFrame at h
    dsimp only at h
    split at h
    next hc =>
      obtain ⟨hwhole, hlen, hcrc⟩ := hc
      obtain ⟨hwf, hbody⟩ := parseBody_iff.mp h
      refine ⟨hwhole, hwf, ?_⟩
      have hlast : (bytes.drop (bytes.length - 4)).length = 4 := by simp; omega
      rw [Beacon.frame, ← hbody, hcrc, be_ofBE_of_length hlast, List.take_append_drop]
    next => exact of_none_eq_some h
  · rintro ⟨rfl, hwf, rfl⟩
    have hn : b.frame.length - 4 = b.body.length := by rw [b.frame_length]; omega
    have hbody : b.frame.take b.body.length = b.body := List.take_left' rfl
    have hlast : b.frame.drop b.body.length = be 4 (crc32 b.body) := List.drop_left' rfl
    unfold parseFrame
    dsimp only
    rw [hn, hbody, hlast, ofBE_be (crc32_lt _), if_pos ⟨rfl, by rw [b.frame_length, hwf.body_length]; omega, rfl⟩]
    exact parseBody_iff.mpr ⟨hwf, rfl⟩

end Sys2Proof.Machine
end

section
/-! SUPPORT. The layout of the frame, field by field, and the bits on the line. -/

namespace Sys2Proof.Machine

/-- Pieces of one length stand one after the other. -/
theorem take_drop_flatMap {α β : Type} {g : α → List β} {k : Nat} (hg : ∀ a, (g a).length = k) {l : List α} {i : Nat} {a : α}
    (h : l[i]? = some a) (rest : List β) : ((l.flatMap g ++ rest).drop (k * i)).take k = g a := by
  induction l generalizing i with
  | nil => simp at h
  | cons x l ih =>
    cases i with
    | zero =>
      simp only [List.getElem?_cons_zero, Option.some.injEq] at h
      rw [Nat.mul_zero, List.drop_zero, List.flatMap_cons, List.append_assoc, h]
      exact List.take_left' (hg a)
    | succ i =>
      rw [List.getElem?_cons_succ] at h
      rw [List.flatMap_cons, List.append_assoc, Nat.mul_succ, Nat.add_comm, ← List.drop_drop, List.drop_left' (hg x)]
      exact ih h

theorem DState.code_eq_idxOf (x : DState) : x.code = [DState.free, .acquire, .track, .hold, .lapsed].idxOf x := by
  cases x <;> rfl

theorem Trac.code_eq_idxOf (x : Trac) : x.code = [Trac.none, .held, .traceable].idxOf x := by cases x <;> rfl

/-- The body and what follows it, by the fields of the body table. -/
theorem Beacon.frame_eq {b : Beacon} {x y z : Nat} (h : b.adv.sources = [x, y, z]) : b.frame =
    [BitVec.ofNat 8 (16 + flagBits b.adv), BitVec.ofNat 8 b.sender, b.seq, BitVec.ofNat 8 b.adv.state.code,
      tracRankByte b.adv.trac b.adv.rank] ++ (be 2 b.adv.bound ++ ([summaryByte b.adv.urgent b.adv.standing, BitVec.ofNat 8 x,
      BitVec.ofNat 8 y, BitVec.ofNat 8 z] ++ (stampBytes b.stamp ++ (BitVec.ofNat 8 b.reports.length ::
        (b.reports.flatMap reportBytes ++ be 4 (crc32 b.body)))))) := by
  rw [Beacon.frame]
  generalize crc32 b.body = c
  rw [Beacon.body_eq h]
  simp only [List.append_assoc, List.cons_append, List.nil_append]

theorem lineBits_append (l l' : List Byte) : lineBits (l ++ l') = lineBits l ++ lineBits l' := List.flatMap_append

/-- Too few bits of the preamble before the delimiter (R31; log 54). -/
theorem afterDelimiter_late {k : Nat} (h : 48 < k) :
    afterDelimiter ((lineBits (List.replicate 8 0x55 ++ [0x9D])).drop k) = none := by
  by_cases hk : k ≤ 72
  · interval_cases k <;> rfl
  · rw [List.drop_eq_nil_of_le (by rw [lineBits_length]; simp; omega)]
    rfl

/-- What a receiver that catches enough of the preamble collects: the frame, and whether a partial byte follows (R31, R32). -/
theorem lineReception_lineBits (b : Beacon) {k : Nat} (h : k ≤ 48) {tail : List Bool} (htail : tail.length < 8) :
    lineReception (b.lineBits.drop k ++ tail) = some (b.frame, decide (tail = [])) := by
  have hbits : b.lineBits.drop k ++ tail =
      (lineBits (List.replicate 8 0x55 ++ [0x9D])).drop k ++ (lineBits b.frame ++ tail) := by
    have hline : b.lineBits = lineBits (List.replicate 8 0x55 ++ [0x9D]) ++ lineBits b.frame := lineBits_append _ _
    rw [hline, List.drop_append_of_le_length (by rw [lineBits_length]; simp; omega), List.append_assoc]
  rw [hbits, lineReception, afterDelimiter_preamble h, Option.map_some, lineBytes_lineBits _ htail]
  refine congrArg some (Prod.ext rfl (decide_eq_decide.mpr ?_))
  rw [List.length_append, lineBits_length, Nat.mul_add_mod, Nat.mod_eq_of_lt htail, List.length_eq_zero_iff]

theorem crc32_check : crc32 [0x31, 0x32, 0x33, 0x34, 0x35, 0x36, 0x37, 0x38, 0x39] = 0xCBF43926 := by
  simp [crc32, crc32Byte, crc32Bit, Nat.repeat]

/-- Settles O47: the check and the frame by the fields of the body, the layout by the body's bytes, the line by its bits. -/
theorem beaconReadBackAsSent : Obligations.BeaconReadBackAsSent := by
  refine ⟨fun _ _ _ => parseFrame_iff, crc32_check, fun b hwf => ?_⟩
  intro n f stamp
  obtain ⟨x, y, z, hsources, -⟩ := hwf.sources_eq
  have hframe := Beacon.frame_eq hsources
  have hbody : b.frame.take (23 + 13 * n) = b.body := by
    rw [show 23 + 13 * n = b.body.length from hwf.body_length.symm]
    exact List.take_left' rfl
  refine ⟨?length, ?head, ?bound, ?summary, ?sources, ?stamp, ?count, fun i r hr => ?report, ?crc, ?onLine, ?bits⟩
  case length =>
    rw [b.frame_length, hwf.body_length]
    omega
  case head =>
    show (b.frame.drop 0).take 5 = _
    rw [hframe, ← DState.code_eq_idxOf, ← Trac.code_eq_idxOf]
    show [BitVec.ofNat 8 (16 + flagBits b.adv), BitVec.ofNat 8 b.sender, b.seq, BitVec.ofNat 8 b.adv.state.code,
      tracRankByte b.adv.trac b.adv.rank] = _
    rw [flagBits, Nat.mod_eq_of_lt hwf.stepCtr, ← Nat.add_assoc, ← Nat.add_assoc]
    rfl
  case bound =>
    show (b.frame.drop 5).take 2 = _
    rw [hframe]
    rfl
  case summary =>
    show (b.frame.drop 7).take 1 = _
    rw [hframe]
    rfl
  case sources =>
    show (b.frame.drop 8).take 3 = _
    rw [hframe, hsources]
    rfl
  case stamp =>
    show (b.frame.drop 11).take 11 = _
    rw [hframe]
    rfl
  case count =>
    show (b.frame.drop 22).take 1 = _
    rw [hframe]
    rfl
  case report =>
    show (b.frame.drop (23 + 13 * i)).take 13 = _
    rw [hframe, ← List.drop_drop]
    exact take_drop_flatMap reportBytes_length hr _
  case crc =>
    show (b.frame.drop (23 + 13 * n)).take 4 = _
    rw [hbody, show 23 + 13 * n = b.body.length from hwf.body_length.symm, Beacon.frame, List.drop_left' rfl]
    rfl
  case onLine =>
    rw [List.append_assoc]
    rfl
  case bits =>
    intro lsbFirst start
    have hstart : start = lineBits (List.replicate 8 0x55 ++ [0x9D]) := rfl
    refine ⟨lineBits_append _ _, fun k tail hk htail => ⟨?_, lineReception_lineBits b hk htail⟩, fun k hk => ?_⟩
    · have hfound := afterDelimiter_preamble hk []
      rw [List.append_nil] at hfound
      exact decide_eq_true (by rw [hstart]; exact hfound)
    · rw [hstart]
      exact afterDelimiter_late hk

end Sys2Proof.Machine
end

section
/-! SUPPORT. The peer table's entries: the estimate of a snapshot, the slot of a newcomer, silence, write-back, verdicts and
updates. -/

namespace Sys2Proof.Machine

/-! ### The estimate (R78 to R80) -/

/-- The sample of least delay, the newest of those that share it (R79). -/
theorem leastDelay_some {ring : List Sample} {x : Sample} (h : leastDelay ring = some x) :
    ∃ old new, ring = old ++ x :: new ∧ (∀ y ∈ old, x.delay ≤ y.delay) ∧ ∀ y ∈ new, x.delay < y.delay := by
  induction ring generalizing x with
  | nil => exact of_none_eq_some h
  | cons y rest ih =>
    cases hrest : leastDelay rest with
    | none =>
      simp only [leastDelay, hrest, Option.some.injEq] at h
      subst h
      match rest with
      | [] => exact ⟨[], [], rfl, by simp, by simp⟩
      | z :: more =>
        unfold leastDelay at hrest
        split at hrest
        · split at hrest <;> exact absurd hrest (by simp)
        · exact absurd hrest (by simp)
    | some z =>
      obtain ⟨old, new, hsplit, hold, hnew⟩ := ih hrest
      simp only [leastDelay, hrest] at h
      split at h
      next hlt =>
        cases h
        refine ⟨[], rest, rfl, by simp, fun w hw => ?_⟩
        rw [hsplit] at hw
        obtain hw | hw := List.mem_append.mp hw
        · exact hlt.trans_le (hold w hw)
        · obtain rfl | hw := List.mem_cons.mp hw
          · exact hlt
          · exact hlt.trans (hnew w hw)
      next hle =>
        cases h
        refine ⟨y :: old, new, by rw [hsplit]; rfl, fun w hw => ?_, hnew⟩
        obtain rfl | hw := List.mem_cons.mp hw
        · exact not_lt.mp hle
        · exact hold w hw

theorem leastDelay_isSome {ring : List Sample} (h : ring ≠ []) : ∃ x, leastDelay ring = some x := by
  cases ring with
  | nil => exact absurd rfl h
  | cons y rest =>
    unfold leastDelay
    split
    · split <;> exact ⟨_, rfl⟩
    · exact ⟨_, rfl⟩

theorem foldl_max_spec (l : List Sample) (d : Int) :
    d ≤ l.foldl (fun m y => max m y.delay) d ∧ (∀ y ∈ l, y.delay ≤ l.foldl (fun m y => max m y.delay) d) ∧
      (l.foldl (fun m y => max m y.delay) d = d ∨ ∃ y ∈ l, y.delay = l.foldl (fun m y => max m y.delay) d) := by
  induction l generalizing d with
  | nil => simp
  | cons x l ih =>
    obtain ⟨hstart, hall, hfrom⟩ := ih (max d x.delay)
    simp only [List.foldl_cons]
    refine ⟨(le_max_left _ _).trans hstart, fun y hy => ?_, ?_⟩
    · obtain rfl | hy := List.mem_cons.mp hy
      · exact (le_max_right _ _).trans hstart
      · exact hall y hy
    · obtain h | ⟨y, hy, h⟩ := hfrom
      · obtain hm | hm := max_choice d x.delay
        · exact .inl (h.trans hm)
        · exact .inr ⟨x, by simp, (h.trans hm).symm⟩
      · exact .inr ⟨y, by simp [hy], h⟩

theorem foldl_min_spec (l : List Sample) (d : Int) :
    l.foldl (fun m y => min m y.delay) d ≤ d ∧ (∀ y ∈ l, l.foldl (fun m y => min m y.delay) d ≤ y.delay) ∧
      (l.foldl (fun m y => min m y.delay) d = d ∨ ∃ y ∈ l, y.delay = l.foldl (fun m y => min m y.delay) d) := by
  induction l generalizing d with
  | nil => simp
  | cons x l ih =>
    obtain ⟨hstart, hall, hfrom⟩ := ih (min d x.delay)
    simp only [List.foldl_cons]
    refine ⟨hstart.trans (min_le_left _ _), fun y hy => ?_, ?_⟩
    · obtain rfl | hy := List.mem_cons.mp hy
      · exact hstart.trans (min_le_right _ _)
      · exact hall y hy
    · obtain h | ⟨y, hy, h⟩ := hfrom
      · obtain hm | hm := min_choice d x.delay
        · exact .inl (h.trans hm)
        · exact .inr ⟨x, by simp, (h.trans hm).symm⟩
      · exact .inr ⟨y, by simp [hy], h⟩

/-- The spread is that of the largest delay and the smallest (R80). -/
theorem delaySpread_spec {ring : List Sample} (h : ring ≠ []) : ∃ hi ∈ ring, ∃ lo ∈ ring,
    (∀ y ∈ ring, lo.delay ≤ y.delay ∧ y.delay ≤ hi.delay) ∧ delaySpread ring = (hi.delay - lo.delay).toNat := by
  cases ring with
  | nil => exact absurd rfl h
  | cons x rest =>
    obtain ⟨hmaxStart, hmax, hmaxFrom⟩ := foldl_max_spec rest x.delay
    obtain ⟨hminStart, hmin, hminFrom⟩ := foldl_min_spec rest x.delay
    have largest : ∃ hi ∈ x :: rest, hi.delay = rest.foldl (fun m y => max m y.delay) x.delay := by
      obtain h | ⟨y, hy, h⟩ := hmaxFrom
      · exact ⟨x, by simp, h.symm⟩
      · exact ⟨y, by simp [hy], h⟩
    have smallest : ∃ lo ∈ x :: rest, lo.delay = rest.foldl (fun m y => min m y.delay) x.delay := by
      obtain h | ⟨y, hy, h⟩ := hminFrom
      · exact ⟨x, by simp, h.symm⟩
      · exact ⟨y, by simp [hy], h⟩
    obtain ⟨hi, hhi, hieq⟩ := largest
    obtain ⟨lo, hlo, loeq⟩ := smallest
    refine ⟨hi, hhi, lo, hlo, fun y hy => ?_, by rw [hieq, loeq]; rfl⟩
    rw [hieq, loeq]
    obtain rfl | hy := List.mem_cons.mp hy
    · exact ⟨hminStart, hmaxStart⟩
    · exact ⟨hmin y hy, hmax y hy⟩

theorem Entry.judged_iff (e : Entry) : e.judged = true ↔ e.state = .valid ∨ e.state = .suspect := decide_eq_true_iff

theorem Entry.estimate_some {e : Entry} {a : Nat} {m : Estimate} : e.estimate a = some m ↔
    ∃ x, leastDelay e.ring = some x ∧ (e.state = .valid ∨ e.state = .suspect) ∧ 2 ≤ e.ring.length ∧
      m = ⟨e.addr, decide (e.state = .suspect), x.offset, e.jitter, e.uncertainty a, e.adv⟩ := by
  unfold Entry.estimate
  cases hx : leastDelay e.ring with
  | none => simp
  | some x =>
    by_cases hc : e.judged ∧ 2 ≤ e.ring.length
    · simp only [hc, and_self, if_true, Option.some.injEq, exists_eq_left']
      exact ⟨fun h => ⟨e.judged_iff.mp hc.1, trivial, h.symm⟩, fun h => h.2.2.symm⟩
    · simp only [if_neg hc, Option.some.injEq, exists_eq_left']
      exact ⟨fun h => of_none_eq_some h, fun h => absurd ⟨e.judged_iff.mpr h.1, h.2.1⟩ hc⟩

theorem Entry.estimate_isSome (e : Entry) (a : Nat) :
    (e.estimate a).isSome = true ↔ (e.state = .valid ∨ e.state = .suspect) ∧ 2 ≤ e.ring.length := by
  rw [Option.isSome_iff_exists]
  constructor
  · rintro ⟨m, hm⟩
    obtain ⟨x, -, hstate, hlen, -⟩ := Entry.estimate_some.mp hm
    exact ⟨hstate, hlen⟩
  · rintro ⟨hstate, hlen⟩
    obtain ⟨x, hx⟩ := leastDelay_isSome (ring := e.ring) (by rintro h; simp [h] at hlen)
    exact ⟨_, Entry.estimate_some.mpr ⟨x, hx, hstate, hlen, rfl⟩⟩

/-- Settles O50: the ring is filtered, and the estimate taken from what is left of it. -/
theorem estimatesFromRings : Obligations.EstimatesFromRings := by
  intro e epoch a e'
  have hmarked : e'.marked = (e'.estimate a).isSome := rfl
  refine ⟨fun x => by simp [e', Entry.snapshot, keepRecent], List.filter_sublist, rfl, ?_, hmarked.symm, fun m hm => ?_⟩
  · rw [hmarked, Entry.estimate_isSome]
    exact Iff.rfl
  · obtain ⟨x, hx, hstate, hlen, rfl⟩ := Entry.estimate_some.mp hm
    obtain ⟨old, new, hsplit, hold, hnew⟩ := leastDelay_some hx
    obtain ⟨hi, hhi, lo, hlo, hbounds, hspread⟩ := delaySpread_spec (ring := e'.ring) (by rw [hsplit]; simp)
    refine ⟨rfl, rfl, decide_eq_true_iff, ⟨old, x, new, hsplit, rfl, hold, hnew⟩, hi, hhi, lo, hlo, hbounds, ?_, rfl⟩
    show e'.jitter = _
    rw [Entry.jitter, hspread]
    rfl

end Sys2Proof.Machine
end

section
/-! SUPPORT. The life of an entry: the slot of a newcomer, silence, write-back, verdicts and updates. -/

namespace Sys2Proof.Machine

/-! ### The slot of a newcomer (R62) -/

section
variable {ok : Entry → Bool} {better : Entry → Entry → Bool}

/-- One step of the choice: the content `o` of slot `i` against the best so far. -/
def pickStep (ok : Entry → Bool) (better : Entry → Entry → Bool) (o : Option Entry) (i : Nat) (best : Option (Nat × Entry)) :
    Option (Nat × Entry) :=
  match o, best with
  | some e, some b => if ok e && better e b.2 then some (i, e) else best
  | some e, none => if ok e then some (i, e) else none
  | none, _ => best

theorem pickSlot_cons (o : Option Entry) (rest : List (Option Entry)) (i : Nat) (best : Option (Nat × Entry)) :
    pickSlot ok better (o :: rest) i best = pickSlot ok better rest (i + 1) (pickStep ok better o i best) := by
  cases o <;> cases best <;> rfl

/-- Nothing that may be taken is better than what has been found. -/
theorem pickSlot_stands {l : List (Option Entry)} {i : Nat} {best : Option (Nat × Entry)}
    (h : ∀ b, some b ∈ l → ok b = true → ∃ x, best = some x ∧ better b x.2 = false) : pickSlot ok better l i best = best := by
  induction l generalizing i with
  | nil => rfl
  | cons o rest ih =>
    have hstep : pickStep ok better o i best = best := by
      cases o with
      | none => rfl
      | some b =>
        cases hok : ok b with
        | false => cases best <;> simp [pickStep, hok]
        | true =>
          obtain ⟨x, rfl, hworse⟩ := h b (by simp) hok
          simp [pickStep, hworse]
    rw [pickSlot_cons, hstep]
    exact ih fun b hb => h b (by simp [hb])

/-- The one that is better than every other that may be taken is found. -/
theorem pickSlot_best {l : List (Option Entry)} {i k : Nat} {e : Entry} {best : Option (Nat × Entry)} (hi : l[i]? = some (some e))
    (hok : ok e = true) (hbest : ∀ x, best = some x → better e x.2 = true)
    (hothers : ∀ j b, l[j]? = some (some b) → ok b = true → j = i ∨ better e b = true ∧ better b e = false) :
    pickSlot ok better l k best = some (k + i, e) := by
  induction l generalizing i k best with
  | nil => simp at hi
  | cons o rest ih =>
    rw [pickSlot_cons]
    cases i with
    | zero =>
      have ho : o = some e := by simpa using hi
      have hstep : pickStep ok better o k best = some (k, e) := by
        subst ho
        cases best with
        | none => simp [pickStep, hok]
        | some x => simp [pickStep, hok, hbest x rfl]
      rw [hstep]
      refine pickSlot_stands fun b hb hokb => ⟨_, rfl, ?_⟩
      obtain ⟨j, hj⟩ := List.getElem?_of_mem hb
      obtain h | h := hothers (j + 1) b (by simpa using hj) hokb
      · exact absurd h (Nat.succ_ne_zero j)
      · exact h.2
    | succ i =>
      rw [show k + (i + 1) = k + 1 + i by omega]
      refine ih (by simpa using hi) (fun x hx => ?_) fun j b hj hokb => ?_
      · cases o with
        | none => exact hbest x hx
        | some b =>
          have hbetter (hokb : ok b = true) : better e b = true :=
            ((hothers 0 b rfl hokb).resolve_left (Nat.succ_ne_zero i).symm).1
          cases hokb : ok b with
          | false =>
            refine hbest x ?_
            cases best with
            | none => simp [pickStep, hokb] at hx
            | some y => simpa [pickStep, hokb] using hx
          | true =>
            cases best with
            | none =>
              simp only [pickStep, hokb, if_true, Option.some.injEq] at hx
              rw [← hx]
              exact hbetter hokb
            | some y =>
              simp only [pickStep] at hx
              split at hx <;> cases hx
              · exact hbetter hokb
              · exact hbest x rfl
      · obtain h | h := hothers (j + 1) b (by simpa using hj) hokb
        · exact .inl (Nat.succ_injective h)
        · exact .inr h

end

theorem PeerTable.at_iff {t : PeerTable} {i : Nat} {e : Entry} : t.at i = some e ↔ t.slots[i]? = some (some e) := by
  rw [PeerTable.at, List.getD_eq_getElem?_getD]
  cases h : t.slots[i]? with
  | none => simp
  | some o => simp

theorem PeerTable.mem_slots {t : PeerTable} {e : Entry} (h : some e ∈ t.slots) : ∃ i, t.at i = some e := by
  obtain ⟨i, hi⟩ := List.getElem?_of_mem h
  exact ⟨i, PeerTable.at_iff.mpr hi⟩

section
variable {t : PeerTable} {bound : Nat}

/-- The lowest free slot (log 43). -/
theorem PeerTable.slotFor_free {i : Nat} (hi : t.slots[i]? = some none) (hfirst : ∀ j, j < i → t.slots[j]? ≠ some none) :
    t.slotFor bound = some i := by
  have hfind : t.slots.findIdx? Option.isNone = some i := by
    obtain ⟨hlt, hget⟩ := List.getElem?_eq_some_iff.mp hi
    refine List.findIdx?_eq_some_iff_getElem.mpr ⟨hlt, by rw [hget]; rfl, fun j hj => ?_⟩
    have hne := hfirst j hj
    rw [List.getElem?_eq_getElem (by omega), Ne, Option.some.injEq] at hne
    simpa using hne
  simp only [PeerTable.slotFor, hfind]

/-- Without a free slot the choice is between the STALE entries and those that may be evicted (R62). -/
theorem PeerTable.slotFor_full (hfull : ∀ i : Nat, t.slots[i]? ≠ some none) : t.slotFor bound =
    (pickSlot (fun e => decide (e.state = .stale))
      (fun e b => decide (b.silence < e.silence ∨ e.silence = b.silence ∧ e.addr < b.addr)) t.slots 0 none).elim
    ((pickSlot (fun e => !e.contributor && decide (e.state ≠ .lockedOut))
      (fun e b => decide (b.adv.bound < e.adv.bound ∨ e.adv.bound = b.adv.bound ∧ b.addr < e.addr)) t.slots 0 none).bind
        fun b => if bound < b.2.adv.bound then some b.1 else none)
    fun b => some b.1 := by
  have hfind : t.slots.findIdx? Option.isNone = none := by
    rw [List.findIdx?_eq_none_iff]
    intro o ho
    cases o with
    | some e => rfl
    | none =>
      obtain ⟨i, hi⟩ := List.getElem?_of_mem ho
      exact absurd hi (hfull i)
  rw [PeerTable.slotFor, hfind]
  dsimp only
  generalize pickSlot (fun e => decide (e.state = .stale)) _ t.slots 0 none = stale
  generalize pickSlot (fun e => !e.contributor && decide (e.state ≠ .lockedOut)) _ t.slots 0 none = evicted
  cases stale <;> cases evicted <;> rfl

theorem PeerTable.slotFor_stale (hfull : ∀ i : Nat, t.slots[i]? ≠ some none) {i : Nat} {e : Entry} (he : t.at i = some e)
    (hstale : e.state = .stale)
    (hbest : ∀ j b, t.at j = some b → b.state = .stale → j = i ∨ b.silence < e.silence ∨ b.silence = e.silence ∧ e.addr < b.addr) :
    t.slotFor bound = some i := by
  rw [PeerTable.slotFor_full hfull, pickSlot_best (i := i) (e := e) (PeerTable.at_iff.mp he) (decide_eq_true hstale)
    (fun _ h => of_none_eq_some h) fun j b hj hb => ?_]
  · simp
  · have := hbest j b (PeerTable.at_iff.mpr hj) (of_decide_eq_true hb)
    simp only [decide_eq_true_eq, decide_eq_false_iff_not]
    omega

theorem PeerTable.slotFor_evict (hfull : ∀ i : Nat, t.slots[i]? ≠ some none) (hstale : ∀ j b, t.at j = some b → b.state ≠ .stale)
    {i : Nat} {e : Entry} (he : t.at i = some e) (hc : e.contributor = false) (hl : e.state ≠ .lockedOut)
    (hbest : ∀ j b, t.at j = some b → b.contributor = false → b.state ≠ .lockedOut →
      j = i ∨ b.adv.bound < e.adv.bound ∨ b.adv.bound = e.adv.bound ∧ b.addr < e.addr) :
    t.slotFor bound = if bound < e.adv.bound then some i else none := by
  have hnone : pickSlot (fun e => decide (e.state = .stale))
      (fun e b => decide (b.silence < e.silence ∨ e.silence = b.silence ∧ e.addr < b.addr)) t.slots 0 none = none := by
    refine pickSlot_stands fun b hb hok => ?_
    obtain ⟨j, hj⟩ := PeerTable.mem_slots hb
    exact absurd (of_decide_eq_true hok) (hstale j b hj)
  rw [PeerTable.slotFor_full hfull, hnone, pickSlot_best (i := i) (e := e) (PeerTable.at_iff.mp he) (by simp [hc, hl])
    (fun _ h => of_none_eq_some h) fun j b hj hb => ?_]
  · simp
  · simp only [Bool.and_eq_true, Bool.not_eq_true', decide_eq_true_eq] at hb
    have := hbest j b (PeerTable.at_iff.mpr hj) hb.1 hb.2
    simp only [decide_eq_true_eq, decide_eq_false_iff_not]
    omega

theorem PeerTable.slotFor_none (hfull : ∀ i : Nat, t.slots[i]? ≠ some none) (hstale : ∀ j b, t.at j = some b → b.state ≠ .stale)
    (hkept : ∀ j b, t.at j = some b → b.contributor = true ∨ b.state = .lockedOut) : t.slotFor bound = none := by
  have hnone : pickSlot (fun e => decide (e.state = .stale))
      (fun e b => decide (b.silence < e.silence ∨ e.silence = b.silence ∧ e.addr < b.addr)) t.slots 0 none = none := by
    refine pickSlot_stands fun b hb hok => ?_
    obtain ⟨j, hj⟩ := PeerTable.mem_slots hb
    exact absurd (of_decide_eq_true hok) (hstale j b hj)
  have hevict : pickSlot (fun e => !e.contributor && decide (e.state ≠ .lockedOut))
      (fun e b => decide (b.adv.bound < e.adv.bound ∨ e.adv.bound = b.adv.bound ∧ b.addr < e.addr)) t.slots 0 none = none := by
    refine pickSlot_stands fun b hb hok => ?_
    obtain ⟨j, hj⟩ := PeerTable.mem_slots hb
    simp only [Bool.and_eq_true, Bool.not_eq_true', decide_eq_true_eq] at hok
    obtain h | h := hkept j b hj
    · exact absurd (hok.1.symm.trans h) Bool.false_ne_true
    · exact absurd h hok.2
  rw [PeerTable.slotFor_full hfull, hnone, hevict]
  rfl

end

/-! ### Silence, write-back, updates (R64 to R72, R81, R82) -/

section
variable {e : Entry} {limit k : Nat}

theorem Entry.measurable_iff (e : Entry) : e.measurable = true ↔ e.state ≠ .lockedOut ∧ e.state ≠ .stale := by
  unfold Entry.measurable
  cases e.state <;> decide

theorem Entry.age_unmeasurable (h : e.state = .lockedOut ∨ e.state = .stale) : e.age limit k =
    if e.state = .stale ∧ limit ≤ min limit (e.silence + 1) then none
    else some { e with silence := min limit (e.silence + 1) } := by
  have hm : ¬(e.measurable = true ∧ k ≤ min limit (e.silence + 1)) := fun hc => by
    obtain ⟨hl, hs⟩ := e.measurable_iff.mp hc.1
    exact h.elim hl hs
  simp only [Entry.age, if_neg hm]

theorem Entry.age_fresh (hs : e.state ≠ .stale) (hk : min limit (e.silence + 1) < k) :
    e.age limit k = some { e with silence := min limit (e.silence + 1) } := by
  have hm : ¬(e.measurable = true ∧ k ≤ min limit (e.silence + 1)) := fun hc => absurd hc.2 (Nat.not_le.mpr hk)
  simp only [Entry.age, if_neg hm, hs, false_and, if_false]

theorem Entry.age_stale (hl : e.state ≠ .lockedOut) (hs : e.state ≠ .stale) (hk : k ≤ min limit (e.silence + 1)) :
    e.age limit k = if limit ≤ min limit (e.silence + 1) then none
      else some (Entry.cleared { e with silence := min limit (e.silence + 1) } .stale) := by
  have hm : e.measurable = true ∧ k ≤ min limit (e.silence + 1) := ⟨e.measurable_iff.mpr ⟨hl, hs⟩, hk⟩
  simp only [Entry.age, if_pos hm]
  simp [Entry.cleared]

theorem Entry.writeBack_unmarked {ws : List WriteBack} (h : e.marked = false ∨ ∀ w ∈ ws, w.addr ≠ e.addr) :
    e.writeBack ws = { e with contributor := false, weight := 0, marked := false } := by
  have hnone : (if e.marked then ws.find? (fun w => w.addr == e.addr) else none) = none := by
    obtain h | h := h
    · rw [h]; rfl
    · rw [List.find?_eq_none.mpr fun w hw => by simpa using h w hw, ite_self]
  rw [Entry.writeBack, hnone]

theorem Entry.writeBack_marked {ws : List WriteBack} {w : WriteBack} (hw : w ∈ ws) (hm : e.marked = true) (ha : w.addr = e.addr)
    (hnodup : (ws.map WriteBack.addr).Nodup) : e.writeBack ws =
      w.verdict.elim { e with contributor := w.weight.isSome, weight := w.weight.getD 0, marked := false }
        (Entry.verdict { e with contributor := w.weight.isSome, weight := w.weight.getD 0, marked := false }) := by
  have hfind : ws.find? (fun x => x.addr == e.addr) = some w := by
    induction ws with
    | nil => simp at hw
    | cons x ws ih =>
      obtain ⟨hx, hnodup⟩ := List.nodup_cons.mp hnodup
      obtain rfl | hw := List.mem_cons.mp hw
      · rw [List.find?_cons_of_pos (by simp [ha])]
      · rw [List.find?_cons_of_neg, ih hw hnodup]
        simp only [beq_iff_eq]
        intro h
        exact hx (List.mem_map.mpr ⟨w, hw, ha.trans h.symm⟩)
  rw [Entry.writeBack, hm, if_pos rfl, hfind]
  cases hv : w.verdict <;> simp only [hv] <;> rfl

end

/-- Settles O51: the slot by what the table holds, the entry's counts by their thresholds. -/
theorem entryLifeRules : Obligations.EntryLifeRules := by
  refine ⟨fun _ _ _ _ _ => rfl, fun t bound => ⟨fun i hi hfirst => PeerTable.slotFor_free hi hfirst, fun hfull =>
      ⟨fun i e he hs hbest => PeerTable.slotFor_stale hfull he hs hbest, fun hstale =>
        ⟨fun i e he hc hl hbest => PeerTable.slotFor_evict hfull hstale he hc hl hbest,
          fun hkept => PeerTable.slotFor_none hfull hstale hkept⟩⟩⟩, ?age, ?writeBack, ?verdict, ?update⟩
  case age =>
    intro e limit k n
    refine ⟨fun hl => ?_, fun hs => ?_, fun hl hs hk => Entry.age_fresh hs hk, fun hl hs hk => Entry.age_stale hl hs hk⟩
    · rw [Entry.age_unmeasurable (.inl hl), if_neg (by simp [hl])]
    · rw [Entry.age_unmeasurable (.inr hs)]
      simp only [hs, true_and]
      rfl
  case writeBack =>
    refine fun e ws => ⟨fun h => Entry.writeBack_unmarked h, fun w hw hm ha hnodup => ?_⟩
    intro e1
    rw [Entry.writeBack_marked hw hm ha hnodup]
    exact ⟨fun hv => by rw [hv]; rfl, fun v hv => by rw [hv]; rfl⟩
  case verdict =>
    intro e
    refine ⟨fun h => ?_, fun h => ?_, fun h => ?_, fun h => ?_⟩ <;> simp only [Entry.verdict, h]
  case update =>
    intro e b heard g hg
    have hgap : seqGap b.seq e.lastSeq = g := hg.symm
    refine ⟨?_, ?_, rfl, rfl, ?_⟩
    · simp only [Entry.update, hgap]
      rfl
    · simp only [Entry.update, hgap, and_comm]
    · unfold Entry.halve
      split <;> split <;> first | rfl | omega

end Sys2Proof.Machine
end

section
/-! SUPPORT. The message collector of the reference input, byte by byte. -/

namespace Sys2Proof.Machine

section
variable {s : State} {r : RefInput}

/-! ### The collector (R90) -/

theorem RefInput.takeByte_hunting (h : r.held = []) (b : Byte) :
    r.takeByte b = { r with quiet := 0, held := if b = 0x6E then [b] else [] } := by
  simp only [RefInput.takeByte, h]

theorem RefInput.takeByte_begun {x : Byte} (h : r.held = [x]) (b : Byte) :
    r.takeByte b = { r with quiet := 0, held := if b = 0x91 then [x, b] else if b = 0x6E then [b] else [] } := by
  simp only [RefInput.takeByte, h, List.cons_append, List.nil_append]

theorem RefInput.takeByte_collecting (h : 2 ≤ r.held.length) (b : Byte) : r.takeByte b =
    if r.held.length < 11 then { r with quiet := 0, held := r.held ++ [b] }
    else { r with quiet := 0, held := [], message := (parseMessage (r.held ++ [b])).orElse fun _ => r.message } := by
  match hr : r.held, h with
  | x :: y :: rest, _ => simp only [RefInput.takeByte, hr]

theorem RefInput.takeByte_active (r : RefInput) (b : Byte) : (r.takeByte b).active = r.active := by
  unfold RefInput.takeByte
  split
  · rfl
  · rfl
  · dsimp only
    split <;> rfl

/-- The message of twelve bytes whose last has just come (R90). -/
theorem parseMessage_orElse (m : List Byte) (old : Option Message) : ((parseMessage m).orElse fun _ => old) =
    if (m.getD 8 0).toNat ≤ 1 ∧ ((m.drop 2).map BitVec.toNat).sum % 256 = 0 then
      some ⟨ofBE ((m.drop 2).take 6), decide ((m.getD 8 0).toNat = 1), ofBE ((m.drop 9).take 2), 0⟩
    else old := by
  unfold parseMessage
  dsimp only
  split <;> rfl

theorem RefInput.takeByte_last (h : r.held.length = 11) (b : Byte) : r.takeByte b = { r with
    quiet := 0
    held := []
    message := if ((r.held ++ [b]).getD 8 0).toNat ≤ 1 ∧ (((r.held ++ [b]).drop 2).map BitVec.toNat).sum % 256 = 0 then
        some ⟨ofBE (((r.held ++ [b]).drop 2).take 6), decide (((r.held ++ [b]).getD 8 0).toNat = 1),
          ofBE (((r.held ++ [b]).drop 9).take 2), 0⟩
      else r.message } := by
  rw [RefInput.takeByte_collecting (by omega), if_neg (by omega), parseMessage_orElse]

theorem RefInput.takeBytes_append (r : RefInput) (l l' : List Byte) : r.takeBytes (l ++ l') = (r.takeBytes l).takeBytes l' := by
  induction l generalizing r with
  | nil => rfl
  | cons b l ih => exact ih (r.takeByte b)

/-- Bytes that do not complete the message join those held. -/
theorem RefInput.takeBytes_collecting {l : List Byte} (h : 2 ≤ r.held.length) (hlen : r.held.length + l.length ≤ 11)
    (hquiet : r.quiet = 0) : r.takeBytes l = { r with held := r.held ++ l } := by
  induction l generalizing r with
  | nil => simp [RefInput.takeBytes]
  | cons b l ih =>
    rw [List.length_cons] at hlen
    have hb : r.takeByte b = { r with quiet := 0, held := r.held ++ [b] } := by
      rw [RefInput.takeByte_collecting h, if_pos (by omega)]
    rw [RefInput.takeBytes, hb, ih (r := { r with quiet := 0, held := r.held ++ [b] }) (by simp; omega) (by simp; omega) rfl,
      ← hquiet]
    simp

/-- A whole message, from hunting. -/
theorem RefInput.takeBytes_message (h : r.held = []) {body : List Byte} (hlen : body.length = 10) :
    r.takeBytes ([0x6E, 0x91] ++ body) = { r with
      held := [], quiet := 0
      message := if (body.getD 6 0).toNat ≤ 1 ∧ (body.map BitVec.toNat).sum % 256 = 0 then
          some ⟨ofBE (body.take 6), decide ((body.getD 6 0).toNat = 1), ofBE ((body.drop 7).take 2), 0⟩
        else r.message } := by
  obtain ⟨init, last, rfl⟩ := (List.eq_nil_or_concat body).resolve_left (by rintro rfl; simp at hlen)
  rw [List.concat_eq_append] at hlen ⊢
  have hinit : init.length = 9 := by simpa using hlen
  have begun : r.takeBytes [0x6E, 0x91] = { r with quiet := 0, held := [0x6E, 0x91] } := by
    rw [RefInput.takeBytes, RefInput.takeByte_hunting h, RefInput.takeBytes, RefInput.takeByte_begun (x := 0x6E) rfl]
    rfl
  rw [RefInput.takeBytes_append, begun, RefInput.takeBytes_append,
    RefInput.takeBytes_collecting (r := { r with quiet := 0, held := [0x6E, 0x91] }) (by simp) (by simp [hinit]) rfl,
    RefInput.takeBytes, RefInput.takeBytes,
    RefInput.takeByte_last (r := { r with quiet := 0, held := [0x6E, 0x91] ++ init }) (by simp [hinit])]
  rfl

theorem exec_refMessage (hs : s.held = .nothing) (ha : s.ri.active = true) (bytes : List Byte) :
    exec (.refMessage bytes) s = .next { s with ri := s.ri.takeBytes bytes } := next_of_due rfl hs ha

/-- Settles O53: the collector by what it holds, a whole message as its bytes one after the other. -/
theorem messagesCollected : Obligations.MessagesCollected := by
  refine fun s hs => ⟨fun ha => ⟨exec_refMessage hs ha [], fun b bs _ => ?each, ?byte⟩,
    fun bytes ha hheld body hbytes hlen => ?whole, fun ha hquiet => ?pause, fun ha => next_of_due rfl hs ha,
    fun m hm hage => ?expiry⟩
  case each =>
    refine ⟨_, exec_refMessage hs ha [b], ?_⟩
    rw [exec_refMessage hs ha]
    exact (exec_refMessage (s := { s with ri := s.ri.takeByte b }) hs ((s.ri.takeByte_active b).trans ha) bs).symm
  case byte =>
    intro b now takes
    have run : exec (.refMessage [b]) s = .next { s with ri := s.ri.takeByte b } := exec_refMessage hs ha [b]
    refine ⟨fun h => ?_, fun x h => ?_, fun h2 h11 => ?_, fun h11 => ?_⟩
    · show exec (.refMessage [b]) s = _
      rw [run, RefInput.takeByte_hunting h]
    · show exec (.refMessage [b]) s = _
      rw [run, RefInput.takeByte_begun h]
    · show exec (.refMessage [b]) s = _
      rw [run, RefInput.takeByte_collecting h2, if_pos h11]
    · intro m
      rw [run, RefInput.takeByte_last h11]
  case whole => rw [exec_refMessage hs ha, hbytes, RefInput.takeBytes_message hheld hlen]
  case pause => exact next_of_due rfl hs (by simp [ha, byteGapTicks, usTicks, hquiet])
  case expiry => exact next_of_due rfl hs (by simp [hm, messageTicks, usTicks, hage])

end

end Sys2Proof.Machine
end

section
/-! SUPPORT. Edges at the reference input: times near one another, what an accepted edge yields, and the window gate. -/

namespace Sys2Proof.Machine

/-! ### Times on the circle (R94 to R97; log 19) -/

theorem wrapSigned_cases (m : Nat) (a : Int) :
    wrapSigned m a = a % m ∧ a % m < (m / 2 : Nat) ∨ wrapSigned m a = a % m - m ∧ ¬a % m < (m / 2 : Nat) := by
  unfold wrapSigned
  split
  next h => exact .inl ⟨rfl, h⟩
  next h => exact .inr ⟨rfl, h⟩

theorem near_iff (a b : Int) (w : Nat) : Near a b w ↔ (timeDiff a b).natAbs ≤ w := by
  have hcases := wrapSigned_cases scaleU (a - b)
  have hdiff : timeDiff a b = wrapSigned scaleU (a - b) := rfl
  rw [Near, hdiff]
  generalize wrapSigned scaleU (a - b) = v at *
  simp only [scaleU, secU, nsU] at *
  constructor
  · rintro ⟨k, hk⟩
    omega
  · intro h
    obtain ⟨hv, -⟩ | ⟨hv, -⟩ := hcases
    · exact ⟨-((a - b) / (281474976710656 * (1000000000 * 4294967296) : Nat)), by omega⟩
    · exact ⟨-((a - b) / (281474976710656 * (1000000000 * 4294967296) : Nat)) - 1, by omega⟩

theorem past_iff (now : Nat) (t : Int) : Past now t ↔ reached now t = true := by
  rw [reached, decide_eq_true_iff]
  exact Iff.rfl

/-- A difference of whole sixteenths, taken on the circle, is one. -/
theorem timeDiff_sixteenths {a b d : Int} (h : a - b = 268435456 * d) : ∃ o : Int, timeDiff a b = 268435456 * o ∧
    (o * 268435456 - (a - b)) % scaleU = 0 ∧ -(scale16 / 2 : Nat) ≤ o ∧ o < (scale16 / 2 : Nat) := by
  have hcases := wrapSigned_cases scaleU (a - b)
  have hdiff : timeDiff a b = wrapSigned scaleU (a - b) := rfl
  rw [hdiff]
  generalize wrapSigned scaleU (a - b) = v at *
  generalize a - b = x at *
  simp only [scaleU, secU, nsU, scale16] at *
  refine ⟨v / 268435456, ?_, ?_, ?_, ?_⟩ <;> omega

/-- The offset of a sample in sixteenths, of times that are whole sixteenths (R94). -/
theorem refSample_offset (m : Message) (cableUnc : Nat) {t t16 : Int} (ht : t = 268435456 * t16) :
    ((refSample m cableUnc t).offset * 268435456 - ((m.label : Int) * secU - t)) % scaleU = 0 ∧
      -(scale16 / 2 : Nat) ≤ (refSample m cableUnc t).offset ∧ (refSample m cableUnc t).offset < (scale16 / 2 : Nat) := by
  have hwhole : ((m.label * secU : Nat) : Int) - t = 268435456 * (m.label * 16000000000 - t16) := by
    simp only [ht, secU, nsU]
    omega
  obtain ⟨o, ho, hmod, hlo, hhi⟩ := timeDiff_sixteenths hwhole
  rw [Nat.cast_mul] at hmod
  have hoffset : (refSample m cableUnc t).offset = o := by
    show (timeDiff (m.label * secU : Nat) t).tdiv sixteenthU = o
    rw [ho]
    exact Int.mul_tdiv_cancel_left o (by decide)
  rw [hoffset]
  exact ⟨hmod, hlo, hhi⟩

section
variable {s : State}

/-! ### What an accepted edge yields (R94, R99, R100) -/

/-- What an edge accepted with a valid fix, and without one, leaves. -/
theorem State.yieldSample_spec (s : State) (t : Int) (o : Option Message) (w : Bool) :
    OnlyAlarms [.refLoss] { s with ri := (s.yieldSample t o w).ri } (s.yieldSample t o w) ∧
    (s.yieldSample t o w).ri = { s.ri with
      valid := (s.yieldSample t o w).ri.valid, sample := (s.yieldSample t o w).ri.sample
      noSample := (s.yieldSample t o w).ri.noSample } ∧
    (∀ m, o = some m → m.fix = true → (s.yieldSample t o w).ri.sample = some (refSample m s.mp.params.cableUnc t) ∧
      (s.yieldSample t o w).ri.noSample = 0 ∧ (s.yieldSample t o w).ri.valid = w ∧ (s.yieldSample t o w).conds.refLoss = false) ∧
    ((∀ m, o = some m → m.fix = false) → (s.yieldSample t o w).ri.sample = s.ri.sample ∧
      (s.yieldSample t o w).ri.noSample = min 3 (s.ri.noSample + 1) ∧ (s.yieldSample t o w).ri.valid = false ∧
      (s.yieldSample t o w).conds.refLoss = if 2 ≤ s.ri.noSample then true else s.conds.refLoss) := by
  cases hf : o.filter Message.fix with
  | some m =>
    obtain ⟨ho, hfix⟩ := Option.filter_eq_some_iff.mp hf
    have hyield : s.yieldSample t o w = State.judge { s with ri := { s.ri with
        sample := some (refSample m s.mp.params.cableUnc t), noSample := 0, valid := w } } .refLoss false := by
      rw [State.yieldSample, hf]
    rw [hyield, State.judge_ri]
    refine ⟨State.judge_only _ _ _, rfl, fun m' hm' _ => ?_, fun hnone => ?_⟩
    · obtain rfl := Option.some.inj (ho.symm.trans hm')
      exact ⟨rfl, rfl, rfl, State.judge_conds (k := .refLoss) _ false (by decide)⟩
    · exact absurd ((hnone m ho).symm.trans hfix) Bool.false_ne_true
  | none =>
    have hnofix (m : Message) (hm : o = some m) : ¬m.fix = true := fun hfix => by
      rw [hm, Option.filter_some, if_pos hfix] at hf
      exact absurd hf (Option.some_ne_none m)
    have hyield : s.yieldSample t o w =
        if 3 ≤ min 3 (s.ri.noSample + 1) then
          State.judge { s with ri := { s.ri with noSample := min 3 (s.ri.noSample + 1), valid := false } } .refLoss true
        else { s with ri := { s.ri with noSample := min 3 (s.ri.noSample + 1), valid := false } } := by
      rw [State.yieldSample, hf]
    rw [hyield]
    split
    next hn =>
      rw [State.judge_ri]
      refine ⟨State.judge_only _ _ _, rfl, fun m hm hfix => absurd hfix (hnofix m hm), fun _ => ⟨rfl, rfl, rfl, ?_⟩⟩
      rw [if_pos (by omega)]
      exact State.judge_conds (k := .refLoss) _ true (by decide)
    next hn =>
      refine ⟨.refl _ _, rfl, fun m hm hfix => absurd hfix (hnofix m hm), fun _ => ⟨rfl, rfl, rfl, ?_⟩⟩
      rw [if_neg (by omega)]

end

end Sys2Proof.Machine
end

section
/-! SUPPORT. The window gate: an edge in the OPEN gate, inside the window of the CLOSED gate and outside it, give-up and loss. -/

namespace Sys2Proof.Machine

section
variable {s : State}

/-- The corrected time of a capture (R92). -/
def State.edgeTime (s : State) (c : Capture) : Int := max 0 (c.stamp.value16 * sixteenthU - s.mp.params.cable * nsU)

/-- A corrected time is a whole number of sixteenths. -/
theorem State.edgeTime_sixteenths (s : State) (c : Capture) : ∃ t16 : Int, s.edgeTime c = 268435456 * t16 := by
  refine ⟨max 0 (c.stamp.value16 - s.mp.params.cable * 16), ?_⟩
  simp only [State.edgeTime, sixteenthU, nsU]
  omega

theorem State.judgeEdge_open {c : Capture} (htag : c.tag = s.tb.stepCtr) (hc : s.ri.closed = false) :
    s.judgeEdge c = s.openEdge (s.edgeTime c) := by
  rw [State.judgeEdge, if_neg (by simp [htag])]
  simp only [hc]
  rfl

theorem State.judgeEdge_near {c : Capture} (htag : c.tag = s.tb.stepCtr) (hc : s.ri.closed = true) {e : Int}
    (he : s.ri.expected = some e) (hn : Near (s.edgeTime c) e (s.mp.params.w * nsU)) :
    s.judgeEdge c = s.windowEdge (s.edgeTime c) := by
  rw [State.judgeEdge, if_neg (by simp [htag])]
  simp only [hc, he]
  exact if_pos ((near_iff _ _ _).mp hn)

theorem State.judgeEdge_far {c : Capture} (htag : c.tag = s.tb.stepCtr) (hc : s.ri.closed = true) {e : Int}
    (he : s.ri.expected = some e) (hn : ¬Near (s.edgeTime c) e (s.mp.params.w * nsU)) :
    s.judgeEdge c = s.misplacedEdge := by
  rw [State.judgeEdge, if_neg (by simp [htag])]
  simp only [hc, he]
  exact if_neg (mt (near_iff _ _ _).mpr hn)

theorem exec_refEdge (hs : s.held = .nothing) (ha : s.ri.active = true) (q : BitVec 7) : exec (.refEdge ⟨q, false⟩) s =
    .next (State.judgeEdge { s with tb := { s.tb with ref := some (s.tb.capture q.toNat) } } (s.tb.capture q.toNat)) :=
  next_of_due rfl hs ha

/-- What an accepted edge leaves of the reference input in the OPEN gate, but for its sample (R95, R98). -/
def RefInput.paired (r : RefInput) (t : Int) (label : Nat) : RefInput :=
  (({ r with message := none }.accept t).qualify t label).closeAt t

/-- What an edge inside the window leaves of the reference input, but for its sample (R96, R98). -/
def RefInput.moved (r : RefInput) (t : Int) : RefInput :=
  { r.accept t with expected := some (wrapTop (t + secU)), misplaced := 0, message := none }

theorem State.openEdge_paired {m : Message} (h : s.ri.message = some m) (t : Int) :
    s.openEdge t = State.yieldSample { s with ri := s.ri.paired t m.label } t (some m) false := by
  simp only [State.openEdge, h]
  rfl

/-- The qualifying run after a paired edge (R95). -/
theorem RefInput.qualify_eq (r : RefInput) (t : Int) (label : Nat) {n : Nat} (hfirst : r.run = 0 → n = 1)
    (hfollows : 0 < r.run → Near t (r.runTime + secU) (1000 * nsU) → label = (r.runLabel + 1) % 281474976710656 → n = r.run + 1)
    (hbreaks : 0 < r.run → ¬(Near t (r.runTime + secU) (1000 * nsU) ∧ label = (r.runLabel + 1) % 281474976710656) → n = 1) :
    r.qualify t label = { r with run := n, runTime := t, runLabel := label } := by
  unfold RefInput.qualify
  dsimp only
  congr 1
  split
  next h => exact (hfirst h).symm
  next h =>
    have hpos : 0 < r.run := Nat.pos_of_ne_zero h
    split
    next hf => exact (hfollows hpos ((near_iff _ _ _).mpr hf.1) hf.2).symm
    next hf => exact (hbreaks hpos fun h => hf ⟨(near_iff _ _ _).mp h.1, h.2⟩).symm

theorem RefInput.closeAt_eq (r : RefInput) (t : Int) (hc : r.closed = false) : r.closeAt t = { r with
    run := if r.run < 4 then r.run else 0
    closed := decide (4 ≤ r.run)
    expected := if r.run < 4 then r.expected else some (wrapTop (t + secU))
    misplaced := if r.run < 4 then r.misplaced else 0 } := by
  unfold RefInput.closeAt
  by_cases h : r.run < 4
  · have h' : ¬4 ≤ r.run := by omega
    rw [if_neg h', if_pos h, if_pos h, if_pos h, decide_eq_false h', ← hc]
  · have h' : 4 ≤ r.run := by omega
    rw [if_pos h', if_neg h, if_neg h, if_neg h, decide_eq_true h']

theorem RefInput.paired_eq {r : RefInput} (hc : r.closed = false) (t : Int) (label : Nat) {n : Nat} (hfirst : r.run = 0 → n = 1)
    (hfollows : 0 < r.run → Near t (r.runTime + secU) (1000 * nsU) → label = (r.runLabel + 1) % 281474976710656 → n = r.run + 1)
    (hbreaks : 0 < r.run → ¬(Near t (r.runTime + secU) (1000 * nsU) ∧ label = (r.runLabel + 1) % 281474976710656) → n = 1) :
    r.paired t label = { r with
      message := none, last := some t, deadline := some (t + lossSpan), runTime := t, runLabel := label
      run := if n < 4 then n else 0
      closed := decide (4 ≤ n)
      expected := if n < 4 then r.expected else some (wrapTop (t + secU))
      misplaced := if n < 4 then r.misplaced else 0 } := by
  have hqualify : ({ r with message := none }.accept t : RefInput).qualify t label = { r with
      message := none, last := some t, deadline := some (t + lossSpan), run := n, runTime := t, runLabel := label } :=
    RefInput.qualify_eq ({ r with message := none }.accept t) t label hfirst hfollows hbreaks
  rw [RefInput.paired, hqualify]
  exact RefInput.closeAt_eq _ t hc

theorem RefInput.paired_sample (r : RefInput) (t : Int) (label : Nat) :
    (r.paired t label).sample = r.sample ∧ (r.paired t label).noSample = r.noSample := by
  unfold RefInput.paired RefInput.closeAt
  split <;> exact ⟨rfl, rfl⟩

theorem State.windowEdge_spec (s : State) (t : Int) (o : Option Message) (u : State)
    (hu : u = (s.yieldSample t o true).judge .refMisplaced false) :
    OnlyAlarms [.refLoss, .refMisplaced] { s with ri := u.ri } u ∧ u.ri = (s.yieldSample t o true).ri ∧
      u.conds.refLoss = (s.yieldSample t o true).conds.refLoss ∧ u.conds.refMisplaced = false := by
  subst hu
  have only := (s.yieldSample t o true).judge_only .refMisplaced false
  have hri : ((s.yieldSample t o true).judge .refMisplaced false).ri = (s.yieldSample t o true).ri := State.judge_ri _ _ _
  rw [hri]
  exact ⟨((s.yieldSample_spec t o true).1.mono (by simp)).trans (only.mono (by simp)), rfl,
    only.conds .refLoss (by decide) (by decide), State.judge_conds (k := .refMisplaced) _ false (by decide)⟩

theorem State.giveUpDue_iff {e : Int} (hc : s.ri.closed = true) (he : s.ri.expected = some e) :
    s.giveUpDue = true ↔ Past s.tb.counter.value (e + (500000000 * nsU : Nat)) := by
  rw [State.giveUpDue, hc, he, past_iff, show secU / 2 = 500000000 * nsU from rfl]
  simp

theorem State.lossDue_iff {d : Int} (hd : s.ri.deadline = some d) : s.lossDue = true ↔ Past s.tb.counter.value d := by
  rw [State.lossDue, hd, past_iff]
  simp

/-- Settles O54: the edge by the gate and the window, its sample by the message, the two deadlines by the counter. -/
theorem edgesJudgedByGate : Obligations.EdgesJudgedByGate := by
  refine ⟨?edge, fun s e hs hc he hpast => ⟨fun hloss => ?giveUp, fun d hd hdue => ?lossFirst⟩, fun s d hs hd hpast => ?loss⟩
  case edge =>
    intro s q hs ha stampAt cap t next s1 accepted sampled unsampled
    have run := exec_refEdge hs ha q
    have hcapture : s.tb.capture q.toNat = ⟨cap, s.tb.stepCtr⟩ := rfl
    have htime : s1.edgeTime ⟨cap, s.tb.stepCtr⟩ = t := rfl
    obtain ⟨t16, ht16⟩ := s1.edgeTime_sixteenths ⟨cap, s.tb.stepCtr⟩
    rw [htime] at ht16
    have hnext : wrapTop (t + secU) = next := rfl
    rw [hcapture] at run
    have run : exec (.refEdge ⟨q, false⟩) s = .next (s1.judgeEdge ⟨cap, s.tb.stepCtr⟩) := run
    refine ⟨fun b hb htag => ?late, fun hc hm => ?unpaired, fun m hc hm => ?paired, fun e hc he hn => ?near, fun e hc he hn => ?far⟩
    case late =>
      refine (next_of_due rfl hs ha).trans (congrArg Host.Outcome.next ?_)
      have hcap : s.tb.refCapture ⟨q, true⟩ = some ⟨stampAt b.counter, b.stepCtr⟩ := by
        simp only [TimeBase.refCapture, TimeBase.captureBefore, hb, if_true, Option.map_some]
        rfl
      simp only [hcap]
      exact if_pos htag
    case unpaired =>
      rw [run, State.judgeEdge_open (s := s1) rfl hc, State.openEdge, show s1.ri.message = none from hm]
    case paired =>
      rw [State.judgeEdge_open (s := s1) rfl hc, htime, State.openEdge_paired (s := s1) hm] at run
      generalize hr : s1.ri.paired t m.label = r at run
      obtain ⟨only, hri, hsample, hnone⟩ := State.yieldSample_spec { s1 with ri := r } t (some m) false
      refine ⟨_, run, only, fun hfix => ?_, fun hfix => ?_, fun n hfirst hfollows hbreaks => ?_⟩
      · obtain ⟨hx, hn, -, hloss⟩ := hsample m rfl hfix
        obtain ⟨hmod, hlo, hhi⟩ := refSample_offset m s.mp.params.cableUnc ht16
        exact ⟨_, hx, rfl, rfl, hmod, hlo, hhi, hn, hloss⟩
      · obtain ⟨hx, hn, -, hloss⟩ := hnone fun m' hm' => by rw [← Option.some.inj hm']; exact hfix
        obtain ⟨hkept, hcount⟩ := s1.ri.paired_sample t m.label
        rw [hr] at hkept hcount
        exact ⟨hx.trans hkept, hn.trans (congrArg (fun k => min 3 (k + 1)) hcount),
          hloss.trans (congrArg (fun k => if 2 ≤ k then true else s.conds.refLoss) hcount)⟩
      · have hvalid : (State.yieldSample { s1 with ri := r } t (some m) false).ri.valid = false := by
          cases hfix : m.fix with
          | true => exact (hsample m rfl hfix).2.2.1
          | false => exact (hnone fun m' hm' => by rw [← Option.some.inj hm']; exact hfix).2.2.1
        rw [hvalid] at hri
        rw [RefInput.paired_eq (r := s1.ri) hc t m.label hfirst hfollows hbreaks] at hr
        rw [← hr] at hri ⊢
        exact hri
    case near =>
      have hwindow : s1.windowEdge t =
          (State.yieldSample { s1 with ri := s1.ri.moved t } t s.ri.message true).judge .refMisplaced false := rfl
      rw [State.judgeEdge_near (s := s1) rfl hc he (by rw [htime]; exact hn), htime, hwindow] at run
      generalize hr : s1.ri.moved t = r at run
      obtain ⟨-, hri, hsample, hnone⟩ := State.yieldSample_spec { s1 with ri := r } t s.ri.message true
      obtain ⟨only, hsame, hloss, hmisplaced⟩ := State.windowEdge_spec { s1 with ri := r } t s.ri.message _ rfl
      have hfixed : (∃ m, s.ri.message = some m ∧ m.fix = true) ∨ ∀ m, s.ri.message = some m → m.fix = false := by
        refine or_iff_not_imp_left.mpr fun h m hm => Bool.eq_false_iff.mpr fun hfix => h ⟨m, hm, hfix⟩
      refine ⟨_, run, only, ?_, hmisplaced, ?_, fun m hm hfix => ?_, fun hall => ?_⟩
      · rw [hsame]
        subst hr
        exact hri
      · rw [hsame]
        obtain ⟨m, hm, hfix⟩ | hall := hfixed
        · exact iff_of_true (hsample m hm hfix).2.2.1 ⟨m, hm, hfix⟩
        · refine iff_of_false (by rw [(hnone hall).2.2.1]; exact Bool.false_ne_true) fun ⟨m, hm, hfix⟩ => ?_
          exact absurd ((hall m hm).symm.trans hfix) Bool.false_ne_true
      · obtain ⟨hx, hn, -, hfalse⟩ := hsample m hm hfix
        obtain ⟨hmod, hlo, hhi⟩ := refSample_offset m s.mp.params.cableUnc ht16
        exact ⟨_, (congrArg RefInput.sample hsame).trans hx, rfl, rfl, hmod, hlo, hhi,
          (congrArg RefInput.noSample hsame).trans hn, hloss.trans hfalse⟩
      · obtain ⟨hx, hn, -, hraised⟩ := hnone hall
        subst hr
        exact ⟨(congrArg RefInput.sample hsame).trans hx, (congrArg RefInput.noSample hsame).trans hn, hloss.trans hraised⟩
    case far =>
      rw [State.judgeEdge_far (s := s1) rfl hc he (by rw [htime]; exact hn)] at run
      refine ⟨fun hfew => ?_, fun hmany => ⟨_, run, ?_⟩⟩
      · rw [run, State.misplacedEdge, if_neg]
        show ¬3 ≤ s.ri.misplaced + 1
        omega
      · have h3 : 3 ≤ s1.ri.misplaced + 1 := Nat.succ_le_succ hmany
        rw [State.misplacedEdge, if_pos h3]
        exact ⟨State.judge_conds (k := .refMisplaced) _ true (by decide),
          State.judge_only { s1 with ri := s1.ri.reopen } .refMisplaced true⟩
  case giveUp =>
    have hnot : s.lossDue = false := by
      rw [Bool.eq_false_iff]
      cases hd : s.ri.deadline with
      | none => simp [State.lossDue, hd]
      | some d => exact mt (State.lossDue_iff hd).mp (hloss d hd)
    refine (next_of_due rfl hs (by simp [(State.giveUpDue_iff hc he).mpr hpast, hnot])).trans (congrArg Host.Outcome.next ?_)
    simp only [he, Option.map_some]
    rfl
  case lossFirst => exact next_of_not_due rfl (by simp [(State.lossDue_iff hd).mpr hdue])
  case loss =>
    exact ⟨_, next_of_due rfl hs ((State.lossDue_iff hd).mpr hpast), State.judge_conds (k := .refLoss) _ true (by decide),
      State.judge_only { s with ri := { s.ri.reopen with deadline := none } } .refLoss true⟩

end

end Sys2Proof.Machine
end

section
/-! SUPPORT. A record of the history store in its slot: the fields read back from the bytes, and the states of a slot. -/

namespace Sys2Proof.Machine

/-! ### Signed values in bytes -/

theorem ofBESigned_beInt {k : Nat} {v : Int} (hlo : -(256 ^ k : Nat) ≤ 2 * v) (hhi : 2 * v < (256 ^ k : Nat)) :
    ofBESigned (beInt k v) = v := by
  have hpos : 0 < 256 ^ k := Nat.pow_pos (by decide)
  rw [ofBESigned, beInt_length, beInt, ofBE_be (by omega)]
  by_cases hv : 0 ≤ v
  · rw [Int.emod_eq_of_lt hv (by omega)]
    split <;> omega
  · have hmod : v % (256 ^ k : Nat) = v + (256 ^ k : Nat) := by
      rw [← Int.add_emod_right, Int.emod_eq_of_lt (by omega) (by omega)]
    rw [hmod]
    split <;> omega

theorem beInt_ofBESigned (bytes : List Byte) : beInt bytes.length (ofBESigned bytes) = bytes := by
  have hlt := ofBE_lt bytes
  have hmod : ofBESigned bytes % (256 ^ bytes.length : Nat) = ofBE bytes := by
    rw [ofBESigned]
    split
    · exact Int.emod_eq_of_lt (by omega) (by omega)
    · rw [Int.sub_emod_right, Int.emod_eq_of_lt (by omega) (by omega)]
  rw [beInt, hmod, Int.toNat_natCast, be_ofBE]

theorem beInt_ofBESigned_of_length {bytes : List Byte} {k : Nat} (h : bytes.length = k) : beInt k (ofBESigned bytes) = bytes := by
  rw [← h, beInt_ofBESigned]

/-! ### The fields of a record (08, section 8.3) -/

/-- The record that the first 16 bytes of a slot spell, in range or not. -/
def readRecord (bytes : List Byte) : HistRecord where
  seq := ofBE (bytes.take 3)
  fNew := ofBESigned ((bytes.drop 3).take 4)
  slope := ofBESigned ((bytes.drop 7).take 2)
  n := ofBE ((bytes.drop 9).take 1)
  time := ofBE ((bytes.drop 10).take 6)

/-- The checks of R159 on a slot's bytes. -/
def recordChecked (bytes : List Byte) : Prop :=
  let r := readRecord bytes
  slotState bytes = .committed ∧ ofBE ((bytes.drop 16).take 2) = crc16 (bytes.take 16) ∧ r.seq ≠ 0 ∧
    -100000000 ≤ r.fNew ∧ r.fNew ≤ 100000000 ∧ -1000 ≤ r.slope ∧ r.slope ≤ 1000 ∧ r.n ≤ 64

theorem parseRecord_iff_checked {bytes : List Byte} {r : HistRecord} :
    parseRecord bytes = some r ↔ recordChecked bytes ∧ readRecord bytes = r := by
  by_cases h : recordChecked bytes
  · have hparse : parseRecord bytes = some (readRecord bytes) := if_pos h
    simp [hparse, h]
  · have hparse : parseRecord bytes = none := if_neg h
    simp [hparse, h]

theorem HistRecord.Wf.readRecord_head {r : HistRecord} (h : r.Wf) (rest : List Byte) : readRecord (r.head ++ rest) = r := by
  obtain ⟨hseq, ⟨hfLo, hfHi⟩, hslope, hn, htime⟩ := h
  have seq : (r.head ++ rest).take 3 = be 3 r.seq := rfl
  have fNew : ((r.head ++ rest).drop 3).take 4 = beInt 4 r.fNew := rfl
  have slope : ((r.head ++ rest).drop 7).take 2 = beInt 2 r.slope := rfl
  have n : ((r.head ++ rest).drop 9).take 1 = be 1 r.n := rfl
  have time : ((r.head ++ rest).drop 10).take 6 = be 6 r.time := rfl
  rw [readRecord, seq, fNew, slope, n, time, ofBE_be (by omega), ofBESigned_beInt (by omega) (by omega),
    ofBESigned_beInt (by omega) (by omega), ofBE_be (by omega), ofBE_be (by omega)]

theorem head_readRecord {bytes : List Byte} (h : 16 ≤ bytes.length) : (readRecord bytes).head = bytes.take 16 := by
  have first : (bytes.take 3).length = 3 := List.length_take_of_le (by omega)
  have len (off n : Nat) (hn : off + n ≤ 16) : ((bytes.drop off).take n).length = n := by simp; omega
  have parts : bytes.take 3 ++ (bytes.drop 3).take 4 ++ (bytes.drop 7).take 2 ++ (bytes.drop 9).take 1 ++ (bytes.drop 10).take 6 =
      bytes.take 16 := by
    simp only [← List.take_add, Nat.reduceAdd]
  rw [HistRecord.head, readRecord]
  dsimp only
  rw [be_ofBE_of_length first, beInt_ofBESigned_of_length (len 3 4 (by decide)),
    beInt_ofBESigned_of_length (len 7 2 (by decide)), be_ofBE_of_length (len 9 1 (by decide)),
    be_ofBE_of_length (len 10 6 (by decide))]
  exact parts

theorem readRecord_wf {bytes : List Byte} (h : 16 ≤ bytes.length) (hc : recordChecked bytes) : (readRecord bytes).Wf := by
  obtain ⟨-, -, hseq, hfLo, hfHi, hsLo, hsHi, hn⟩ := hc
  have hseqlt : (readRecord bytes).seq < 256 ^ 3 := by
    have := ofBE_lt (bytes.take 3)
    rwa [List.length_take_of_le (by omega)] at this
  have htime : (readRecord bytes).time < 256 ^ 6 := by
    have := ofBE_lt ((bytes.drop 10).take 6)
    rwa [List.length_take_of_le (by simp; omega)] at this
  exact ⟨⟨Nat.pos_of_ne_zero hseq, Nat.le_of_lt_succ hseqlt⟩, ⟨hfLo, hfHi⟩, ⟨hsLo, hsHi⟩, hn, htime⟩

theorem crc16_lt (bytes : List Byte) : crc16 bytes < 256 ^ 2 := BitVec.isLt _

/-- A valid record, both ways (R159). -/
theorem parseRecord_iff {bytes : List Byte} (h : bytes.length = 32) {r : HistRecord} : parseRecord bytes = some r ↔
    slotState bytes = .committed ∧ r.Wf ∧ bytes.take 16 = r.head ∧ (bytes.drop 16).take 2 = be 2 (crc16 (bytes.take 16)) := by
  rw [parseRecord_iff_checked]
  constructor
  · rintro ⟨hc, rfl⟩
    have hlen : ((bytes.drop 16).take 2).length = 2 := by simp [h]
    exact ⟨hc.1, readRecord_wf (by omega) hc, (head_readRecord (by omega)).symm, by rw [← hc.2.1, be_ofBE_of_length hlen]⟩
  · rintro ⟨hstate, hwf, hhead, hcrc⟩
    have hread : readRecord bytes = r := by
      rw [← List.take_append_drop 16 bytes, hhead, hwf.readRecord_head]
    obtain ⟨⟨hseq, -⟩, ⟨hfLo, hfHi⟩, ⟨hsLo, hsHi⟩, hn, -⟩ := hwf
    rw [recordChecked, hread]
    exact ⟨⟨hstate, by rw [hcrc, ofBE_be (crc16_lt _)], Nat.ne_of_gt hseq, hfLo, hfHi, hsLo, hsHi, hn⟩, rfl⟩

/-! ### The states of a slot (R159; log 37) -/

theorem slotState_erased_iff {bytes : List Byte} (h : bytes.length = 32) :
    slotState bytes = .erased ↔ bytes = List.replicate 32 0xFF := by
  rw [List.eq_replicate_iff, slotState]
  split
  next hall => simpa [h, erased] using hall
  next hall =>
    simp only [List.all_eq_true, beq_iff_eq] at hall
    refine ⟨fun hs => ?_, fun hs => absurd hs.2 hall⟩
    split at hs <;> cases hs

theorem slotState_committed_iff {bytes : List Byte} (h : bytes.length = 32) :
    slotState bytes = .committed ↔ bytes[31]? = some 0 := by
  have hlast : bytes[31]? = some (bytes.getD 31 erased) := by
    rw [List.getD_eq_getElem _ _ (by omega), List.getElem?_eq_getElem (by omega)]
  rw [hlast, Option.some.injEq, slotState]
  split
  next hall =>
    have hFF : bytes.getD 31 erased = erased :=
      beq_iff_eq.mp (List.all_eq_true.mp hall _ (List.mem_of_getElem? hlast))
    rw [hFF]
    exact ⟨nofun, fun h0 => absurd h0 (by decide)⟩
  next =>
    generalize bytes.getD 31 erased = b
    split
    next hb => exact ⟨fun _ => hb, fun _ => rfl⟩
    next hb => exact ⟨nofun, fun h0 => absurd h0 hb⟩

theorem HistRecord.slot_committed (r : HistRecord) : slotState r.slot = .committed :=
  (slotState_committed_iff r.slot_length).mpr rfl

theorem HistRecord.head_eq (r : HistRecord) : r.head =
    be 3 r.seq ++ beInt 4 r.fNew ++ beInt 2 r.slope ++ [BitVec.ofNat 8 r.n] ++ be 6 r.time := by
  have hn : be 1 r.n = [BitVec.ofNat 8 r.n] := by simp [be]
  rw [HistRecord.head, hn]

theorem HistRecord.slot_head (r : HistRecord) : r.slot.take 16 = r.head := rfl

theorem HistRecord.Wf.parse_slot {r : HistRecord} (h : r.Wf) : parseRecord r.slot = some r := by
  refine (parseRecord_iff r.slot_length).mpr ⟨r.slot_committed, h, r.slot_head, ?_⟩
  rw [r.slot_head]
  rfl

/-- Settles O57: what the checks of R159 let pass is what the fields of a record in range spell. -/
theorem recordReadBackAsProgrammed : Obligations.RecordReadBackAsProgrammed := by
  refine ⟨fun bytes h => ⟨slotState_erased_iff h, slotState_committed_iff h, fun r => ?_⟩, fun r hwf => ?_⟩
  · rw [parseRecord_iff h, r.head_eq]
  · intro f
    have hhead : f 0 16 = r.head := r.slot_head
    have hn : be 1 r.n = [BitVec.ofNat 8 r.n] := by simp [be]
    exact ⟨r.slot_length, r.slot_committed, hwf.parse_slot, rfl, rfl, rfl, hn, rfl, by rw [hhead]; rfl, rfl, rfl⟩

end Sys2Proof.Machine
end

section
/-! SUPPORT. The history store's appends: where a record goes, and what a minute boundary records. -/

namespace Sys2Proof.Machine

/-! ### The slot and the sector of an append (R161) -/

/-- The first of a finite range with a property. -/
theorem find?_finRange_eq_some {n : Nat} {p : Fin n → Bool} {k : Fin n} :
    (List.finRange n).find? p = some k ↔ p k = true ∧ ∀ j, j < k → ¬p j = true := by
  rw [List.find?_eq_some_iff_getElem]
  simp only [List.getElem_finRange, List.length_finRange, Bool.not_eq_true]
  refine and_congr_right fun _ => ⟨?_, fun h => ⟨k.val, k.isLt, rfl, fun j hj => by simpa using h ⟨j, _⟩ hj⟩⟩
  rintro ⟨i, hi, rfl, hfirst⟩ j hj
  simpa using hfirst j.val hj

theorem find?_finRange_eq_none {n : Nat} {p : Fin n → Bool} : (List.finRange n).find? p = none ↔ ∀ k, ¬p k = true := by
  simp [List.find?_eq_none]

section
variable {h : History}

theorem History.slotState_erased_iff (c : Fin 4) (k : Nat) :
    slotState (h.slotBytes c k) = .erased ↔ ∀ j, j < 32 → h.area.read (c.val * 1024 + k * 32 + j) = 0xFF := by
  rw [Machine.slotState_erased_iff (h.slotBytes_length c k), List.eq_replicate_iff]
  simp [History.slotBytes, Memory.bytes, slotBase]

theorem History.slotFree_iff (c : Fin 4) (k : Nat) : h.slotFree c k = true ↔
    (∀ j, j < 32 → h.area.read (c.val * 1024 + k * 32 + j) = 0xFF) ∧ c ∉ h.needsErase ∧ c ∉ h.unusable := by
  simp only [History.slotFree, Bool.and_eq_true, decide_eq_true_eq, History.slotState_erased_iff, Bool.not_eq_true',
    Bool.eq_false_iff, ne_eq, List.contains_iff_mem, and_assoc]

/-- The sectors in the order an append tries them. -/
theorem History.nextSector_eq :
    h.nextSector = ((List.finRange 4).map fun d => h.sector + 1 + d).find? fun c => !h.unusable.contains c := by
  have order : ∀ c : Fin 4, [c + 1, c + 2, c + 3, c] = (List.finRange 4).map fun d => c + 1 + d := by decide
  rw [History.nextSector, order]

theorem History.nextSector_iff (c : Fin 4) : h.nextSector = some c ↔ ∃ d : Fin 4, c = h.sector + 1 + d ∧ c ∉ h.unusable ∧
    ∀ d' : Fin 4, d' < d → h.sector + 1 + d' ∈ h.unusable := by
  rw [h.nextSector_eq, List.find?_map, Option.map_eq_some_iff]
  simp only [find?_finRange_eq_some, Function.comp_apply, Bool.not_eq_true', Bool.eq_false_iff, ne_eq,
    List.contains_iff_mem, not_not]
  constructor
  · rintro ⟨d, ⟨hd, hbefore⟩, rfl⟩
    exact ⟨d, rfl, hd, hbefore⟩
  · rintro ⟨d, rfl, hd, hbefore⟩
    exact ⟨d, ⟨hd, hbefore⟩, rfl⟩

theorem History.nextSector_none_iff : h.nextSector = none ↔ ∀ c, c ∈ h.unusable := by
  rw [h.nextSector_eq, List.find?_map, Option.map_eq_none_iff, find?_finRange_eq_none]
  simp only [Function.comp_apply, Bool.not_eq_true', Bool.eq_false_iff, ne_eq, List.contains_iff_mem, not_not]
  refine ⟨fun hall c => ?_, fun hall d => hall _⟩
  have hc := hall (c - (h.sector + 1))
  rwa [add_sub_cancel] at hc

/-! ### A record placed (R161, R165) -/

theorem History.place_free {k : Fin 32} (hk : h.nextFree = some k) (r : HistRecord) (retry : Bool) :
    h.place r retry = ({ h with op := .program r retry h.sector k 0 }, false) := by
  rw [History.place, hk]

theorem History.place_sector {c : Fin 4} (hfree : h.nextFree = none) (hc : h.nextSector = some c) (r : HistRecord)
    (retry : Bool) : h.place r retry = ({ h with op := .erase r retry c 0 }, false) := by
  rw [History.place, hfree, hc]

theorem History.place_dropped (hfree : h.nextFree = none) (hc : h.nextSector = none) (r : HistRecord) (retry : Bool) :
    h.place r retry = ({ h with op := .idle }, true) := by
  rw [History.place, hfree, hc]

end

section
variable {s : State}

theorem State.placeRecord_eq (r : HistRecord) (retry : Bool) : s.placeRecord r retry =
    if (s.hs.place r retry).2 = true then State.notice { s with hs := (s.hs.place r retry).1 } .historyFault
    else { s with hs := (s.hs.place r retry).1 } := rfl

theorem State.placeRecord_of_placed {h : History} {r : HistRecord} {retry : Bool} (hp : s.hs.place r retry = (h, false)) :
    s.placeRecord r retry = { s with hs := h } := by
  rw [State.placeRecord_eq, hp]
  rfl

theorem State.placeRecord_of_dropped {h : History} {r : HistRecord} {retry : Bool} (hp : s.hs.place r retry = (h, true)) :
    s.placeRecord r retry = State.notice { s with hs := h } .historyFault := by
  rw [State.placeRecord_eq, hp]
  rfl

theorem State.appendRecord_idle (hop : s.hs.op = .idle) (r : HistRecord) : s.appendRecord r = s.placeRecord r false := by
  rw [State.appendRecord, hop]

theorem State.appendRecord_waits (hop : s.hs.op ≠ .idle) (r : HistRecord) :
    s.appendRecord r = { s with hs := { s.hs with waiting := some r } } := by
  unfold State.appendRecord
  split
  next h => exact absurd h hop
  next => rfl

/-! ### A minute recorded (R156, R160) -/

theorem History.minuteWhole_iff (h : History) : h.minuteWhole = true ↔ h.count = 60 ∧ h.allTrack = true := by
  simp [History.minuteWhole]

theorem State.recordMinute_counted (h : s.hs.recorded + 1 < 60) (sec : Nat) : s.recordMinute sec = { s with hs := { s.hs with
    ring := pushMinute s.hs.ring ⟨roundDiv s.hs.sum 60, sec⟩, recorded := s.hs.recorded + 1 } } := if_pos h

theorem State.recordMinute_exhausted (h : 60 ≤ s.hs.recorded + 1) (hseq : 16777215 ≤ s.hs.lastSeq) (sec : Nat) :
    s.recordMinute sec = { s with hs := { s.hs with
      ring := pushMinute s.hs.ring ⟨roundDiv s.hs.sum 60, sec⟩, recorded := 0 } } :=
  (if_neg (Nat.not_lt.mpr h)).trans (if_pos hseq)

theorem State.recordMinute_due (h : 60 ≤ s.hs.recorded + 1) (hseq : s.hs.lastSeq < 16777215) (sec : Nat) :
    let ring := pushMinute s.hs.ring ⟨roundDiv s.hs.sum 60, sec⟩
    s.recordMinute sec =
      State.appendRecord { s with hs := { s.hs with ring := ring, recorded := 0, lastSeq := s.hs.lastSeq + 1 } }
        ({ s.hs with ring := ring }.dueRecord sec) :=
  (if_neg (Nat.not_lt.mpr h)).trans (if_neg (Nat.not_le.mpr hseq))

/-- A minute boundary, with what it makes of the minute it closes (R6, R156). -/
theorem exec_minuteBoundary {t : State} {sec : Nat} {rest : List Nat} (hs : s.held = .nothing) (hm : s.tb.minutes = sec :: rest)
    (ht : (if s.hs.minuteWhole = true then State.recordMinute { s with tb := { s.tb with minutes := rest } } sec
      else { s with tb := { s.tb with minutes := rest } }) = t) :
    exec .minuteBoundary s = .next { t with hs := t.hs.openMinute rest } := by
  refine (next_of_running rfl hs).trans (congrArg Host.Outcome.next ?_)
  simp only [hm]
  rw [← ht]

end

/-- Settles O55: the minute closed is recorded, and where a record is due it goes where R161 says. -/
theorem minutesRecorded : Obligations.MinutesRecorded := by
  refine ⟨fun h => ?slots, fun s sec rest hs hm => ?minute⟩
  case slots =>
    intro free
    have hfree (k : Fin 32) : (decide (h.nextSlot ≤ k.val) && h.slotFree h.sector k.val) = true ↔ free k := by
      rw [Bool.and_eq_true, decide_eq_true_eq, History.slotFree_iff]
    refine ⟨fun k => ?_, ?_, h.nextSector_iff, h.nextSector_none_iff⟩
    · simp only [History.nextFree, slotNumbers, find?_finRange_eq_some, hfree]
    · simp only [History.nextFree, slotNumbers, find?_finRange_eq_none, hfree]
  case minute =>
    intro mine h ring d r s1
    have whole (hc : s.hs.count = 60) (ht : s.hs.allTrack = true) {t : State} (h : s1.recordMinute sec = t) :
        exec .minuteBoundary s = .next { t with hs := t.hs.openMinute rest } :=
      exec_minuteBoundary hs hm ((if_pos (s.hs.minuteWhole_iff.mpr ⟨hc, ht⟩)).trans h)
    refine ⟨fun hbroken => ?_, fun hc ht hcount => whole hc ht (State.recordMinute_counted (s := s1) hcount sec),
      fun hc ht hcount hseq => whole hc ht (State.recordMinute_exhausted (s := s1) hcount hseq sec), fun hc ht hcount hseq => ?_⟩
    · refine exec_minuteBoundary (t := s1) hs hm (if_neg fun hw => ?_)
      obtain ⟨hc, ht⟩ := s.hs.minuteWhole_iff.mp hw
      exact hbroken.elim (absurd hc) fun hf => absurd ht (by simp [hf])
    · let a : State := { s1 with hs := { s.hs with ring := ring, recorded := 0, lastSeq := s.hs.lastSeq + 1 } }
      have due : s1.recordMinute sec = a.appendRecord r := State.recordMinute_due (s := s1) hcount hseq sec
      have goes (hop : s.hs.op = .idle) : s1.recordMinute sec = a.placeRecord r false :=
        due.trans (State.appendRecord_idle (s := a) hop r)
      refine ⟨fun hop => whole hc ht (due.trans (State.appendRecord_waits (s := a) hop r)), fun hop k hk => ?_,
        fun hop hnone c hsector => ?_, fun hop hnone hsector => ?_⟩
      · exact whole hc ht ((goes hop).trans (State.placeRecord_of_placed (s := a) (History.place_free (h := a.hs) hk r false)))
      · exact whole hc ht ((goes hop).trans
          (State.placeRecord_of_placed (s := a) (History.place_sector (h := a.hs) hnone hsector r false)))
      · have hdrop : a.hs.place r false = (a.hs, true) := by
          rw [History.place_dropped (h := a.hs) hnone hsector r false, ← hop]
        exact ⟨_, whole hc ht ((goes hop).trans (State.placeRecord_of_dropped (s := a) hdrop)),
          State.notice_only { s1 with hs := a.hs.openMinute rest } .historyFault,
          congrArg AlarmRecord.state ((State.onRecord_get a .historyFault _).trans (AlarmRecord.notice_eq _ _))⟩

end Sys2Proof.Machine
end

section
/-! SUPPORT. The ends of the record area's operations, and the start scan. -/

namespace Sys2Proof.Machine

/-! ### The record in flight and the pending append, with the notices they give (R161, R163, R165) -/

/-- The history store with a record placed, and how many HISTORY_FAULT notices that gives. -/
def History.placing (h : History) (r : HistRecord) (retry : Bool) : History × Nat :=
  ((h.place r retry).1, if (h.place r retry).2 = true then 1 else 0)

/-- The same where the operation has come to IDLE and the pending append goes. -/
def History.starting (h : History) : History × Nat :=
  h.waiting.elim (h, 0) fun r => History.placing { h with waiting := none } r false

/-- The same where a record is placed and, if it is dropped, the pending append goes. -/
def History.flying (h : History) (r : HistRecord) (retry : Bool) : History × Nat :=
  if (h.placing r retry).2 = 0 then h.placing r retry
  else ((h.placing r retry).1.starting.1, (h.placing r retry).1.starting.2 + 1)

/-- From `s` to `t` the history store has come to `h` and HISTORY_FAULT has been noticed `n` times; nothing else has changed. -/
structure Noted (h : History) (n : Nat) (s t : State) : Prop where
  state : t = { s with hs := h, au := t.au }
  quiet : n = 0 → t.au = s.au
  others : ∀ k, k ≠ .historyFault → t.au.records.get k = s.au.records.get k
  record : t.au.records.get .historyFault =
    Nat.repeat (AlarmRecord.notice ⟨s.tb.counter.sec, s.tb.counter.ns⟩) n (s.au.records.get .historyFault)

section
variable {s t : State} {h : History} {n : Nat}

theorem Noted.start (s : State) (h : History) : Noted h 0 s { s with hs := h } := ⟨rfl, fun _ => rfl, fun _ _ => rfl, rfl⟩

theorem Noted.hs (hn : Noted h n s t) : t.hs = h := congrArg State.hs hn.state

theorem Noted.withHistory (hn : Noted h n s t) (h' : History) : Noted h' n s { t with hs := h' } := by
  refine ⟨?_, hn.quiet, hn.others, hn.record⟩
  rw [hn.state]

theorem Noted.notice (hn : Noted h n s t) : Noted h (n + 1) s (t.notice .historyFault) := by
  have hnow : t.now = ⟨s.tb.counter.sec, s.tb.counter.ns⟩ := by rw [hn.state]; rfl
  refine ⟨?_, nofun, fun k hk => (State.onRecord_other t hk _).trans (hn.others k hk), ?_⟩
  · conv_lhs => rw [hn.state]
    rw [hn.state]
    rfl
  · rw [State.notice, State.onRecord_get, hnow, hn.record]
    rfl

theorem Noted.place (hn : Noted h n s t) (r : HistRecord) (retry : Bool) :
    Noted (h.placing r retry).1 (n + (h.placing r retry).2) s (t.placeRecord r retry) := by
  rw [State.placeRecord_eq, hn.hs, History.placing]
  split
  · exact (hn.withHistory _).notice
  · exact hn.withHistory _

theorem State.startWaiting_busy (hop : s.hs.op ≠ .idle) : s.startWaiting = s := by
  unfold State.startWaiting
  split
  next h _ => exact absurd h hop
  next => rfl

theorem State.startWaiting_empty (hw : s.hs.waiting = none) : s.startWaiting = s := by
  unfold State.startWaiting
  split
  next h => exact of_none_eq_some (hw.symm.trans h)
  next => rfl

theorem State.startWaiting_some {r : HistRecord} (hop : s.hs.op = .idle) (hw : s.hs.waiting = some r) :
    s.startWaiting = State.placeRecord { s with hs := { s.hs with waiting := none } } r false := by
  rw [State.startWaiting, hop, hw]

theorem Noted.startWaiting (hn : Noted h n s t) (hop : h.op = .idle) :
    Noted h.starting.1 (n + h.starting.2) s t.startWaiting := by
  cases hw : h.waiting with
  | none =>
    rw [State.startWaiting_empty (by rw [hn.hs, hw]), History.starting, hw]
    exact hn
  | some r =>
    rw [State.startWaiting_some (by rw [hn.hs, hop]) (by rw [hn.hs, hw]), hn.hs, History.starting, hw]
    exact (hn.withHistory _).place r false

/-- Where a record is dropped the operation is IDLE, and nowhere else. -/
theorem History.place_op (h : History) (r : HistRecord) (retry : Bool) :
    (h.place r retry).1.op = .idle ↔ (h.place r retry).2 = true := by
  obtain ⟨k, -, hp⟩ | ⟨c, -, -, hp⟩ | ⟨-, -, hp⟩ := h.place_cases r retry <;> simp [hp]

theorem Noted.placeNext (hn : Noted h n s t) (r : HistRecord) (retry : Bool) :
    Noted (h.flying r retry).1 (n + (h.flying r retry).2) s (t.placeNext r retry) := by
  have placed := hn.place r retry
  have hop := h.place_op r retry
  rw [State.placeNext, History.flying]
  by_cases hd : (h.place r retry).2 = true
  · have hone : (h.placing r retry).2 = 1 := if_pos hd
    have next := placed.startWaiting (hop.mpr hd)
    rw [hone] at next
    rw [if_neg (by rw [hone]; decide)]
    dsimp only
    rwa [Nat.add_comm _ 1, ← Nat.add_assoc]
  · have hzero : (h.placing r retry).2 = 0 := if_neg hd
    rw [if_pos hzero, State.startWaiting_busy]
    · exact placed
    · rw [placed.hs]
      exact fun hidle => hd (hop.mp hidle)

end

/-! ### The end of a program (R162, R163) -/

section
variable {s : State} {r : HistRecord} {retry : Bool} {c : Fin 4} {k : Fin 32} {left : List Byte}

/-- The history store as a program leaves it. -/
def History.afterProgram (h : History) (r : HistRecord) (c : Fin 4) (k : Fin 32) (left : List Byte) : History :=
  { h with
    area := h.area.writeBytes (slotBase c k.val) (programmed (h.slotBytes c k.val) r left)
    nextSlot := k.val + 1
    op := .idle }

theorem State.endProgram_noted : let h := s.hs.afterProgram r c k left
    (programmed (s.hs.slotBytes c k.val) r left = r.slot → Noted h.starting.1 h.starting.2 s (s.endProgram r retry c k left)) ∧
    (programmed (s.hs.slotBytes c k.val) r left ≠ r.slot → retry = false →
      Noted (h.flying r true).1 (1 + (h.flying r true).2) s (s.endProgram r retry c k left)) ∧
    (programmed (s.hs.slotBytes c k.val) r left ≠ r.slot → retry = true →
      Noted h.starting.1 (1 + h.starting.2) s (s.endProgram r retry c k left)) := by
  intro h
  have start := Noted.start s h
  have folded : s.endProgram r retry c k left =
      if programmed (s.hs.slotBytes c k.val) r left = r.slot then State.startWaiting { s with hs := h }
      else if retry = true then (State.notice { s with hs := h } .historyFault).startWaiting
      else (State.notice { s with hs := h } .historyFault).placeNext r true := rfl
  rw [folded]
  refine ⟨fun hok => ?_, fun hbad hr => ?_, fun hbad hr => ?_⟩
  · rw [if_pos hok]
    simpa using start.startWaiting rfl
  · rw [if_neg hbad, if_neg (by simp [hr])]
    exact start.notice.placeNext r true
  · rw [if_neg hbad, if_pos hr]
    exact start.notice.startWaiting rfl

theorem History.afterProgram_area (hwf : s.hs.area.wf = true) : (s.hs.afterProgram r c k left).area.wf = true ∧
    (∀ i, i < 32 → (s.hs.afterProgram r c k left).area.read (c.val * 1024 + k.val * 32 + i) =
      (programmed (s.hs.slotBytes c k.val) r left).getD i 0) ∧
    ∀ a, a < c.val * 1024 + k.val * 32 ∨ c.val * 1024 + k.val * 32 + 32 ≤ a →
      (s.hs.afterProgram r c k left).area.read a = s.hs.area.read a := by
  have harea : (s.hs.afterProgram r c k left).area =
      s.hs.area.writeBytes (slotBase c k.val) (programmed (s.hs.slotBytes c k.val) r left) := by
    simp only [History.afterProgram]
  have hlen := programmed_length (s.hs.slotBytes_length c k.val) r left
  rw [harea]
  generalize programmed (s.hs.slotBytes c k.val) r left = cells at hlen ⊢
  have hfits : slotBase c k.val + cells.length ≤ areaSize := by
    rw [hlen]
    exact slotBase_le c k
  refine ⟨Memory.writeBytes_wf hwf hfits, fun i hi => ?_, fun a ha => ?_⟩
  · rw [Memory.read_writeBytes hwf hfits, hlen, slotBase, if_pos (by omega), Nat.add_sub_cancel_left]
    exact getD_default (by rwa [hlen]) _ _
  · rw [Memory.read_writeBytes hwf hfits, hlen, slotBase, if_neg (by omega)]

theorem exec_programEnd {ticks : Nat} (hs : s.held = .nothing) (hop : s.hs.op = .program r retry c k ticks)
    (ht : 187500 ≤ ticks) : exec (.programEnd left) s = .next (s.endProgram r retry c k left) := by
  refine (next_of_running rfl hs).trans (congrArg Host.Outcome.next ?_)
  simp only [hop]
  exact if_pos ht

theorem exec_programEnd_early {ticks : Nat} (hop : s.hs.op = .program r retry c k ticks) (ht : ticks < 187500) :
    exec (.programEnd left) s = .next s := by
  refine next_of_eq rfl ?_
  simp only [hop]
  exact if_neg (Nat.not_le.mpr ht)

/-! ### The end of an erase (R164) -/

/-- The history store as an erase leaves it. -/
def History.afterErase (h : History) (c : Fin 4) (left : List Byte) : History :=
  { h with
    area := h.area.writeBytes (slotBase c 0) (erasedCells (h.area.bytes (slotBase c 0) 1024) left fun _ => erased)
    op := .idle }

/-- The cells of a sector as an erase leaves them. -/
def State.sectorCells (s : State) (c : Fin 4) (left : List Byte) : List Byte :=
  erasedCells (s.hs.area.bytes (slotBase c 0) 1024) left fun _ => erased

theorem slotBase_zero (c : Fin 4) : slotBase c 0 = c.val * 1024 := by simp [slotBase]

theorem State.sectorCells_length : (s.sectorCells c left).length = 1024 := by
  rw [State.sectorCells, erasedCells_length, Memory.bytes_length]

theorem State.sectorCells_getD {i : Nat} (hi : i < 1024) :
    (s.sectorCells c left).getD i 0 = s.hs.area.read (c.val * 1024 + i) ||| left.getD i 0xFF := by
  rw [State.sectorCells, erasedCells_getD (by rwa [Memory.bytes_length]), Memory.bytes_getD _ _ hi, slotBase_zero, erased]

theorem History.afterErase_area (hwf : s.hs.area.wf = true) : (s.hs.afterErase c left).area.wf = true ∧
    (∀ i, i < 1024 → (s.hs.afterErase c left).area.read (c.val * 1024 + i) =
      s.hs.area.read (c.val * 1024 + i) ||| left.getD i 0xFF) ∧
    ∀ a, a < c.val * 1024 ∨ c.val * 1024 + 1024 ≤ a → (s.hs.afterErase c left).area.read a = s.hs.area.read a := by
  have harea : (s.hs.afterErase c left).area = s.hs.area.writeBytes (slotBase c 0) (s.sectorCells c left) := by
    simp only [History.afterErase, State.sectorCells]
  have hlen := s.sectorCells_length (c := c) (left := left)
  have hcell (i : Nat) (hi : i < 1024) := s.sectorCells_getD (c := c) (left := left) hi
  have hfits := sectorBase_le c
  rw [harea]
  generalize s.sectorCells c left = cells at hlen hcell ⊢
  rw [← hlen] at hfits
  refine ⟨Memory.writeBytes_wf hwf hfits, fun i hi => ?_, fun a ha => ?_⟩
  · rw [← hcell i hi, Memory.read_writeBytes hwf hfits, hlen, slotBase_zero, if_pos (by omega), Nat.add_sub_cancel_left]
    exact getD_default (by rwa [hlen]) _ _
  · rw [Memory.read_writeBytes hwf hfits, hlen, slotBase_zero, if_neg (by omega)]

theorem sectorErased_iff : (s.sectorCells c left).all (· == erased) = true ↔
    ∀ i, i < 1024 → s.hs.area.read (c.val * 1024 + i) ||| left.getD i 0xFF = 0xFF := by
  have hlen := s.sectorCells_length (c := c) (left := left)
  have hcell (i : Nat) (hi : i < 1024) := s.sectorCells_getD (c := c) (left := left) hi
  simp only [List.all_eq_true, beq_iff_eq]
  generalize s.sectorCells c left = cells at hlen hcell ⊢
  constructor
  · intro hall i hi
    rw [← hcell i hi, List.getD_eq_getElem _ _ (by omega)]
    exact hall _ (List.getElem_mem _)
  · intro hall x hx
    obtain ⟨i, hi, rfl⟩ := List.mem_iff_getElem.mp hx
    rw [← List.getD_eq_getElem _ 0 hi, hcell i (by omega)]
    exact hall i (by omega)

theorem State.endErase_noted : let h := s.hs.afterErase c left
    let clean : History := { h with sector := c, nextSlot := 0, needsErase := h.needsErase.filter (· ≠ c) }
    let worn : History := { h with unusable := c :: h.unusable.filter (· ≠ c) }
    ((s.sectorCells c left).all (· == erased) = true →
      Noted (clean.flying r retry).1 (clean.flying r retry).2 s (s.endErase r retry c left)) ∧
    (¬(s.sectorCells c left).all (· == erased) = true →
      Noted (worn.flying r retry).1 (1 + (worn.flying r retry).2) s (s.endErase r retry c left)) := by
  intro h clean worn
  have folded : s.endErase r retry c left = if (s.sectorCells c left).all (· == erased) = true then
        State.placeNext { s with hs := clean } r retry
      else (State.notice { s with hs := worn } .historyFault).placeNext r retry := rfl
  rw [folded]
  refine ⟨fun hok => ?_, fun hbad => ?_⟩
  · rw [if_pos hok]
    simpa using (Noted.start s clean).placeNext r retry
  · rw [if_neg hbad]
    exact (Noted.start s worn).notice.placeNext r retry

theorem exec_eraseEnd {ticks : Nat} (hs : s.held = .nothing) (hop : s.hs.op = .erase r retry c ticks)
    (ht : 5625000 ≤ ticks) : exec (.eraseEnd left) s = .next (s.endErase r retry c left) := by
  refine (next_of_running rfl hs).trans (congrArg Host.Outcome.next ?_)
  simp only [hop]
  exact if_pos ht

theorem exec_eraseEnd_early {ticks : Nat} (hop : s.hs.op = .erase r retry c ticks) (ht : ticks < 5625000) :
    exec (.eraseEnd left) s = .next s := by
  refine next_of_eq rfl ?_
  simp only [hop]
  exact if_neg (Nat.not_le.mpr ht)

end

end Sys2Proof.Machine
end

section
/-! SUPPORT. The start scan, and O56. -/

namespace Sys2Proof.Machine

/-! ### The start scan (R167) -/

theorem bestSeed_none {l : List Seed} (h : bestSeed l = none) : l = [] := by
  cases l with
  | nil => rfl
  | cons x xs =>
    rw [bestSeed] at h
    split at h
    · split at h <;> cases h
    · cases h

section
variable {h : History} {x : Seed}

theorem History.parse_of_found (hx : x ∈ h.found) : parseRecord (h.slotBytes x.sector x.slot.val) = some x.record := by
  simp only [History.found, sectors, slotNumbers, List.mem_flatMap, List.mem_finRange, true_and, List.mem_filterMap,
    Option.map_eq_some_iff] at hx
  obtain ⟨c, k, r, hr, rfl⟩ := hx
  exact hr

theorem History.halfErased_iff (c : Fin 4) : h.halfErased c = true ↔ ∃ i j, i < j ∧ j < 32 ∧
    slotState (h.slotBytes c i) = .erased ∧ slotState (h.slotBytes c j) ≠ .erased := by
  have slotAt (i : Nat) (hi : i < 32) : (slotNumbers.map fun k => slotState (h.slotBytes c k.val))[i]? =
      some (slotState (h.slotBytes c i)) := by
    simp [slotNumbers, hi]
  have hlen : (slotNumbers.map fun k => slotState (h.slotBytes c k.val)).length = 32 := by simp [slotNumbers]
  rw [History.halfErased, brokenOrder_iff, hlen]
  constructor
  · rintro ⟨i, j, hij, hj, hi, y, hy, hne⟩
    rw [slotAt i (by omega), Option.some.injEq] at hi
    rw [slotAt j hj, Option.some.injEq] at hy
    exact ⟨i, j, hij, hj, hi, hy ▸ hne⟩
  · rintro ⟨i, j, hij, hj, hi, hne⟩
    exact ⟨i, j, hij, hj, by rw [slotAt i (by omega), hi], _, slotAt j hj, hne⟩

theorem History.scanned_none (hb : bestSeed h.found = none) : h.scanned = { h with
    scanning := false, needsErase := sectors.filter fun c => h.halfErased c
    seed := none, lastSeq := 0, sector := 3, nextSlot := 32 } := by
  rw [History.scanned, hb]

theorem History.scanned_some (hb : bestSeed h.found = some x) : h.scanned = { h with
    scanning := false, needsErase := sectors.filter fun c => h.halfErased c
    seed := some x, lastSeq := x.record.seq, sector := x.sector, nextSlot := x.slot.val + 1 } := by
  rw [History.scanned, hb]

theorem History.scanned_seed : h.scanned.seed = bestSeed h.found := by
  cases hb : bestSeed h.found with
  | none => rw [History.scanned_none hb]
  | some x => rw [History.scanned_some hb]

theorem History.scanned_fixed : h.scanned.scanning = false ∧ h.scanned.area = h.area ∧
    h.scanned.needsErase = sectors.filter fun c => h.halfErased c := by
  cases hb : bestSeed h.found with
  | none => rw [History.scanned_none hb]; exact ⟨rfl, rfl, rfl⟩
  | some x => rw [History.scanned_some hb]; exact ⟨rfl, rfl, rfl⟩

/-- The seed is a valid record of the area. -/
theorem History.parse_of_seed (hx : h.scanned.seed = some x) :
    parseRecord (h.slotBytes x.sector x.slot.val) = some x.record := by
  obtain ⟨a, b, hsplit, -, -⟩ := bestSeed_split _ x (History.scanned_seed.symm.trans hx)
  exact History.parse_of_found (by simp [hsplit])

/-- No valid record goes before the seed. -/
theorem History.seed_best (hx : h.scanned.seed = some x) {c : Fin 4} {k : Fin 32} {r : HistRecord}
    (hr : parseRecord (h.slotBytes c k.val) = some r) : r.seq < x.record.seq ∨
      r.seq = x.record.seq ∧ c.val * 32 + k.val ≤ x.sector.val * 32 + x.slot.val := by
  obtain ⟨a, b, hsplit, hbefore, hafter⟩ := bestSeed_split _ x (History.scanned_seed.symm.trans hx)
  have hsorted := h.found_sorted
  have hmem := h.mem_found hr
  rw [hsplit] at hsorted hmem
  obtain hmem | hmem := List.mem_append.mp hmem
  · have hplace : c.val * 32 + k.val < x.sector.val * 32 + x.slot.val :=
      (List.pairwise_append.mp hsorted).2.2 _ hmem x (by simp)
    have hseq : r.seq ≤ x.record.seq := hbefore _ hmem
    omega
  · obtain rfl | hmem := List.mem_cons.mp hmem
    · exact .inr ⟨rfl, Nat.le_refl _⟩
    · exact .inl (hafter _ hmem)

end

/-- The station when the start scan is complete. -/
def State.scanComplete (s : State) : State :=
  let h := s.hs.scanned
  let f := if s.du.fSet = true then s.du.f else clampInt (-100000000) 100000000 ((h.seed.map fun x => x.record.fNew).getD 0)
  let fInt := if s.du.fSet = true then s.du.fInt else f
  { s with hs := h, du := { s.du with f := f, fInt := fInt }, tb := { s.tb with increment := incrementOf f } }

section
variable {s : State}

theorem exec_startScanComplete (hs : s.held = .nothing) (hscan : s.hs.scanning = true) :
    exec .startScanComplete s = .next s.scanComplete := next_of_due rfl hs hscan

theorem State.scanComplete_set (hset : s.du.fSet = true) : s.scanComplete.du = s.du := by
  simp only [State.scanComplete, if_pos hset]

theorem State.scanComplete_unset (hset : s.du.fSet = false) : s.scanComplete.du = { s.du with
    f := clampInt (-100000000) 100000000 ((s.scanComplete.hs.seed.map fun x => x.record.fNew).getD 0)
    fInt := clampInt (-100000000) 100000000 ((s.scanComplete.hs.seed.map fun x => x.record.fNew).getD 0) } := by
  simp only [State.scanComplete, hset, Bool.false_eq_true, if_false]

/-- The start-up F (R130). -/
theorem State.scanComplete_f (hset : s.du.fSet = false) : s.scanComplete.du.f = s.scanComplete.du.fInt ∧
    (s.scanComplete.hs.seed = none → s.scanComplete.du.f = 0) ∧
    ∀ x, s.scanComplete.hs.seed = some x → inF x.record.fNew ∧ s.scanComplete.du.f = x.record.fNew := by
  rw [State.scanComplete_unset hset]
  refine ⟨rfl, fun hnone => ?_, fun x hx => ?_⟩
  · rw [hnone]
    rfl
  · have hwf := ((parseRecord_iff (s.hs.slotBytes_length _ _)).mp (History.parse_of_seed hx)).2.1
    obtain ⟨hlo, hhi⟩ := hwf.fNew
    refine ⟨⟨hlo, hhi⟩, ?_⟩
    rw [hx]
    simp only [Option.map_some, Option.getD_some, clampInt]
    omega

end

/-- The lists of cells in the two forms the statement and `programmed_eq` give them. -/
theorem programmed_cells (h : History) (c : Fin 4) (k : Fin 32) (r : HistRecord) (left : List Byte) :
    let old := fun i => h.area.read (c.val * 1024 + k.val * 32 + i)
    let cell := fun i => old i &&& left.getD i (r.slot.getD i 0)
    programmed (h.slotBytes c k.val) r left =
      (List.range 31).map cell ++ [if (List.range 18).map cell = r.slot.take 18 then cell 31 else old 31] := by
  intro old cell
  have hold (i : Nat) (hi : i < 32) : (h.slotBytes c k.val).getD i 0 = old i := h.slotBytes_getD c k.val hi
  have hcells (n : Nat) (hn : n ≤ 32) : (List.range n).map
      (fun i => (h.slotBytes c k.val).getD i 0 &&& left.getD i (r.slot.getD i 0)) = (List.range n).map cell := by
    refine List.map_congr_left fun i hi => ?_
    have hlt := List.mem_range.mp hi
    simp only [cell, hold i (by omega)]
  have heq := programmed_eq (h.slotBytes_length c k.val) r left
  dsimp only at heq
  rw [heq, hcells 31 (by decide), hcells 18 (by decide), hold 31 (by decide)]

/-- Settles O56: each end leaves its slot or sector, and then the record in flight or the pending append goes on; what the scan
sets follows the seed. -/
theorem recordOperationsEnd : Obligations.RecordOperationsEnd := by
  intro s hs hwf place idle flies leads
  have hplace : place = History.placing := by
    funext h r retry
    obtain ⟨k, hk, hp⟩ | ⟨c, hk, hc, hp⟩ | ⟨hk, hc, hp⟩ := h.place_cases r retry
    · simp [place, History.placing, hp, hk]
    · simp [place, History.placing, hp, hk, hc]
    · simp [place, History.placing, hp, hk, hc]
  have hidle : idle = History.starting := by
    funext h
    simp only [idle, hplace, History.starting]
    cases h.waiting with
    | some r => rfl
    | none => rfl
  have hflies : flies = History.flying := by
    funext h r retry
    simp only [flies, hplace, hidle]
    rfl
  have lead {c : Instr} {faults : Nat} {p : History × Nat} {t : State} (he : exec c s = .next t)
      (hn : Noted p.1 (faults + p.2) s t) : leads c faults p := ⟨t, he, hn.state, hn.quiet, hn.others, hn.record⟩
  rw [hidle, hflies]
  refine ⟨fun r retry c k ticks left hop ht => ?program, fun r retry c ticks left hop ht => ?erase,
    fun r retry c k ticks left hop ht => exec_programEnd_early hop ht,
    fun r retry c ticks left hop ht => exec_eraseEnd_early hop ht, fun hscan => ?scan⟩
  case program =>
    intro old cell marked bytes
    have hbytes : programmed (s.hs.slotBytes c k.val) r left = bytes := programmed_cells s.hs c k r left
    have he := exec_programEnd (left := left) hs hop ht
    obtain ⟨hareaWf, hread, hother⟩ := History.afterProgram_area (r := r) (c := c) (k := k) (left := left) hwf
    obtain ⟨hok, hretry, hlost⟩ := State.endProgram_noted (s := s) (r := r) (retry := retry) (c := c) (k := k) (left := left)
    obtain ⟨area, heq⟩ : ∃ area, s.hs.afterProgram r c k left =
        { s.hs with area := area, nextSlot := k.val + 1, op := .idle } := ⟨_, rfl⟩
    rw [hbytes] at hread hok hretry hlost
    rw [heq] at hareaWf hread hother hok hretry hlost
    exact ⟨area, hareaWf, hread, hother, fun h => lead he (by simpa using hok h), fun h hr => lead he (hretry h hr),
      fun h hr => lead he (hlost h hr)⟩
  case erase =>
    intro cell
    have he := exec_eraseEnd (left := left) hs hop ht
    obtain ⟨hareaWf, hread, hother⟩ := History.afterErase_area (c := c) (left := left) hwf
    obtain ⟨hok, hworn⟩ := State.endErase_noted (s := s) (r := r) (retry := retry) (c := c) (left := left)
    obtain ⟨area, heq⟩ : ∃ area, s.hs.afterErase c left = { s.hs with area := area, op := .idle } := ⟨_, rfl⟩
    rw [sectorErased_iff] at hok hworn
    rw [heq] at hareaWf hread hother hok hworn
    exact ⟨area, hareaWf, hread, hother, fun h => lead he (by simpa using hok h),
      fun i hi hne => lead he (hworn fun hall => hne (hall i hi))⟩
  case scan =>
    obtain ⟨hdone, harea, hmarks⟩ := s.hs.scanned_fixed
    refine ⟨s.scanComplete, exec_startScanComplete hs hscan, hdone, harea, rfl, rfl, rfl, fun c => ?_, State.scanComplete_set,
      State.scanComplete_f, fun x hx => ?_, fun hnone => ?_⟩
    · rw [← History.halfErased_iff]
      show c ∈ s.hs.scanned.needsErase ↔ _
      simp [hmarks, sectors]
    · have hb := s.hs.scanned_seed.symm.trans hx
      have hscanned := s.hs.scanned_some hb
      exact ⟨congrArg History.lastSeq hscanned, congrArg History.sector hscanned, congrArg History.nextSlot hscanned,
        History.parse_of_seed hx, fun c k r hr => History.seed_best hx hr⟩
    · have hb := s.hs.scanned_seed.symm.trans hnone
      have hscanned := s.hs.scanned_none hb
      refine ⟨congrArg History.lastSeq hscanned, congrArg History.sector hscanned, congrArg History.nextSlot hscanned,
        fun c k => ?_⟩
      cases hr : parseRecord (s.hs.slotBytes c k.val) with
      | none => rfl
      | some r =>
        have hmem := s.hs.mem_found hr
        rw [bestSeed_none hb] at hmem
        cases hmem

end Sys2Proof.Machine
end

section
/-! SUPPORT. The records the host reads, byte by byte (11.5, R219). -/

namespace Sys2Proof.Machine

/-! ### Codes and flags -/

theorem EntryState.code_eq_idxOf (x : EntryState) :
    x.code = [EntryState.new, .valid, .suspect, .stale, .lockedOut].idxOf x := by cases x <;> rfl

theorem Class.code_eq_idxOf (x : Machine.Class) : x.code = [Machine.Class.standing, .urgent, .notice].idxOf x := by cases x <;> rfl

theorem AlarmState.code_eq_idxOf (x : AlarmState) :
    x.code = [AlarmState.clear, .active, .acked, .clearedUnacked].idxOf x := by cases x <;> rfl

theorem SlopeSource.code_eq_idxOf (x : SlopeSource) : x.code = [SlopeSource.none, .ring, .seed].idxOf x := by cases x <;> rfl

theorem kindCode_eq_idxOf (k : Kind) : kindCode k = kinds.idxOf k := by cases k <;> rfl

theorem packBits_four : ∀ a b c d : Bool, packBits [a, b, c, d] =
    (if a then 1 else 0) + (if b then 2 else 0) + (if c then 4 else 0) + (if d then 8 else 0) := by decide

theorem packBits_six : ∀ a b c d e f : Bool, packBits [a, b, c, d, e, f] =
    (if a then 1 else 0) + (if b then 2 else 0) + (if c then 4 else 0) + (if d then 8 else 0) + (if e then 16 else 0) +
      (if f then 32 else 0) := by decide

theorem CfgStatus.code_eq (x : CfgStatus) :
    BitVec.ofNat 8 x.code = if x = .good then 0 else if x = .adjusted then 1 else 2 := by cases x <;> rfl

/-! ### The peer record (R86) -/

section
variable {s : State} {slot : Nat} {e : Entry}

/-- The peer record, its fields one after the other. -/
theorem State.peerRecord_eq {x y z : Nat} (h : e.adv.sources = [x, y, z]) : s.peerRecord slot e =
    [BitVec.ofNat 8 slot, BitVec.ofNat 8 e.addr, BitVec.ofNat 8 e.state.code, e.lastSeq] ++ (be 6 e.heard.sec ++
      (be 4 e.heard.ns ++ (be 2 e.silence ++ ([BitVec.ofNat 8 (flagBits e.adv), BitVec.ofNat 8 e.adv.state.code,
      tracRankByte e.adv.trac e.adv.rank] ++ (be 2 e.adv.bound ++ ([summaryByte e.adv.urgent e.adv.standing] ++
      ([BitVec.ofNat 8 x, BitVec.ofNat 8 y, BitVec.ofNat 8 z] ++ ([BitVec.ofNat 8 e.missed, BitVec.ofNat 8 e.received,
      BitVec.ofNat 8 e.ring.length, BitVec.ofNat 8 e.disagree, BitVec.ofNat 8 e.agree, flagByte e.contributor] ++
      (be 6 e.weight ++ (be 2 e.unmatched ++ (be 2 e.faults ++ (be 2 e.drops ++ (be 2 s.pt.admissions ++
      be 2 s.pt.refusals))))))))))))) := by
  simp only [State.peerRecord, secNsBytes, h, List.append_assoc, List.map_cons, List.map_nil]

theorem State.peerRecord_length (h : e.adv.sources.length = 3) : (s.peerRecord slot e).length = 47 := by
  obtain ⟨x, y, z, hsources⟩ := List.length_eq_three.mp h
  rw [State.peerRecord_eq hsources]
  rfl

/-! ### The alarm record (R205) -/

theorem State.alarmRecordBytes_eq (s : State) (k : Kind) : s.alarmRecordBytes k =
    [BitVec.ofNat 8 (kindCode k), BitVec.ofNat 8 (s.mp.params.classes.get k).code,
      BitVec.ofNat 8 (s.au.records.get k).effective.code, flagByte (s.au.records.get k).condition,
      BitVec.ofNat 8 (s.au.records.get k).state.code] ++ (be 2 (s.au.records.get k).raises ++
      ([flagByte (s.au.records.get k).first.isSome] ++ (be 6 ((s.au.records.get k).first.getD ⟨0, 0⟩).sec ++
      (be 4 ((s.au.records.get k).first.getD ⟨0, 0⟩).ns ++ (be 6 (s.au.records.get k).changed.sec ++
      (be 4 (s.au.records.get k).changed.ns ++
      [BitVec.ofNat 8 (packBits [s.mp.params.gatingSet.get k, s.au.attn, s.au.alarmU, s.au.alarmS])])))))) := by
  simp only [State.alarmRecordBytes, State.classOf, secNsBytes, List.append_assoc]

/-! ### The history summary and a slot as read (R168, R219) -/

/-- The seed's part of the summary. -/
def seedBytes (seed : Option Seed) : List Byte :=
  seed.elim (List.replicate 5 0) fun x => [BitVec.ofNat 8 x.sector.val, BitVec.ofNat 8 x.slot.val] ++ be 3 x.record.seq

theorem History.summary_eq (h : History) : h.summary =
    [BitVec.ofNat 8 h.ring.length, flagByte h.valid] ++ (beInt 4 h.derive.fNew ++ (beInt 2 h.derive.slope ++
      ([BitVec.ofNat 8 h.derive.source.code, flagByte h.seed.isSome] ++ seedBytes h.seed))) := by
  rw [History.summary]
  cases h.seed with
  | none => simp only [List.append_assoc]; rfl
  | some x => simp only [List.append_assoc]; rfl

theorem History.summary_length (h : History) : h.summary.length = 15 := by
  rw [h.summary_eq]
  cases h.seed <;> rfl

theorem History.readSlot_idle {h : History} (hop : h.op = .idle) (c : Fin 4) (k : Fin 32) :
    h.readSlot c k = h.slotBytes c k.val := by
  rw [History.readSlot, hop]
  rfl

theorem History.readSlot_program {h : History} {r : HistRecord} {retry : Bool} {c' : Fin 4} {k' : Fin 32} {n : Nat}
    (hop : h.op = .program r retry c' k' n) (c : Fin 4) (k : Fin 32) :
    h.readSlot c k = if c' = c ∧ k' = k then List.replicate 32 erased else h.slotBytes c k.val := by
  rw [History.readSlot, hop]
  simp only [Bool.and_eq_true, beq_iff_eq]

theorem History.readSlot_erase {h : History} {r : HistRecord} {retry : Bool} {c' : Fin 4} {n : Nat}
    (hop : h.op = .erase r retry c' n) (c : Fin 4) (k : Fin 32) :
    h.readSlot c k = if c' = c then List.replicate 32 erased else h.slotBytes c k.val := by
  rw [History.readSlot, hop]
  simp only [beq_iff_eq]

theorem slotState_blank : slotState (List.replicate 32 0xFF) = .erased := rfl

theorem parseRecord_blank : parseRecord (List.replicate 32 0xFF) = none := by
  cases hr : parseRecord (List.replicate 32 0xFF) with
  | none => rfl
  | some r =>
    have hstate := (parseRecord_iff_checked.mp hr).1.1
    rw [slotState_blank] at hstate
    cases hstate

end

end Sys2Proof.Machine
end

section
/-! SUPPORT. The answers of the four reads (R86, R168, R205, R218, R219). -/

namespace Sys2Proof.Machine

section
variable {s : State}

theorem flagByte_eq (b : Bool) : flagByte b = if b then 1 else 0 := rfl

theorem Reply.ok_frame_eq (data : List Byte) (code : Byte) :
    (Reply.ok data).frame code = [1, code, BitVec.ofNat 8 data.length] ++ data := rfl

/-! ### READ_STATUS (R218) -/

/-- READ_STATUS is carried out with FAULT too (R210). -/
theorem exec_readStatus (hs : s.held = .nothing) (hload : s.mp.status ≠ .notLoaded) :
    exec (.readStatus false []) s = .next ((s.sentNothing 1).answer 1 (.ok s.statusRecord)) := by
  refine (next_of_running rfl hs).trans (congrArg Host.Outcome.next ?_)
  have hdeaf : s.deaf false = false := by simp [State.deaf, hload]
  have folded : s.perform false 1 0 [] (fun u => (u, .ok u.statusRecord)) =
      if s.deaf false = true then s.sentNothing 1
      else if s.mp.status = .fault ∧ (1 : Byte) ≠ 1 then (s.sentNothing 1).answer 1 .refused
      else (s.sentNothing 1).answer 1 (.ok s.statusRecord) := rfl
  rw [hdeaf, if_neg (by decide), if_neg (fun h => h.2 rfl)] at folded
  exact folded

theorem State.statusRecord_length (h : s.du.pub.sources.length = 3) : s.statusRecord.length = 38 := by
  simp [State.statusRecord, secNsBytes, h]

theorem State.statusRecord_eq (s : State) : s.statusRecord =
    [if s.mp.cause = .pin then 1 else 0, BitVec.ofNat 8 s.mp.restarts,
      if s.mp.status = .good then 0 else if s.mp.status = .adjusted then 1 else 2,
      BitVec.ofNat 8 ((if s.hs.seed.isSome then 1 else 0) + (if s.du.pub.holdReq then 2 else 0) +
        (if s.ou.txok then 4 else 0) + (if s.du.pub.localRef then 8 else 0) + (if s.au.alarmU then 16 else 0) +
        (if s.au.alarmS then 32 else 0)),
      BitVec.ofNat 8 s.du.pub.state.code, BitVec.ofNat 8 (s.du.pub.rank * 16 + s.du.pub.trac.code)] ++
    be 2 s.du.pub.bound ++ beInt 4 s.du.f ++ beInt 4 s.du.fInt ++
    beInt 4 (max (-2147483648) (min 2147483647 s.du.lastX)) ++ [BitVec.ofNat 8 s.du.contributors] ++
    s.du.pub.sources.map (BitVec.ofNat 8) ++ be 4 s.du.elapsed ++ be 6 s.tb.counter.sec ++ be 4 s.tb.counter.ns := by
  rw [← CfgStatus.code_eq, ← packBits_six]
  simp only [State.statusRecord, secNsBytes, clampInt, tracRankByte, State.now, List.append_assoc]

/-! ### READ_PEER (R86) -/

theorem State.peerAnswer_some {i : Nat} {e : Entry} (he : s.pt.at i = some e) : s.peerAnswer i = .ok (s.peerRecord i e) := by
  simp only [State.peerAnswer, State.entryAt_eq, he]

theorem State.peerAnswer_none {i : Nat} (he : s.pt.at i = none) : s.peerAnswer i = .notFound := by
  simp only [State.peerAnswer, State.entryAt_eq, he]

theorem State.readPeer_slot (v : Nat) : s.readPeer 0 v = if v ≤ 23 then s.peerAnswer v else .badArgument := rfl

theorem State.readPeer_address (v : Nat) : s.readPeer 1 v =
    if 1 ≤ v ∧ v ≤ 250 then (s.pt.slotOf v).elim .notFound s.peerAnswer else .badArgument := by
  have folded : s.readPeer 1 v = if validAddress v = true then
      (match s.pt.slotOf v with
      | some i => s.peerAnswer i
      | none => .notFound) else .badArgument := rfl
  rw [folded]
  simp only [validAddress_iff]
  cases s.pt.slotOf v <;> rfl

theorem State.readPeer_other {n : Nat} (h0 : n ≠ 0) (h1 : n ≠ 1) (v : Nat) : s.readPeer n v = .badArgument := by
  match n, h0, h1 with
  | n + 2, _, _ => rfl

/-! ### READ_HISTORY (R168, R219) -/

theorem State.readHistory_ring (v w : Nat) : s.readHistory 0 v w =
    if v ≤ 63 then (s.hs.ringAnswer v).elim .notFound .ok else .badArgument := by
  have folded : s.readHistory 0 v w = if v ≤ 63 then
      (match s.hs.ringAnswer v with
      | some bytes => .ok bytes
      | none => .notFound) else .badArgument := rfl
  rw [folded]
  cases s.hs.ringAnswer v <;> rfl

theorem State.readHistory_slot {v w : Nat} (hv : v < 4) (hw : w < 32) :
    s.readHistory 1 v w = .ok (s.hs.slotAnswer ⟨v, hv⟩ ⟨w, hw⟩) := by
  have folded : s.readHistory 1 v w = if hc : v < 4 then
      (if hk : w < 32 then .ok (s.hs.slotAnswer ⟨v, hc⟩ ⟨w, hk⟩) else .badArgument) else .badArgument := rfl
  rw [folded, dif_pos hv, dif_pos hw]

theorem State.readHistory_noSlot {v w : Nat} (h : ¬(v < 4 ∧ w < 32)) : s.readHistory 1 v w = .badArgument := by
  have folded : s.readHistory 1 v w = if hc : v < 4 then
      (if hk : w < 32 then .ok (s.hs.slotAnswer ⟨v, hc⟩ ⟨w, hk⟩) else .badArgument) else .badArgument := rfl
  rw [folded]
  split
  next hv => exact dif_neg fun hw => h ⟨hv, hw⟩
  next => rfl

theorem State.readHistory_other {n : Nat} (h0 : n ≠ 0) (h1 : n ≠ 1) (v w : Nat) : s.readHistory n v w = .badArgument := by
  match n, h0, h1 with
  | n + 2, _, _ => rfl

theorem History.ringAnswer_eq (h : History) (b : Byte) : h.ringAnswer b.toNat =
    h.ring.reverse[b.toNat]?.map fun m => [b] ++ beInt 4 m.mean ++ be 6 m.time ++ h.summary := by
  rw [History.ringAnswer, byte_ofNat_toNat]

theorem History.slotAnswer_frame (h : History) (c : Fin 4) (k : Fin 32) : let bytes := h.readSlot c k
    (Reply.ok (h.slotAnswer c k)).frame 11 = [1, 11, BitVec.ofNat 8 (2 + bytes.length + h.summary.length)] ++
      [BitVec.ofNat 8 (slotState bytes).code, if (parseRecord bytes).isSome then 1 else 0] ++ bytes ++ h.summary := by
  intro bytes
  have hanswer : h.slotAnswer c k = [BitVec.ofNat 8 (slotState bytes).code, if (parseRecord bytes).isSome then 1 else 0] ++
      bytes ++ h.summary := rfl
  rw [hanswer, Reply.ok_frame_eq]
  simp only [List.length_append, List.length_cons, List.length_nil, List.append_assoc, Nat.zero_add, Nat.reduceAdd,
    ← Nat.add_assoc]

/-- A code byte other than 0 and 1. -/
theorem byte_other {a : Byte} (h0 : a ≠ 0) (h1 : a ≠ 1) : a.toNat ≠ 0 ∧ a.toNat ≠ 1 :=
  ⟨fun h => h0 (BitVec.eq_of_toNat_eq h), fun h => h1 (BitVec.eq_of_toNat_eq h)⟩

/-- The frame READ_PEER answers with. -/
theorem State.readPeer_frame (s : State) (a b : Byte) : (s.readPeer a.toNat b.toNat).frame 2 =
    if a = 0 ∧ b.toNat ≤ 23 then
      (s.pt.at b.toNat).elim [4, 2, 0] fun e =>
        [1, 2, BitVec.ofNat 8 (s.peerRecord b.toNat e).length] ++ s.peerRecord b.toNat e
    else if a = 1 ∧ 1 ≤ b.toNat ∧ b.toNat ≤ 250 then
      (s.pt.slotOf b.toNat).elim [4, 2, 0] fun i => (s.pt.at i).elim [4, 2, 0] fun e =>
        [1, 2, BitVec.ofNat 8 (s.peerRecord i e).length] ++ s.peerRecord i e
    else [3, 2, 0] := by
  have answered (i : Nat) : (s.peerAnswer i).frame 2 = (s.pt.at i).elim [4, 2, 0] fun e =>
      [1, 2, BitVec.ofNat 8 (s.peerRecord i e).length] ++ s.peerRecord i e := by
    cases he : s.pt.at i with
    | none => rw [State.peerAnswer_none he]; rfl
    | some e => rw [State.peerAnswer_some he]; rfl
  by_cases h0 : a = 0
  · subst h0
    rw [show (0 : Byte).toNat = 0 from rfl, State.readPeer_slot]
    by_cases hb : b.toNat ≤ 23
    · rw [if_pos hb, if_pos ⟨rfl, hb⟩, answered]
    · rw [if_neg hb, if_neg (fun h => hb h.2), if_neg fun h => absurd h.1 (by decide)]
      rfl
  · rw [if_neg fun h => h0 h.1]
    by_cases h1 : a = 1
    · subst h1
      rw [show (1 : Byte).toNat = 1 from rfl, State.readPeer_address]
      by_cases hb : 1 ≤ b.toNat ∧ b.toNat ≤ 250
      · rw [if_pos hb, if_pos ⟨rfl, hb⟩]
        cases s.pt.slotOf b.toNat with
        | none => rfl
        | some i => exact answered i
      · rw [if_neg hb, if_neg fun h => hb h.2]
        rfl
    · obtain ⟨h0, h1'⟩ := byte_other h0 h1
      rw [if_neg fun h => h1 h.1, State.readPeer_other h0 h1']
      rfl

/-- The frame READ_HISTORY answers with. -/
theorem State.readHistory_frame (s : State) (a b c : Byte) : (s.readHistory a.toNat b.toNat c.toNat).frame 11 =
    if a = 0 ∧ b.toNat ≤ 63 then
      s.hs.ring.reverse[b.toNat]?.elim [4, 11, 0] fun m =>
        [1, 11, BitVec.ofNat 8 (11 + s.hs.summary.length)] ++ [b] ++ beInt 4 m.mean ++ be 6 m.time ++ s.hs.summary
    else if h : a = 1 ∧ b.toNat < 4 ∧ c.toNat < 32 then
      (Reply.ok (s.hs.slotAnswer ⟨b.toNat, h.2.1⟩ ⟨c.toNat, h.2.2⟩)).frame 11
    else [3, 11, 0] := by
  by_cases h0 : a = 0
  · subst h0
    rw [show (0 : Byte).toNat = 0 from rfl, State.readHistory_ring, History.ringAnswer_eq]
    by_cases hb : b.toNat ≤ 63
    · rw [if_pos hb, if_pos ⟨rfl, hb⟩]
      cases s.hs.ring.reverse[b.toNat]? with
      | none => rfl
      | some m =>
        rw [Option.map_some, Option.elim_some, Option.elim_some, Reply.ok_frame_eq]
        simp only [List.length_append, List.length_cons, List.length_nil, beInt_length, be_length, List.append_assoc,
          ← Nat.add_assoc, Nat.reduceAdd]
    · rw [if_neg hb, if_neg (fun h => hb h.2), dif_neg fun h => absurd h.1 (by decide)]
      rfl
  · rw [if_neg fun h => h0 h.1]
    by_cases h1 : a = 1
    · subst h1
      rw [show (1 : Byte).toNat = 1 from rfl]
      by_cases hb : b.toNat < 4 ∧ c.toNat < 32
      · rw [State.readHistory_slot hb.1 hb.2, dif_pos ⟨rfl, hb⟩]
      · rw [State.readHistory_noSlot hb, dif_neg fun h => hb h.2]
        rfl
    · obtain ⟨h0, h1'⟩ := byte_other h0 h1
      rw [dif_neg fun h => h1 h.1, State.readHistory_other h0 h1']
      rfl

end

/-- Settles O15: each read is carried out and answers its record, whose fields stand where 11.5 and R219 have them. -/
theorem readsAnswerTheirRecords : Obligations.ReadsAnswerTheirRecords := by
  refine ⟨fun s hs hload hsources => ?status, fun s a b c hs hloaded => ?answers, fun s slot e hsources => ?peer,
    fun s k => ?alarm, fun h => ?history⟩
  case status =>
    have hframe : (Reply.ok s.statusRecord).frame 1 = [1, 1, 38] ++ s.statusRecord := by
      rw [Reply.ok_frame_eq, State.statusRecord_length hsources]
      rfl
    rw [exec_readStatus hs hload, State.answer, hframe, s.statusRecord_eq]
    rfl
  case answers =>
    intro answered
    have carried {code : Byte} {args : List Byte} {r : Reply} {frame : List Byte} (hframe : r.frame code = frame) :
        Host.Outcome.next ((s.sentNothing (1 + args.length)).answer code r) = answered args.length frame := by
      rw [State.answer, hframe]
      rfl
    refine ⟨?readPeer, ?readAlarm, ?readHistory⟩
    case readPeer =>
      refine ((State.command_carried_out (code := 2) (len := 2) (args := [a, b]) hs hloaded rfl
        fun u => (u, u.readPeer a.toNat b.toNat)).trans (carried (args := [a, b]) (s.readPeer_frame a b))).trans
          (congrArg (answered 2) (ite_congr rfl (fun _ => ?_) fun _ => ite_congr rfl (fun _ => ?_) fun _ => rfl))
      · cases s.pt.at b.toNat <;> rfl
      · cases s.pt.slotOf b.toNat with
        | none => rfl
        | some i =>
          dsimp only [Option.elim_some]
          cases s.pt.at i <;> rfl
    case readAlarm =>
      refine ((State.command_carried_out (code := 3) (len := 1) (args := [a]) hs hloaded rfl _).trans
        (carried (args := [a]) rfl)).trans (congrArg (answered 1) ?_)
      show Reply.frame (match kindOfCode a.toNat with | some k => .ok (s.alarmRecordBytes k) | none => .badArgument) 3 = _
      cases kindOfCode a.toNat <;> rfl
    case readHistory =>
      refine ((State.command_carried_out (code := 11) (len := 3) (args := [a, b, c]) hs hloaded rfl
        fun u => (u, u.readHistory a.toNat b.toNat c.toNat)).trans (carried (args := [a, b, c]) (s.readHistory_frame a b c))).trans
          (congrArg (answered 3) (ite_congr rfl (fun _ => ?_) fun _ => dite_congr rfl (fun h => ?_) fun _ => rfl))
      · cases s.hs.ring.reverse[b.toNat]? <;> rfl
      · exact s.hs.slotAnswer_frame _ _
  case peer =>
    intro r f
    obtain ⟨x, y, z, hxyz⟩ := List.length_eq_three.mp hsources
    have hr : r = _ := State.peerRecord_eq hxyz
    refine ⟨State.peerRecord_length hsources, ?_⟩
    rw [← EntryState.code_eq_idxOf, ← DState.code_eq_idxOf, ← Trac.code_eq_idxOf, hxyz]
    simp only [f, hr]
    exact ⟨rfl, rfl, rfl, rfl, rfl, rfl, rfl, rfl, rfl, rfl, rfl, rfl, rfl, rfl, rfl⟩
  case alarm =>
    intro r bytes f cls
    have hbytes : bytes = _ := s.alarmRecordBytes_eq k
    simp only [cls]
    rw [← Class.code_eq_idxOf, ← Class.code_eq_idxOf, ← AlarmState.code_eq_idxOf, ← kindCode_eq_idxOf, ← packBits_four]
    simp only [f, hbytes]
    refine ⟨rfl, rfl, rfl, fun hnone => ?_, fun t ht => ?_, rfl, rfl, rfl⟩
    · have hfirst : (s.au.records.get k).first = none := hnone
      rw [hfirst]
      rfl
    · have hfirst : (s.au.records.get k).first = some t := ht
      rw [hfirst]
      rfl
  case history =>
    intro r f
    have hr : r = _ := h.summary_eq
    have hvalid : (if 8 ≤ h.ring.length ∨ h.seed.isSome = true then 1 else 0) = flagByte h.valid := by
      rw [flagByte_eq]
      simp only [h.valid_iff]
    refine ⟨h.summary_length, ?_, ?_, ?_, ?_, fun hnone => ?_, fun x hx => ?_, slotState_blank, parseRecord_blank,
      fun c k => ?slots⟩
    case slots =>
      intro stands
      exact ⟨fun hop => h.readSlot_idle hop c k, fun r retry c' k' n hop => History.readSlot_program hop c k,
        fun r retry c' n hop => History.readSlot_erase hop c k⟩
    · rw [hvalid]
      simp only [f, hr]
      rfl
    · simp only [f, hr]
      rfl
    · simp only [f, hr]
      rfl
    · rw [← SlopeSource.code_eq_idxOf]
      simp only [f, hr]
      rfl
    · simp only [f, hr, hnone]
      rfl
    · simp only [f, hr, hx]
      rfl

end Sys2Proof.Machine
end

section
/-! SUPPORT. Commands as the host gives them: from the levels of the wires to the command, and the order it is judged in (R210 to
R215). -/

namespace Sys2Proof.Machine

/-! ### The wires (R213, R214; logs 22, 55 and 56) -/

/-- The bits of a byte, most significant first. -/
def msbFirst (b : Byte) : List Bool :=
  [b.getLsbD 7, b.getLsbD 6, b.getLsbD 5, b.getLsbD 4, b.getLsbD 3, b.getLsbD 2, b.getLsbD 1, b.getLsbD 0]

theorem spiDataOut_eq (bytes : List Byte) : spiDataOut bytes = bytes.flatMap msbFirst := rfl

theorem spiBytes_msbFirst (bytes : List Byte) {tail : List Bool} (h : tail.length < 8) :
    spiBytes (bytes.flatMap msbFirst ++ tail) = bytes := by
  induction bytes with
  | nil => exact spiBytes_short h
  | cons b bytes ih =>
    rw [List.flatMap_cons, List.append_assoc]
    exact (spiBytes_cons b _).trans (by rw [ih])

theorem wireTransaction_clocked (early : Bool) (bytes : List Byte) {tail : List Bool} {rest : List SpiWires}
    (htail : tail.length < 8) (hrest : ∀ w ∈ rest, w.select = true) :
    wireTransaction early (((bytes.flatMap msbFirst ++ tail).flatMap fun b =>
      [(⟨false, false, b, true⟩ : SpiWires), ⟨false, true, b, true⟩]) ++ rest) = transaction early bytes := by
  rw [wireTransaction, spiCutShort_clocked _ hrest, if_neg (by decide), spiSampled_clocked _ hrest, spiBytes_msbFirst _ htail]

theorem wireTransaction_cutShort (early : Bool) {before : List SpiWires} {w : SpiWires}
    (h : ∀ v ∈ w :: before, v.select = false) (hr : w.reset = false) (after : List SpiWires) :
    wireTransaction early (before ++ w :: after) = none := by
  rw [wireTransaction, spiCutShort_low h hr, if_pos rfl]

theorem spiDataOutLevels_selected (clock : Bool) (bits : List Bool) {w : SpiWires} (h : w.select = false) (ws : List SpiWires) :
    spiDataOutLevels clock bits (w :: ws) =
      if w.reset = false then none :: ws.map fun _ => none
      else if clock = true ∧ w.clock = false then bits.tail.head? :: spiDataOutLevels false bits.tail ws
      else bits.head? :: spiDataOutLevels w.clock bits ws := by
  by_cases hr : w.reset = false
  · rw [if_pos hr, spiDataOutLevels_reset _ _ hr]
  · rw [if_neg hr, spiDataOutLevels]
    by_cases hfall : clock = true ∧ w.clock = false
    · simp [hfall.1, hfall.2, h, hr]
    · have hstands : (!w.select && clock && !w.clock) = false := by
        simpa [h] using hfall
      rw [if_neg hfall, hstands]
      simp [h, hr]

/-- Pulses on RESET are falls and rises, one after the other, and a low level that lasts a fall (R213). -/
theorem resetEdges_pulses (left : List Byte) (m : Nat) {widths : List (Nat × Nat)} (h : ∀ w ∈ widths, 0 < w.1 ∧ 0 < w.2) :
    resetEdges left true ((widths.flatMap fun w => List.replicate w.1 false ++ List.replicate w.2 true) ++
      List.replicate m false) =
      (widths.flatMap fun _ => [.falls left, .rises]) ++ if m = 0 then [] else [.falls left] := by
  induction widths with
  | nil =>
    cases m with
    | zero => rfl
    | succ m =>
      have hlow := resetEdges_low left (Nat.succ_pos m) []
      rw [List.append_nil] at hlow
      exact hlow
  | cons w ws ih =>
    obtain ⟨hlow, hhigh⟩ := h w (by simp)
    rw [List.flatMap_cons, List.append_assoc, List.append_assoc, resetEdges_low left hlow, resetEdges_high left hhigh,
      ih fun v hv => h v (by simp [hv])]
    rfl

/-! ### The command of a transaction (R214) -/

theorem transaction_above (early : Bool) {code : Byte} (h : 11 < code.toNat) (args : List Byte) :
    transaction early (code :: args) = some (.badCommand early code args) := by
  dsimp only [transaction]
  generalize code.toNat = n at h
  match n, h with
  | n + 12, _ => rfl

/-- The commands a transaction can pick by their codes, with the argument bytes each takes (R214, R215). -/
def hostCommands (early : Bool) (args : List Byte) : List (Instr × Byte × Nat) :=
  [(.readStatus early args, 1, 0), (.readPeer early args, 2, 2), (.readAlarm early args, 3, 1), (.ackAlarm early args, 4, 1),
   (.lockoutPeer early args, 5, 1), (.releasePeer early args, 6, 1), (.forceHold early args, 7, 0),
   (.releaseHold early args, 8, 0), (.setOffset early args, 9, 5), (.restart early args, 10, 0), (.readHistory early args, 11, 3)]

/-- Each is judged and carried out in one way. -/
theorem exec_hostCommand {s : State} {early : Bool} {args : List Byte} {c : Instr} {n : Byte} {len : Nat}
    (h : (c, n, len) ∈ hostCommands early args) : ∃ body, exec c s = s.command early n len args body := by
  simp only [hostCommands, List.mem_cons, Prod.mk.injEq, List.not_mem_nil, or_false] at h
  obtain ⟨rfl, rfl, rfl⟩ | ⟨rfl, rfl, rfl⟩ | ⟨rfl, rfl, rfl⟩ | ⟨rfl, rfl, rfl⟩ | ⟨rfl, rfl, rfl⟩ | ⟨rfl, rfl, rfl⟩ |
    ⟨rfl, rfl, rfl⟩ | ⟨rfl, rfl, rfl⟩ | ⟨rfl, rfl, rfl⟩ | ⟨rfl, rfl, rfl⟩ | ⟨rfl, rfl, rfl⟩ := h <;> exact ⟨_, rfl⟩

/-! ### The order in which a command is judged (R210, R214, R215) -/

section
variable {s : State} {early : Bool} {code : Byte} {len : Nat} {args : List Byte} {body : State → State × Reply}

theorem State.deaf_iff : s.deaf early = true ↔ early = true ∨ s.mp.status = .notLoaded := by simp [State.deaf]

theorem State.command_deaf (hs : s.held = .nothing) (hd : early = true ∨ s.mp.status = .notLoaded) :
    s.command early code len args body = .next (s.sentNothing (1 + args.length)) :=
  (next_of_running rfl hs).trans (congrArg Host.Outcome.next (if_pos (State.deaf_iff.mpr hd)))

theorem State.command_heard (hs : s.held = .nothing) (hd : s.mp.status ≠ .notLoaded) : s.command false code len args body =
    .next (if s.mp.status = .fault ∧ code ≠ 1 then s.answeredOnly (1 + args.length) 5 code
      else if args.length ≠ len then s.answeredOnly (1 + args.length) 3 code
      else (body (s.sentNothing (1 + args.length))).1.answer code (body (s.sentNothing (1 + args.length))).2) :=
  (next_of_running rfl hs).trans (congrArg Host.Outcome.next (if_neg fun h => (State.deaf_iff.mp h).elim (by decide) hd))

theorem State.command_refused (hs : s.held = .nothing) (hfault : s.mp.status = .fault) (hcode : code ≠ 1) :
    s.command false code len args body = .next (s.answeredOnly (1 + args.length) 5 code) := by
  rw [State.command_heard hs (by simp [hfault]), if_pos ⟨hfault, hcode⟩]

theorem State.command_badArgument (hs : s.held = .nothing) (hd : s.mp.status ≠ .notLoaded)
    (hcode : s.mp.status ≠ .fault ∨ code = 1) (hlen : args.length ≠ len) :
    s.command false code len args body = .next (s.answeredOnly (1 + args.length) 3 code) := by
  rw [State.command_heard hs hd, if_neg fun h => hcode.elim (fun hne => hne h.1) fun heq => h.2 heq, if_pos hlen]

theorem exec_badCommand_deaf (hs : s.held = .nothing) (hcode : 11 < code.toNat) (hd : early = true ∨ s.mp.status = .notLoaded) :
    exec (.badCommand early code args) s = .next (s.sentNothing (1 + args.length)) :=
  (next_of_due rfl hs (decide_eq_true hcode)).trans (congrArg Host.Outcome.next (if_pos (State.deaf_iff.mpr hd)))

theorem exec_badCommand (hs : s.held = .nothing) (hcode : 11 < code.toNat) (hd : s.mp.status ≠ .notLoaded) :
    exec (.badCommand false code args) s = .next (s.answeredOnly (1 + args.length) 2 code) :=
  (next_of_due rfl hs (decide_eq_true hcode)).trans
    (congrArg Host.Outcome.next (if_neg fun h => (State.deaf_iff.mp h).elim (by decide) hd))

end

/-- Settles O14: the wires give the bytes, the first byte the command, and the command is judged before its work. -/
theorem commandsJudgedInOrder : Obligations.CommandsJudgedInOrder := by
  refine ⟨fun early args => ⟨rfl, rfl, fun n c h => ?picked, fun code hcode => transaction_above early hcode args⟩,
    fun early bytes tail rest htail => ⟨wireTransaction_clocked early bytes htail, spiDataOut_eq bytes⟩,
    fun early before after w h hr => wireTransaction_cutShort early h hr after,
    fun clock bits w ws h => spiDataOutLevels_selected clock bits h ws, fun s ins hs hins => ?dataOut,
    fun left n m widths h => ?edges, fun s early code args hs hd => ?ignored, fun s code args hs hd => ?judged⟩
  case picked =>
    simp only [List.mem_cons, Prod.mk.injEq, List.not_mem_nil, or_false] at h
    obtain ⟨rfl, rfl⟩ | ⟨rfl, rfl⟩ | ⟨rfl, rfl⟩ | ⟨rfl, rfl⟩ | ⟨rfl, rfl⟩ | ⟨rfl, rfl⟩ | ⟨rfl, rfl⟩ | ⟨rfl, rfl⟩ | ⟨rfl, rfl⟩ |
      ⟨rfl, rfl⟩ | ⟨rfl, rfl⟩ := h <;> rfl
  case dataOut =>
    rw [State.dataOutLevels, if_pos hs]
    exact spiDataOutLevels_clocked _ ins (by rw [hins, spiDataOut_length])
  case edges =>
    rw [List.append_assoc, resetEdges_replicate]
    exact resetEdges_pulses left m h
  case ignored =>
    intro ignored c hc
    have hcases : (∃ n len, (c, n, len) ∈ hostCommands early args) ∨ (c = .badCommand early code args ∧ 11 < code.toNat) ∨
        c = .ackAll early ∧ args.length = 1 := by
      simpa [hostCommands, exists_or, or_assoc] using hc
    obtain ⟨n, len, hmem⟩ | ⟨rfl, hcode⟩ | ⟨rfl, hlen⟩ := hcases
    · obtain ⟨body, hexec⟩ := exec_hostCommand (s := s) hmem
      rw [hexec]
      exact State.command_deaf hs hd
    · exact exec_badCommand_deaf hs hcode hd
    · rw [hlen]
      exact State.command_deaf (args := [0xFF]) hs hd
  case judged =>
    refine ⟨fun hcode => exec_badCommand hs hcode hd, fun hfault => ?_, fun c n len hmem => ?_⟩
    · exact State.command_refused (args := [0xFF]) hs hfault (by decide)
    · obtain ⟨body, hexec⟩ := exec_hostCommand (s := s) (early := false) (args := args) hmem
      rw [hexec]
      exact ⟨fun hfault hn => State.command_refused hs hfault hn, fun hcode hlen => State.command_badArgument hs hd hcode hlen⟩

end Sys2Proof.Machine
end
